-- ==== Sys2Proof/Word.lean ====
section
/-! DEFINITION. The words of the OBRIVO 640: the widths the manual fixes, a page, a bank and a lane message. -/

namespace Sys2Proof

/-- A byte of a message header or tag word (R168). -/
abbrev Byte := BitVec 8

/-- One word of a message, the lane value of one lane word (R168). -/
abbrev Word16 := BitVec 16

/-- One word of a link frame (R147). -/
abbrev LinkWord := BitVec 24

/-- One 32-bit item of a page (00_scope section 5). -/
abbrev Slot := BitVec 32

/-- One page: 24 slots (01 opening). -/
abbrev Page := Vector Slot 24

/-- One bank: eleven pages (R118). -/
abbrev Bank := Vector Page 11

/-- The sixteen sample words of one frame, channel 0 first (R147). -/
abbrev Samples := Vector LinkWord 16

/-- A lane message: its kind and the words that follow the header; the length byte of the header is
the number of those words (R168). -/
structure Message where
  kind : Byte
  words : List Word16
  deriving DecidableEq, Repr

end Sys2Proof
end

