-- ==== Sys2Proof/Config.lean ====
section
/-! DEFINITION. What the manual fixes for the part, the request catalogue, and the one free value. -/

namespace Sys2Proof.Config

/-- The sync word of both links (R147). -/
def syncWord : LinkWord := 0x3A6C95

/-- The lane value of a fill word (R168). -/
def fillValue : Word16 := 0xFFFF

/-- Bits of one frame (R147). -/
def frameBits : Nat := 432

/-- Frames of one meter interval (R40). -/
def intervalFrames : Nat := 6000

/-- Intervals of a nominal minute (R27). -/
def minuteIntervals : Nat := 480

/-- The magnitude of digital full scale (R42). -/
def fullScale : Nat := 8388608

/-- Capacities of the queues and rings (R155, R173, R174, R177, R178, R61, R76). -/
def fifoCap : Nat := 4
def inboundCap : Nat := 8
def replyCap : Nat := 4
def alertCap : Nat := 8
def reportCap : Nat := 4
def historyCap : Nat := 80
def minuteRingCap : Nat := 14

/-- Word clock frames in one millisecond (R147: 48,000 frames per second). -/
def framesPerMs : Nat := 48

/-- The supply thresholds and the hysteresis of each, in millivolts (R193, 10 section 10.5). -/
def operatingThreshold : Nat := 3000
def retentionThreshold : Nat := 2700
def thresholdHysteresis : Nat := 40

/-- The levels at which a rise to each threshold is judged, in millivolts (R193). -/
def operatingRise : Nat := operatingThreshold + thresholdHysteresis
def retentionRise : Nat := retentionThreshold + thresholdHysteresis

/-- The nominal supply, in millivolts (10 section 10.5). -/
def nominalSupply : Nat := 3300

/-- The seven data words of IDENTIFY (R181). -/
def identity : List Nat := [640, 1, 16, 8, 6, 12, 11]

/-- The request kinds (R185). -/
def kIdentify : Byte := 0x01
def kStatus : Byte := 0x02
def kLinkStatus : Byte := 0x03
def kAlarmStatus : Byte := 0x04
def kClearAlarms : Byte := 0x05
def kTimeSet : Byte := 0x06
def kZoneStatus : Byte := 0x07
def kBoundaryStatus : Byte := 0x08
def kMuteZone : Byte := 0x09
def kUnmuteZone : Byte := 0x0A
def kClearTrip : Byte := 0x0B
def kRelock : Byte := 0x0C
def kRestart : Byte := 0x0D
def kReadPage : Byte := 0x10
def kStagePage : Byte := 0x11
def kWriteSlots : Byte := 0x12
def kCommitPage : Byte := 0x13
def kCopyWorking : Byte := 0x14
def kRecallRetained : Byte := 0x15
def kActivate : Byte := 0x16
def kCancelActivation : Byte := 0x17
def kRetain : Byte := 0x18
def kAbort : Byte := 0x19
def kMonitorReport : Byte := 0x20
/-- The kinds of the outbound messages (R168). -/
def kAlert : Byte := 0xE0
def kMinuteReport : Byte := 0xE1

/-- The catalogue: each request kind with the lengths it may have (R185). -/
def catalogue : List (Byte × List Nat) :=
  [(kIdentify, [1]), (kStatus, [1]), (kLinkStatus, [1]), (kAlarmStatus, [1]), (kClearAlarms, [4]),
   (kTimeSet, [3]), (kZoneStatus, [2]), (kBoundaryStatus, [3]), (kMuteZone, [2]), (kUnmuteZone, [2]),
   (kClearTrip, [2]), (kRelock, [1]), (kRestart, [1]), (kReadPage, [3]), (kStagePage, [3]),
   (kWriteSlots, [4, 6, 8, 10, 12, 14, 16, 18]), (kCommitPage, [1]), (kCopyWorking, [1]),
   (kRecallRetained, [1]), (kActivate, [1]), (kCancelActivation, [1]), (kRetain, [1]), (kAbort, [1]),
   (kMonitorReport, [5, 6])]

/-- The first header check of R175 that a message fails: 1 unknown kind, 2 wrong length, 3 a nonzero
high byte in the tag word; none when it passes all three. -/
def failedHeaderCheck (m : Message) : Option Nat :=
  match catalogue.find? (·.1 == m.kind) with
  | none => some 1
  | some (_, lengths) =>
    if !lengths.contains m.words.length then some 2
    else if ((m.words.headD 0) >>> 8) ≠ 0 then some 3
    else none

/-- FREE VALUE (R145, log 6). Whether the `stop`-th operation stopped before its end had already written
slot `slot` of page `page` of its destination. Nothing is known of it. -/
opaque slotWritten (stop page slot : Nat) : Bool

end Sys2Proof.Config
end

