-- ==== Sys2Proof/Syntax.lean ====
section
/-! DEFINITION. The commands of the part: one constructor for each row of spec/opcode_table.json. -/

namespace Sys2Proof

/-- The commands. A request carries its tag and its argument words in the order R185 names them; the other
rows are the events that the part's own blocks, its lines, its links and its supply bring about. -/
inductive Instr where
  /-- Request 01 (R181). -/
  | identify (tag : Byte)
  /-- Request 02 (R182). -/
  | status (tag : Byte)
  /-- Request 03 (R164). -/
  | linkStatus (tag : Byte)
  /-- Request 04 (R183). -/
  | alarmStatus (tag : Byte)
  /-- Request 05 with its three mask words (R184). -/
  | clearAlarms (tag : Byte) (mask1 mask2 mask3 : Word16)
  /-- Request 06 (R29). -/
  | timeSet (tag : Byte) (minute second : Word16)
  /-- Request 07 (R114). -/
  | zoneStatus (tag : Byte) (zone : Word16)
  /-- Request 08 (R89). -/
  | boundaryStatus (tag : Byte) (boundary selector : Word16)
  /-- Request 09 (R112). -/
  | muteZone (tag : Byte) (zone : Word16)
  /-- Request 0A (R113). -/
  | unmuteZone (tag : Byte) (zone : Word16)
  /-- Request 0B (R106). -/
  | clearTrip (tag : Byte) (zone : Word16)
  /-- Request 0C (R165). -/
  | relock (tag : Byte)
  /-- Request 0D (R197). -/
  | restart (tag : Byte)
  /-- Request 10 (R126). -/
  | readPage (tag : Byte) (bank page : Word16)
  /-- Request 11 (R127). -/
  | stagePage (tag : Byte) (bank page : Word16)
  /-- Request 12 (R128). -/
  | writeSlots (tag : Byte) (first : Word16) (values : List Slot)
  /-- Request 13 (R129). -/
  | commitPage (tag : Byte)
  /-- Request 14 (R131). -/
  | copyWorking (tag : Byte)
  /-- Request 15 (R132). -/
  | recallRetained (tag : Byte)
  /-- Request 16 (R133). -/
  | activate (tag : Byte)
  /-- Request 17 (R136). -/
  | cancelActivation (tag : Byte)
  /-- Request 18 (R141). -/
  | retain (tag : Byte)
  /-- Request 19 (R144). -/
  | abort (tag : Byte)
  /-- Kind 20 (R66, R191); `lf` is absent when the message has five following words. -/
  | monitorReport (tag : Byte) (id period flags full : Word16) (lf : Option Word16)
  /-- A message that fails a header check of R175, as it came. -/
  | badRequest (kind : Byte) (words : List Word16)
  /-- The end of COMMITTING (R130). -/
  | committingCompletion
  /-- The end of COPYING (R131). -/
  | copyingCompletion
  /-- The end of RECALLING (R132). -/
  | recallingCompletion
  /-- The end of CHECKING (R134). -/
  | checkingCompletion
  /-- The end of RETAINING (R142). -/
  | retainingCompletion
  /-- The taking of a pending activation at a minute boundary or step (R138). -/
  | swap
  /-- One period of the word clock (R157). -/
  | driveFrame
  /-- The end of a meter interval (R40). -/
  | intervalEnd
  /-- A LIVE monitor falls STALE (R64). -/
  | monitorStale (id : Nat)
  /-- A zone in HOLD enters FREE (R102). -/
  | enterFree (zone : Nat)
  /-- A zone trips (R105). -/
  | trip (zone : Nat)
  /-- The pending setting acts (R30). -/
  | timeSetAct
  /-- A minute boundary (R27). -/
  | minuteBoundary
  /-- The program line's level changes (R149). -/
  | lineTransition
  /-- 432 bit periods without a change of the line (R149). -/
  | carrierLost
  /-- Bits received in SEARCH, in the order they arrive (R150). -/
  | syncCandidate (bits : List Bool)
  /-- Bits received in CONFIRM, in the order they arrive (R151). -/
  | syncConfirm (bits : List Bool)
  /-- One program frame received in LOCKED: the word at the sync position, the samples, the lane word (R153). -/
  | frameTaken (sync : LinkWord) (samples : Samples) (lane : LinkWord)
  /-- The word received at a sync position, the fourth mismatch in a row (R154). -/
  | lockLost (sync : LinkWord)
  /-- VENUE STOP becomes asserted (R108). -/
  | venueStopAsserted
  /-- VENUE STOP becomes released (R109). -/
  | venueStopReleased
  /-- PLAN LOCK changes level (R199). -/
  | planLockChange
  /-- The supply falls below the operating threshold, to a level in millivolts; written bare, to just below it
  (R193, R194). -/
  | supplyLow (level : Nat := 2999)
  /-- The supply rises to a level in millivolts at or above the operating threshold; written bare, to the level at
  which a rise is judged (R193, R195). -/
  | supplyNormal (level : Nat := 3040)
  /-- The supply falls below the retention threshold, to a level in millivolts; written bare, to just below it
  (R193, R196). -/
  | supplyOff (level : Nat := 2699)
  /-- The supply rises to the retention threshold or above, to a level in millivolts (R193, R198). -/
  | powerReset (level : Nat)
  /-- The scheduled restart is performed, with the supply at a level in millivolts (R166, R193). -/
  | restartPerformed (level : Nat)
  deriving DecidableEq, Repr

end Sys2Proof
end

