-- ==== Sys2Proof/Machine/State.lean ====
section
/-! DEFINITION. The state of the part as plain data, block by block, and the state after reset. -/

namespace Sys2Proof.Machine

/-- Supply states (R193). -/
inductive SupplyState where
  | normal | low | off
  deriving DecidableEq, Repr

/-- Receiver states (08 section 8.2). -/
inductive ReceiverState where
  | noCarrier | search | confirm | locked
  deriving DecidableEq, Repr

/-- A partial message of the lane assembler (R169). -/
structure PartialMessage where
  header : Word16
  /-- The words collected so far, first word first. -/
  words : List Word16
  /-- How many words are still expected. -/
  expected : Nat
  damaged : Bool
  deriving DecidableEq, Repr

/-- The lane assembler (R169). -/
inductive Assembler where
  | idle
  | collecting (part : PartialMessage)
  | skip
  deriving DecidableEq, Repr

/-- The seven link flags (08 section 8.6). -/
structure LinkFlags where
  carrierLost : Bool
  lockLost : Bool
  fifoOverflow : Bool
  fifoUnderflow : Bool
  laneParity : Bool
  laneTruncated : Bool
  laneOverrun : Bool
  deriving DecidableEq, Repr

/-- No link flag set. -/
def LinkFlags.clear : LinkFlags := ⟨false, false, false, false, false, false, false⟩

/-- The link receiver (R148, R155, R169). -/
structure Lrx where
  receiver : ReceiverState
  mismatches : Nat
  /-- The last 24 bits received while searching, the newest in bit 0 (R150). -/
  window : LinkWord
  /-- How many bits of `window` have been received, at most 24. -/
  seen : Nat
  /-- While in CONFIRM, the bits received since the candidate position, oldest first (R151). -/
  kept : List Bool
  /-- The bit periods since the line last changed level, held at 432 (R148, R149). -/
  carrier : Nat
  lineLevel : Bool
  /-- The line has changed level in the bit period under way, which the carrier count then leaves out (R149). -/
  changed : Bool
  /-- The sample FIFO, oldest first (R155). -/
  fifo : List Samples
  flags : LinkFlags
  assembler : Assembler
  deriving DecidableEq, Repr

/-- Classes of outbound message (R179). -/
inductive OutClass where
  | reply | alert | report
  deriving DecidableEq, Repr

/-- A message in transmission: its words, header first, and the position of the next one (R161). -/
structure Transmission where
  words : List Word16
  position : Nat
  deriving DecidableEq, Repr

/-- The link transmitter (R156, R161, R179). -/
structure Ltx where
  primed : Bool
  sending : Option Transmission
  fillPending : Bool
  lastClass : OutClass
  deriving DecidableEq, Repr

/-- One frame of the drive link (R147). -/
structure DriveFrame where
  sync : LinkWord
  samples : Samples
  lane : LinkWord
  deriving DecidableEq, Repr

/-- Result codes of replies (R176). -/
inductive ResultCode where
  | done | accepted | busy | pending | locked | checkFailed | badRequest | badArgument | notStaged
  | refused | aborted
  deriving DecidableEq, Repr

/-- A reply: the request's kind, its tag, result code, detail and data words (R176). -/
structure Reply where
  kind : Byte
  tag : Byte
  result : ResultCode
  detail : Word16
  data : List Word16
  deriving DecidableEq, Repr

/-- Alert kinds (R180). -/
inductive AlertKind where
  | started | trip | floor | breach | monitorStale | monitorLive | link | stop | supply | activated
  | activationDropped
  deriving DecidableEq, Repr

/-- An alert; its ALERTS_LOST field is written when it is given (R177, R180). -/
structure Alert where
  kind : AlertKind
  urgent : Bool
  subject : Option Nat
  minute : Option Nat
  detail : Word16
  deriving DecidableEq, Repr

/-- A limit: SILENT or a number of centibels (R15). -/
inductive Limit where
  | silent
  | number (cB : Nat)
  deriving DecidableEq, Repr

/-- The four breach marks or latches of a boundary (R76). -/
structure BreachMarks where
  minuteFull : Bool
  minuteLf : Bool
  runningFull : Bool
  runningLf : Bool
  deriving DecidableEq, Repr

/-- No mark set. -/
def BreachMarks.clear : BreachMarks := ⟨false, false, false, false⟩

/-- A closed entry of a minute ring (R76). -/
structure RingEntry where
  minute : Option Nat
  count : Nat
  full : Nat
  lf : Nat
  limitFull : Limit
  limitLf : Limit
  isPartial : Bool
  unwatched : Bool
  marks : BreachMarks
  deriving DecidableEq, Repr

/-- One boundary's entry of a minute report (R86). -/
structure ReportEntry where
  boundary : Nat
  entry : RingEntry
  runningFull : Nat
  runningLf : Nat
  deriving DecidableEq, Repr

/-- A minute report; its REPORTS_LOST field is written when it is given (R86, R178). -/
structure MinuteReport where
  minute : Option Nat
  count : Nat
  isPartial : Bool
  entries : List ReportEntry
  deriving DecidableEq, Repr

/-- The message unit: its queues, oldest first, and its lost markers (R173, R176, R177, R178). -/
structure Mu where
  inbound : List Message
  replies : List Reply
  alerts : List Alert
  reports : List MinuteReport
  alertsLost : Bool
  reportsLost : Bool
  deriving DecidableEq, Repr

/-- A TIME SET not yet acted upon (R26). -/
structure Setting where
  minute : Nat
  second : Nat
  tag : Byte
  deriving DecidableEq, Repr

/-- The limits in force of one boundary and its current segment (R34). -/
structure LimitEntry where
  full : Limit
  lf : Limit
  segment : Option Nat
  deriving DecidableEq, Repr

/-- The time base (R26, R34). -/
structure Tb where
  /-- The time state: `true` is SET. -/
  isSet : Bool
  minute : Nat
  position : Nat
  tally : Nat
  drift : Int
  stepStart : Bool
  setting : Option Setting
  /-- The limits in force, one entry for each enabled boundary (R34). -/
  limits : Vector (Option LimitEntry) 6
  deriving DecidableEq, Repr

/-- The accumulator record of one zone (R39). -/
structure Meter where
  energy : Nat
  peak : Nat
  frames : Nat
  deriving DecidableEq, Repr

/-- The published figures of one zone (R39). -/
structure ZoneFigures where
  level : Int
  peak : Int
  deriving DecidableEq, Repr

/-- The meter bank (R39). -/
structure Mb where
  meters : Vector Meter 8
  published : Vector ZoneFigures 8
  deriving DecidableEq, Repr

/-- The figures of one band of a boundary at the most recent interval end (R53). -/
structure BandFigures where
  uncorrected : Nat
  corrected : Nat
  inUse : Int
  responsible : List (Fin 8)
  deriving DecidableEq, Repr

/-- The figures of a boundary at the most recent interval end; absent together (R53, R62). -/
structure BoundaryFigures where
  full : BandFigures
  lf : BandFigures
  unwatched : Bool
  deriving DecidableEq, Repr

/-- One entry of a history ring (R61). -/
structure HistoryEntry where
  full : Nat
  lf : Nat
  deriving DecidableEq, Repr

/-- The estimator record of an enabled boundary (R53). -/
structure Estimator where
  correctionFull : Int
  correctionLf : Int
  figures : Option BoundaryFigures
  /-- The history ring, oldest first. -/
  ring : List HistoryEntry
  deriving DecidableEq, Repr

/-- Monitor states (R63). -/
inductive MonitorState where
  | unmapped | unheard | live | stale
  deriving DecidableEq, Repr

/-- The record of one monitor (R63). -/
structure Monitor where
  state : MonitorState
  boundary : Option (Fin 6)
  silence : Nat
  deriving DecidableEq, Repr

/-- The boundary estimator; index i of `monitors` is monitor id i + 1 (R53). -/
structure Be where
  estimators : Vector (Option Estimator) 6
  monitors : Vector Monitor 12
  deriving DecidableEq, Repr

/-- An exact sum of energies: the pairs (k, c) stand for the sum of c times 10 to the power k/100, with
the k below 100 and rising and the c above 0, so that equal sums are equal lists (00 section 6.2,
R76, log 21). -/
abbrev Energy := List (Nat × Nat)

/-- The account of an enabled boundary: the minute accumulator and the minute ring (R76). -/
structure Account where
  count : Nat
  full : Energy
  lf : Energy
  startFull : Limit
  startLf : Limit
  startSegment : Option Nat
  /-- The minute ring, oldest first. -/
  ring : List RingEntry
  deriving DecidableEq, Repr

/-- The exposure accounts (R76). -/
structure Ea where
  accounts : Vector (Option Account) 6
  latches : Vector BreachMarks 6
  deriving DecidableEq, Repr

/-- Zone states (R92). -/
inductive ZoneState where
  | off | stopped | tripped | muted | silent | floor | reduce | hold | free
  deriving DecidableEq, Repr

/-- Where a demand came from (R98). -/
structure DemandSource where
  boundary : Nat
  /-- The band: `true` is LF. -/
  isLf : Bool
  /-- The kind: `true` is RUNNING. -/
  isRunning : Bool
  deriving DecidableEq, Repr

/-- The last demand of a zone (R92). -/
inductive Demand where
  | absent
  | unreached
  | value (cB : Int) (source : DemandSource)
  deriving DecidableEq, Repr

/-- The controller record of one zone (R92). -/
structure Controller where
  state : ZoneState
  attenuation : Nat
  muted : Bool
  tripHold : Bool
  persistence : Nat
  releaseCount : Nat
  floorEpisode : Bool
  tripLatch : Bool
  floorLatch : Bool
  lastDemand : Demand
  /-- The model's own mark: a resolution has moved the zone into or out of silence since the last frame
  was sent (R100, log 27). -/
  disturbed : Bool
  deriving DecidableEq, Repr

/-- A zone's standing for the set: its record as it stood for the last frame sent (R100). -/
structure Standing where
  state : ZoneState
  attenuation : Nat
  persistence : Nat
  releaseCount : Nat
  floorEpisode : Bool
  deriving DecidableEq, Repr

/-- The zone controllers and the TRIP line they drive (R92, R107). -/
structure Zc where
  zones : Vector Controller 8
  tripLine : Bool
  standing : Vector Standing 8
  deriving DecidableEq, Repr

/-- Retained states (R121). -/
inductive RetainedState where
  | valid | invalid | blank
  deriving DecidableEq, Repr

/-- Plan states (R122). -/
inductive PlanState where
  | noPlan | active
  deriving DecidableEq, Repr

/-- Shadow states (R120). -/
inductive ShadowState where
  | clean | edited | damaged
  deriving DecidableEq, Repr

/-- A LOADED staging page (R118). -/
structure Staging where
  page : Fin 11
  slots : Page
  deriving DecidableEq, Repr

/-- Timed operations (07 section 7.2). -/
inductive OpKind where
  | committing | copying | recalling | checking | retaining
  deriving DecidableEq, Repr

/-- A timed operation in progress: its kind, the tag of the owed reply, and the drive frames sent since it
was taken (R124). -/
structure Operation where
  kind : OpKind
  tag : Byte
  frames : Nat
  deriving DecidableEq, Repr

/-- Sources of the last outcome (R146). -/
inductive OutcomeSource where
  | commit | copy | recall | check | retain | swap | cancel
  deriving DecidableEq, Repr

/-- Results of the last outcome (R146, R182). -/
inductive OutcomeResult where
  | reply (code : ResultCode)
  | activated
  | dropped
  deriving DecidableEq, Repr

/-- The last outcome (R146). -/
structure LastOutcome where
  source : OutcomeSource
  result : OutcomeResult
  detail : Word16
  deriving DecidableEq, Repr

/-- The plan store (R118). -/
structure Ps where
  retained : Bank
  retainedState : RetainedState
  working : Bank
  planState : PlanState
  shadow : Bank
  shadowState : ShadowState
  /-- The staging page; absent while EMPTY. -/
  staging : Option Staging
  /-- The operation; absent while IDLE. -/
  operation : Option Operation
  activationPending : Bool
  lastOutcome : Option LastOutcome
  deriving DecidableEq, Repr

/-- What TB has still to do at an interval end it has counted (R27). -/
inductive TbDue where
  | setting | minuteBoundary
  deriving DecidableEq, Repr

/-- The model's own record of the parts of an interval end that have still to be taken, and of a restart
that is scheduled (log 4, log 13). -/
structure Due where
  /-- Monitors, by index, whose fall into STALE is due (R64). -/
  stale : List (Fin 12)
  /-- Zones whose trip is due (R105). -/
  trips : List (Fin 8)
  /-- Zones whose entry into FREE is due (R102). -/
  frees : List (Fin 8)
  tb : Option TbDue
  /-- The swap and the derivation that follow a close are due (R28). -/
  swap : Bool
  /-- A restart is performed at the end of the drive frame in flight (R197). -/
  restart : Bool
  deriving DecidableEq, Repr

/-- Nothing due. -/
def Due.none : Due := ⟨[], [], [], Option.none, false, false⟩

/-- The state of the part. -/
structure State where
  /-- The commands waiting, first in first out. -/
  pending : List Instr
  supply : SupplyState
  /-- The level of the supply in millivolts, as SS last compared it with its thresholds (R193). -/
  supplyLevel : Nat
  /-- VENUE STOP: `true` is asserted. -/
  venueStop : Bool
  /-- PLAN LOCK: `true` is asserted. -/
  planLock : Bool
  lrx : Lrx
  ltx : Ltx
  /-- The last frame sent on the drive link; absent when none has been sent since the power reset. -/
  driveOut : Option DriveFrame
  mu : Mu
  tb : Tb
  mb : Mb
  be : Be
  ea : Ea
  zc : Zc
  ps : Ps
  due : Due
  /-- How many operations have been stopped before their end: the argument of the free value of R145. -/
  stops : Nat
  deriving DecidableEq, Repr

/-- Why a step stops with a fault. There is no such reason: the manual describes no event that stops the
part other than the loss of its supply, which is the supply state OFF (R196). Safe: nothing is hidden in it. -/
inductive Fault
  deriving DecidableEq, Repr

/-- Why a step has no answer. -/
inductive Refusal where
  /-- Raised by the dispatch for a command that has no meaning yet. Safe: nothing can be proved of it. -/
  | notModelled (mnemonic : String)
  deriving DecidableEq, Repr

/-- A page of zeros. -/
def blankPage : Page := Vector.replicate 24 0

/-- The blank plan: every slot of every page is zero (R25). -/
def blankBank : Bank := Vector.replicate 11 blankPage

/-- The receiver after either reset, with the line at the given level (R148, R169). -/
def Lrx.reset (level : Bool) : Lrx :=
  { receiver := .search, mismatches := 0, window := 0, seen := 0, kept := [], carrier := 0,
    lineLevel := level, changed := false, fifo := [], flags := LinkFlags.clear, assembler := .skip }

/-- The transmitter after either reset (R156, R162, R179). -/
def Ltx.reset : Ltx := { primed := false, sending := none, fillPending := true, lastClass := .report }

/-- The message unit after either reset, before STARTED is raised (R198). -/
def Mu.reset : Mu :=
  { inbound := [], replies := [], alerts := [], reports := [], alertsLost := false, reportsLost := false }

/-- The time base after either reset, before the limits are derived (R26). -/
def Tb.reset : Tb :=
  { isSet := false, minute := 0, position := 0, tally := 0, drift := 0, stepStart := false,
    setting := none, limits := Vector.replicate 6 none }

/-- An accumulator record at the start of an interval (R45). -/
def Meter.zero : Meter := ⟨0, 0, 0⟩

/-- The meter bank after either reset (R39). -/
def Mb.reset : Mb :=
  { meters := Vector.replicate 8 Meter.zero, published := Vector.replicate 8 ⟨-1200, -1200⟩ }

/-- A monitor that is not mapped (R63). -/
def Monitor.unmapped : Monitor := ⟨.unmapped, none, 0⟩

/-- The estimator under a plan that enables no boundary and maps no monitor (R54). -/
def Be.empty : Be :=
  { estimators := Vector.replicate 6 none, monitors := Vector.replicate 12 Monitor.unmapped }

/-- The accounts under a plan that enables no boundary (R77). -/
def Ea.empty : Ea :=
  { accounts := Vector.replicate 6 none, latches := Vector.replicate 6 BreachMarks.clear }

/-- A zone in OFF after a reset, with the given attenuation (R93, R96). -/
def Controller.off (attenuation : Nat) : Controller :=
  { state := .off, attenuation := attenuation, muted := false, tripHold := false, persistence := 0,
    releaseCount := 0, floorEpisode := false, tripLatch := false, floorLatch := false,
    lastDemand := .absent, disturbed := false }

/-- The controllers under the blank plan (R93). -/
def Zc.empty : Zc :=
  { zones := Vector.replicate 8 (Controller.off 0), tripLine := false,
    standing := Vector.replicate 8 ⟨.off, 0, 0, 0, false⟩ }

/-- The plan store that has found its retained bank not VALID at start-up (R119). -/
def Ps.blank (retained : Bank) (state : RetainedState) : Ps :=
  { retained := retained, retainedState := state, working := blankBank, planState := .noPlan,
    shadow := blankBank, shadowState := .clean, staging := none, operation := none,
    activationPending := false, lastOutcome := none }

/-- The STARTED alert of a power reset that found the retained bank BLANK: cause 1, retained state 3, plan
state 1 (R180, R191, R198). -/
def startedBlank : Alert :=
  { kind := .started, urgent := false, subject := none, minute := none, detail := 0x131 }

/-- The part right after its first power reset: a part that has never been retained, the supply nominal, both
lines at the level of an unconnected pin (logs 7, 8 and 9). -/
def State.reset : State :=
  { pending := []
    supply := .normal
    supplyLevel := Config.nominalSupply
    venueStop := true
    planLock := true
    lrx := Lrx.reset false
    ltx := Ltx.reset
    driveOut := none
    mu := { Mu.reset with alerts := [startedBlank] }
    tb := Tb.reset
    mb := Mb.reset
    be := Be.empty
    ea := Ea.empty
    zc := Zc.empty
    ps := Ps.blank blankBank .blank
    due := Due.none
    stops := 0 }

end Sys2Proof.Machine
end

