-- ==== Sys2Proof/Machine/Levels.lean ====
section
/-! DEFINITION. Levels and energies, computed exactly (00_scope section 6.2): the level of a rational energy, the
level of a mean of energies, and the scaling of a sample. -/

namespace Sys2Proof.Machine

/-- The greatest number below 2 to the `bits`, added to `acc`, that meets `p`, for a `p` that holds up to some
number and not beyond; `acc` when none does. -/
def greatest : Nat → (Nat → Bool) → Nat → Nat
  | 0, _, acc => acc
  | b + 1, p, acc => greatest b p (if p (acc + 2 ^ b) then acc + 2 ^ b else acc)

/-- The level in cB of the energy `num / den`, not below -1200: the largest whole number not greater than
100 log10 of it (R43, R44, section 6.2). -/
def ratioLevel (num den : Nat) : Int :=
  (greatest 11 (fun k => decide (10 ^ k * den ^ 100 ≤ num ^ 100 * 10 ^ 1200)) 0 : Int) - 1200

/-- A zone's level from its energy sum over one interval (R43). -/
def zoneLevel (energy : Nat) : Int := ratioLevel energy (Config.intervalFrames * Config.fullScale ^ 2)

/-- A zone's peak from its peak magnitude (R44). -/
def zonePeak (magnitude : Nat) : Int := ratioLevel (magnitude ^ 2) (Config.fullScale ^ 2)

/-- The whole number nearest to `m` times 10 to the power -`cB`/200, a half taken toward zero (R160). -/
def scaleMagnitude (m cB : Nat) : Nat :=
  greatest 24 (fun n => decide ((2 * n - 1) ^ 200 * 10 ^ cB < (2 * m) ^ 200)) 0

/-- A program sample scaled by an attenuation (R160). -/
def scaleSample (s : LinkWord) (cB : Nat) : LinkWord :=
  let m := scaleMagnitude s.toInt.natAbs cB
  BitVec.ofInt 24 (if s.toInt < 0 then -(m : Int) else (m : Int))

/-- `c` times the energy 10 to the power `k`/100, added to an exact sum, for `k` below 100. -/
def Energy.insert (k c : Nat) : Energy → Energy
  | [] => if c = 0 then [] else [(k, c)]
  | (k', c') :: rest =>
    if c = 0 then (k', c') :: rest
    else if k < k' then (k, c) :: (k', c') :: rest
    else if k = k' then (k, c' + c) :: rest
    else (k', c') :: Energy.insert k c rest

/-- `weight` times the energy of `level` cB, added to an exact sum (R78, R79). -/
def Energy.add (e : Energy) (level weight : Nat) : Energy :=
  Energy.insert (level % 100) (weight * 10 ^ (level / 100)) e

/-- The largest whole number not above 2 to the power `p` times 10 to the power `k`/100. -/
def powerFloor (p k : Nat) : Nat :=
  greatest (p + 4) (fun r => decide (r ^ 100 ≤ 10 ^ k * 2 ^ (100 * p))) 0

/-- A lower bound of 2 to the power `p` times an exact sum. -/
def Energy.lower (p : Nat) (e : Energy) : Nat := e.foldl (fun sum t => sum + t.2 * powerFloor p t.1) 0

/-- An upper bound of 2 to the power `p` times an exact sum. -/
def Energy.upper (p : Nat) (e : Energy) : Nat := e.foldl (fun sum t => sum + t.2 * (powerFloor p t.1 + 1)) 0

/-- Whether an exact sum is at least `c` times 10 to the power `k`/100, when `p` binary places decide it. -/
def Energy.compareAt (p : Nat) (e : Energy) (k c : Nat) : Option Bool :=
  if c * (powerFloor p k + 1) ≤ e.lower p then some true
  else if e.upper p ≤ c * powerFloor p k then some false
  else none

/-- Binary places that always decide a comparison of two unequal sums: their difference is a nonzero
integer combination of powers of the hundredth root of 10, whose norm is a nonzero integer (log 21). -/
def Energy.exactPlaces (e : Energy) (c : Nat) : Nat :=
  100 * (Nat.log2 (e.foldl (fun sum t => sum + 10 * t.2) (10 * c)) + 2) + 16

/-- Whether an exact sum is at least `c` times the energy 10 to the power `k`/100, for `k` below 100. -/
def Energy.atLeast (e : Energy) (k c : Nat) : Bool :=
  if e = [(k, c)] then true
  else
    match e.compareAt 64 k c with
    | some answer => answer
    | none =>
      match e.compareAt 512 k c with
      | some answer => answer
      | none => (e.compareAt (e.exactPlaces c) k c).getD false

/-- The level of an exact sum divided by a count above 0 (section 6.2, R79). -/
def Energy.meanLevel (e : Energy) (count : Nat) : Nat :=
  greatest 11 (fun level => e.atLeast (level % 100) (count * 10 ^ (level / 100))) 0

end Sys2Proof.Machine
end

