-- ==== Sys2Proof/WellFormed.lean ====
section
/-! DEFINITION. Which commands are well formed: the shapes a rule of the manual gives a command's operands. -/

namespace Sys2Proof

/-- A WRITE SLOTS carries 1 to 8 values (R128). -/
def wfValues (values : List Slot) : Bool := decide (1 ≤ values.length ∧ values.length ≤ 8)

/-- A message on the program lane has 1 to 40 following words (R168), and a bad request fails a header
check (R175). -/
def wfBadRequest (kind : Byte) (words : List Word16) : Bool :=
  decide (1 ≤ words.length ∧ words.length ≤ 40) && (Config.failedHeaderCheck ⟨kind, words⟩).isSome

/-- Monitors are numbered 1 to 12 (R63). -/
def wfMonitor (id : Nat) : Bool := decide (1 ≤ id ∧ id ≤ 12)

/-- Zones are numbered 0 to 7 (R92). -/
def wfZone (zone : Nat) : Bool := decide (zone < 8)

/-- At least one bit is received while searching (R150). -/
def wfSearchBits (bits : List Bool) : Bool := decide (1 ≤ bits.length)

/-- At most one frame of bits is received after a candidate (R151). -/
def wfConfirmBits (bits : List Bool) : Bool := decide (1 ≤ bits.length ∧ bits.length ≤ 432)

/-- The fourth mismatch differs from the sync word (R153). -/
def wfMismatch (sync : LinkWord) : Bool := decide (sync ≠ Config.syncWord)

/-- A fall below the operating threshold (R193). -/
def wfLow (level : Nat) : Bool := decide (level < Config.operatingThreshold)

/-- A rise to the operating threshold or above (R193). -/
def wfNormal (level : Nat) : Bool := decide (Config.operatingThreshold ≤ level)

/-- A fall below the retention threshold (R193). -/
def wfOff (level : Nat) : Bool := decide (level < Config.retentionThreshold)

/-- A rise is judged at the threshold plus its hysteresis (R193, R196). -/
def wfPowerReset (level : Nat) : Bool := decide (Config.retentionRise ≤ level)

/-- A part in operation has its supply at or above the retention threshold (R193, R196). -/
def wfRestart (level : Nat) : Bool := decide (Config.retentionThreshold ≤ level)

/-- A command is well formed. -/
def Instr.WellFormed (i : Instr) : Bool :=
  match i with
  | .writeSlots _ _ values => wfValues values
  | .badRequest kind words => wfBadRequest kind words
  | .monitorStale id => wfMonitor id
  | .enterFree zone => wfZone zone
  | .trip zone => wfZone zone
  | .syncCandidate bits => wfSearchBits bits
  | .syncConfirm bits => wfConfirmBits bits
  | .lockLost sync => wfMismatch sync
  | .supplyLow level => wfLow level
  | .supplyNormal level => wfNormal level
  | .supplyOff level => wfOff level
  | .powerReset level => wfPowerReset level
  | .restartPerformed level => wfRestart level
  | .identify _ | .status _ | .linkStatus _ | .alarmStatus _ | .clearAlarms _ _ _ _ | .timeSet _ _ _
  | .zoneStatus _ _ | .boundaryStatus _ _ _ | .muteZone _ _ | .unmuteZone _ _ | .clearTrip _ _
  | .relock _ | .restart _ | .readPage _ _ _ | .stagePage _ _ _ | .commitPage _ | .copyWorking _
  | .recallRetained _ | .activate _ | .cancelActivation _ | .retain _ | .abort _
  | .monitorReport _ _ _ _ _ _ | .committingCompletion | .copyingCompletion | .recallingCompletion
  | .checkingCompletion | .retainingCompletion | .swap | .driveFrame | .intervalEnd | .timeSetAct
  | .minuteBoundary | .lineTransition | .carrierLost | .frameTaken _ _ _ | .venueStopAsserted
  | .venueStopReleased | .planLockChange => true

end Sys2Proof
end

