-- ==== Sys2Proof/Decode.lean ====
section
/-! DEFINITION. Messages of the program lane: reading one into the request it names, the encoder beside it,
and the (empty) reading of the opcode table's words. -/

namespace Sys2Proof

/-- A request with its arguments, in the order R185 names them; the tag is held apart. -/
inductive Request where
  | identify
  | status
  | linkStatus
  | alarmStatus
  | clearAlarms (mask1 mask2 mask3 : Word16)
  | timeSet (minute second : Word16)
  | zoneStatus (zone : Word16)
  | boundaryStatus (boundary selector : Word16)
  | muteZone (zone : Word16)
  | unmuteZone (zone : Word16)
  | clearTrip (zone : Word16)
  | relock
  | restart
  | readPage (bank page : Word16)
  | stagePage (bank page : Word16)
  | writeSlots (first : Word16) (values : List Slot)
  | commitPage
  | copyWorking
  | recallRetained
  | activate
  | cancelActivation
  | retain
  | abort
  | monitorReport (id period flags full : Word16) (lf : Option Word16)
  deriving DecidableEq, Repr

/-- The kind of a request (R185). -/
def Request.kind (r : Request) : Byte :=
  match r with
  | .identify => Config.kIdentify
  | .status => Config.kStatus
  | .linkStatus => Config.kLinkStatus
  | .alarmStatus => Config.kAlarmStatus
  | .clearAlarms _ _ _ => Config.kClearAlarms
  | .timeSet _ _ => Config.kTimeSet
  | .zoneStatus _ => Config.kZoneStatus
  | .boundaryStatus _ _ => Config.kBoundaryStatus
  | .muteZone _ => Config.kMuteZone
  | .unmuteZone _ => Config.kUnmuteZone
  | .clearTrip _ => Config.kClearTrip
  | .relock => Config.kRelock
  | .restart => Config.kRestart
  | .readPage _ _ => Config.kReadPage
  | .stagePage _ _ => Config.kStagePage
  | .writeSlots _ _ => Config.kWriteSlots
  | .commitPage => Config.kCommitPage
  | .copyWorking => Config.kCopyWorking
  | .recallRetained => Config.kRecallRetained
  | .activate => Config.kActivate
  | .cancelActivation => Config.kCancelActivation
  | .retain => Config.kRetain
  | .abort => Config.kAbort
  | .monitorReport _ _ _ _ _ => Config.kMonitorReport

/-- A 32-bit value as two words, the most significant first (R187). -/
def splitSlot (v : Slot) : List Word16 := [(v >>> 16).setWidth 16, v.setWidth 16]

/-- The value of two words, the most significant first (R187). -/
def joinSlot (high low : Word16) : Slot := (high.setWidth 32 <<< 16) ||| low.setWidth 32

/-- The values carried by pairs of words; a last word alone gives none (R185). -/
def joinSlots : List Word16 → List Slot
  | high :: low :: rest => joinSlot high low :: joinSlots rest
  | _ => []

/-- The argument words of a request (R185, R191). -/
def Request.args (r : Request) : List Word16 :=
  match r with
  | .clearAlarms m1 m2 m3 => [m1, m2, m3]
  | .timeSet minute second => [minute, second]
  | .zoneStatus zone => [zone]
  | .boundaryStatus boundary selector => [boundary, selector]
  | .muteZone zone => [zone]
  | .unmuteZone zone => [zone]
  | .clearTrip zone => [zone]
  | .readPage bank page => [bank, page]
  | .stagePage bank page => [bank, page]
  | .writeSlots first values => first :: values.flatMap splitSlot
  | .monitorReport id period flags full lf => [id, period, flags, full] ++ lf.toList
  | .identify | .status | .linkStatus | .alarmStatus | .relock | .restart | .commitPage | .copyWorking
  | .recallRetained | .activate | .cancelActivation | .retain | .abort => []

/-- The tag word: high byte zero, the tag in the low byte (R168). -/
def tagWord (tag : Byte) : Word16 := tag.setWidth 16

/-- The message that carries a request (R168, R185). -/
def encodeRequest (tag : Byte) (r : Request) : Message := ⟨r.kind, tagWord tag :: r.args⟩

/-- The request of a message kind with the given argument words; none when the kind is unknown or the
words are not those the kind takes (R185). -/
def requestOf (kind : Byte) (args : List Word16) : Option Request :=
  if kind = Config.kWriteSlots then
    match args with
    | first :: rest => some (.writeSlots first (joinSlots rest))
    | [] => none
  else if kind = Config.kMonitorReport then
    match args with
    | [id, period, flags, full] => some (.monitorReport id period flags full none)
    | [id, period, flags, full, lf] => some (.monitorReport id period flags full (some lf))
    | _ => none
  else
    match args with
    | [] =>
      if kind = Config.kIdentify then some .identify
      else if kind = Config.kStatus then some .status
      else if kind = Config.kLinkStatus then some .linkStatus
      else if kind = Config.kAlarmStatus then some .alarmStatus
      else if kind = Config.kRelock then some .relock
      else if kind = Config.kRestart then some .restart
      else if kind = Config.kCommitPage then some .commitPage
      else if kind = Config.kCopyWorking then some .copyWorking
      else if kind = Config.kRecallRetained then some .recallRetained
      else if kind = Config.kActivate then some .activate
      else if kind = Config.kCancelActivation then some .cancelActivation
      else if kind = Config.kRetain then some .retain
      else if kind = Config.kAbort then some .abort
      else none
    | [a] =>
      if kind = Config.kZoneStatus then some (.zoneStatus a)
      else if kind = Config.kMuteZone then some (.muteZone a)
      else if kind = Config.kUnmuteZone then some (.unmuteZone a)
      else if kind = Config.kClearTrip then some (.clearTrip a)
      else none
    | [a, b] =>
      if kind = Config.kTimeSet then some (.timeSet a b)
      else if kind = Config.kBoundaryStatus then some (.boundaryStatus a b)
      else if kind = Config.kReadPage then some (.readPage a b)
      else if kind = Config.kStagePage then some (.stagePage a b)
      else none
    | [a, b, c] => if kind = Config.kClearAlarms then some (.clearAlarms a b c) else none
    | _ => none

/-- What MU makes of a message it takes (R175): the tag and the request, or the number of the first
header check it fails. -/
def decodeMessage (m : Message) : Except Nat (Byte × Request) :=
  match Config.failedHeaderCheck m with
  | some check => .error check
  | none =>
    match requestOf m.kind m.words.tail with
    | some r => .ok ((m.words.headD 0).setWidth 8, r)
    | none => .error 2

/-- No row of spec/opcode_table.json gives any bits, so no word spells a command (the table's
"fields" are empty in all 52 rows). -/
def decodeTableWord (nbits w : Nat) : Option Instr :=
  match nbits, w with
  | _, _ => none

end Sys2Proof
end

