-- ==== Sys2Proof/Machine/Operands.lean ====
section
/-! DEFINITION. The items of the plan read from the slots of a bank (R188 to R190), and the words of messages
(R187, R191, R192). -/

namespace Sys2Proof.Machine

/-- `len` bits of a slot from bit `lo`, as a number. -/
def fieldOf (slot : Slot) (lo len : Nat) : Nat := (slot.toNat >>> lo) % 2 ^ len

/-- Slot `i` of a page; zero past its end. -/
def slotAt (page : Page) (i : Nat) : Slot := page[i]?.getD 0

/-- Slot `i` of page `p` of a bank; zero past its end. -/
def bankSlot (bank : Bank) (p i : Nat) : Slot := slotAt (bank[p]?.getD blankPage) i

/-! ### The venue page -/

/-- Field `i` of the venue page, in the order of R188. -/
def venueField (bank : Bank) (i : Nat) : Nat := fieldOf (bankSlot bank 0 i) 0 16

def planId (bank : Bank) : Nat := venueField bank 0
def releaseRate (bank : Bank) : Nat := venueField bank 1
def releaseDelay (bank : Bank) : Nat := venueField bank 2
def hysteresis (bank : Bank) : Nat := venueField bank 3
def peakAllowance (bank : Bank) : Nat := venueField bank 4
def silenceFloor (bank : Bank) : Nat := venueField bank 5
def estimateFloor (bank : Bank) : Nat := venueField bank 6
def staleTimeout (bank : Bank) : Nat := venueField bank 7

/-! ### The zones page -/

/-- A zone record (R188). -/
structure ZoneItem where
  enabled : Bool
  /-- The band class: `true` is LOW. -/
  isLow : Bool
  maximum : Nat
  persistence : Nat
  /-- The trip magnitude as the record holds it. -/
  magnitude : Nat
  tripPresent : Bool
  deriving DecidableEq, Repr

/-- The zone record a slot holds. -/
def zoneItemOf (slot : Slot) : ZoneItem :=
  { enabled := fieldOf slot 0 1 == 1, isLow := fieldOf slot 1 1 == 1, maximum := fieldOf slot 2 10,
    persistence := fieldOf slot 12 4, magnitude := fieldOf slot 16 8, tripPresent := fieldOf slot 31 1 == 1 }

/-- The record of zone `z`. -/
def zoneItem (bank : Bank) (z : Fin 8) : ZoneItem := zoneItemOf (bankSlot bank 1 z)

/-- The trip level, in cB, or NONE (R188). -/
def ZoneItem.tripLevel (item : ZoneItem) : Option Int :=
  if item.tripPresent then some (-(item.magnitude : Int)) else none

/-- The entry of channel `n` in the channel map, eight bits (R188). -/
def channelEntry (page : Page) (n : Nat) : Nat := fieldOf (slotAt page (8 + n / 4)) (8 * (n % 4)) 8

/-- The zone of the part that the channel map assigns to channel `n`; none for NONE (R11). -/
def channelZone (bank : Bank) (n : Nat) : Option (Fin 8) :=
  let entry := channelEntry (bank[1]?.getD blankPage) n
  if entry / 16 % 2 = 1 then
    if h : entry % 16 < 8 then some ⟨entry % 16, h⟩ else none
  else none

/-- The channels assigned to a zone, ascending (R114). -/
def zoneChannels (bank : Bank) (z : Fin 8) : List Nat :=
  (List.range 16).filter fun n => channelZone bank n == some z

/-! ### The boundary pages -/

/-- The page of boundary `b` (R189). -/
def boundaryPage (bank : Bank) (b : Fin 6) : Page := bank[2 + b.val]?.getD blankPage

/-- A boundary record with its ceilings and segment count (R189). -/
structure BoundaryItem where
  enabled : Bool
  staleMargin : Nat
  segmentCount : Nat
  ceilingFull : Nat
  ceilingLf : Nat
  deriving DecidableEq, Repr

/-- The boundary record a page holds. -/
def boundaryItemOf (page : Page) : BoundaryItem :=
  { enabled := fieldOf (slotAt page 0) 0 1 == 1, staleMargin := fieldOf (slotAt page 0) 8 8,
    segmentCount := fieldOf (slotAt page 0) 16 5, ceilingFull := fieldOf (slotAt page 1) 0 11,
    ceilingLf := fieldOf (slotAt page 1) 16 11 }

/-- The record of boundary `b`. -/
def boundaryItem (bank : Bank) (b : Fin 6) : BoundaryItem := boundaryItemOf (boundaryPage bank b)

/-- Slots 2 to 21 of a boundary page as one string of 640 bits (R189). -/
def segmentString (page : Page) : Nat :=
  (List.range 20).foldr (fun k high => high * 2 ^ 32 + (slotAt page (2 + k)).toNat) 0

/-- A segment as its fields hold it (R189). -/
structure SegmentItem where
  start : Nat
  kind : Nat
  ramp : Nat
  full : Nat
  lf : Nat
  deriving DecidableEq, Repr

/-- The kind codes of segments (R189). -/
def quietKind : Nat := 1
def curfewKind : Nat := 2

/-- The limit code of SILENT (R189). -/
def silentCode : Nat := 2047

/-- Segment `i` of a page (R189). -/
def segmentItem (page : Page) (i : Nat) : SegmentItem :=
  let s := segmentString page >>> (40 * i)
  { start := s % 2 ^ 11, kind := (s >>> 11) % 2 ^ 2, ramp := (s >>> 13) % 2 ^ 5,
    full := (s >>> 18) % 2 ^ 11, lf := (s >>> 29) % 2 ^ 11 }

/-- The slot in which bit `offset` of segment `i` lies (R189). -/
def segmentSlot (i offset : Nat) : Nat := 2 + (40 * i + offset) / 32

/-- The segments in use, in order (R15). -/
def segmentsInUse (bank : Bank) (b : Fin 6) : List SegmentItem :=
  (List.range (boundaryItem bank b).segmentCount).map (segmentItem (boundaryPage bank b))

/-- The limit a code stands for (R189). -/
def limitOf (code : Nat) : Limit := if code = silentCode then .silent else .number code

/-! ### Couplings, reduction steps and monitors -/

/-- The sixteen bits of the coupling of zone `z` to boundary `b` (R190). -/
def couplingBits (bank : Bank) (b : Fin 6) (z : Fin 8) : Nat :=
  fieldOf (bankSlot bank 8 (4 * b.val + z.val / 2)) (16 * (z.val % 2)) 16

/-- The coupling of zone `z` to boundary `b`, or NONE (R190). -/
def coupling (bank : Bank) (b : Fin 6) (z : Fin 8) : Option Nat :=
  let bits := couplingBits bank b z
  if bits / 2 ^ 15 % 2 = 1 then some (bits % 2 ^ 11) else none

/-- The reduction step of an index (R190). -/
def reductionStep (bank : Bank) (i : Nat) : Nat := fieldOf (bankSlot bank 9 i) 0 8

/-- The four bits of the record of the monitor at index `m` (R190). -/
def monitorBits (bank : Bank) (m : Nat) : Nat := fieldOf (bankSlot bank 10 m) 0 4

/-- The boundary to which the monitor at index `m` is mapped, or NONE (R190). -/
def monitorBoundary (bank : Bank) (m : Nat) : Option (Fin 6) :=
  let bits := monitorBits bank m
  if bits / 8 = 1 then
    if h : bits % 8 < 6 then some ⟨bits % 8, h⟩ else none
  else none

/-- The monitors, by index, mapped to a boundary, ascending. -/
def monitorsOf (bank : Bank) (b : Fin 6) : List (Fin 12) :=
  (List.finRange 12).filter fun m => monitorBoundary bank m == some b

/-- A zone contributes to a boundary: the boundary is enabled and the coupling is not NONE (R8). -/
def contributesTo (bank : Bank) (z : Fin 8) (b : Fin 6) : Bool :=
  (boundaryItem bank b).enabled && (coupling bank b z).isSome

/-! ### Words of messages (R187) -/

/-- A number, in two's complement. -/
def intWord (n : Int) : Word16 := BitVec.ofInt 16 n
/-- An unsigned number or a code. -/
def natWord (n : Nat) : Word16 := BitVec.ofNat 16 n
def flagWord (b : Bool) : Word16 := if b then 1 else 0
def absentWord : Word16 := 0x8000
def silentWord : Word16 := 0x7FFF
def noneWord : Word16 := 0x7FFE
def unreachedWord : Word16 := 0x8001
/-- An item that may be absent. -/
def optWord (n : Option Nat) : Word16 := (n.map natWord).getD absentWord
def optIntWord (n : Option Int) : Word16 := (n.map intWord).getD absentWord
def limitWord : Limit → Word16
  | .silent => silentWord
  | .number n => natWord n
/-- A set of zones: bit z for each zone z. -/
def zoneSetWord (zones : List (Fin 8)) : Word16 :=
  (BitVec.ofBoolListLE ((List.finRange 8).map fun z => zones.contains z)).setWidth 16
/-- A list preceded by its count. -/
def listWords (words : List Word16) : List Word16 := natWord words.length :: words
/-- The four latches or marks of a boundary, MINUTE_FULL lowest (R184). -/
def marksNat (m : BreachMarks) : Nat :=
  m.minuteFull.toNat + 2 * m.minuteLf.toNat + 4 * m.runningFull.toNat + 8 * m.runningLf.toNat
/-- A detail that reports a page, a slot and a check (R187). -/
def checkDetail (page slot check : Nat) : Word16 := natWord (page * 2 ^ 12 + slot * 2 ^ 7 + check)

def receiverCode : ReceiverState → Nat
  | .noCarrier => 0 | .search => 1 | .confirm => 2 | .locked => 3
def zoneStateCode : ZoneState → Nat
  | .off => 0 | .stopped => 1 | .tripped => 2 | .muted => 3 | .silent => 4 | .floor => 5 | .reduce => 6
  | .hold => 7 | .free => 8
def resultCodeNat : ResultCode → Nat
  | .done => 0 | .accepted => 1 | .busy => 2 | .pending => 3 | .locked => 4 | .checkFailed => 5
  | .badRequest => 6 | .badArgument => 7 | .notStaged => 8 | .refused => 9 | .aborted => 10
def alertKindCode : AlertKind → Nat
  | .started => 1 | .trip => 2 | .floor => 3 | .breach => 4 | .monitorStale => 5 | .monitorLive => 6
  | .link => 7 | .stop => 8 | .supply => 9 | .activated => 10 | .activationDropped => 11
def retainedCode : RetainedState → Nat
  | .valid => 1 | .invalid => 2 | .blank => 3
def planStateCode : PlanState → Nat
  | .noPlan => 1 | .active => 2
def shadowCode : ShadowState → Nat
  | .clean => 1 | .edited => 2 | .damaged => 3
def opCode : OpKind → Nat
  | .committing => 1 | .copying => 2 | .recalling => 3 | .checking => 4 | .retaining => 5
def sourceCode : OutcomeSource → Nat
  | .commit => 1 | .copy => 2 | .recall => 3 | .check => 4 | .retain => 5 | .swap => 6 | .cancel => 7
def outcomeResultCode : OutcomeResult → Nat
  | .reply code => resultCodeNat code | .activated => 11 | .dropped => 12
def supplyCode : SupplyState → Nat
  | .normal => 1 | .low => 2 | .off => 0
def monitorStateCode : MonitorState → Nat
  | .unmapped => 0 | .unheard => 1 | .live => 2 | .stale => 3

/-- A header word (R168). -/
def headerWord (kind : Byte) (length : Nat) : Word16 := natWord (kind.toNat * 256 + length)

/-- A message with its header in front. -/
def withHeader (kind : Byte) (words : List Word16) : List Word16 := headerWord kind words.length :: words

/-- The words of a reply (R176); only a DONE carries data. -/
def replyWords (r : Reply) : List Word16 :=
  withHeader (r.kind ||| 0x80)
    ([tagWord r.tag, natWord (resultCodeNat r.result), r.detail]
      ++ if r.result = .done then r.data else [])

/-- The words of an alert, with its ALERTS_LOST field (R191). -/
def alertWords (a : Alert) (lost : Bool) : List Word16 :=
  withHeader Config.kAlert
    [natWord (alertKindCode a.kind + 2 ^ 15 * a.urgent.toNat + 2 ^ 14 * lost.toNat),
     optWord a.subject, optWord a.minute, a.detail]

/-- The seven words of a boundary's entry in a minute report (R192). -/
def reportEntryWords (e : ReportEntry) : List Word16 :=
  [natWord (e.boundary + 2 ^ 8 * e.entry.unwatched.toNat + 2 ^ 9 * marksNat e.entry.marks),
   natWord e.entry.full, natWord e.entry.lf, limitWord e.entry.limitFull, limitWord e.entry.limitLf,
   natWord e.runningFull, natWord e.runningLf]

/-- The words of a minute report, with its REPORTS_LOST field (R192). -/
def reportWords (r : MinuteReport) (lost : Bool) : List Word16 :=
  withHeader Config.kMinuteReport
    ([natWord (2 ^ 15 * lost.toNat + 2 ^ 14 * r.isPartial.toNat + r.entries.length),
      optWord r.minute, natWord r.count]
      ++ r.entries.flatMap reportEntryWords)

/-- Whether the sixteen bits of a lane value and a parity bit hold an odd number of ones (R147). -/
def goodParity (value : Word16) (parity : Bool) : Bool :=
  ((List.range 16).foldl (fun odd i => odd != value.getLsbD i) parity)

/-- The lane word that carries a lane value, with good parity and zero pad (R147, R186). -/
def laneWord (value : Word16) : LinkWord :=
  (value.setWidth 24 <<< 8) ||| (if goodParity value false then 0 else 0x80)

/-- The lane value of a lane word (R186). -/
def laneValue (word : LinkWord) : Word16 := (word >>> 8).setWidth 16

/-- A lane word has good parity (R147). -/
def laneGood (word : LinkWord) : Bool := goodParity (laneValue word) (word.getLsbD 7)

end Sys2Proof.Machine
end

