-- ==== Sys2Proof/Machine/Ops.lean ====
section
/-! DEFINITION. The shared operations: bounded queues, replies, alerts and reports, pages and banks, the free
value of a stopped operation, and the TRIP line with the zone records. -/

namespace Sys2Proof.Machine

/-! ### Bounded lists -/

/-- Append as the newest, dropping the oldest past the capacity (R61, R81, R177, R178). -/
def pushNewest {α : Type} (cap : Nat) (xs : List α) (x : α) : List α :=
  (xs ++ [x]).drop (xs.length + 1 - cap)

/-- Append as the newest, overwriting the newest when full (R155, R173). -/
def pushOver {α : Type} (cap : Nat) (xs : List α) (x : α) : List α := xs.take (cap - 1) ++ [x]

/-! ### The message unit -/

/-- The minute of day an alert carries: present while the time state is SET (R180). -/
def State.stamp (s : State) : Option Nat := if s.tb.isSet then some s.tb.minute else none

/-- Raise an alert into the alert queue (R177). -/
def State.raiseAlert (s : State) (a : Alert) : State :=
  { s with mu := { s.mu with
      alerts := pushNewest Config.alertCap s.mu.alerts a
      alertsLost := s.mu.alertsLost || decide (Config.alertCap ≤ s.mu.alerts.length) } }

/-- Raise an alert with the minute of day the time state gives (R180). -/
def State.raise (s : State) (kind : AlertKind) (urgent : Bool) (subject : Option Nat) (detail : Word16) : State :=
  s.raiseAlert { kind := kind, urgent := urgent, subject := subject, minute := s.stamp, detail := detail }

/-- Raise alerts, in order (R177). -/
def State.raiseAlerts (s : State) (alerts : List Alert) : State := alerts.foldl State.raiseAlert s

/-- Queue a reply (R176). -/
def State.queueReply (s : State) (r : Reply) : State :=
  { s with mu := { s.mu with replies := s.mu.replies ++ [r] } }

/-- Answer a request (R176). -/
def State.answer (s : State) (kind tag : Byte) (result : ResultCode) (detail : Nat) : State :=
  s.queueReply { kind := kind, tag := tag, result := result, detail := natWord detail, data := [] }

/-- Answer a request with DONE and data (R176). -/
def State.answerData (s : State) (kind tag : Byte) (detail : Nat) (data : List Word16) : State :=
  s.queueReply { kind := kind, tag := tag, result := .done, detail := natWord detail, data := data }

/-- Queue a minute report (R178). -/
def State.queueReport (s : State) (r : MinuteReport) : State :=
  { s with mu := { s.mu with
      reports := pushNewest Config.reportCap s.mu.reports r
      reportsLost := s.mu.reportsLost || decide (Config.reportCap ≤ s.mu.reports.length) } }

/-- The replies owed by work in progress (R174). -/
def State.repliesOwed (s : State) : Nat := s.ps.operation.isSome.toNat + s.tb.setting.isSome.toNat

/-- MU may take the next inbound message: the replies queued and owed are below 4 (R174). -/
def State.canTake (s : State) : Bool := decide (s.mu.replies.length + s.repliesOwed < Config.replyCap)

/-! ### Zones and the TRIP line -/

/-- Write the zone records; the TRIP line is asserted exactly when a zone is TRIPPED (R107). -/
def State.setZones (s : State) (zones : Vector Controller 8) : State :=
  { s with zc := { s.zc with
      zones := zones
      tripLine := zones.toList.any (fun c => c.state == .tripped) } }

/-- Write one zone record. -/
def State.setZone (s : State) (z : Fin 8) (c : Controller) : State := s.setZones (s.zc.zones.set z c)

/-- The standing of a zone for the set its next frame belongs to (R100). -/
def Controller.standing (c : Controller) : Standing :=
  ⟨c.state, c.attenuation, c.persistence, c.releaseCount, c.floorEpisode⟩

/-! ### Pages and banks -/

/-- Put a page into a bank. -/
def setPage (bank : Bank) (p : Fin 11) (page : Page) : Bank := bank.set p page

/-- Put the values into consecutive slots from `first`, wrapping within the page (R128). -/
def writeConsecutive (page : Page) (first : Nat) (values : List Slot) : Page :=
  match values with
  | [] => page
  | v :: rest => writeConsecutive (page.set (first % 24) v (Nat.mod_lt _ (by decide))) (first + 1) rest

/-- A page whose writing was stopped: each slot its old value or the new one, as the free value says (R145). -/
def mixPage (stop p : Nat) (old new : Page) : Page :=
  Vector.ofFn fun i => if Config.slotWritten stop p i then new[i] else old[i]

/-- A bank whose writing was stopped (R145). -/
def mixBank (stop : Nat) (old new : Bank) : Bank :=
  Vector.ofFn fun p => mixPage stop p old[p] new[p]

/-! ### The operation and the last outcome -/

/-- The request kind whose reply an operation owes (R124). -/
def opRequest : OpKind → Byte
  | .committing => Config.kCommitPage
  | .copying => Config.kCopyWorking
  | .recalling => Config.kRecallRetained
  | .checking => Config.kActivate
  | .retaining => Config.kRetain

/-- The source an operation has in the last outcome (R146). -/
def opSource : OpKind → OutcomeSource
  | .committing => .commit
  | .copying => .copy
  | .recalling => .recall
  | .checking => .check
  | .retaining => .retain

/-- The upper bound of an operation's duration in milliseconds (07 section 7.2). -/
def opBoundMs : OpKind → Nat
  | .committing => 5
  | .copying => 10
  | .recalling => 50
  | .checking => 20
  | .retaining => 400

/-- Write the last outcome (R146). -/
def State.setOutcome (s : State) (source : OutcomeSource) (result : OutcomeResult) (detail : Word16) : State :=
  { s with ps := { s.ps with lastOutcome := some ⟨source, result, detail⟩ } }

/-- End the operation: the owed reply with its recorded tag, the last outcome, IDLE (R124). -/
def State.endOperation (s : State) (op : Operation) (result : ResultCode) (detail : Word16) : State :=
  let s := s.queueReply { kind := opRequest op.kind, tag := op.tag, result := result, detail := detail, data := [] }
  let s := s.setOutcome (opSource op.kind) (.reply result) detail
  { s with ps := { s.ps with operation := none } }

/-- What a stopped operation leaves in the banks and their states (R145). -/
def stoppedBanks (stop : Nat) (ps : Ps) (kind : OpKind) : Ps :=
  match kind with
  | .committing =>
    match ps.staging with
    | some st =>
      { ps with shadow := setPage ps.shadow st.page (mixPage stop st.page ps.shadow[st.page] st.slots)
                shadowState := .damaged }
    | none => { ps with shadowState := .damaged }
  | .copying => { ps with shadow := mixBank stop ps.shadow ps.working, shadowState := .damaged }
  | .recalling => { ps with shadow := mixBank stop ps.shadow ps.retained, shadowState := .damaged }
  | .checking => ps
  | .retaining => { ps with retained := mixBank stop ps.retained ps.working, retainedState := .invalid }

/-- Stop an operation before its end, its owed reply sent as ABORTED (R143, R144, R145). -/
def State.stopOperation (s : State) (op : Operation) (detail : Nat) : State :=
  let s := { s with ps := stoppedBanks s.stops s.ps op.kind, stops := s.stops + 1 }
  s.endOperation op .aborted (natWord detail)

end Sys2Proof.Machine
end

