-- ==== Sys2Proof/Machine/Flags.lean ====
section
/-! DEFINITION. The link flags and the trip, floor and breach latches: their setting, masking and clearing. -/

namespace Sys2Proof.Machine

/-- The seven link flags, in the order of 08 section 8.6. -/
def LinkFlags.toList (f : LinkFlags) : List Bool :=
  [f.carrierLost, f.lockLost, f.fifoOverflow, f.fifoUnderflow, f.laneParity, f.laneTruncated, f.laneOverrun]

/-- Change the link flags. -/
def State.withFlags (s : State) (flags : LinkFlags) : State := { s with lrx := { s.lrx with flags := flags } }

/-- The latches are held back: VENUE STOP is asserted or the supply is LOW (R84, R111). -/
def State.latchesHeld (s : State) : Bool := s.venueStop || s.supply != .normal

/-- Which of two sets of marks are set. -/
def BreachMarks.or (a b : BreachMarks) : BreachMarks :=
  ⟨a.minuteFull || b.minuteFull, a.minuteLf || b.minuteLf, a.runningFull || b.runningFull,
   a.runningLf || b.runningLf⟩

/-- The four marks, MINUTE_FULL first (R85). -/
def BreachMarks.toList (m : BreachMarks) : List Bool := [m.minuteFull, m.minuteLf, m.runningFull, m.runningLf]

/-- The four bits of boundary `b` in the second and third CLEAR ALARMS masks (R184). -/
def breachMask (mask2 mask3 : Word16) (b : Fin 6) : BreachMarks :=
  let word := if b.val < 4 then mask2 else mask3
  let at' := 4 * (b.val % 4)
  ⟨word.getLsbD at', word.getLsbD (at' + 1), word.getLsbD (at' + 2), word.getLsbD (at' + 3)⟩

/-- Clear the marks a mask names. -/
def BreachMarks.without (m mask : BreachMarks) : BreachMarks :=
  ⟨m.minuteFull && !mask.minuteFull, m.minuteLf && !mask.minuteLf, m.runningFull && !mask.runningFull,
   m.runningLf && !mask.runningLf⟩

/-- How many marks are set. -/
def BreachMarks.count (m : BreachMarks) : Nat := m.toList.count true

/-- Clear the latches of a zone that the first mask names (R184). -/
def clearZoneLatches (mask1 : Word16) (z : Fin 8) (c : Controller) : Controller :=
  { c with tripLatch := c.tripLatch && !mask1.getLsbD z
           floorLatch := c.floorLatch && !mask1.getLsbD (8 + z) }

/-- How many latches of the zones are set. -/
def zoneLatchCount (zones : Vector Controller 8) : Nat :=
  (zones.toList.map fun c => c.tripLatch.toNat + c.floorLatch.toNat).sum

/-- How many breach latches are set. -/
def breachLatchCount (latches : Vector BreachMarks 6) : Nat := (latches.toList.map BreachMarks.count).sum

/-- A word whose bits, from bit 0 up, are the given flags. -/
def wordOfFlags (flags : List Bool) : Word16 := (BitVec.ofBoolListLE flags).setWidth 16

/-- The trip and floor latches as the first mask word lays them out (R183, R184). -/
def zoneLatchWord (zones : Vector Controller 8) : Word16 :=
  wordOfFlags (zones.toList.map (·.tripLatch) ++ zones.toList.map (·.floorLatch))

/-- The breach latches of some boundaries, four bits each, as the second and third mask words lay them out
(R183, R184). -/
def breachLatchWord (latches : Vector BreachMarks 6) (boundaries : List (Fin 6)) : Word16 :=
  wordOfFlags (boundaries.flatMap fun b => (latches[b]).toList)

/-- The trip holds, that of zone n at bit n (R183). -/
def tripHoldWord (zones : Vector Controller 8) : Word16 := wordOfFlags (zones.toList.map (·.tripHold))

end Sys2Proof.Machine
end

