-- ==== Sys2Proof/Machine/Limits.lean ====
section
/-! DEFINITION. The limits in force: schedules, ramps and the fallback (R34 to R38). -/

namespace Sys2Proof.Machine

/-- SILENT is lower than every number (R15). -/
def Limit.lower (a b : Limit) : Bool :=
  match a, b with
  | .silent, .silent => false
  | .silent, .number _ => true
  | .number _, .silent => false
  | .number m, .number n => decide (m < n)

/-- The position of the current segment: the last whose start minute is at or below the minute of day (R35). -/
def currentSegment (segments : List SegmentItem) (minute : Nat) : Nat :=
  ((List.range segments.length).filter fun i =>
    match segments[i]? with
    | some seg => decide (seg.start ≤ minute)
    | none => false).getLastD 0

/-- The limit in force in one band: the current limit, or its ramp value `j` minutes before the next segment
starts, of ramp length `ramp` (R36, R37). -/
def rampLimit (floor : Nat) (current next : Limit) (ramp j : Nat) : Limit :=
  match current with
  | .silent => .silent
  | .number old =>
    let target := match next with
      | .silent => floor
      | .number n => n
    if 0 < ramp ∧ 1 ≤ j ∧ j ≤ ramp ∧ target < old then
      .number (target + ((old - target) * j + ramp) / (ramp + 1))
    else .number old

/-- The lowest limit of a list; SILENT for an empty one (R38, log 20). -/
def lowestLimit : List Limit → Limit
  | [] => .silent
  | [l] => l
  | l :: rest => if l.lower (lowestLimit rest) then l else lowestLimit rest

/-- The limits in force of a schedule while the time state is SET, at a minute of day (R35, R36). -/
def setLimits (floor : Nat) (segments : List SegmentItem) (minute : Nat) : LimitEntry :=
  let i := currentSegment segments minute
  match segments[i]? with
  | none => ⟨.silent, .silent, none⟩
  | some seg =>
    match segments[(i + 1) % segments.length]? with
    | none => ⟨limitOf seg.full, limitOf seg.lf, some i⟩
    | some next =>
      let j := (next.start + 1440 - minute) % 1440
      ⟨rampLimit floor (limitOf seg.full) (limitOf next.full) next.ramp j,
       rampLimit floor (limitOf seg.lf) (limitOf next.lf) next.ramp j, some i⟩

/-- The fallback limits of a schedule while the time state is UNSET (R38). -/
def fallbackLimits (segments : List SegmentItem) : LimitEntry :=
  ⟨lowestLimit (segments.map fun seg => limitOf seg.full),
   lowestLimit (segments.map fun seg => limitOf seg.lf), none⟩

/-- The entry of boundary `b`, when it is enabled (R34). -/
def limitEntry (bank : Bank) (isSet : Bool) (minute : Nat) (b : Fin 6) : Option LimitEntry :=
  if (boundaryItem bank b).enabled then
    some (if isSet then setLimits (silenceFloor bank) (segmentsInUse bank b) minute
          else fallbackLimits (segmentsInUse bank b))
  else none

/-- The limits in force of every boundary (R34). -/
def deriveLimits (bank : Bank) (isSet : Bool) (minute : Nat) : Vector (Option LimitEntry) 6 :=
  Vector.ofFn fun b => limitEntry bank isSet minute b

end Sys2Proof.Machine
end

