-- ==== Sys2Proof/Machine/Accounts.lean ====
section
/-! DEFINITION. The exposure accounts: accumulators, running levels, the close of a minute, breaches and minute
reports, and their part in a swap (R76 to R91). -/

namespace Sys2Proof.Machine

/-- The energy sum of a band. -/
def Account.energy (a : Account) (isLf : Bool) : Energy := if isLf then a.lf else a.full

/-- The level a closed entry holds in a band. -/
def RingEntry.level (e : RingEntry) (isLf : Bool) : Nat := if isLf then e.lf else e.full

/-- The minute level so far, absent while the interval count is 0 (R79). -/
def Account.minuteLevel (a : Account) (isLf : Bool) : Option Nat :=
  if a.count = 0 then none else some ((a.energy isLf).meanLevel a.count)

/-- The interval counts of the accumulator and the ring. -/
def Account.weight (a : Account) : Nat := a.count + (a.ring.map (·.count)).sum

/-- The running level: the energy mean over the accumulator and every entry of the ring, weighted by interval
counts; absent while both are empty (R79). -/
def Account.runningLevel (a : Account) (isLf : Bool) : Option Nat :=
  if a.weight = 0 then none
  else
    some ((a.ring.foldl (fun e entry => Energy.add e (entry.level isLf) entry.count) (a.energy isLf)).meanLevel
      a.weight)

/-- Add the corrected estimates of an interval (R78). -/
def Account.addInterval (a : Account) (full lf : Nat) : Account :=
  { a with count := a.count + 1, full := a.full.add full 1, lf := a.lf.add lf 1 }

/-- EA adds the estimates formed at this interval end to every account (R78). -/
def State.accumulate (s : State) : State :=
  { s with ea := { s.ea with
      accounts := Vector.ofFn fun b =>
        match s.ea.accounts[b], (s.be.estimators[b]).bind (·.figures) with
        | some a, some f => some (a.addInterval f.full.corrected f.lf.corrected)
        | account, _ => account } }

/-- The number a limit is judged at: the silence floor for SILENT (R5, R82). -/
def judgedLimit (floor : Nat) : Limit → Nat
  | .silent => floor
  | .number n => n

/-- The minute level at close (R81). -/
def Account.minuteClose (a : Account) (isLf : Bool) : Nat := (a.minuteLevel isLf).getD 0

/-- The running level at close (R81). -/
def Account.runningClose (a : Account) (isLf : Bool) : Nat := (a.runningLevel isLf).getD 0

/-- The marks of a close: the minute levels and the running levels at close against the start limits (R82, R83). -/
def breachMarks (floor : Nat) (a : Account) : BreachMarks :=
  ⟨decide (judgedLimit floor a.startFull < a.minuteClose false), decide (judgedLimit floor a.startLf < a.minuteClose true),
   decide (judgedLimit floor a.startFull < a.runningClose false),
   decide (judgedLimit floor a.startLf < a.runningClose true)⟩

/-- The report entry of a closing account: the closed entry and the running levels at close (R81 to R83, R86). -/
def closedEntry (s : State) (isPartial : Bool) (b : Fin 6) (a : Account) : ReportEntry :=
  { boundary := b
    runningFull := a.runningClose false
    runningLf := a.runningClose true
    entry :=
      { minute := s.stamp, count := s.tb.tally, full := a.minuteClose false, lf := a.minuteClose true
        limitFull := a.startFull, limitLf := a.startLf, isPartial := isPartial,
        unwatched := ((s.be.estimators[b]).bind (·.figures)).any (·.unwatched),
        marks := breachMarks (silenceFloor s.ps.working) a } }

/-- The account after its close: the entry in the ring, the accumulator empty (R81). -/
def Account.close (a : Account) (entry : RingEntry) : Account :=
  { a with count := 0, full := [], lf := [], ring := pushNewest Config.minuteRingCap a.ring entry }

/-- A BREACH alert is urgent in a QUIET start segment and in none (R16, R85). -/
def breachUrgent (bank : Bank) (b : Fin 6) (segment : Option Nat) : Bool :=
  match segment with
  | none => true
  | some i => (segmentItem (boundaryPage bank b) i).kind == quietKind

/-- The details of the breaches a set of marks holds, in their order (R85). -/
def breachDetails (m : BreachMarks) : List Nat :=
  (if m.minuteFull then [1] else []) ++ (if m.minuteLf then [2] else [])
    ++ (if m.runningFull then [3] else []) ++ (if m.runningLf then [4] else [])

/-- The marks that a close writes for a boundary; none for a boundary without an account (R82, R83). -/
def closingMarks (s : State) (b : Fin 6) : BreachMarks :=
  match s.ea.accounts[b] with
  | none => BreachMarks.clear
  | some a => breachMarks (silenceFloor s.ps.working) a

/-- The BREACH alerts of one boundary's close (R85). -/
def boundaryBreaches (s : State) (b : Fin 6) : List Alert :=
  match s.ea.accounts[b] with
  | none => []
  | some a =>
    (breachDetails (closingMarks s b)).map fun d =>
      { kind := .breach, urgent := breachUrgent s.ps.working b a.startSegment, subject := some b.val
        minute := s.stamp, detail := natWord d }

/-- Every account closes: its entry in its ring, its breaches in the latches unless held back (R81 to R84). -/
def State.closeAccounts (s : State) (isPartial : Bool) : State :=
  { s with ea :=
      { accounts := Vector.ofFn fun b =>
          (s.ea.accounts[b]).map fun a => a.close (closedEntry s isPartial b a).entry
        latches := Vector.ofFn fun b =>
          if s.latchesHeld then s.ea.latches[b] else (s.ea.latches[b]).or (closingMarks s b) } }

/-- The BREACH alerts of a close, by boundary, unless held back (R84, R85). -/
def State.breachAlerts (s : State) : List Alert :=
  if s.latchesHeld then [] else (List.finRange 6).flatMap (boundaryBreaches s)

/-- The minute report of a close, its entries in boundary order (R86). -/
def State.closingReport (s : State) (isPartial : Bool) : MinuteReport :=
  { minute := s.stamp, count := s.tb.tally, isPartial := isPartial
    entries := (List.finRange 6).filterMap fun b => (s.ea.accounts[b]).map (closedEntry s isPartial b) }

/-- The close of the minute: every account in boundary order, and then the minute report (R81, R86). -/
def State.closeMinute (s : State) (isPartial : Bool) : State :=
  ((s.closeAccounts isPartial).raiseAlerts s.breachAlerts).queueReport (s.closingReport isPartial)

/-- Set the start figures of an account from the derivation (R80). -/
def Account.start (a : Account) (e : LimitEntry) : Account :=
  { a with startFull := e.full, startLf := e.lf, startSegment := e.segment }

/-- An account as a reset or a swap creates it; its start figures follow from the derivation (R77, R88). -/
def Account.fresh : Account := ⟨0, [], [], .silent, .silent, none, []⟩

/-- EA after a reset under a plan, with the limits derived there (R77). -/
def Ea.startUp (bank : Bank) (limits : Vector (Option LimitEntry) 6) : Ea :=
  { accounts := Vector.ofFn fun b =>
      if (boundaryItem bank b).enabled then
        some (match limits[b] with
          | some e => Account.fresh.start e
          | none => Account.fresh)
      else none
    latches := Vector.replicate 6 BreachMarks.clear }

/-- Set the start figures of every account (R80). -/
def Ea.startMinute (ea : Ea) (limits : Vector (Option LimitEntry) 6) : Ea :=
  { ea with
    accounts := Vector.ofFn fun b =>
      match ea.accounts[b], limits[b] with
      | some a, some e => some (a.start e)
      | account, _ => account }

end Sys2Proof.Machine
end

