-- ==== Sys2Proof/Machine/Estimates.lean ====
section
/-! DEFINITION. The boundary estimator: estimates, corrections, monitors, and their part in a swap
(R53 to R75). -/

namespace Sys2Proof.Machine

/-- The silencing states (R55). -/
def ZoneState.silencing : ZoneState → Bool
  | .off | .stopped | .tripped | .muted | .silent => true
  | .floor | .reduce | .hold | .free => false

/-! ### Forming the estimates -/

/-- The contributions of a band at a boundary, by zone: the published level plus the coupling of each zone of
the band that is enabled, coupled, and was not silenced in the interval's last frame (R55). -/
def contributions (bank : Bank) (published : Vector ZoneFigures 8) (standing : Vector Standing 8)
    (b : Fin 6) (isLf : Bool) : List (Fin 8 × Int) :=
  (List.finRange 8).filterMap fun z =>
    let item := zoneItem bank z
    if item.enabled && (!isLf || item.isLow) && !standing[z].state.silencing then
      (coupling bank b z).map fun (c : Nat) => (z, published[z].level + (c : Int))
    else none

/-- The allowance for n contributions within 60 cB of the largest (04 section 4.2). -/
def allowance (n : Nat) : Int := ([0, 0, 30, 48, 60, 70, 78, 85, 90] : List Int).getD n 90

/-- The largest contribution of a list (R56). -/
def largest : List (Fin 8 × Int) → Option Int
  | [] => none
  | (_, c) :: rest =>
    match largest rest with
    | none => some c
    | some m => some (max c m)

/-- The responsible zones: those at or above the largest less 60 (R60). -/
def responsibleZones (list : List (Fin 8 × Int)) : List (Fin 8) :=
  match largest list with
  | none => []
  | some top => (list.filter fun c => decide (top - 60 ≤ c.2)).map (·.1)

/-- The combined level, absent for an empty list (R56). -/
def combinedLevel (list : List (Fin 8 × Int)) : Option Int :=
  (largest list).map fun top => top + allowance (responsibleZones list).length

/-- The uncorrected estimate (R57). -/
def uncorrectedEstimate (floor : Nat) (list : List (Fin 8 × Int)) : Nat :=
  match combinedLevel list with
  | none => floor
  | some level => min 1400 (max floor level.toNat)

/-- The corrected estimate: the sum held to 0 to 1400 (R59). -/
def correctedEstimate (uncorrected : Nat) (inUse : Int) : Nat := min 1400 ((uncorrected : Int) + inUse).toNat

/-- A boundary is unwatched: some monitor is mapped to it and none of those is LIVE (R58). -/
def unwatched (bank : Bank) (monitors : Vector Monitor 12) (b : Fin 6) : Bool :=
  let mapped := monitorsOf bank b
  !mapped.isEmpty && mapped.all fun m => monitors[m].state != .live

/-- The correction in use of a band (R58). -/
def correctionInUse (bank : Bank) (monitors : Vector Monitor 12) (b : Fin 6) (correction : Int) : Int :=
  if (monitorsOf bank b).isEmpty then 0
  else if unwatched bank monitors b then correction + (boundaryItem bank b).staleMargin
  else correction

/-- The figures of one band of a boundary (R55 to R60). -/
def bandFigures (s : State) (b : Fin 6) (isLf : Bool) (correction : Int) : BandFigures :=
  let list := contributions s.ps.working s.mb.published s.zc.standing b isLf
  let uncorrected := uncorrectedEstimate (estimateFloor s.ps.working) list
  let inUse := correctionInUse s.ps.working s.be.monitors b correction
  { uncorrected := uncorrected, corrected := correctedEstimate uncorrected inUse, inUse := inUse,
    responsible := responsibleZones list }

/-- The estimator record of a boundary after an interval end (R55 to R62). -/
def estimate (s : State) (b : Fin 6) (e : Estimator) : Estimator :=
  let full := bandFigures s b false e.correctionFull
  let lf := bandFigures s b true e.correctionLf
  { e with
    figures := some ⟨full, lf, unwatched s.ps.working s.be.monitors b⟩
    ring := pushNewest Config.historyCap e.ring ⟨full.uncorrected, lf.uncorrected⟩ }

/-- BE forms the estimates of every enabled boundary (R55). -/
def State.formEstimates (s : State) : State :=
  { s with be := { s.be with
      estimators := Vector.ofFn fun b => (s.be.estimators[b]).map (estimate s b) } }

/-! ### Counting silence -/

/-- One more interval of silence for a mapped monitor, at most 65535 (R64). -/
def Monitor.countSilence (m : Monitor) : Monitor :=
  if m.state = .unmapped then m else { m with silence := min 65535 (m.silence + 1) }

/-- The LIVE monitors whose silence has reached the stale timeout (R64). -/
def staleMonitors (bank : Bank) (monitors : Vector Monitor 12) : List (Fin 12) :=
  (List.finRange 12).filter fun m =>
    monitors[m].state == .live && decide (staleTimeout bank ≤ monitors[m].silence)

/-- BE counts the silence of this interval end, and the falls into STALE become due (R64). -/
def State.countSilence (s : State) : State :=
  let monitors := Vector.ofFn fun m => (s.be.monitors[m]).countSilence
  { s with be := { s.be with monitors := monitors }
           due := { s.due with stale := staleMonitors s.ps.working monitors } }

/-- A LIVE monitor enters STALE and raises its alert (R64, R65); at an interval end that closes a minute or acts on a
step the alert carries the minute of day of before: the model's choice (log 33). -/
def State.makeStale (s : State) (m : Fin 12) : State :=
  let record := s.be.monitors[m]
  let s : State :=
    { s with
      due := { s.due with stale := s.due.stale.filter (· != m) }
      be := { s.be with monitors := s.be.monitors.set m { record with state := .stale } } }
  s.raise .monitorStale false (some (m.val + 1)) (optWord (record.boundary.map (·.val)))

/-! ### Monitor reports -/

/-- A correction stepped toward a discrepancy by at most 5, held to -150 to 150 (R69). -/
def stepCorrection (c d : Int) : Int :=
  max (-150) (min 150 (if d > c then c + min 5 (d - c) else c - min 5 (c - d)))

/-- A correction after a report: OVERLOAD moves it only upward (R70). -/
def reportCorrection (overload : Bool) (c d : Int) : Int :=
  if overload && decide (d ≤ c) then c else stepCorrection c d

/-- The reference level: the energy mean of the newest estimates of a band (R68). -/
def referenceLevel (estimates : List Nat) : Nat :=
  Energy.meanLevel (estimates.foldl (fun e level => Energy.add e level 1) []) estimates.length

/-- The newest k entries of a history ring, k the smaller of the period and the ring's length (R68). -/
def newestEntries (ring : List HistoryEntry) (period : Nat) : List HistoryEntry :=
  ring.drop (ring.length - min period ring.length)

/-- The corrections of a boundary after an accepted report not flagged WIND (R68 to R71). -/
def moveCorrections (e : Estimator) (period : Nat) (overload : Bool) (full : Nat) (lf : Option Nat) : Estimator :=
  let entries := newestEntries e.ring period
  if entries.isEmpty then e
  else
    { e with
      correctionFull := reportCorrection overload e.correctionFull
        ((full : Int) - (referenceLevel (entries.map (·.full)) : Int))
      correctionLf :=
        match lf with
        | none => e.correctionLf
        | some level => reportCorrection overload e.correctionLf
            ((level : Int) - (referenceLevel (entries.map (·.lf)) : Int)) }

/-- An accepted report refreshes its monitor (R67). -/
def State.refreshMonitor (s : State) (m : Fin 12) : State :=
  let record := s.be.monitors[m]
  let s' := { s with be := { s.be with
      monitors := s.be.monitors.set m { record with state := .live, silence := 0 } } }
  match record.state with
  | .unheard => s'.raise .monitorLive false (some (m.val + 1)) 1
  | .stale => s'.raise .monitorLive false (some (m.val + 1)) 2
  | .live | .unmapped => s'

/-- Move the corrections of one boundary. -/
def State.correctBoundary (s : State) (b : Fin 6) (period : Nat) (overload : Bool) (full : Nat) (lf : Option Nat) :
    State :=
  { s with be := { s.be with
      estimators := s.be.estimators.set b
        ((s.be.estimators[b]).map fun e => moveCorrections e period overload full lf) } }

/-- A report's fields are in range (R66). -/
def reportInRange (id period full : Nat) (lf : Option Nat) : Bool :=
  decide (1 ≤ id ∧ id ≤ 12) && decide (1 ≤ period ∧ period ≤ 80) && decide (full ≤ 1400)
    && (lf.all fun level => decide (level ≤ 1400))

/-- BE takes a monitor report: dropped, or accepted with its effect on the monitor and then on the
corrections (R66 to R71). -/
def State.takeReport (s : State) (id period flags full : Word16) (lf : Option Word16) : State :=
  if h : 1 ≤ id.toNat ∧ id.toNat ≤ 12 then
    let m : Fin 12 := ⟨id.toNat - 1, by omega⟩
    let record := s.be.monitors[m]
    if reportInRange id.toNat period.toNat full.toNat (lf.map (·.toNat)) && record.state != .unmapped then
      let s := s.refreshMonitor m
      match record.boundary with
      | none => s
      | some b =>
        if flags.getLsbD 0 then s
        else s.correctBoundary b period.toNat (flags.getLsbD 1) full.toNat (lf.map (·.toNat))
    else s
  else s

/-! ### Start-up and swap -/

/-- A record as a reset creates it (R54). -/
def Estimator.fresh : Estimator := ⟨0, 0, none, []⟩

/-- A monitor as a reset or a swap places it (R54, R74). -/
def Monitor.fresh (boundary : Option (Fin 6)) : Monitor :=
  ⟨if boundary.isSome then .unheard else .unmapped, boundary, 0⟩

/-- BE after a reset under a plan (R54). -/
def Be.startUp (bank : Bank) : Be :=
  { estimators := Vector.ofFn fun b => if (boundaryItem bank b).enabled then some Estimator.fresh else none
    monitors := Vector.ofFn fun m => Monitor.fresh (monitorBoundary bank m) }

/-- The set of monitors mapped to a boundary differs between two plans (R73). -/
def monitorSetChanged (old new : Bank) (b : Fin 6) : Bool := monitorsOf old b != monitorsOf new b

/-- Some coupling to a boundary differs between two plans (R73). -/
def couplingChanged (old new : Bank) (b : Fin 6) : Bool :=
  (List.finRange 8).any fun z => coupling old b z != coupling new b z

/-- A swap creates or resets the record of a boundary (R73). -/
def recordReset (old new : Bank) (b : Fin 6) : Bool :=
  (boundaryItem new b).enabled
    && (!(boundaryItem old b).enabled || monitorSetChanged old new b || couplingChanged old new b)

/-- BE brings its records into line with a new plan (R73, R74). -/
def Be.align (be : Be) (old new : Bank) : Be :=
  { estimators := Vector.ofFn fun b =>
      if !(boundaryItem new b).enabled then none
      else if recordReset old new b then some Estimator.fresh
      else be.estimators[b]
    monitors := Vector.ofFn fun m =>
      let target := monitorBoundary new m
      if monitorBoundary old m ≠ target ∨ target.any (recordReset old new) then Monitor.fresh target
      else be.monitors[m] }

end Sys2Proof.Machine
end

