-- ==== Sys2Proof/Machine/AccountSwap.lean ====
section
/-! DEFINITION. The accounts' part in a swap (R88). -/

namespace Sys2Proof.Machine

/-- EA brings its accounts into line with a new plan; latches are kept (R84, R88). -/
def Ea.align (ea : Ea) (old new : Bank) : Ea :=
  { ea with
    accounts := Vector.ofFn fun b =>
      if !(boundaryItem new b).enabled then none
      else if !(boundaryItem old b).enabled then some Account.fresh
      else if monitorSetChanged old new b then (ea.accounts[b]).map fun a => { a with ring := [] }
      else ea.accounts[b] }

end Sys2Proof.Machine
end

