-- ==== Sys2Proof/Machine/PlanChecks.lean ====
section
/-! DEFINITION. The page checks, the cross-page checks and the lock comparison (R21, R22, R24). -/

namespace Sys2Proof.Machine

/-- A failed check: page, slot and check code (R21). -/
structure CheckFailure where
  page : Nat
  slot : Nat
  code : Nat
  deriving DecidableEq, Repr

/-- The check codes (R21). -/
def cRange : Nat := 1
def cUnused : Nat := 2
def cSegmentOrder : Nat := 3
def cNoSegment : Nat := 4
def cFirstStart : Nat := 5
def cCurfewLimit : Nat := 6
def cStepOrder : Nat := 7
def cCeiling : Nat := 8
def cMonitorTarget : Nat := 9
def cChannelTarget : Nat := 10
def cBlankInUse : Nat := 11

/-- A finding at a slot with a code, when the condition holds. -/
def failIf (bad : Bool) (slot code : Nat) : List (Nat × Nat) := if bad then [(slot, code)] else []

/-- A number lies outside its bounds. -/
def outside (n low high : Nat) : Bool := decide (n < low) || decide (high < n)

/-- Every slot of a page is zero. -/
def isBlankPage (page : Page) : Bool := page == blankPage

/-! ### Unused parts -/

/-- The bits of a slot that hold a field, by page and slot (R188 to R190); the segments of a boundary page
are examined field by field. -/
def namedBits (p slot : Nat) : Nat :=
  if p = 0 then (if slot < 8 then 0x0000FFFF else 0)
  else if p = 1 then (if slot < 8 then 0x80FFFFFF else if slot < 12 then 0x1F1F1F1F else 0)
  else if p ≤ 7 then
    (if slot = 0 then 0x001FFF01 else if slot = 1 then 0x07FF07FF else if slot < 22 then 0xFFFFFFFF else 0)
  else if p = 8 then 0x87FF87FF
  else if p = 9 then (if slot < 16 then 0x000000FF else 0)
  else (if slot < 12 then 0x0000000F else 0)

/-- Findings of UNUSED_NONZERO outside the fields (R21). -/
def unusedFindings (p : Nat) (page : Page) : List (Nat × Nat) :=
  (List.range 24).flatMap fun i =>
    failIf ((slotAt page i).toNat ||| namedBits p i != namedBits p i) i cUnused

/-! ### Page 0, VENUE -/

/-- The ranges of the venue fields, in slot order (01 section 1.2). -/
def venueRanges : List (Nat × Nat × Nat) :=
  [(0, 0, 65535), (1, 1, 20), (2, 1, 80), (3, 0, 60), (4, 0, 100), (5, 200, 700), (6, 0, 500), (7, 16, 480)]

def venueFindings (page : Page) : List (Nat × Nat) :=
  if isBlankPage page then []
  else venueRanges.flatMap fun (i, low, high) => failIf (outside (fieldOf (slotAt page i) 0 16) low high) i cRange

/-! ### Page 1, ZONES -/

/-- An empty record: enabled clear and every field zero (R7). -/
def isEmptyRecord (item : ZoneItem) : Bool :=
  item == { enabled := false, isLow := false, maximum := 0, persistence := 0, magnitude := 0, tripPresent := false }

/-- A zone record has a field out of range (R188). -/
def zoneOutOfRange (item : ZoneItem) : Bool :=
  outside item.maximum 60 600 || outside item.persistence 1 8 || decide (200 < item.magnitude)
    || (!item.tripPresent && item.magnitude != 0)

/-- A channel entry is out of range: its five field bits are neither 0 nor a present zone number (R188,
log 15). -/
def entryOutOfRange (entry : Nat) : Bool := entry / 16 % 2 == 0 && entry % 16 != 0

def zonesFindings (page : Page) : List (Nat × Nat) :=
  ((List.range 8).flatMap fun z =>
    let item := zoneItemOf (slotAt page z)
    failIf (!isEmptyRecord item && zoneOutOfRange item) z cRange)
  ++ (List.range 16).flatMap fun n => failIf (entryOutOfRange (channelEntry page n)) (8 + n / 4) cRange

/-! ### Pages 2 to 7, BOUNDARY -/

/-- A limit code is out of range (R189). -/
def limitOutOfRange (code : Nat) : Bool := decide (1400 < code) && code != silentCode

/-- The findings of one segment in use. -/
def segmentFindings (page : Page) (i : Nat) : List (Nat × Nat) :=
  let seg := segmentItem page i
  failIf (decide (1439 < seg.start)) (segmentSlot i 0) cRange
  ++ failIf (decide (2 < seg.kind)) (segmentSlot i 11) cRange
  ++ failIf (decide (30 < seg.ramp)) (segmentSlot i 13) cRange
  ++ failIf (limitOutOfRange seg.full) (segmentSlot i 18) cRange
  ++ failIf (limitOutOfRange seg.lf) (segmentSlot i 29) cRange
  ++ failIf (decide (0 < i) && decide (seg.start ≤ (segmentItem page (i - 1)).start)) (segmentSlot i 0) cSegmentOrder
  ++ (if seg.kind = curfewKind then
        if seg.full ≠ silentCode then [(segmentSlot i 18, cCurfewLimit)]
        else failIf (seg.lf != silentCode) (segmentSlot i 29) cCurfewLimit
      else [])

/-- The findings of a segment beyond the segment count, whose fields are unused parts (R2). -/
def spareSegmentFindings (page : Page) (i : Nat) : List (Nat × Nat) :=
  let seg := segmentItem page i
  failIf (seg.start != 0) (segmentSlot i 0) cUnused
  ++ failIf (seg.kind != 0) (segmentSlot i 11) cUnused
  ++ failIf (seg.ramp != 0) (segmentSlot i 13) cUnused
  ++ failIf (seg.full != 0) (segmentSlot i 18) cUnused
  ++ failIf (seg.lf != 0) (segmentSlot i 29) cUnused

/-- A segment count outside 0 to 16 gives its own finding and the segments are not examined (R22). -/
def boundaryFindings (page : Page) : List (Nat × Nat) :=
  let item := boundaryItemOf page
  if 16 < item.segmentCount then [(0, cRange)]
  else
    failIf (decide (150 < item.staleMargin)) 0 cRange
    ++ failIf (decide (1400 < item.ceilingFull)) 1 cRange
    ++ failIf (decide (1400 < item.ceilingLf)) 1 cRange
    ++ failIf (item.enabled && item.segmentCount == 0) 0 cNoSegment
    ++ failIf (item.enabled && item.segmentCount != 0 && (segmentItem page 0).start != 0) (segmentSlot 0 0) cFirstStart
    ++ (List.range 16).flatMap fun i =>
        if i < item.segmentCount then segmentFindings page i else spareSegmentFindings page i

/-! ### Pages 8, 9 and 10 -/

/-- A coupling is out of range: no presence bit and any other bit set, or a number above 1600 (R190,
log 16). -/
def couplingOutOfRange (bits : Nat) : Bool :=
  if bits / 2 ^ 15 % 2 = 1 then decide (1600 < bits % 2 ^ 11) else bits % 2 ^ 15 != 0

def couplingsFindings (page : Page) : List (Nat × Nat) :=
  (List.range 24).flatMap fun i =>
    failIf (couplingOutOfRange (fieldOf (slotAt page i) 0 16) || couplingOutOfRange (fieldOf (slotAt page i) 16 16))
      i cRange

def reductionFindings (page : Page) : List (Nat × Nat) :=
  if isBlankPage page then []
  else
    (List.range 16).flatMap fun i =>
      let step := fieldOf (slotAt page i) 0 8
      failIf (outside step 1 60) i cRange
      ++ failIf (decide (0 < i) && decide (step < fieldOf (slotAt page (i - 1)) 0 8)) i cStepOrder

/-- A monitor record is out of range: a boundary above 5, or a boundary with no presence bit (R190, log 15). -/
def monitorOutOfRange (bits : Nat) : Bool := if bits / 8 = 1 then decide (5 < bits % 8) else bits != 0

def monitorsFindings (page : Page) : List (Nat × Nat) :=
  (List.range 12).flatMap fun m => failIf (monitorOutOfRange (fieldOf (slotAt page m) 0 4)) m cRange

/-! ### The report of the page checks -/

/-- Every finding of the page checks on a page of number `p` (R21). -/
def pageFindings (p : Nat) (page : Page) : List (Nat × Nat) :=
  (if p = 0 then venueFindings page
   else if p = 1 then zonesFindings page
   else if p ≤ 7 then boundaryFindings page
   else if p = 8 then couplingsFindings page
   else if p = 9 then reductionFindings page
   else monitorsFindings page)
  ++ unusedFindings p page

/-- The finding at the lowest slot, and of those the lowest code (R22). -/
def lowestFinding (findings : List (Nat × Nat)) : Option (Nat × Nat) :=
  findings.foldl
    (fun best f =>
      match best with
      | none => some f
      | some b => if f.1 < b.1 ∨ (f.1 = b.1 ∧ f.2 < b.2) then some f else some b)
    none

/-- The page checks of one page (R22). -/
def checkPage (p : Nat) (page : Page) : Option CheckFailure :=
  (lowestFinding (pageFindings p page)).map fun f => ⟨p, f.1, f.2⟩

/-- The page checks of a bank, page 0 to page 10 (R22). -/
def checkPages (bank : Bank) : Option CheckFailure :=
  (List.finRange 11).findSome? fun (p : Fin 11) => checkPage p.val bank[p]

/-! ### The cross-page checks -/

/-- A numeric limit above a ceiling (R21). -/
def aboveCeiling (code ceiling : Nat) : Bool := code != silentCode && decide (ceiling < code)

/-- CEILING on one boundary: segments in position order, FULL before LF (R22). -/
def checkCeiling (bank : Bank) (b : Fin 6) : Option CheckFailure :=
  let item := boundaryItem bank b
  (List.range item.segmentCount).findSome? fun i =>
    let seg := segmentItem (boundaryPage bank b) i
    if aboveCeiling seg.full item.ceilingFull then some ⟨2 + b.val, segmentSlot i 18, cCeiling⟩
    else if aboveCeiling seg.lf item.ceilingLf then some ⟨2 + b.val, segmentSlot i 29, cCeiling⟩
    else none

/-- MONITOR_TARGET on one monitor (R22). -/
def checkMonitor (bank : Bank) (m : Fin 12) : Option CheckFailure :=
  match monitorBoundary bank m with
  | some b => if (boundaryItem bank b).enabled then none else some ⟨10, m.val, cMonitorTarget⟩
  | none => none

/-- CHANNEL_TARGET on one channel (R22). -/
def checkChannel (bank : Bank) (n : Nat) : Option CheckFailure :=
  let entry := channelEntry (bank[1]?.getD blankPage) n
  if entry / 16 % 2 = 1 ∧ 8 ≤ entry % 16 then some ⟨1, 8 + n / 4, cChannelTarget⟩ else none

/-- Some zone or some boundary of a plan is enabled (R21). -/
def plansAnything (bank : Bank) : Bool :=
  (List.finRange 8).any (fun z => (zoneItem bank z).enabled)
    || (List.finRange 6).any (fun b => (boundaryItem bank b).enabled)

/-- BLANK_IN_USE, the VENUE page before the REDUCTION page (R22). -/
def checkBlank (bank : Bank) : Option CheckFailure :=
  if plansAnything bank then
    if isBlankPage (bank[0]?.getD blankPage) then some ⟨0, 0, cBlankInUse⟩
    else if isBlankPage (bank[9]?.getD blankPage) then some ⟨9, 0, cBlankInUse⟩
    else none
  else none

/-- The cross-page checks, in the order of R22. -/
def crossChecks (bank : Bank) : Option CheckFailure :=
  ((List.finRange 6).findSome? (checkCeiling bank)).or
    (((List.finRange 12).findSome? (checkMonitor bank)).or
      (((List.range 16).findSome? (checkChannel bank)).or (checkBlank bank)))

/-- Every check of a whole plan (R134). -/
def checkPlan (bank : Bank) : Option CheckFailure := (checkPages bank).or (crossChecks bank)

/-! ### The lock comparison -/

/-- The bits of a slot that hold licensed items, by page and slot (01 section 1.7). -/
def licensedBits (p slot : Nat) : Nat :=
  if p = 0 then (if 1 ≤ slot ∧ slot < 8 then 0x0000FFFF else 0)
  else if p = 1 then (if slot < 8 then 0x00000FFE else 0)
  else if p ≤ 7 then (if slot = 0 then 0x0000FF01 else if slot = 1 then 0x07FF07FF else 0)
  else if p = 8 then 0x87FF87FF
  else if p = 9 then (if slot < 16 then 0x000000FF else 0)
  else (if slot < 12 then 0x0000000F else 0)

/-- The licensed items of a slot differ between two banks (R24). -/
def licensedDiffer (a b : Bank) (p i : Nat) : Bool :=
  ((bankSlot a p i).toNat &&& licensedBits p i) != ((bankSlot b p i).toNat &&& licensedBits p i)

/-- The lock comparison: page and slot of the first licensed item that differs (R24). -/
def lockComparison (shadow working : Bank) : Option (Nat × Nat) :=
  (List.range 11).findSome? fun p =>
    ((List.range 24).find? fun i => licensedDiffer shadow working p i).map fun i => (p, i)

end Sys2Proof.Machine
end

