-- ==== Sys2Proof/Machine/Zones.lean ====
section
/-! DEFINITION. The zone controllers: resolution, demand, enforcement transitions, trips, and their part in a
swap (R92 to R117). -/

namespace Sys2Proof.Machine

/-! ### Resolution -/

/-- The STOPPED cause: VENUE STOP asserted, or the supply not NORMAL (R94, R110). -/
def State.stopCause (s : State) : Bool := s.venueStop || s.supply != .normal

/-- The SILENT cause: a SILENT limit in force in the zone's band set at a boundary it contributes to (R8, R94). -/
def silentCause (bank : Bank) (limits : Vector (Option LimitEntry) 6) (z : Fin 8) : Bool :=
  (List.finRange 6).any fun b =>
    match limits[b] with
    | none => false
    | some e =>
      contributesTo bank z b && (e.full == .silent || ((zoneItem bank z).isLow && e.lf == .silent))

/-- The first present silencing cause, in the precedence OFF, STOPPED, TRIPPED, MUTED, SILENT (R94). -/
def silencingCause (bank : Bank) (stop : Bool) (limits : Vector (Option LimitEntry) 6) (z : Fin 8)
    (c : Controller) : Option ZoneState :=
  if !(zoneItem bank z).enabled then some .off
  else if stop then some .stopped
  else if c.tripHold then some .tripped
  else if c.muted then some .muted
  else if silentCause bank limits z then some .silent
  else none

/-- Entry into a silencing state at the given maximum (R95); OFF also clears the trip hold and the last
demand (R96). -/
def Controller.silence (c : Controller) (state : ZoneState) (maximum : Nat) : Controller :=
  { c with
    state := state, attenuation := maximum, persistence := 0, releaseCount := 0, floorEpisode := false
    disturbed := true
    tripHold := c.tripHold && state != .off
    lastDemand := if state = .off then .absent else c.lastDemand }

/-- Entry into HOLD from silence (R97). -/
def Controller.release (c : Controller) (maximum : Nat) : Controller :=
  { c with
    state := .hold, attenuation := maximum, persistence := 0, releaseCount := 0, floorEpisode := false
    disturbed := true }

/-- Resolve one zone: the state its highest cause gives; a zone whose resolution gives the state it holds is left
as it is (R94, R95, R97). -/
def resolveZone (bank : Bank) (stop : Bool) (limits : Vector (Option LimitEntry) 6) (z : Fin 8)
    (c : Controller) : Controller :=
  match silencingCause bank stop limits z c with
  | some state => if c.state = state then c else c.silence state (zoneItem bank z).maximum
  | none => if c.state.silencing then c.release (zoneItem bank z).maximum else c

/-- Resolve one zone with a new record. -/
def State.resolveWith (s : State) (z : Fin 8) (c : Controller) : State :=
  s.setZone z (resolveZone s.ps.working s.stopCause s.tb.limits z c)

/-- Resolve every zone (R94). -/
def State.resolveAll (s : State) : State :=
  s.setZones (Vector.ofFn fun z => resolveZone s.ps.working s.stopCause s.tb.limits z s.zc.zones[z])

/-! ### Demand -/

/-- The excesses of a responsible pair, instant then running (R98). -/
def pairExcesses (s : State) (b : Fin 6) (isLf : Bool) (f : BandFigures) (e : LimitEntry) :
    List (Int × DemandSource) :=
  match (if isLf then e.lf else e.full) with
  | .silent => []
  | .number limit =>
    ((f.corrected : Int) - ((limit : Int) + (peakAllowance s.ps.working : Int)), ⟨b, isLf, false⟩)
      :: match (s.ea.accounts[b]).bind (·.runningLevel isLf) with
        | none => []
        | some level => [((level : Int) - (limit : Int), ⟨b, isLf, true⟩)]

/-- The excesses of a zone at one boundary, FULL before LF (R98). -/
def boundaryExcesses (s : State) (z : Fin 8) (b : Fin 6) : List (Int × DemandSource) :=
  match (s.be.estimators[b]).bind (·.figures), s.tb.limits[b] with
  | some f, some e =>
    (if f.full.responsible.contains z then pairExcesses s b false f.full e else [])
      ++ (if f.lf.responsible.contains z then pairExcesses s b true f.lf e else [])
  | _, _ => []

/-- The first of the largest excesses, in the order boundary, band, kind (R98). -/
def largestExcess : List (Int × DemandSource) → Demand
  | [] => .unreached
  | (d, source) :: rest =>
    match largestExcess rest with
    | .value d' source' => if d < d' then .value d' source' else .value d source
    | _ => .value d source

/-- The demand of a zone at a published set (R98). -/
def demandOf (s : State) (z : Fin 8) : Demand :=
  largestExcess ((List.finRange 6).flatMap (boundaryExcesses s z))

/-- The number of a demand, for the detail of an alert. -/
def Demand.number : Demand → Int
  | .value d _ => d
  | .absent | .unreached => 0

/-- The demand calls for a reduction (R101). -/
def Demand.reduces : Demand → Bool
  | .value d _ => decide (0 < d)
  | .absent | .unreached => false

/-- The demand lies in the release band for a hysteresis (R102). -/
def Demand.releases (d : Demand) (hyst : Nat) : Bool :=
  match d with
  | .value n _ => decide (n ≤ -(hyst : Int))
  | .unreached => true
  | .absent => false

/-! ### The enforcement transitions -/

/-- The reduction index of a demand above zero (R101). -/
def reductionIndex (d : Int) : Nat := min 15 (d.toNat / 10)

/-- The standing after the enforcement transition of R101 or R102, for a zone that stood in an enforcement
state. The step into FREE of a full release delay is ENTER_FREE, a step of its own. -/
def enforce (bank : Bank) (maximum : Nat) (d : Demand) (st : Standing) : Standing :=
  if d.reduces then
    if st.attenuation < maximum then
      { st with
        state := .reduce, releaseCount := 0
        attenuation := min maximum (st.attenuation + reductionStep bank (reductionIndex d.number)) }
    else { st with state := .floor, releaseCount := 0, floorEpisode := true }
  else if d.releases (hysteresis bank) then
    match st.state with
    | .hold => { st with releaseCount := min 80 (st.releaseCount + 1) }
    | .free => { st with attenuation := st.attenuation - releaseRate bank }
    | .reduce | .floor => { st with state := .hold, releaseCount := 0, floorEpisode := false }
    | .off | .stopped | .tripped | .muted | .silent => st
  else
    match st.state with
    | .hold => { st with releaseCount := 0 }
    | .free => st
    | .reduce | .floor => { st with state := .hold, releaseCount := 0, floorEpisode := false }
    | .off | .stopped | .tripped | .muted | .silent => st

/-- The release delay has been counted in full: ENTER_FREE is due (R102). -/
def freeDue (bank : Bank) (d : Demand) (before after : Standing) : Bool :=
  !d.reduces && d.releases (hysteresis bank) && before.state == .hold
    && decide (releaseDelay bank ≤ after.releaseCount)

/-- A transition opens a FLOOR episode: it reaches FLOOR with the flag clear (R103). -/
def opensFloor (before after : Standing) : Bool := after.state == .floor && !before.floorEpisode

/-- The record after a transition, held to the working maximum, and to the record as it stands: a zone that a resolution
has moved into or out of silence since the last frame keeps the state, the attenuation, the counts and the flag which
that resolution left it, as it would hold them had the set been taken first (R95, R97, R100, log 27). -/
def Controller.apply (c : Controller) (maximum : Nat) (after : Standing) (persistence : Nat) : Controller :=
  if c.disturbed then c
  else
    { c with
      state := after.state, attenuation := min maximum after.attenuation, persistence := persistence
      releaseCount := after.releaseCount, floorEpisode := after.floorEpisode }

/-- The persistence count after the judgement of a set (R104). -/
def judgePersistence (level : Option Int) (peak : Int) (count : Nat) : Nat :=
  match level with
  | none => 0
  | some l => if l ≤ peak then min 8 (count + 1) else 0

/-- The zone trips at this set (R104). -/
def tripsNow (item : ZoneItem) (peak : Int) (count : Nat) : Bool :=
  match item.tripLevel with
  | none => false
  | some l => decide (l ≤ peak) && decide (item.persistence ≤ count + 1)

/-- The zone takes the published set in an enforcement state: its standing is no silencing state (R100). -/
def State.enforces (s : State) (z : Fin 8) : Bool := !s.zc.standing[z].state.silencing

/-- The zone trips at the published set (R100, R104). -/
def State.tripsAt (s : State) (z : Fin 8) : Bool :=
  s.enforces z && tripsNow (zoneItem s.ps.working z) s.mb.published[z].peak s.zc.standing[z].persistence

/-- The zone takes an enforcement transition at the published set (R100). -/
def State.movesAt (s : State) (z : Fin 8) : Bool := s.enforces z && !s.tripsAt z

/-- The standing of a zone after the enforcement transition of the published set (R101, R102). -/
def State.standingAfter (s : State) (z : Fin 8) : Standing :=
  enforce s.ps.working (zoneItem s.ps.working z).maximum (demandOf s z) s.zc.standing[z]

/-- The zone has counted its release delay in full at the published set (R102). -/
def State.freesAt (s : State) (z : Fin 8) : Bool :=
  s.movesAt z && freeDue s.ps.working (demandOf s z) s.zc.standing[z] (s.standingAfter z)

/-- The zone opens a FLOOR episode at the published set (R103). -/
def State.floorsAt (s : State) (z : Fin 8) : Bool := s.movesAt z && opensFloor s.zc.standing[z] (s.standingAfter z)

/-- The record of a zone after the published set, on its standing for the set (R98 to R104, R111). -/
def State.recordAfter (s : State) (z : Fin 8) : Controller :=
  let item := zoneItem s.ps.working z
  let c := s.zc.zones[z]
  let before := s.zc.standing[z]
  if s.movesAt z then
    { c.apply item.maximum (s.standingAfter z)
        (judgePersistence item.tripLevel s.mb.published[z].peak before.persistence) with
      lastDemand := demandOf s z
      floorLatch := c.floorLatch || (s.floorsAt z && !s.latchesHeld) }
  else if s.tripsAt z then { c with persistence := min 8 (before.persistence + 1), lastDemand := .absent }
  else { c with persistence := 0, lastDemand := .absent }

/-- The FLOOR alerts of a published set, by zone, unless held back (R103, R111). -/
def State.floorAlerts (s : State) : List Alert :=
  if s.latchesHeld then []
  else
    ((List.finRange 8).filter s.floorsAt).map fun z =>
      { kind := .floor, urgent := true, subject := some z.val, minute := s.stamp
        detail := intWord (demandOf s z).number }

/-- ZC takes the published set: the records, the FLOOR alerts, and the trips and the entries into FREE that become due;
a zone moved into or out of silence since the last frame enters no FREE (R100, log 4, log 27; the minute of day of a
FLOOR alert: log 33). -/
def State.takeSet (s : State) : State :=
  let due := { s.due with
    trips := s.due.trips ++ (List.finRange 8).filter s.tripsAt
    frees := s.due.frees ++ (List.finRange 8).filter fun z => s.freesAt z && !s.zc.zones[z].disturbed }
  ({ s.setZones (Vector.ofFn s.recordAfter) with due := due } : State).raiseAlerts s.floorAlerts

/-- A zone trips: the hold, the resolution, and the latch and alert unless held back (R105, R111); the minute of day of
its alert: log 33. -/
def State.tripZone (s : State) (z : Fin 8) : State :=
  let s : State := { s with due := { s.due with trips := s.due.trips.filter (· != z) } }
  let c := s.zc.zones[z]
  let held := s.latchesHeld
  let s := s.resolveWith z
    { c with tripHold := true, persistence := 0, tripLatch := c.tripLatch || !held }
  if held then s else s.raise .trip true (some z.val) (intWord s.mb.published[z].peak)

/-- A zone in HOLD enters FREE (R102). -/
def State.freeZone (s : State) (z : Fin 8) : State :=
  let s : State := { s with due := { s.due with frees := s.due.frees.filter (· != z) } }
  let c := s.zc.zones[z]
  if c.state = .hold then s.setZone z { c with state := .free, releaseCount := 0, floorEpisode := false } else s

/-! ### Start-up and swap -/

/-- A zone's record after a reset, before its resolution: OFF, or at its maximum (R93). -/
def Controller.startUp (item : ZoneItem) : Controller :=
  if item.enabled then { Controller.off item.maximum with state := .hold } else Controller.off item.maximum

/-- The zone records after a reset (R93). -/
def startZones (bank : Bank) (stop : Bool) (limits : Vector (Option LimitEntry) 6) : Vector Controller 8 :=
  Vector.ofFn fun z =>
    { resolveZone bank stop limits z (Controller.startUp (zoneItem bank z)) with disturbed := false }

/-- ZC brings one record into line with a new plan, before the derivation (R96, R116). -/
def alignZone (old new : Bank) (z : Fin 8) (c : Controller) : Controller :=
  let item := zoneItem new z
  if !item.enabled then
    if c.state = .off then { c with attenuation := item.maximum } else c.silence .off item.maximum
  else if !(zoneItem old z).enabled then c
  else
    { c with
      attenuation := if c.state.silencing then item.maximum else min c.attenuation item.maximum
      persistence := if item.tripPresent then c.persistence else 0 }

/-- ZC brings its records into line with a new plan (R116). -/
def State.alignZones (s : State) (old new : Bank) : State :=
  s.setZones (Vector.ofFn fun z => alignZone old new z s.zc.zones[z])

end Sys2Proof.Machine
end

