-- ==== Sys2Proof/Machine/PlanStore.lean ====
section
/-! DEFINITION. The plan store's events: the completions of timed operations, the swap, and the derivation that
follows it (R118 to R146, R34, R80, R115). -/

namespace Sys2Proof.Machine

/-! ### Completions -/

/-- COMMITTING ends: the page is in the shadow (R130, R120). -/
def State.completeCommit (s : State) (op : Operation) : State :=
  match s.ps.staging with
  | none => s.endOperation op .done 0
  | some st =>
    let s : State := { s with ps := { s.ps with
      shadow := setPage s.ps.shadow st.page st.slots
      shadowState := if s.ps.shadowState = .damaged then .damaged else .edited
      staging := none } }
    s.endOperation op .done (natWord st.page.val)

/-- COPYING ends (R131, R120). -/
def State.completeCopy (s : State) (op : Operation) : State :=
  let s : State := { s with ps := { s.ps with shadow := s.ps.working, shadowState := .clean } }
  s.endOperation op .done 0

/-- RECALLING ends (R132, R120). -/
def State.completeRecall (s : State) (op : Operation) : State :=
  let state : ShadowState := if s.ps.retained = s.ps.working then .clean else .edited
  let s : State := { s with ps := { s.ps with shadow := s.ps.retained, shadowState := state } }
  s.endOperation op .done (natWord (shadowCode state))

/-- CHECKING ends: the checks, and the lock comparison when PLAN LOCK is asserted now (R134). -/
def State.completeCheck (s : State) (op : Operation) : State :=
  match checkPlan s.ps.shadow with
  | some f => s.endOperation op .checkFailed (checkDetail f.page f.slot f.code)
  | none =>
    match (if s.planLock then lockComparison s.ps.shadow s.ps.working else none) with
    | some (p, i) => s.endOperation op .locked (checkDetail p i 0)
    | none =>
      let s : State := { s with ps := { s.ps with activationPending := true } }
      s.endOperation op .accepted (natWord (planId s.ps.shadow))

/-- RETAINING ends (R142). -/
def State.completeRetain (s : State) (op : Operation) : State :=
  let s : State := { s with ps := { s.ps with retained := s.ps.working, retainedState := .valid } }
  s.endOperation op .done (natWord (planId s.ps.working))

/-- An operation completes, whichever it is (R124). -/
def State.completeOperation (s : State) (op : Operation) : State :=
  match op.kind with
  | .committing => s.completeCommit op
  | .copying => s.completeCopy op
  | .recalling => s.completeRecall op
  | .checking => s.completeCheck op
  | .retaining => s.completeRetain op

/-- An operation that has reached the upper bound of its duration completes (R124, log 25). -/
def State.completeOverdue (s : State) : State :=
  match s.ps.operation with
  | none => s
  | some op => if opBoundMs op.kind * Config.framesPerMs ≤ op.frames then s.completeOperation op else s

/-- One more frame sent while an operation is in progress. -/
def State.countOperationFrame (s : State) : State :=
  { s with ps := { s.ps with operation := s.ps.operation.map fun op => { op with frames := op.frames + 1 } } }

/-! ### The swap -/

/-- The swap is performed: the working bank takes the shadow and every block aligns itself (R139). -/
def State.performSwap (s : State) : State :=
  let old := s.ps.working
  let new := s.ps.shadow
  let s : State := { s with ps := { s.ps with
    working := new, planState := .active, shadowState := .clean, activationPending := false } }
  let s := s.setOutcome .swap .activated (natWord (planId new))
  let s := s.raise .activated false none (natWord (planId new))
  let s : State := { s with be := s.be.align old new, ea := s.ea.align old new }
  s.alignZones old new

/-- The activation is dropped at the swap (R138, R140). -/
def State.dropSwap (s : State) (page slot : Nat) : State :=
  let s : State := { s with ps := { s.ps with activationPending := false } }
  let s := s.setOutcome .swap .dropped (checkDetail page slot 0)
  s.raise .activationDropped false none (checkDetail page slot 0)

/-- A pending activation may be taken up now: no RETAIN is in progress (R137). -/
def State.swapReady (s : State) : Bool :=
  s.ps.activationPending && !(s.ps.operation.any fun op => op.kind == .retaining)

/-- The swap at a minute boundary or step: performed, or dropped by the lock comparison (R138). -/
def State.takeSwap (s : State) : State :=
  match (if s.planLock then lockComparison s.ps.shadow s.ps.working else none) with
  | some (page, slot) => s.dropSwap page slot
  | none => s.performSwap

/-- TB derives the limits in force, EA records them, and ZC resolves every zone (R28, R34, R80, R115). -/
def State.derive (s : State) : State :=
  let limits := deriveLimits s.ps.working s.tb.isSet s.tb.minute
  let s : State := { s with tb := { s.tb with limits := limits }, ea := s.ea.startMinute limits }
  s.resolveAll

/-- What follows a close: the swap when one is ready, which is a step of its own and then due, or the
derivation at once (R28). -/
def State.afterClose (s : State) : State :=
  if s.swapReady then { s with due := { s.due with swap := true } } else s.derive

/-- The due swap is taken, and the derivation follows it (R28, R138). -/
def State.swapNow (s : State) : State :=
  let s : State := { s with due := { s.due with swap := false } }
  (if s.swapReady then s.takeSwap else s).derive

end Sys2Proof.Machine
end

