-- ==== Sys2Proof/Machine/Time.lean ====
section
/-! DEFINITION. The time base: counting intervals, minute boundaries, trims and steps, and the interval end with
everything that is due after it (R26 to R33, R40, R45, R46). -/

namespace Sys2Proof.Machine

/-! ### Minute boundaries and settings -/

/-- The minute after a minute of day (R27). -/
def nextMinute (minute : Nat) : Nat := if 1439 ≤ minute then 0 else minute + 1

/-- A minute boundary: the close, the next minute, and what follows a close (R27, R28). -/
def State.boundaryNow (s : State) : State :=
  let s := s.closeMinute s.tb.stepStart
  let s : State := { s with
    tb := { s.tb with minute := nextMinute s.tb.minute, position := 0, tally := 0, drift := 0, stepStart := false } }
  s.afterClose

/-- The interval position a setting asks for (02 section 2.2). -/
def Setting.target (set : Setting) : Nat := set.second * 8

/-- A setting is a trim (R30). -/
def isTrim (tb : Tb) (set : Setting) : Bool :=
  let move : Int := (set.target : Int) - (tb.position : Int)
  tb.isSet && set.minute == tb.minute && decide (move.natAbs ≤ 16) && decide ((tb.drift + move).natAbs ≤ 16)

/-- The reply to a setting that has acted (R33). -/
def State.answerSetting (s : State) (set : Setting) (detail : Nat) : State :=
  s.answerData Config.kTimeSet set.tag detail [natWord s.tb.minute, natWord s.tb.position]

/-- A trim (R31). -/
def State.trim (s : State) (set : Setting) : State :=
  let move : Int := (set.target : Int) - (s.tb.position : Int)
  let s : State := { s with
    tb := { s.tb with position := set.target, drift := s.tb.drift + move, setting := none } }
  s.answerSetting set 1

/-- A step: the close of a partial minute, the new minute and position, and what follows a close (R32). -/
def State.stepTime (s : State) (set : Setting) : State :=
  let s := s.closeMinute true
  let s : State := { s with
    tb := { s.tb with isSet := true, minute := set.minute, position := set.target, tally := 0, drift := 0,
                      stepStart := true, setting := none } }
  (s.answerSetting set 2).afterClose

/-- The pending setting acts (R30). -/
def State.settingNow (s : State) : State :=
  match s.tb.setting with
  | none => s
  | some set => if isTrim s.tb set then s.trim set else s.stepTime set

/-! ### The interval end -/

/-- MB publishes the set and its records return to 0 (R43 to R45). -/
def State.publish (s : State) : State :=
  { s with mb :=
      { published := Vector.ofFn fun z => ⟨zoneLevel s.mb.meters[z].energy, zonePeak s.mb.meters[z].peak⟩
        meters := Vector.replicate 8 Meter.zero } }

/-- TB counts the interval, and its setting or minute boundary becomes due (R27). -/
def State.countInterval (s : State) : State :=
  let position := s.tb.position + 1
  { s with
    tb := { s.tb with position := position, tally := s.tb.tally + 1 }
    due := { s.due with
      tb := if s.tb.setting.isSome then some .setting
            else if position = Config.minuteIntervals then some .minuteBoundary
            else none } }

/-- The interval end: publish, estimates, silence count, accumulation, zone control, interval count (R40, R46). -/
def State.intervalNow (s : State) : State :=
  s.publish.formEstimates.countSilence.accumulate.takeSet.countInterval

/-- The frame counts have reached 6000, so an interval end is to be taken (R40). -/
def State.intervalComplete (s : State) : Bool :=
  s.mb.meters.toList.all fun m => m.frames == Config.intervalFrames

/-! ### What is due after an interval end -/

/-- Take what is due of the published set: falls into STALE, trips, entries into FREE (R64, R105, R102). It comes before
the setting or minute boundary of the same interval end, which the manual does not order: the model's choice
(log 33). Each part is taken as its own row takes it, while it is due. -/
def State.finishSet (s : State) : State :=
  let s := s.due.stale.foldl (fun s m => if s.due.stale.contains m then s.makeStale m else s) s
  let s := s.due.trips.foldl (fun s z => if s.due.trips.contains z then s.tripZone z else s) s
  s.due.frees.foldl (fun s z => if s.due.frees.contains z then s.freeZone z else s) s

/-- Take the due setting or minute boundary (R27). -/
def State.finishTime (s : State) : State :=
  match s.due.tb with
  | none => s
  | some .setting => ({ s with due := { s.due with tb := none } } : State).settingNow
  | some .minuteBoundary => ({ s with due := { s.due with tb := none } } : State).boundaryNow

/-- Take the due swap (R28). -/
def State.finishSwap (s : State) : State := if s.due.swap then s.swapNow else s

/-- Before a command from outside: the rest of the published set, and of a close that has begun (log 4). -/
def State.settle (s : State) : State := s.finishSet.finishSwap

/-- Everything due of an interval end that has begun (log 4). -/
def State.settleAll (s : State) : State := s.settle.finishTime.finishSwap

/-- Before the next frame: the interval end that the frame counts call for, and everything due (R48). -/
def State.settleFrame (s : State) : State :=
  let s := s.settleAll
  if s.intervalComplete then s.intervalNow.settleAll else s

end Sys2Proof.Machine
end

