-- ==== Sys2Proof/Machine/GeneralRequests.lean ====
section
/-! DEFINITION. The requests owned by MU, TB and SS: IDENTIFY, STATUS, ALARM STATUS, CLEAR ALARMS, TIME SET and
RESTART (R181 to R184, R29, R197). -/

namespace Sys2Proof.Machine

/-- IDENTIFY is taken (R181). -/
def State.takeIdentify (s : State) (tag : Byte) : State :=
  s.answerData Config.kIdentify tag 0 (Config.identity.map natWord)

/-- The three words of the last outcome (R182). -/
def outcomeWords : Option LastOutcome → List Word16
  | none => [absentWord, absentWord, absentWord]
  | some o => [natWord (sourceCode o.source), natWord (outcomeResultCode o.result), o.detail]

/-- The code of the operation, 0 while IDLE (R182). -/
def operationCode (ps : Ps) : Nat := (ps.operation.map fun op => opCode op.kind).getD 0

/-- The data of STATUS (R182). -/
def statusData (s : State) : List Word16 :=
  [natWord (if s.tb.isSet then 2 else 1), natWord s.tb.minute, natWord s.tb.position,
   natWord (planStateCode s.ps.planState), natWord (planId s.ps.working),
   natWord (shadowCode s.ps.shadowState), natWord (retainedCode s.ps.retainedState),
   flagWord s.ps.staging.isSome, optWord (s.ps.staging.map (·.page.val)),
   natWord (operationCode s.ps), flagWord s.ps.activationPending]
  ++ outcomeWords s.ps.lastOutcome
  ++ [natWord (supplyCode s.supply), flagWord s.venueStop, flagWord s.planLock, flagWord s.zc.tripLine,
      natWord (receiverCode s.lrx.receiver),
      natWord s.mu.inbound.length, natWord s.mu.replies.length, natWord s.mu.alerts.length,
      natWord s.mu.reports.length, natWord s.repliesOwed,
      flagWord s.mu.alertsLost, flagWord s.mu.reportsLost]

/-- STATUS is taken (R182). -/
def State.takeStatus (s : State) (tag : Byte) : State := s.answerData Config.kStatus tag 0 (statusData s)

/-- The data of ALARM STATUS (R183). -/
def alarmStatusData (s : State) : List Word16 :=
  [zoneLatchWord s.zc.zones, breachLatchWord s.ea.latches [0, 1, 2, 3], breachLatchWord s.ea.latches [4, 5],
   tripHoldWord s.zc.zones, flagWord s.zc.tripLine]

/-- ALARM STATUS is taken (R183). -/
def State.takeAlarmStatus (s : State) (tag : Byte) : State :=
  s.answerData Config.kAlarmStatus tag 0 (alarmStatusData s)

/-- The latches that the masks name are cleared (R184). -/
def State.clearLatches (s : State) (mask1 mask2 mask3 : Word16) : State :=
  { s with
    zc := { s.zc with zones := Vector.ofFn fun z => clearZoneLatches mask1 z s.zc.zones[z] }
    ea := { s.ea with latches := Vector.ofFn fun b => (s.ea.latches[b]).without (breachMask mask2 mask3 b) } }

/-- How many latches are set. -/
def State.latchCount (s : State) : Nat := zoneLatchCount s.zc.zones + breachLatchCount s.ea.latches

/-- CLEAR ALARMS is taken (R184). -/
def State.takeClearAlarms (s : State) (tag : Byte) (mask1 mask2 mask3 : Word16) : State :=
  if mask3 >>> 8 ≠ 0 then s.answer Config.kClearAlarms tag .badArgument 3
  else if s.supply = .low then s.answer Config.kClearAlarms tag .refused 1
  else
    let cleared := s.clearLatches mask1 mask2 mask3
    cleared.answer Config.kClearAlarms tag .done (s.latchCount - cleared.latchCount)

/-- A setting in range becomes the pending setting; one it replaces is answered ABORTED. A setting whose interval
end has been counted acts first (R29). -/
def State.placeSetting (s : State) (setting : Setting) : State :=
  let s := if s.due.tb = some .setting then s.finishTime.finishSwap else s
  let s := match s.tb.setting with
    | some old => s.answer Config.kTimeSet old.tag .aborted 0
    | none => s
  { s with tb := { s.tb with setting := some setting } }

/-- TIME SET is taken (R29). -/
def State.takeTimeSet (s : State) (tag : Byte) (minute second : Word16) : State :=
  if 1439 < minute.toNat then s.answer Config.kTimeSet tag .badArgument 1
  else if 59 < second.toNat then s.answer Config.kTimeSet tag .badArgument 2
  else s.placeSetting ⟨minute.toNat, second.toNat, tag⟩

/-- RESTART is taken: BUSY, or the restart is scheduled for the end of the frame in flight (R197). -/
def State.takeRestart (s : State) (tag : Byte) : State :=
  match s.ps.operation with
  | some op => s.answer Config.kRestart tag .busy (opCode op.kind)
  | none => { s with due := { s.due with restart := true } }

end Sys2Proof.Machine
end

