-- ==== Sys2Proof/Machine/Links.lean ====
section
/-! DEFINITION. The link receiver: bits and sync search, the lane assembler, frames taken, leaving LOCKED and the
loss of carrier (R148 to R155, R163, R169 to R173). -/

namespace Sys2Proof.Machine

/-! ### The inbound queue -/

/-- A completed message enters the inbound queue, overwriting the newest of a full one (R173). -/
def State.pushInbound (s : State) (m : Message) : State :=
  { s with
    mu := { s.mu with inbound := pushOver Config.inboundCap s.mu.inbound m }
    lrx := { s.lrx with flags := { s.lrx.flags with
      laneOverrun := s.lrx.flags.laneOverrun || decide (Config.inboundCap ≤ s.mu.inbound.length) } } }

/-! ### The lane assembler -/

/-- Put the assembler into a state. -/
def State.setAssembler (s : State) (a : Assembler) : State := { s with lrx := { s.lrx with assembler := a } }

/-- LANE_PARITY becomes set. -/
def State.setLaneParity (s : State) : State := s.withFlags { s.lrx.flags with laneParity := true }

/-- A word other than fill, in IDLE, is a header (R170). -/
def State.takeHeader (s : State) (value : Word16) (good : Bool) : State :=
  let length := value.toNat % 256
  if !good then (s.setLaneParity).setAssembler .skip
  else if length = 0 ∨ 40 < length then s.setAssembler .skip
  else s.setAssembler (.collecting ⟨value, [], length, false⟩)

/-- The end of a message: discarded when damaged, else pushed (R171). -/
def State.endMessage (s : State) (part : PartialMessage) : State :=
  let s := s.setAssembler .idle
  if part.damaged then s.setLaneParity
  else s.pushInbound ⟨(part.header >>> 8).setWidth 8, part.words⟩

/-- A word is collected (R171). -/
def State.collect (s : State) (part : PartialMessage) (value : Word16) (good : Bool) : State :=
  let part := { part with
    words := part.words ++ [value], expected := part.expected - 1, damaged := part.damaged || !good }
  if part.expected = 0 then s.endMessage part else s.setAssembler (.collecting part)

/-- The assembler acts on a lane word (R170 to R172). -/
def State.assemble (s : State) (word : LinkWord) : State :=
  let value := laneValue word
  match s.lrx.assembler with
  | .idle => if value = Config.fillValue then s else s.takeHeader value (laneGood word)
  | .collecting part => s.collect part value (laneGood word)
  | .skip => if value = Config.fillValue then s.setAssembler .idle else s

/-- The assembler is told that lock is lost (R169). -/
def State.truncate (s : State) : State :=
  match s.lrx.assembler with
  | .collecting _ => (s.withFlags { s.lrx.flags with laneTruncated := true }).setAssembler .skip
  | .idle | .skip => s.setAssembler .skip

/-! ### Leaving LOCKED and losing the carrier -/

/-- A search begins with no bit received yet (R149, R154, R165). -/
def Lrx.beginSearch (l : Lrx) : Lrx :=
  { l with receiver := .search, mismatches := 0, window := 0, seen := 0, kept := [] }

/-- The effects of leaving LOCKED, but for the new receiver state and the alert (R154). -/
def State.unlock (s : State) : State :=
  let s := s.truncate
  { s with
    lrx := { s.lrx with
      mismatches := 0, fifo := [], flags := { s.lrx.flags with lockLost := true } }
    ltx := { s.ltx with primed := false } }

/-- Leave LOCKED for SEARCH, with the detail of the LINK alert (R154). -/
def State.leaveLocked (s : State) (detail : Nat) : State :=
  let s := s.unlock
  ({ s with lrx := s.lrx.beginSearch } : State).raise .link false none (natWord detail)

/-- The carrier count reaches 432; in NO_CARRIER it stands there already (R149). -/
def State.loseCarrier (s : State) : State :=
  if s.lrx.receiver = .noCarrier then s
  else
    let s := if s.lrx.receiver = .locked then s.unlock else s
    let s : State := { s with lrx := { s.lrx with
      receiver := .noCarrier, mismatches := 0, kept := [], carrier := Config.frameBits, changed := false
      flags := { s.lrx.flags with carrierLost := true } } }
    s.raise .link false none 4

/-! ### Bits -/

/-- The line changes level: the carrier count returns to 0, and the bit period that the change begins is one with a
change (R149). -/
def Lrx.change (l : Lrx) : Lrx := { l with carrier := 0, lineLevel := !l.lineLevel, changed := true }

/-- A bit period ends: the carrier count rises by one when the line did not change in it, held at 432
(R148, R149). -/
def Lrx.endPeriod (l : Lrx) : Lrx :=
  if l.changed then { l with carrier := 0, changed := false } else { l with carrier := min Config.frameBits (l.carrier + 1) }

/-- The carrier over one bit period, the line holding the level of the bit (R149, log 22). -/
def Lrx.track (l : Lrx) (bit : Bool) : Lrx := (if bit = l.lineLevel then l else l.change).endPeriod

/-- SEARCH examines a bit, and CONFIRM keeps it (R150, R151). -/
def Lrx.examine (l : Lrx) (bit : Bool) : Lrx :=
  match l.receiver with
  | .search =>
    let window := (l.window <<< 1) ||| (if bit then 1 else 0)
    let seen := min 24 (l.seen + 1)
    if seen = 24 ∧ window = Config.syncWord then
      { l with receiver := .confirm, window := window, seen := seen, kept := [] }
    else { l with window := window, seen := seen }
  | .confirm => { l with kept := l.kept ++ [bit] }
  | .noCarrier | .locked => l

/-- A list of bits as a link word, the first bit the most significant (R186). -/
def wordOfBits (bits : List Bool) : LinkWord :=
  bits.foldl (fun w b => (w <<< 1) ||| (if b then 1 else 0)) 0

/-- The candidate is abandoned: the kept bits are examined in order, as though it had never matched (R151). -/
def Lrx.abandonCandidate (l : Lrx) : Lrx :=
  l.kept.foldl Lrx.examine
    { l with receiver := .search, window := Config.syncWord, seen := 24, kept := [] }

/-- LRX enters LOCKED (R152). -/
def State.gainLock (s : State) : State :=
  ({ s with lrx := { s.lrx with receiver := .locked, mismatches := 0, window := 0, seen := 0, kept := [] } } :
    State).raise .link false none 3

/-- The comparison one frame after the candidate (R151). -/
def State.confirmCandidate (s : State) : State :=
  if wordOfBits (s.lrx.kept.drop (Config.frameBits - 24)) = Config.syncWord then s.gainLock
  else { s with lrx := s.lrx.abandonCandidate }

/-- A change of the program line's level, which takes LRX from NO_CARRIER to SEARCH (R149). -/
def State.lineChange (s : State) : State :=
  let l := s.lrx.change
  { s with lrx := if l.receiver = .noCarrier then l.beginSearch else l }

/-- A received bit is examined: in CONFIRM the 432nd of the bits kept decides the candidate (R150, R151). -/
def State.examineBit (s : State) (bit : Bool) : State :=
  let s : State := { s with lrx := s.lrx.examine bit }
  if s.lrx.receiver = .confirm ∧ s.lrx.kept.length = Config.frameBits then s.confirmCandidate else s

/-- The bit period of a received bit: the line changes to the bit's level when it differs, and the period counts for
the carrier (R149, log 22). -/
def State.passPeriod (s : State) (bit : Bool) : State :=
  let s := if bit = s.lrx.lineLevel then s else s.lineChange
  { s with lrx := s.lrx.endPeriod }

/-- Bits are received, in order: after its bit period each is examined as the receiver state then has it, unless the
carrier is lost with it (R149 to R151, log 23). -/
def State.receiveBits (s : State) (bits : List Bool) : State :=
  match bits with
  | [] => s
  | bit :: rest =>
    let s := s.passPeriod bit
    if s.lrx.carrier = Config.frameBits then s.loseCarrier.receiveBits rest
    else (s.examineBit bit).receiveBits rest

/-! ### Frames -/

/-- The bits of a link word, the most significant first (R186). -/
def wordBits (w : LinkWord) : List Bool := (List.range 24).map fun i => w.getMsbD i

/-- The bits of the sixteen sample words and the lane word (R147). -/
def bodyBits (samples : Samples) (lane : LinkWord) : List Bool := samples.toList.flatMap wordBits ++ wordBits lane

/-- The samples of a taken frame are pushed into the FIFO (R155). -/
def State.pushFifo (s : State) (samples : Samples) : State :=
  { s with lrx := { s.lrx with
      fifo := pushOver Config.fifoCap s.lrx.fifo samples
      flags := { s.lrx.flags with
        fifoOverflow := s.lrx.flags.fifoOverflow || decide (Config.fifoCap ≤ s.lrx.fifo.length) } } }

/-- The sync mismatch count after a sync position (R153). -/
def mismatchesAfter (count : Nat) (sync : LinkWord) : Nat := if sync = Config.syncWord then 0 else count + 1

/-- A frame whose sync position has been judged is taken when its lane word has been received; when the carrier is
lost before, it is discarded whole (R149, R153). A carrier count that reaches 432 at the very last bit of the lane word
also discards the frame, which is the model's choice (log 34). -/
def State.takeFrame (s : State) (samples : Samples) (lane : LinkWord) : State :=
  let s := s.receiveBits (bodyBits samples lane)
  if s.lrx.receiver = .locked then (s.pushFifo samples).assemble lane else s

/-- The mismatch count at the end of a sync position, and the loss of lock at the fourth mismatch in a row
(R153, R154). -/
def State.judgeSync (s : State) (sync : LinkWord) : State :=
  let count := mismatchesAfter s.lrx.mismatches sync
  if 4 ≤ count then s.leaveLocked 1 else { s with lrx := { s.lrx with mismatches := count } }

/-- The sync position of a frame in LOCKED (R149, R153). A carrier count that reaches 432 at the very bit that
completes a fourth mismatching sync word is taken as the loss of the carrier alone, which is the model's choice
(log 32). -/
def State.takeSync (s : State) (sync : LinkWord) : State :=
  let s := s.receiveBits (wordBits sync)
  if s.lrx.receiver = .locked then s.judgeSync sync else s

/-- A program frame arrives in LOCKED; when lock or the carrier is lost at its sync position, its other bits are
received in the state that leaves (R149, R153, R154). -/
def State.programFrame (s : State) (sync : LinkWord) (samples : Samples) (lane : LinkWord) : State :=
  let s := s.takeSync sync
  if s.lrx.receiver = .locked then s.takeFrame samples lane else s.receiveBits (bodyBits samples lane)

/-! ### RELOCK and LINK STATUS -/

/-- RELOCK by receiver state (R165). -/
def State.relock (s : State) : State :=
  match s.lrx.receiver with
  | .locked => s.leaveLocked 2
  | .confirm | .search => { s with lrx := s.lrx.beginSearch }
  | .noCarrier => s

/-- RELOCK is taken (R165). -/
def State.takeRelock (s : State) (tag : Byte) : State :=
  let before := receiverCode s.lrx.receiver
  s.relock.answer Config.kRelock tag .done before

/-- The data of LINK STATUS (R164). -/
def linkStatusData (s : State) : List Word16 :=
  [natWord (receiverCode s.lrx.receiver), natWord s.lrx.mismatches, natWord s.lrx.fifo.length,
   flagWord s.ltx.primed] ++ s.lrx.flags.toList.map flagWord

/-- LINK STATUS is taken: the flags are reported and cleared (R164). -/
def State.takeLinkStatus (s : State) (tag : Byte) : State :=
  (s.answerData Config.kLinkStatus tag 0 (linkStatusData s)).withFlags LinkFlags.clear

end Sys2Proof.Machine
end

