-- ==== Sys2Proof/Machine/PlanRequests.lean ====
section
/-! DEFINITION. The plan store's requests (R123 to R144). -/

namespace Sys2Proof.Machine

/-- BUSY while an operation is in progress, else the request is judged (R123). -/
def State.whenIdle (s : State) (kind tag : Byte) (judged : State) : State :=
  match s.ps.operation with
  | some op => s.answer kind tag .busy (opCode op.kind)
  | none => judged

/-- The staging discard (R125). -/
def State.discardStaging (s : State) : State := { s with ps := { s.ps with staging := none } }

/-- A timed operation begins, its reply owed (R124). -/
def State.begin (s : State) (kind : OpKind) (tag : Byte) : State :=
  { s with ps := { s.ps with operation := some ⟨kind, tag, 0⟩ } }

/-- The banks of the catalogue's bank codes 0, 1 and 2, each with the code of its state (R126, R185). -/
def bankOf (ps : Ps) (code : Nat) : Option (Bank × Nat) :=
  if code = 0 then some (ps.retained, retainedCode ps.retainedState)
  else if code = 1 then some (ps.working, planStateCode ps.planState)
  else if code = 2 then some (ps.shadow, shadowCode ps.shadowState)
  else none

/-- The code of STAGING as a bank (R185). -/
def stagingBank : Nat := 3

/-- The 48 words of a page (R187). -/
def pageWords (page : Page) : List Word16 := page.toList.flatMap splitSlot

/-- READ PAGE, judged (R126); the detail 0 of NOT_STAGED is the model's choice (log 31). -/
def State.judgeReadPage (s : State) (tag : Byte) (bank page : Word16) : State :=
  if bank.toNat = stagingBank then
    match s.ps.staging with
    | none => s.answer Config.kReadPage tag .notStaged 0
    | some st => s.answerData Config.kReadPage tag st.page (pageWords st.slots)
  else
    match bankOf s.ps bank.toNat with
    | none => s.answer Config.kReadPage tag .badArgument 1
    | some (content, code) =>
      if h : page.toNat < 11 then
        s.discardStaging.answerData Config.kReadPage tag code (pageWords content[page.toNat])
      else s.answer Config.kReadPage tag .badArgument 2

/-- READ PAGE is taken (R126). -/
def State.takeReadPage (s : State) (tag : Byte) (bank page : Word16) : State :=
  s.whenIdle Config.kReadPage tag (s.judgeReadPage tag bank page)

/-- STAGE PAGE, judged (R127). -/
def State.judgeStagePage (s : State) (tag : Byte) (bank page : Word16) : State :=
  match bankOf s.ps bank.toNat with
  | none => s.answer Config.kStagePage tag .badArgument 1
  | some (content, _) =>
    if h : page.toNat < 11 then
      if bank.toNat = 0 ∧ s.ps.retainedState = .invalid then s.answer Config.kStagePage tag .refused 2
      else
        ({ s with ps := { s.ps with staging := some ⟨⟨page.toNat, h⟩, content[page.toNat]⟩ } } : State).answer
          Config.kStagePage tag .done page.toNat
    else s.answer Config.kStagePage tag .badArgument 2

/-- STAGE PAGE is taken (R127). -/
def State.takeStagePage (s : State) (tag : Byte) (bank page : Word16) : State :=
  s.whenIdle Config.kStagePage tag (s.judgeStagePage tag bank page)

/-- WRITE SLOTS, judged (R128); the detail 0 of NOT_STAGED is the model's choice (log 31). -/
def State.judgeWriteSlots (s : State) (tag : Byte) (first : Word16) (values : List Slot) : State :=
  if 23 < first.toNat then s.answer Config.kWriteSlots tag .badArgument 1
  else
    match s.ps.staging with
    | none => s.answer Config.kWriteSlots tag .notStaged 0
    | some st =>
      ({ s with ps := { s.ps with
          staging := some { st with slots := writeConsecutive st.slots first.toNat values } } } : State).answer
        Config.kWriteSlots tag .done values.length

/-- WRITE SLOTS is taken (R128). -/
def State.takeWriteSlots (s : State) (tag : Byte) (first : Word16) (values : List Slot) : State :=
  s.whenIdle Config.kWriteSlots tag (s.judgeWriteSlots tag first values)

/-- The page checks of COMMIT PAGE at its taking (R129, R146). -/
def State.commitStaged (s : State) (tag : Byte) (st : Staging) : State :=
  match checkPage st.page st.slots with
  | some f =>
    let detail := checkDetail f.page f.slot f.code
    (s.setOutcome .commit (.reply .checkFailed) detail).queueReply
      { kind := Config.kCommitPage, tag := tag, result := .checkFailed, detail := detail, data := [] }
  | none => s.begin .committing tag

/-- COMMIT PAGE, judged (R129); the detail 0 of PENDING and of NOT_STAGED is the model's choice (log 31). -/
def State.judgeCommit (s : State) (tag : Byte) : State :=
  if s.ps.activationPending then s.answer Config.kCommitPage tag .pending 0
  else
    match s.ps.staging with
    | none => s.answer Config.kCommitPage tag .notStaged 0
    | some st => s.commitStaged tag st

/-- COMMIT PAGE is taken (R129). -/
def State.takeCommit (s : State) (tag : Byte) : State := s.whenIdle Config.kCommitPage tag (s.judgeCommit tag)

/-- COPY WORKING is taken (R131); the detail 0 of PENDING is the model's choice (log 31). -/
def State.takeCopy (s : State) (tag : Byte) : State :=
  s.whenIdle Config.kCopyWorking tag <|
    if s.ps.activationPending then s.answer Config.kCopyWorking tag .pending 0
    else s.discardStaging.begin .copying tag

/-- RECALL RETAINED is taken (R132); the detail 0 of PENDING is the model's choice (log 31). -/
def State.takeRecall (s : State) (tag : Byte) : State :=
  s.whenIdle Config.kRecallRetained tag <|
    if s.ps.activationPending then s.answer Config.kRecallRetained tag .pending 0
    else if s.ps.retainedState ≠ .valid then
      s.answer Config.kRecallRetained tag .refused (retainedCode s.ps.retainedState)
    else s.discardStaging.begin .recalling tag

/-- ACTIVATE is taken (R133); the detail 0 of PENDING is the model's choice (log 31). -/
def State.takeActivate (s : State) (tag : Byte) : State :=
  s.whenIdle Config.kActivate tag <|
    if s.ps.shadowState = .damaged then s.answer Config.kActivate tag .refused 3
    else if s.ps.activationPending then s.answer Config.kActivate tag .pending 0
    else s.discardStaging.begin .checking tag

/-- The pending activation is cancelled (R136, R146). -/
def State.cancelPending (s : State) : State :=
  let s := s.discardStaging
  ({ s with ps := { s.ps with activationPending := false } } : State).setOutcome .cancel (.reply .done) 0

/-- CANCEL ACTIVATION is taken (R136). -/
def State.takeCancel (s : State) (tag : Byte) : State :=
  s.whenIdle Config.kCancelActivation tag <|
    if s.ps.activationPending then s.cancelPending.answer Config.kCancelActivation tag .done 0
    else s.answer Config.kCancelActivation tag .refused 0

/-- RETAIN is taken: the retained state becomes INVALID and RETAINING begins (R141). -/
def State.takeRetain (s : State) (tag : Byte) : State :=
  s.whenIdle Config.kRetain tag <|
    if s.supply = .low then s.answer Config.kRetain tag .refused 1
    else
      let s := s.discardStaging
      ({ s with ps := { s.ps with retainedState := .invalid } } : State).begin .retaining tag

/-- ABORT is taken (R144). -/
def State.takeAbort (s : State) (tag : Byte) : State :=
  match s.ps.operation with
  | some op => ((s.stopOperation op 1).discardStaging).answer Config.kAbort tag .done (opCode op.kind)
  | none => s.discardStaging.answer Config.kAbort tag .done 0

end Sys2Proof.Machine
end

