-- ==== Sys2Proof/Machine/StartUp.lean ====
section
/-! DEFINITION. The supply against its thresholds, the loss of power and the two resets (R193 to R196, R198). -/

namespace Sys2Proof.Machine

/-- The plan the part starts with (R119). -/
def startPlan (ps : Ps) : Bank := if ps.retainedState = .valid then ps.retained else blankBank

/-- The plan store after either reset (R119). -/
def Ps.startUp (ps : Ps) : Ps :=
  { retained := ps.retained, retainedState := ps.retainedState, working := startPlan ps
    planState := if ps.retainedState = .valid then .active else .noPlan
    shadow := startPlan ps, shadowState := .clean, staging := none, operation := none
    activationPending := false, lastOutcome := none }

/-- The detail of STARTED: cause, retained state and plan state (R191). -/
def startedDetail (cause : Nat) (ps : Ps) : Word16 :=
  natWord (cause + 2 ^ 4 * retainedCode ps.retainedState + 2 ^ 8 * planStateCode ps.planState)

/-- The supply state that SS sets at a reset from the supply's level (R193). -/
def supplyAt (level : Nat) : SupplyState := if Config.operatingThreshold ≤ level then .normal else .low

/-- Every block in its reset state, before STARTED is raised (R198). The lines keep their levels, and the
drive link its last frame. -/
def State.resetBlocks (s : State) (level : Nat) : State :=
  let ps := s.ps.startUp
  let supply := supplyAt level
  let limits := deriveLimits ps.working false 0
  let zones := startZones ps.working (s.venueStop || supply != .normal) limits
  { s with
    supply := supply
    supplyLevel := level
    lrx := Lrx.reset s.lrx.lineLevel
    ltx := Ltx.reset
    mu := Mu.reset
    tb := { Tb.reset with limits := limits }
    mb := Mb.reset
    be := Be.startUp ps.working
    ea := Ea.startUp ps.working limits
    zc := { zones := zones, tripLine := false, standing := zones.map Controller.standing }
    ps := ps
    due := Due.none }

/-- A reset cuts short a RETAIN in progress: writing stops, with no reply and no outcome, and the retained bank and the
retained state stay as they then stand (R119, R141, R145, log 6). -/
def State.cutRetain (s : State) : State :=
  if s.ps.operation.any fun op => op.kind == .retaining then
    { s with ps := stoppedBanks s.stops s.ps .retaining, stops := s.stops + 1 }
  else s

/-- A reset with its cause, 1 a power reset and 2 a restart, at a level of the supply: the reset states, then STARTED,
then SUPPLY when the supply is LOW (R198). -/
def State.startUp (s : State) (cause level : Nat) : State :=
  let s := s.cutRetain.resetBlocks level
  let s := s.raiseAlert
    { kind := .started, urgent := false, subject := none, minute := none, detail := startedDetail cause s.ps }
  if s.supply = .low then s.raise .supply true none 1 else s

/-- The supply enters LOW (R194): a RETAIN is abandoned, the zones are resolved, and SUPPLY is raised. -/
def State.enterLow (s : State) : State :=
  let s : State := { s with supply := .low }
  let s := match s.ps.operation with
    | some op => if op.kind = OpKind.retaining then s.stopOperation op 2 else s
    | none => s
  s.resolveAll.raise .supply true none 1

/-- The supply enters NORMAL from LOW (R195). -/
def State.enterNormal (s : State) : State :=
  (({ s with supply := .normal } : State).resolveAll).raise .supply true none 2

/-- The part stops: all state but the retained bank and the retained state is lost (R196, log 11). -/
def State.powerOff (s : State) : State :=
  { s with
    supply := .off
    lrx := Lrx.reset s.lrx.lineLevel
    ltx := Ltx.reset
    driveOut := none
    mu := Mu.reset
    tb := Tb.reset
    mb := Mb.reset
    be := Be.empty
    ea := Ea.empty
    zc := Zc.empty
    ps := Ps.blank s.ps.retained s.ps.retainedState
    due := Due.none }

/-- SS compares a new level of the supply with its thresholds: a fall is judged at the threshold, a rise at the
threshold plus its hysteresis, and a fall from NORMAL to OFF takes the entry into LOW first (R193; millivolts: log 14). -/
def State.supplyTo (s : State) (level : Nat) : State :=
  let s : State := { s with supplyLevel := level }
  match s.supply with
  | .normal =>
    if level < Config.retentionThreshold then s.enterLow.powerOff
    else if level < Config.operatingThreshold then s.enterLow
    else s
  | .low =>
    if level < Config.retentionThreshold then s.powerOff
    else if Config.operatingRise ≤ level then s.enterNormal
    else s
  | .off => s

end Sys2Proof.Machine
end

