-- ==== Sys2Proof/Machine/ZoneRequests.lean ====
section
/-! DEFINITION. The requests owned by ZC and EA: ZONE STATUS, MUTE ZONE, UNMUTE ZONE, CLEAR TRIP and BOUNDARY STATUS
(R106, R112 to R114, R89, R90). -/

namespace Sys2Proof.Machine

/-- Run a request on the zone its argument names; a number above 7 draws BAD_ARGUMENT with detail 1. -/
def State.onZone (s : State) (kind tag : Byte) (zone : Word16) (f : Fin 8 → State) : State :=
  if h : zone.toNat < 8 then f ⟨zone.toNat, h⟩ else s.answer kind tag .badArgument 1

/-- The two words of a last demand (R187). -/
def demandWords : Demand → List Word16
  | .absent => [absentWord, 0]
  | .unreached => [unreachedWord, 0]
  | .value d source =>
    [intWord d, natWord (source.boundary + 2 ^ 4 * source.isLf.toNat + 2 ^ 5 * source.isRunning.toNat)]

/-- The data of ZONE STATUS (R114). -/
def zoneStatusData (s : State) (z : Fin 8) : List Word16 :=
  let item := zoneItem s.ps.working z
  let c := s.zc.zones[z]
  let figures := s.mb.published[z]
  [flagWord item.enabled, flagWord item.isLow, natWord item.maximum,
   (item.tripLevel.map intWord).getD noneWord, natWord item.persistence]
  ++ listWords ((zoneChannels s.ps.working z).map natWord)
  ++ [natWord (zoneStateCode c.state), natWord c.attenuation, flagWord c.muted, flagWord c.tripHold,
      flagWord c.floorEpisode, natWord c.persistence, natWord c.releaseCount]
  ++ demandWords c.lastDemand
  ++ [flagWord c.tripLatch, flagWord c.floorLatch, intWord figures.level, intWord figures.peak]

/-- ZONE STATUS is taken (R114). -/
def State.takeZoneStatus (s : State) (tag : Byte) (zone : Word16) : State :=
  s.onZone Config.kZoneStatus tag zone fun z => s.answerData Config.kZoneStatus tag 0 (zoneStatusData s z)

/-- MUTE ZONE is taken (R112). -/
def State.takeMute (s : State) (tag : Byte) (zone : Word16) : State :=
  s.onZone Config.kMuteZone tag zone fun z =>
    let c := s.zc.zones[z]
    (s.resolveWith z { c with muted := true }).answer Config.kMuteZone tag .done c.muted.toNat

/-- UNMUTE ZONE is taken (R113). -/
def State.takeUnmute (s : State) (tag : Byte) (zone : Word16) : State :=
  s.onZone Config.kUnmuteZone tag zone fun z =>
    let c := s.zc.zones[z]
    (s.resolveWith z { c with muted := false }).answer Config.kUnmuteZone tag .done c.muted.toNat

/-- CLEAR TRIP is taken (R106). -/
def State.takeClearTrip (s : State) (tag : Byte) (zone : Word16) : State :=
  s.onZone Config.kClearTrip tag zone fun z =>
    let c := s.zc.zones[z]
    if c.state = .tripped then
      (s.resolveWith z { c with tripHold := false }).answer Config.kClearTrip tag .done 0
    else s.answer Config.kClearTrip tag .refused (zoneStateCode c.state)

/-- The words of an item of the figures that is absent with the estimates (R90). -/
def figureWord (f : Option BoundaryFigures) (word : BoundaryFigures → Word16) : Word16 :=
  (f.map word).getD absentWord

/-- The two words of a mapped monitor (R187). -/
def monitorWords (monitors : Vector Monitor 12) (m : Fin 12) : List Word16 :=
  [natWord (m.val + 1 + 2 ^ 4 * monitorStateCode monitors[m].state), natWord monitors[m].silence]

/-- The nine words of the selected entry (R76, R90, log 18). -/
def entryWords : Option RingEntry → List Word16
  | none => List.replicate 9 absentWord
  | some e =>
    [optWord e.minute, natWord e.count, natWord e.full, natWord e.lf, limitWord e.limitFull, limitWord e.limitLf,
     flagWord e.isPartial, flagWord e.unwatched, natWord (marksNat e.marks)]

/-- The entry a selector names: none for 0, else the k-th newest (R89). -/
def selectedEntry (ring : List RingEntry) (selector : Nat) : Option RingEntry :=
  if selector = 0 then none else ring.reverse[selector - 1]?

/-- The data of BOUNDARY STATUS that TB and BE give (R90, log 17). -/
def boundaryLevelWords (s : State) (b : Fin 6) (e : Estimator) (limits : LimitEntry) : List Word16 :=
  let f := e.figures
  [limitWord limits.full, limitWord limits.lf, optWord limits.segment,
   figureWord f fun x => natWord x.full.uncorrected, figureWord f fun x => natWord x.lf.uncorrected,
   figureWord f fun x => natWord x.full.corrected, figureWord f fun x => natWord x.lf.corrected,
   intWord e.correctionFull, intWord e.correctionLf,
   figureWord f fun x => intWord x.full.inUse, figureWord f fun x => intWord x.lf.inUse,
   figureWord f fun x => flagWord x.unwatched,
   figureWord f fun x => zoneSetWord x.full.responsible, figureWord f fun x => zoneSetWord x.lf.responsible,
   natWord e.ring.length, natWord (monitorsOf s.ps.working b).length]
  ++ (monitorsOf s.ps.working b).flatMap (monitorWords s.be.monitors)

/-- The data of BOUNDARY STATUS that EA gives (R90). -/
def accountWords (a : Account) (selector : Nat) : List Word16 :=
  [natWord a.count, optWord (a.minuteLevel false), optWord (a.minuteLevel true),
   optWord (a.runningLevel false), optWord (a.runningLevel true), natWord a.ring.length]
  ++ entryWords (selectedEntry a.ring selector)

/-- The data of BOUNDARY STATUS (R90). -/
def boundaryStatusData (s : State) (b : Fin 6) (selector : Nat) : List Word16 :=
  let enabled := (boundaryItem s.ps.working b).enabled
  [flagWord enabled, natWord (marksNat s.ea.latches[b])]
  ++ if enabled then
      boundaryLevelWords s b ((s.be.estimators[b]).getD Estimator.fresh)
        ((s.tb.limits[b]).getD ⟨.silent, .silent, none⟩)
      ++ accountWords ((s.ea.accounts[b]).getD Account.fresh) selector
    else []

/-- BOUNDARY STATUS is taken (R89). -/
def State.takeBoundaryStatus (s : State) (tag : Byte) (boundary selector : Word16) : State :=
  if h : boundary.toNat < 6 then
    if 14 < selector.toNat then s.answer Config.kBoundaryStatus tag .badArgument 2
    else s.answerData Config.kBoundaryStatus tag 0 (boundaryStatusData s ⟨boundary.toNat, h⟩ selector.toNat)
  else s.answer Config.kBoundaryStatus tag .badArgument 1

end Sys2Proof.Machine
end

