-- ==== Sys2Proof/Machine/Inbound.lean ====
section
/-! DEFINITION. MU's taking of inbound messages: the header checks, the routing to owners, and the order of taking
(R173 to R175). -/

namespace Sys2Proof.Machine

/-- The owner of a request takes it (R185). -/
def State.takeRequest (s : State) (tag : Byte) (r : Request) : State :=
  match r with
  | .identify => s.takeIdentify tag
  | .status => s.takeStatus tag
  | .linkStatus => s.takeLinkStatus tag
  | .alarmStatus => s.takeAlarmStatus tag
  | .clearAlarms mask1 mask2 mask3 => s.takeClearAlarms tag mask1 mask2 mask3
  | .timeSet minute second => s.takeTimeSet tag minute second
  | .zoneStatus zone => s.takeZoneStatus tag zone
  | .boundaryStatus boundary selector => s.takeBoundaryStatus tag boundary selector
  | .muteZone zone => s.takeMute tag zone
  | .unmuteZone zone => s.takeUnmute tag zone
  | .clearTrip zone => s.takeClearTrip tag zone
  | .relock => s.takeRelock tag
  | .restart => s.takeRestart tag
  | .readPage bank page => s.takeReadPage tag bank page
  | .stagePage bank page => s.takeStagePage tag bank page
  | .writeSlots first values => s.takeWriteSlots tag first values
  | .commitPage => s.takeCommit tag
  | .copyWorking => s.takeCopy tag
  | .recallRetained => s.takeRecall tag
  | .activate => s.takeActivate tag
  | .cancelActivation => s.takeCancel tag
  | .retain => s.takeRetain tag
  | .abort => s.takeAbort tag
  | .monitorReport id period flags full lf => s.takeReport id period flags full lf

/-- A message that fails a header check: dropped when it is a monitor report, else answered BAD_REQUEST (R175). -/
def State.rejectMessage (s : State) (m : Message) (check : Nat) : State :=
  if m.kind = Config.kMonitorReport then s
  else s.answer m.kind ((m.words.headD 0).setWidth 8) .badRequest check

/-- MU takes a message (R175). -/
def State.takeMessage (s : State) (m : Message) : State :=
  match decodeMessage m with
  | .ok (tag, r) => s.takeRequest tag r
  | .error check => s.rejectMessage m check

/-- Write the inbound queue. -/
def State.setInbound (s : State) (queue : List Message) : State := { s with mu := { s.mu with inbound := queue } }

/-- MU takes messages of a queue, oldest first, for as long as it may (R174). -/
def drainQueue : List Message → State → State
  | [], s => s.setInbound []
  | m :: rest, s =>
    if s.canTake then drainQueue rest ((s.setInbound rest).takeMessage m) else s.setInbound (m :: rest)

/-- MU takes messages of the inbound queue for as long as it may (R174). -/
def State.drain (s : State) : State := drainQueue s.mu.inbound s

/-- A complete message reaches MU (R173, R174, log 2). -/
def State.deliver (s : State) (m : Message) : State := (s.pushInbound m).drain

end Sys2Proof.Machine
end

