-- ==== Sys2Proof/Machine/GeneralCommands.lean ====
section
/-! DEFINITION. The commands that are general, time and link requests, and a bad request. -/

namespace Sys2Proof.Machine

/-- The answer of a meaning. -/
abbrev Result := Host.Outcome State Fault Refusal

/-- A command from outside the part: without effect in OFF (R196, log 11), else taken when what is due of an interval
end already taken has been brought to its end (log 4). -/
def State.outside (s : State) (f : State → State) : Result :=
  .next (if s.supply = .off then s else f s.settle)

/-- A complete message arrives (log 2). -/
def State.receive (s : State) (m : Message) : Result := s.outside fun s => s.deliver m

/-- IDENTIFY arrives (R181). -/
def execIdentify (tag : Byte) (s : State) : Result := s.receive (encodeRequest tag .identify)

/-- STATUS arrives (R182). -/
def execStatus (tag : Byte) (s : State) : Result := s.receive (encodeRequest tag .status)

/-- LINK STATUS arrives (R164). -/
def execLinkStatus (tag : Byte) (s : State) : Result := s.receive (encodeRequest tag .linkStatus)

/-- ALARM STATUS arrives (R183). -/
def execAlarmStatus (tag : Byte) (s : State) : Result := s.receive (encodeRequest tag .alarmStatus)

/-- CLEAR ALARMS arrives (R184). -/
def execClearAlarms (tag : Byte) (mask1 mask2 mask3 : Word16) (s : State) : Result := s.receive (encodeRequest tag (.clearAlarms mask1 mask2 mask3))

/-- TIME SET arrives (R29). -/
def execTimeSet (tag : Byte) (minute second : Word16) (s : State) : Result := s.receive (encodeRequest tag (.timeSet minute second))

/-- RELOCK arrives (R165). -/
def execRelock (tag : Byte) (s : State) : Result := s.receive (encodeRequest tag .relock)

/-- RESTART arrives (R197). -/
def execRestart (tag : Byte) (s : State) : Result := s.receive (encodeRequest tag .restart)

/-- A message that fails a header check arrives; the program lane carries no message of another length (R168, R175,
log 29). -/
def execBadRequest (kind : Byte) (words : List Word16) (s : State) : Result :=
  if 1 ≤ words.length ∧ words.length ≤ 40 then s.receive ⟨kind, words⟩ else .next s

end Sys2Proof.Machine
end

