-- ==== Sys2Proof/Machine/ZoneCommands.lean ====
section
/-! DEFINITION. The commands that concern zones, boundaries and monitors. -/

namespace Sys2Proof.Machine

/-- ZONE STATUS arrives (R114). -/
def execZoneStatus (tag : Byte) (zone : Word16) (s : State) : Result := s.receive (encodeRequest tag (.zoneStatus zone))

/-- BOUNDARY STATUS arrives (R89). -/
def execBoundaryStatus (tag : Byte) (boundary selector : Word16) (s : State) : Result := s.receive (encodeRequest tag (.boundaryStatus boundary selector))

/-- MUTE ZONE arrives (R112). -/
def execMuteZone (tag : Byte) (zone : Word16) (s : State) : Result := s.receive (encodeRequest tag (.muteZone zone))

/-- UNMUTE ZONE arrives (R113). -/
def execUnmuteZone (tag : Byte) (zone : Word16) (s : State) : Result := s.receive (encodeRequest tag (.unmuteZone zone))

/-- CLEAR TRIP arrives (R106). -/
def execClearTrip (tag : Byte) (zone : Word16) (s : State) : Result := s.receive (encodeRequest tag (.clearTrip zone))

/-- A MONITOR REPORT arrives (R66). -/
def execMonitorReport (tag : Byte) (id period flags full : Word16) (lf : Option Word16) (s : State) : Result := s.receive (encodeRequest tag (.monitorReport id period flags full lf))

/-- A step of the part itself, without effect in OFF and when it is not due (log 3). -/
def State.within (s : State) (due : Bool) (f : State → State) : Result :=
  .next (if s.supply ≠ .off ∧ due = true then f s else s)

/-- A LIVE monitor whose silence has reached the stale timeout falls STALE (R64). -/
def execMonitorStale (id : Nat) (s : State) : Result :=
  if h : 1 ≤ id ∧ id ≤ 12 then
    let m : Fin 12 := ⟨id - 1, by omega⟩
    s.within (s.due.stale.contains m) fun s => s.makeStale m
  else .next s

/-- A zone that has held for its release delay enters FREE (R102). -/
def execEnterFree (zone : Nat) (s : State) : Result :=
  if h : zone < 8 then s.within (s.due.frees.contains ⟨zone, h⟩) fun s => s.freeZone ⟨zone, h⟩ else .next s

/-- A zone whose peaks have met its trip level for its persistence trips (R105). -/
def execTrip (zone : Nat) (s : State) : Result :=
  if h : zone < 8 then s.within (s.due.trips.contains ⟨zone, h⟩) fun s => s.tripZone ⟨zone, h⟩ else .next s

end Sys2Proof.Machine
end

