-- ==== Sys2Proof/Machine/PlanCommands.lean ====
section
/-! DEFINITION. The commands of the plan store: its requests, the completions of its operations, and the swap. -/

namespace Sys2Proof.Machine

/-- READ PAGE arrives (R126). -/
def execReadPage (tag : Byte) (bank page : Word16) (s : State) : Result := s.receive (encodeRequest tag (.readPage bank page))

/-- STAGE PAGE arrives (R127). -/
def execStagePage (tag : Byte) (bank page : Word16) (s : State) : Result := s.receive (encodeRequest tag (.stagePage bank page))

/-- WRITE SLOTS arrives (R128). -/
def execWriteSlots (tag : Byte) (first : Word16) (values : List Slot) (s : State) : Result := s.receive (encodeRequest tag (.writeSlots first values))

/-- COMMIT PAGE arrives (R129). -/
def execCommitPage (tag : Byte) (s : State) : Result := s.receive (encodeRequest tag .commitPage)

/-- COPY WORKING arrives (R131). -/
def execCopyWorking (tag : Byte) (s : State) : Result := s.receive (encodeRequest tag .copyWorking)

/-- RECALL RETAINED arrives (R132). -/
def execRecallRetained (tag : Byte) (s : State) : Result := s.receive (encodeRequest tag .recallRetained)

/-- ACTIVATE arrives (R133). -/
def execActivate (tag : Byte) (s : State) : Result := s.receive (encodeRequest tag .activate)

/-- CANCEL ACTIVATION arrives (R136). -/
def execCancelActivation (tag : Byte) (s : State) : Result := s.receive (encodeRequest tag .cancelActivation)

/-- RETAIN arrives (R141). -/
def execRetain (tag : Byte) (s : State) : Result := s.receive (encodeRequest tag .retain)

/-- ABORT arrives (R144). -/
def execAbort (tag : Byte) (s : State) : Result := s.receive (encodeRequest tag .abort)

/-- The completion of an operation, when it is the one in progress (R124, log 3). -/
def State.completeWhen (s : State) (kind : OpKind) (f : State → Operation → State) : Result :=
  s.outside fun s =>
    match s.ps.operation with
    | some op => if op.kind = kind then f s op else s
    | none => s

/-- COMMITTING ends (R130). -/
def execCommittingCompletion (s : State) : Result := s.completeWhen .committing State.completeCommit

/-- COPYING ends (R131). -/
def execCopyingCompletion (s : State) : Result := s.completeWhen .copying State.completeCopy

/-- RECALLING ends (R132). -/
def execRecallingCompletion (s : State) : Result := s.completeWhen .recalling State.completeRecall

/-- CHECKING ends (R134). -/
def execCheckingCompletion (s : State) : Result := s.completeWhen .checking State.completeCheck

/-- RETAINING ends (R142). -/
def execRetainingCompletion (s : State) : Result := s.completeWhen .retaining State.completeRetain

/-- The pending activation is taken up, and the derivation follows (R138). -/
def execSwap (s : State) : Result := s.within s.due.swap State.swapNow

end Sys2Proof.Machine
end

