-- ==== Sys2Proof/Machine/Transmit.lean ====
section
/-! DEFINITION. The link transmitter and the meters: the choice of program or silence, the drive samples, the lane
word with the outbound arbiter, and the measuring of the frame sent (R41, R156 to R162, R177 to R179). -/

namespace Sys2Proof.Machine

/-! ### Program or silence -/

/-- The program frame LTX sends, if it sends one (R157). -/
def State.programFrameDue (s : State) : Option Samples :=
  match s.lrx.receiver, s.ltx.primed, s.lrx.fifo with
  | .locked, true, oldest :: _ => some oldest
  | .locked, false, oldest :: _ :: _ => some oldest
  | _, _, _ => none

/-- LTX finds the FIFO empty while primed and locked (R157). -/
def State.underflows (s : State) : Bool :=
  s.lrx.receiver == .locked && s.ltx.primed && s.lrx.fifo.isEmpty

/-- The effect of the decision on the FIFO, the primed flag and the link flags (R157). -/
def State.advanceFifo (s : State) : State :=
  if s.programFrameDue.isSome then
    { s with
      lrx := { s.lrx with fifo := s.lrx.fifo.tail }
      ltx := { s.ltx with primed := true } }
  else if s.underflows then s.withFlags { s.lrx.flags with fifoUnderflow := true }
  else s

/-- The drive sample of channel `n` of a program frame (R159). -/
def driveSample (bank : Bank) (zones : Vector Controller 8) (n : Nat) (sample : LinkWord) : LinkWord :=
  match channelZone bank n with
  | none => 0
  | some z => if zones[z].state.silencing then 0 else scaleSample sample zones[z].attenuation

/-- The sixteen samples of a silent frame (R157). -/
def silentSamples : Samples := Vector.replicate 16 0

/-- The sixteen drive samples of the next frame (R157, R159). -/
def State.driveSamples (s : State) : Samples :=
  match s.programFrameDue with
  | some program => Vector.ofFn fun n => driveSample s.ps.working s.zc.zones n.val program[n]
  | none => silentSamples

/-! ### The outbound arbiter -/

/-- The oldest urgent alert, with the alerts that remain (R179). -/
def takeUrgent : List Alert → Option (Alert × List Alert)
  | [] => none
  | a :: rest =>
    if a.urgent then some (a, rest)
    else (takeUrgent rest).map fun (found, others) => (found, a :: others)

/-- An alert is given (R177). -/
def State.giveAlert (s : State) (a : Alert) (rest : List Alert) : List Word16 × State :=
  (alertWords a s.mu.alertsLost,
   { s with
     mu := { s.mu with alerts := rest, alertsLost := false }
     ltx := { s.ltx with lastClass := .alert } })

/-- The oldest message of a class is given, when the class has one (R176 to R178). -/
def State.giveClass (s : State) (c : OutClass) : Option (List Word16 × State) :=
  match c with
  | .reply =>
    match s.mu.replies with
    | [] => none
    | r :: rest =>
      some (replyWords r,
        { s with mu := { s.mu with replies := rest }, ltx := { s.ltx with lastClass := .reply } })
  | .alert =>
    match s.mu.alerts with
    | [] => none
    | a :: rest => some (s.giveAlert a rest)
  | .report =>
    match s.mu.reports with
    | [] => none
    | r :: rest =>
      some (reportWords r s.mu.reportsLost,
        { s with
          mu := { s.mu with reports := rest, reportsLost := false }
          ltx := { s.ltx with lastClass := .report } })

/-- The classes in the rotating order after the last class served (R179). -/
def classOrder : OutClass → List OutClass
  | .reply => [.alert, .report, .reply]
  | .alert => [.report, .reply, .alert]
  | .report => [.reply, .alert, .report]

/-- The arbiter's choice: the words of the message given, header first, and the state after it (R179). -/
def State.choose (s : State) : Option (List Word16 × State) :=
  match takeUrgent s.mu.alerts with
  | some (a, rest) => some (s.giveAlert a rest)
  | none => (classOrder s.ltx.lastClass).findSome? s.giveClass

/-! ### The lane word -/

/-- Write the outbound lane position (R161). -/
def State.setLane (s : State) (sending : Option Transmission) (fillPending : Bool) : State :=
  { s with ltx := { s.ltx with sending := sending, fillPending := fillPending } }

/-- Send the word at a position of a message (R161). -/
def State.sendWord (s : State) (words : List Word16) (position : Nat) : Word16 × State :=
  (words.getD position Config.fillValue,
   if words.length ≤ position + 1 then s.setLane none true else s.setLane (some ⟨words, position + 1⟩) false)

/-- The lane value of the next frame, and the state after it (R161). -/
def State.nextLane (s : State) : Word16 × State :=
  match s.ltx.sending with
  | some t => s.sendWord t.words t.position
  | none =>
    if s.ltx.fillPending then (Config.fillValue, s.setLane none false)
    else
      match s.choose with
      | some (words, s) => s.sendWord words 0
      | none => (Config.fillValue, s)

/-! ### Measuring -/

/-- One drive sample measured into a record (R41). -/
def Meter.add (m : Meter) (sample : LinkWord) : Meter :=
  { m with energy := m.energy + sample.toInt.natAbs ^ 2, peak := max m.peak sample.toInt.natAbs }

/-- One drive frame measured into the record of a zone (R40, R41). -/
def measureZone (bank : Bank) (samples : Samples) (z : Fin 8) (m : Meter) : Meter :=
  let m := (List.finRange 16).foldl
    (fun m (n : Fin 16) => if channelZone bank n = some z then m.add samples[n] else m) m
  { m with frames := m.frames + 1 }

/-- MB measures a drive frame (R41). -/
def State.measure (s : State) (samples : Samples) : State :=
  { s with mb := { s.mb with
      meters := Vector.ofFn fun z => measureZone s.ps.working samples z s.mb.meters[z] } }

/-! ### The frame -/

/-- ZC keeps each zone's standing for the set as of this frame (R100). -/
def State.recordStanding (s : State) : State :=
  { s with zc := { s.zc with
      standing := s.zc.zones.map Controller.standing
      zones := s.zc.zones.map fun c => { c with disturbed := false } } }

/-- The frame goes out on the drive link (R156). -/
def State.putFrame (s : State) (samples : Samples) (lane : Word16) : State :=
  { s with driveOut := some ⟨Config.syncWord, samples, laneWord lane⟩ }

/-- LTX forms and sends one frame, and MB measures it (R156, R41). -/
def State.sendFrame (s : State) : State :=
  let samples := s.driveSamples
  let (lane, s) := s.advanceFifo.nextLane
  (((s.putFrame samples lane).measure samples).recordStanding).countOperationFrame

/-- Before the frame: the scheduled restart, or everything due of an interval end; and the completion of an
operation that has reached its bound (R166, R48, R124). Where an interval end and an operation's bound fall before one
frame and neither has come as its own row, the interval end is taken first, with its minute boundary and the decision on
a swap, and the completion after it, which is the model's choice (log 25). -/
def State.beforeFrame (s : State) : State :=
  (if s.due.restart then s.startUp 2 s.supplyLevel else s.settleFrame).completeOverdue

/-- One period of the word clock: the frame, and then the messages that MU may take now (R157, R174). -/
def State.framePeriod (s : State) : State := s.beforeFrame.sendFrame.drain

end Sys2Proof.Machine
end

