-- ==== Sys2Proof/Machine/TimeCommands.lean ====
section
/-! DEFINITION. The commands of the word clock and of device time. -/

namespace Sys2Proof.Machine

/-- One period of the word clock (R157). -/
def execDriveFrame (s : State) : Result := s.within true State.framePeriod

/-- The end of a meter interval, once 6000 frames have been measured (R40). -/
def execIntervalEnd (s : State) : Result := s.within s.intervalComplete fun s => s.settleAll.intervalNow

/-- The pending setting acts at an interval end that has been counted (R30). What is still due of the published set is
taken first, so its alerts carry the minute of day, or its absence, from before the setting: the model's choice
(log 33). -/
def execTimeSetAct (s : State) : Result :=
  s.within (s.due.tb == some .setting) fun s => s.finishSet.finishTime

/-- A minute boundary, when the count has brought the interval position to 480 (R27). What is still due of the
published set is taken first, so its alerts carry the closing minute of day: the model's choice (log 33). -/
def execMinuteBoundary (s : State) : Result :=
  s.within (s.due.tb == some .minuteBoundary) fun s => s.finishSet.finishTime

end Sys2Proof.Machine
end

