-- ==== Sys2Proof/Machine/LinkCommands.lean ====
section
/-! DEFINITION. The commands of the program link. -/

namespace Sys2Proof.Machine

/-- The program line changes level (R149). -/
def execLineTransition (s : State) : Result := s.outside State.lineChange

/-- 432 bit periods have passed without a change of the line (R149). -/
def execCarrierLost (s : State) : Result := s.outside State.loseCarrier

/-- Bits received in SEARCH (R150). -/
def execSyncCandidate (bits : List Bool) (s : State) : Result :=
  s.outside fun s => if s.lrx.receiver = .search then s.receiveBits bits else s

/-- Bits received in CONFIRM (R151). -/
def execSyncConfirm (bits : List Bool) (s : State) : Result :=
  s.outside fun s => if s.lrx.receiver = .confirm then s.receiveBits bits else s

/-- A program frame received in LOCKED (R153); MU then takes what it may. -/
def execFrameTaken (sync : LinkWord) (samples : Samples) (lane : LinkWord) (s : State) : Result :=
  s.outside fun s =>
    if s.lrx.receiver = .locked then (s.programFrame sync samples lane).drain else s

/-- The fourth sync mismatch in a row (R153, R154, log 24). -/
def execLockLost (sync : LinkWord) (s : State) : Result :=
  s.outside fun s =>
    if s.lrx.receiver = .locked ∧ s.lrx.mismatches = 3 ∧ sync ≠ Config.syncWord then s.takeSync sync else s

end Sys2Proof.Machine
end

