-- ==== Sys2Proof/Machine/SupplyCommands.lean ====
section
/-! DEFINITION. The commands of the input lines, the supply and the resets. -/

namespace Sys2Proof.Machine

/-- The level of VENUE STOP changes to a level it does not have (R108, R109, R199). -/
def State.stopChange (s : State) (asserted : Bool) (detail : Word16) : Result :=
  if s.venueStop = asserted then .next s
  else if s.supply = .off then .next { s with venueStop := asserted }
  else
    let s := s.settle
    .next ((({ s with venueStop := asserted } : State).resolveAll).raise .stop true none detail)

/-- VENUE STOP becomes asserted (R108). -/
def execVenueStopAsserted (s : State) : Result := s.stopChange true 1

/-- VENUE STOP becomes released (R109). -/
def execVenueStopReleased (s : State) : Result := s.stopChange false 2

/-- PLAN LOCK changes level (R199). -/
def execPlanLockChange (s : State) : Result :=
  let s := if s.supply = .off then s else s.settle
  .next { s with planLock := !s.planLock }

/-- The supply falls below the operating threshold (R194, log 3). -/
def execSupplyLow (s : State) (level : Nat := 2999) : Result :=
  s.outside fun s => if level < Config.operatingThreshold then s.supplyTo level else s

/-- The supply rises to a level at or above the operating threshold (R195, log 3). -/
def execSupplyNormal (s : State) (level : Nat := 3040) : Result :=
  s.outside fun s => if Config.operatingThreshold ≤ level then s.supplyTo level else s

/-- The supply falls below the retention threshold (R196, log 3). -/
def execSupplyOff (s : State) (level : Nat := 2699) : Result :=
  s.outside fun s => if level < Config.retentionThreshold then s.supplyTo level else s

/-- The supply rises to the retention threshold, judged with its hysteresis; in a part whose supply stands above it,
the loss of the supply comes first (R193, R196, R198, log 12). -/
def execPowerReset (level : Nat) (s : State) : Result :=
  .next
    (if level < Config.retentionRise then s
     else (if s.supply = .off then s else s.settle.supplyTo 0).startUp 1 level)

/-- The scheduled restart is performed, the supply state set from the supply as it stands, which is above the retention
threshold in a part that has not stopped (R166, R193, R198, logs 3 and 13). -/
def execRestartPerformed (level : Nat) (s : State) : Result :=
  s.within (s.due.restart && decide (Config.retentionThreshold ≤ level)) fun s => s.startUp 2 level

end Sys2Proof.Machine
end

