-- ==== Sys2Proof/Machine/Dispatch.lean ====
section
/-! DEFINITION. One arm for each command of the opcode table. -/

namespace Sys2Proof.Machine

def exec (i : Instr) (s : State) : Host.Outcome State Fault Refusal :=
  match i with
  | .identify tag => Sys2Proof.Machine.execIdentify tag s
  | .status tag => Sys2Proof.Machine.execStatus tag s
  | .linkStatus tag => Sys2Proof.Machine.execLinkStatus tag s
  | .alarmStatus tag => Sys2Proof.Machine.execAlarmStatus tag s
  | .clearAlarms tag mask1 mask2 mask3 => Sys2Proof.Machine.execClearAlarms tag mask1 mask2 mask3 s
  | .timeSet tag minute second => Sys2Proof.Machine.execTimeSet tag minute second s
  | .zoneStatus tag zone => Sys2Proof.Machine.execZoneStatus tag zone s
  | .boundaryStatus tag boundary selector => Sys2Proof.Machine.execBoundaryStatus tag boundary selector s
  | .muteZone tag zone => Sys2Proof.Machine.execMuteZone tag zone s
  | .unmuteZone tag zone => Sys2Proof.Machine.execUnmuteZone tag zone s
  | .clearTrip tag zone => Sys2Proof.Machine.execClearTrip tag zone s
  | .relock tag => Sys2Proof.Machine.execRelock tag s
  | .restart tag => Sys2Proof.Machine.execRestart tag s
  | .readPage tag bank page => Sys2Proof.Machine.execReadPage tag bank page s
  | .stagePage tag bank page => Sys2Proof.Machine.execStagePage tag bank page s
  | .writeSlots tag first values => Sys2Proof.Machine.execWriteSlots tag first values s
  | .commitPage tag => Sys2Proof.Machine.execCommitPage tag s
  | .copyWorking tag => Sys2Proof.Machine.execCopyWorking tag s
  | .recallRetained tag => Sys2Proof.Machine.execRecallRetained tag s
  | .activate tag => Sys2Proof.Machine.execActivate tag s
  | .cancelActivation tag => Sys2Proof.Machine.execCancelActivation tag s
  | .retain tag => Sys2Proof.Machine.execRetain tag s
  | .abort tag => Sys2Proof.Machine.execAbort tag s
  | .monitorReport tag id period flags full lf => Sys2Proof.Machine.execMonitorReport tag id period flags full lf s
  | .badRequest kind words => Sys2Proof.Machine.execBadRequest kind words s
  | .committingCompletion => Sys2Proof.Machine.execCommittingCompletion s
  | .copyingCompletion => Sys2Proof.Machine.execCopyingCompletion s
  | .recallingCompletion => Sys2Proof.Machine.execRecallingCompletion s
  | .checkingCompletion => Sys2Proof.Machine.execCheckingCompletion s
  | .retainingCompletion => Sys2Proof.Machine.execRetainingCompletion s
  | .swap => Sys2Proof.Machine.execSwap s
  | .driveFrame => Sys2Proof.Machine.execDriveFrame s
  | .intervalEnd => Sys2Proof.Machine.execIntervalEnd s
  | .monitorStale id => Sys2Proof.Machine.execMonitorStale id s
  | .enterFree zone => Sys2Proof.Machine.execEnterFree zone s
  | .trip zone => Sys2Proof.Machine.execTrip zone s
  | .timeSetAct => Sys2Proof.Machine.execTimeSetAct s
  | .minuteBoundary => Sys2Proof.Machine.execMinuteBoundary s
  | .lineTransition => Sys2Proof.Machine.execLineTransition s
  | .carrierLost => Sys2Proof.Machine.execCarrierLost s
  | .syncCandidate bits => Sys2Proof.Machine.execSyncCandidate bits s
  | .syncConfirm bits => Sys2Proof.Machine.execSyncConfirm bits s
  | .frameTaken sync samples lane => Sys2Proof.Machine.execFrameTaken sync samples lane s
  | .lockLost sync => Sys2Proof.Machine.execLockLost sync s
  | .venueStopAsserted => Sys2Proof.Machine.execVenueStopAsserted s
  | .venueStopReleased => Sys2Proof.Machine.execVenueStopReleased s
  | .planLockChange => Sys2Proof.Machine.execPlanLockChange s
  | .supplyLow level => Sys2Proof.Machine.execSupplyLow s level
  | .supplyNormal level => Sys2Proof.Machine.execSupplyNormal s level
  | .supplyOff level => Sys2Proof.Machine.execSupplyOff s level
  | .powerReset level => Sys2Proof.Machine.execPowerReset level s
  | .restartPerformed level => Sys2Proof.Machine.execRestartPerformed level s

end Sys2Proof.Machine
end

