-- ==== Sys2Proof/Safety.lean ====
section
/-! DEFINITION. What the statements of this package speak of: when a command from outside is taken at once, the checks,
estimates, demands and closes as the rules put them, and the invariants that no step may break. -/

namespace Sys2Proof.Machine

/-! ### Request commands -/

/-- The message that a request command stands for, with the words that arrive (R168, R185). -/
def messageOf (i : Instr) : Option Message :=
  match i with
  | .identify tag => some (encodeRequest tag .identify)
  | .status tag => some (encodeRequest tag .status)
  | .linkStatus tag => some (encodeRequest tag .linkStatus)
  | .alarmStatus tag => some (encodeRequest tag .alarmStatus)
  | .clearAlarms tag mask1 mask2 mask3 => some (encodeRequest tag (.clearAlarms mask1 mask2 mask3))
  | .timeSet tag minute second => some (encodeRequest tag (.timeSet minute second))
  | .zoneStatus tag zone => some (encodeRequest tag (.zoneStatus zone))
  | .boundaryStatus tag boundary selector => some (encodeRequest tag (.boundaryStatus boundary selector))
  | .muteZone tag zone => some (encodeRequest tag (.muteZone zone))
  | .unmuteZone tag zone => some (encodeRequest tag (.unmuteZone zone))
  | .clearTrip tag zone => some (encodeRequest tag (.clearTrip zone))
  | .relock tag => some (encodeRequest tag .relock)
  | .restart tag => some (encodeRequest tag .restart)
  | .readPage tag bank page => some (encodeRequest tag (.readPage bank page))
  | .stagePage tag bank page => some (encodeRequest tag (.stagePage bank page))
  | .writeSlots tag first values => some (encodeRequest tag (.writeSlots first values))
  | .commitPage tag => some (encodeRequest tag .commitPage)
  | .copyWorking tag => some (encodeRequest tag .copyWorking)
  | .recallRetained tag => some (encodeRequest tag .recallRetained)
  | .activate tag => some (encodeRequest tag .activate)
  | .cancelActivation tag => some (encodeRequest tag .cancelActivation)
  | .retain tag => some (encodeRequest tag .retain)
  | .abort tag => some (encodeRequest tag .abort)
  | .monitorReport tag id period flags full lf => some (encodeRequest tag (.monitorReport id period flags full lf))
  | .badRequest kind words => if 1 ≤ words.length ∧ words.length ≤ 40 then some ⟨kind, words⟩ else none
  | .committingCompletion | .copyingCompletion | .recallingCompletion | .checkingCompletion
  | .retainingCompletion | .swap | .driveFrame | .intervalEnd | .monitorStale _ | .enterFree _ | .trip _
  | .timeSetAct | .minuteBoundary | .lineTransition | .carrierLost | .syncCandidate _ | .syncConfirm _
  | .frameTaken _ _ _ | .lockLost _ | .venueStopAsserted | .venueStopReleased | .planLockChange
  | .supplyLow _ | .supplyNormal _ | .supplyOff _ | .powerReset _ | .restartPerformed _ => none

/-! ### When a command is taken at once -/

/-- Nothing is left of a published set or of a close that a command from outside would have to wait for (log 4). -/
abbrev State.Settled (s : State) : Prop :=
  s.due.stale = [] ∧ s.due.trips = [] ∧ s.due.frees = [] ∧ s.due.swap = false

/-- The part works and a command from outside acts on the state as it stands. -/
abbrev State.Awake (s : State) : Prop := s.supply ≠ .off ∧ s.Settled

/-- A message that arrives is taken at once: none waits before it, and fewer than four replies are queued or
owed (R174). -/
abbrev State.Listening (s : State) : Prop :=
  s.Awake ∧ s.mu.inbound = [] ∧ s.mu.replies.length + s.repliesOwed < 4

/-- Nothing at all is left of an interval end, none is complete, no restart is scheduled, no operation has reached
its bound and no message waits: the next frame is only a frame. -/
abbrev State.MidInterval (s : State) : Prop :=
  s.Awake ∧ s.due.tb = none ∧ s.intervalComplete = false ∧ s.due.restart = false ∧ s.mu.inbound = []
    ∧ ∀ op ∈ s.ps.operation, op.frames < opBoundMs op.kind * 48

/-! ### The TRIP line -/

/-- The TRIP line is asserted exactly when some zone is TRIPPED (R107). -/
abbrev State.TripLineFollows (s : State) : Prop :=
  s.zc.tripLine = true ↔ ∃ z : Fin 8, s.zc.zones[z].state = .tripped

/-! ### The carrier over bits -/

/-- The carrier count stays below 432 while some bits are received (R149). -/
def Lrx.keepsCarrier (l : Lrx) (bits : List Bool) : Bool :=
  match bits with
  | [] => true
  | bit :: rest => decide ((l.track bit).carrier < 432) && (l.track bit).keepsCarrier rest

/-! ### The catalogue of requests -/

/-- The lengths that the manual's catalogue lists for a request kind; none for a kind it does not list (R185). -/
def requestLengths (kind : Nat) : List Nat :=
  if kind ∈ [0x01, 0x02, 0x03, 0x04, 0x0C, 0x0D, 0x13, 0x14, 0x15, 0x16, 0x17, 0x18, 0x19] then [1]
  else if kind ∈ [0x07, 0x09, 0x0A, 0x0B] then [2]
  else if kind ∈ [0x06, 0x08, 0x10, 0x11] then [3]
  else if kind = 0x05 then [4]
  else if kind = 0x12 then [4, 6, 8, 10, 12, 14, 16, 18]
  else if kind = 0x20 then [5, 6]
  else []

/-- A message fails header check `n` and none before it (R175). -/
def FailsHeaderCheck (kind : Byte) (words : List Word16) (n : Nat) : Prop :=
  (n = 1 ∧ requestLengths kind.toNat = [])
    ∨ (n = 2 ∧ requestLengths kind.toNat ≠ [] ∧ words.length ∉ requestLengths kind.toNat)
    ∨ (n = 3 ∧ words.length ∈ requestLengths kind.toNat ∧ 256 ≤ (words.headD 0).toNat)

/-! ### The checks of a plan -/

/-- Bit `k` of slot `i` of page `p` belongs to a field (R188 to R190). -/
def NamedBit (p i k : Nat) : Prop :=
  (p = 0 ∧ i < 8 ∧ k < 16)
    ∨ (p = 1 ∧ ((i < 8 ∧ (k < 24 ∨ k = 31)) ∨ (8 ≤ i ∧ i < 12 ∧ k % 8 < 5)))
    ∨ (2 ≤ p ∧ p ≤ 7 ∧
        ((i = 0 ∧ (k = 0 ∨ (8 ≤ k ∧ k ≤ 20))) ∨ (i = 1 ∧ k % 16 < 11) ∨ (2 ≤ i ∧ i < 22)))
    ∨ (p = 8 ∧ (k % 16 < 11 ∨ k % 16 = 15))
    ∨ (p = 9 ∧ i < 16 ∧ k < 8)
    ∨ (p = 10 ∧ i < 12 ∧ k < 4)

/-- An unused bit of a slot is not zero (R21). -/
def UnusedFault (p : Nat) (page : Page) (slot : Nat) : Prop :=
  slot < 24 ∧ ∃ k < 32, (slotAt page slot).getLsbD k = true ∧ ¬ NamedBit p slot k

/-- A field of the VENUE page is out of range, the blank page exempted (01 section 1.2, R21). -/
def VenueFault (page : Page) (slot code : Nat) : Prop :=
  code = 1 ∧ page ≠ blankPage
    ∧ ∃ low high,
        (slot, low, high) ∈ [(1, 1, 20), (2, 1, 80), (3, 0, 60), (4, 0, 100), (5, 200, 700), (6, 0, 500), (7, 16, 480)]
          ∧ ¬ (low ≤ fieldOf (slotAt page slot) 0 16 ∧ fieldOf (slotAt page slot) 0 16 ≤ high)

/-- A field of a zone record is out of range, an empty record exempted, or an entry of the channel map is neither a
zone number nor NONE (R7, R21, R188; log 15 for the entry). -/
def ZonesFault (page : Page) (slot code : Nat) : Prop :=
  let field := fieldOf (slotAt page slot)
  code = 1
    ∧ ((slot < 8 ∧ ¬ (field 0 1 = 0 ∧ field 1 1 = 0 ∧ field 2 10 = 0 ∧ field 12 4 = 0 ∧ field 16 8 = 0 ∧ field 31 1 = 0)
          ∧ (field 2 10 < 60 ∨ 600 < field 2 10 ∨ field 12 4 < 1 ∨ 8 < field 12 4 ∨ 200 < field 16 8
              ∨ (field 31 1 = 0 ∧ field 16 8 ≠ 0)))
      ∨ (8 ≤ slot ∧ slot < 12 ∧ ∃ j < 4, field (8 * j + 4) 1 = 0 ∧ field (8 * j) 4 ≠ 0))

/-- A segment in use fails a page check (R21, R22, R189). -/
def SegmentFault (page : Page) (i slot code : Nat) : Prop :=
  let seg := segmentItem page i
  let at' := fun offset => slot = 2 + (40 * i + offset) / 32
  (code = 1
      ∧ ((at' 0 ∧ 1439 < seg.start) ∨ (at' 11 ∧ 2 < seg.kind) ∨ (at' 13 ∧ 30 < seg.ramp)
          ∨ (at' 18 ∧ 1400 < seg.full ∧ seg.full ≠ 2047) ∨ (at' 29 ∧ 1400 < seg.lf ∧ seg.lf ≠ 2047)))
    ∨ (code = 3 ∧ at' 0 ∧ 0 < i ∧ seg.start ≤ (segmentItem page (i - 1)).start)
    ∨ (code = 6 ∧ seg.kind = 2
        ∧ ((at' 18 ∧ seg.full ≠ 2047) ∨ (at' 29 ∧ seg.full = 2047 ∧ seg.lf ≠ 2047)))

/-- A field of a segment that is not in use is not zero (R2, R21). -/
def SpareFault (page : Page) (i slot : Nat) : Prop :=
  let seg := segmentItem page i
  let at' := fun offset => slot = 2 + (40 * i + offset) / 32
  (at' 0 ∧ seg.start ≠ 0) ∨ (at' 11 ∧ seg.kind ≠ 0) ∨ (at' 13 ∧ seg.ramp ≠ 0) ∨ (at' 18 ∧ seg.full ≠ 0)
    ∨ (at' 29 ∧ seg.lf ≠ 0)

/-- A BOUNDARY page fails a check other than that of its unused bits; with a segment count out of range its segments
are not examined (R21, R22, R189). -/
def BoundaryFault (page : Page) (slot code : Nat) : Prop :=
  let enabled := fieldOf (slotAt page 0) 0 1 = 1
  let count := fieldOf (slotAt page 0) 16 5
  (code = 1 ∧ slot = 0 ∧ 16 < count)
    ∨ (count ≤ 16
      ∧ ((code = 1 ∧ slot = 0 ∧ 150 < fieldOf (slotAt page 0) 8 8)
        ∨ (code = 1 ∧ slot = 1 ∧ (1400 < fieldOf (slotAt page 1) 0 11 ∨ 1400 < fieldOf (slotAt page 1) 16 11))
        ∨ (code = 4 ∧ slot = 0 ∧ enabled ∧ count = 0)
        ∨ (code = 5 ∧ slot = 2 ∧ enabled ∧ count ≠ 0 ∧ (segmentItem page 0).start ≠ 0)
        ∨ (∃ i < count, SegmentFault page i slot code)
        ∨ (code = 2 ∧ ∃ i < 16, count ≤ i ∧ SpareFault page i slot)))

/-- A coupling is out of range (R190; log 16 for the bits between the number and the presence bit). -/
def CouplingsFault (page : Page) (slot code : Nat) : Prop :=
  code = 1 ∧ slot < 24
    ∧ ∃ h < 2,
        let bits := fieldOf (slotAt page slot) (16 * h) 16
        (2 ^ 15 ≤ bits ∧ 1600 < bits % 2 ^ 11) ∨ (bits < 2 ^ 15 ∧ bits ≠ 0)

/-- A reduction step is out of range or lower than the step before it, the blank page exempted (R21, R190). -/
def ReductionFault (page : Page) (slot code : Nat) : Prop :=
  let step := fun i => fieldOf (slotAt page i) 0 8
  slot < 16 ∧ page ≠ blankPage
    ∧ ((code = 1 ∧ (step slot < 1 ∨ 60 < step slot)) ∨ (code = 7 ∧ 0 < slot ∧ step slot < step (slot - 1)))

/-- A monitor record names a boundary above 5, or a boundary without its presence bit (R190, log 15). -/
def MonitorsFault (page : Page) (slot code : Nat) : Prop :=
  let bits := fieldOf (slotAt page slot) 0 4
  code = 1 ∧ slot < 12 ∧ ((8 ≤ bits ∧ 5 < bits - 8) ∨ (bits < 8 ∧ bits ≠ 0))

/-- A page of number `p` fails a page check, placed at a slot with a code (R21, R22). -/
def PageFault (p : Nat) (page : Page) (slot code : Nat) : Prop :=
  (code = 2 ∧ UnusedFault p page slot)
    ∨ (p = 0 ∧ VenueFault page slot code)
    ∨ (p = 1 ∧ ZonesFault page slot code)
    ∨ (2 ≤ p ∧ p ≤ 7 ∧ BoundaryFault page slot code)
    ∨ (p = 8 ∧ CouplingsFault page slot code)
    ∨ (p = 9 ∧ ReductionFault page slot code)
    ∨ (p = 10 ∧ MonitorsFault page slot code)

/-- The failure that the page checks of a page report: the lowest slot, and there the lowest code (R22). -/
def PageReport (p : Nat) (page : Page) (slot code : Nat) : Prop :=
  PageFault p page slot code
    ∧ ∀ slot' code', PageFault p page slot' code' → slot < slot' ∨ (slot = slot' ∧ code ≤ code')

/-- A page fails no page check. -/
def PagePasses (p : Nat) (page : Page) : Prop := ∀ slot code, ¬ PageFault p page slot code

/-- Some zone or some boundary of a plan is enabled (R21). -/
def EnablesSomething (bank : Bank) : Prop :=
  (∃ z : Fin 8, (zoneItem bank z).enabled = true) ∨ ∃ b : Fin 6, (boundaryItem bank b).enabled = true

/-- A plan fails a cross-page check; `rank` numbers the checks in the order in which they run (R21, R22). -/
def CrossFault (bank : Bank) (rank page slot code : Nat) : Prop :=
  (code = 8 ∧ ∃ b : Fin 6, ∃ i < (boundaryItem bank b).segmentCount,
      let seg := segmentItem (boundaryPage bank b) i
      page = 2 + b.val
        ∧ ((rank = 64 * b.val + 2 * i ∧ slot = 2 + (40 * i + 18) / 32 ∧ seg.full ≠ 2047
              ∧ (boundaryItem bank b).ceilingFull < seg.full)
          ∨ (rank = 64 * b.val + 2 * i + 1 ∧ slot = 2 + (40 * i + 29) / 32 ∧ seg.lf ≠ 2047
              ∧ (boundaryItem bank b).ceilingLf < seg.lf)))
    ∨ (code = 9 ∧ page = 10 ∧ ∃ m : Fin 12, ∃ b : Fin 6, rank = 400 + m.val ∧ slot = m.val
        ∧ monitorBoundary bank m = some b ∧ (boundaryItem bank b).enabled = false)
    ∨ (code = 10 ∧ page = 1 ∧ ∃ n < 16, rank = 420 + n ∧ slot = 8 + n / 4
        ∧ fieldOf (bankSlot bank 1 slot) (8 * (n % 4) + 4) 1 = 1 ∧ 8 ≤ fieldOf (bankSlot bank 1 slot) (8 * (n % 4)) 4)
    ∨ (code = 11 ∧ slot = 0 ∧ EnablesSomething bank
        ∧ ((rank = 440 ∧ page = 0 ∧ bank[(0 : Fin 11)] = blankPage)
          ∨ (rank = 441 ∧ page = 9 ∧ bank[(9 : Fin 11)] = blankPage)))

/-- The failure that the checks of a whole plan report: the first page that fails, else the first cross-page check
that fails (R22, R134). -/
def PlanReport (bank : Bank) (page slot code : Nat) : Prop :=
  (∃ p : Fin 11, page = p.val ∧ PageReport p.val bank[p] slot code
      ∧ ∀ q : Fin 11, q.val < p.val → PagePasses q.val bank[q])
    ∨ ((∀ p : Fin 11, PagePasses p.val bank[p])
      ∧ ∃ rank, CrossFault bank rank page slot code
        ∧ ∀ rank' page' slot' code', CrossFault bank rank' page' slot' code' → rank ≤ rank')

/-- A plan passes every check (R134). -/
def PlanPasses (bank : Bank) : Prop :=
  (∀ p : Fin 11, PagePasses p.val bank[p]) ∧ ∀ rank page slot code, ¬ CrossFault bank rank page slot code

/-- Bit `k` of slot `i` of page `p` belongs to a licensed item (01 section 1.7). -/
def LicensedBit (p i k : Nat) : Prop :=
  (p = 0 ∧ 1 ≤ i ∧ i < 8 ∧ k < 16)
    ∨ (p = 1 ∧ i < 8 ∧ 1 ≤ k ∧ k < 12)
    ∨ (2 ≤ p ∧ p ≤ 7 ∧ ((i = 0 ∧ (k = 0 ∨ (8 ≤ k ∧ k < 16))) ∨ (i = 1 ∧ k % 16 < 11)))
    ∨ (p = 8 ∧ (k % 16 < 11 ∨ k % 16 = 15))
    ∨ (p = 9 ∧ i < 16 ∧ k < 8)
    ∨ (p = 10 ∧ i < 12 ∧ k < 4)

/-- A licensed item at a slot differs between two banks (R24). -/
def LicensedDiffers (a b : Bank) (p i : Nat) : Prop :=
  ∃ k < 32, LicensedBit p i k ∧ (bankSlot a p i).getLsbD k ≠ (bankSlot b p i).getLsbD k

/-- The first licensed item that differs, in page order and then in slot order (R24). -/
def FirstLicensed (a b : Bank) (p i : Nat) : Prop :=
  p < 11 ∧ i < 24 ∧ LicensedDiffers a b p i
    ∧ ∀ p' < 11, ∀ i' < 24, LicensedDiffers a b p' i' → p < p' ∨ (p = p' ∧ i ≤ i')

/-- No licensed item differs (R24). -/
def LicensedAgree (a b : Bank) : Prop := ∀ p < 11, ∀ i < 24, ¬ LicensedDiffers a b p i

/-! ### Energies and levels -/

/-- The energy of a level in cB, 10 to the power level/100, taken exactly (00_scope section 6.2). -/
noncomputable def energyOf (level : Nat) : ℝ := (10 : ℝ) ^ ((level : ℝ) / 100)

/-- A level is that of the mean of the energies of some levels, each with its weight: the largest whole number whose
energy the mean reaches (00_scope section 6.2). -/
def IsMeanLevel (terms : List (Nat × Nat)) (level : Nat) : Prop :=
  let weight : ℝ := ((terms.map (·.2)).sum : Nat)
  let total := (terms.map fun t => (t.2 : ℝ) * energyOf t.1).sum
  weight * energyOf level ≤ total ∧ total < weight * energyOf (level + 1)

/-! ### Estimates and demand -/

/-- A zone contributes a level to a band at a boundary (R55). -/
def Contributes (s : State) (published : Vector ZoneFigures 8) (b : Fin 6) (isLf : Bool) (z : Fin 8) (level : Int) :
    Prop :=
  (zoneItem s.ps.working z).enabled = true ∧ (isLf = true → (zoneItem s.ps.working z).isLow = true)
    ∧ s.zc.standing[z].state.silencing = false
    ∧ ∃ c, coupling s.ps.working b z = some c ∧ level = published[z].level + (c : Int)

/-- The allowance of a number of contributions within 60 cB of the largest (04 section 4.2). -/
def allowanceOf : Nat → Int
  | 0 | 1 => 0
  | 2 => 30
  | 3 => 48
  | 4 => 60
  | 5 => 70
  | 6 => 78
  | 7 => 85
  | _ => 90

/-- Some monitor is mapped to a boundary and none of those is LIVE (R58). -/
def Unwatched (bank : Bank) (monitors : Vector Monitor 12) (b : Fin 6) : Prop :=
  (∃ m : Fin 12, monitorBoundary bank m = some b)
    ∧ ∀ m : Fin 12, monitorBoundary bank m = some b → monitors[m].state ≠ .live

/-- The figures of a band of a boundary are those of the published set: the combined level of the contributions held
to the estimate floor and 1400, the correction in use, their sum held to 0 and 1400, and the responsible zones
(R55 to R60). -/
def FiguresOf (s : State) (published : Vector ZoneFigures 8) (b : Fin 6) (isLf : Bool) (correction : Int)
    (f : BandFigures) : Prop :=
  f.responsible.Nodup
    ∧ ((∀ z level, ¬ Contributes s published b isLf z level) →
        f.uncorrected = estimateFloor s.ps.working ∧ f.responsible = [])
    ∧ (∀ z top, Contributes s published b isLf z top →
        (∀ z' level, Contributes s published b isLf z' level → level ≤ top) →
        (∀ z', z' ∈ f.responsible ↔ ∃ level, Contributes s published b isLf z' level ∧ top - 60 ≤ level)
        ∧ f.uncorrected
            = min 1400 (max (estimateFloor s.ps.working) (top + allowanceOf f.responsible.length).toNat))
    ∧ ((∀ m : Fin 12, monitorBoundary s.ps.working m ≠ some b) → f.inUse = 0)
    ∧ (Unwatched s.ps.working s.be.monitors b →
        f.inUse = correction + ((boundaryItem s.ps.working b).staleMargin : Int))
    ∧ ((∃ m : Fin 12, monitorBoundary s.ps.working m = some b ∧ s.be.monitors[m].state = .live) →
        f.inUse = correction)
    ∧ f.corrected = min 1400 ((f.uncorrected : Int) + f.inUse).toNat

/-- A zone has an excess, with its source, at a published set (R98). -/
def Excess (s : State) (z : Fin 8) (x : Int) (source : DemandSource) : Prop :=
  ∃ (b : Fin 6) (e : Estimator) (f : BoundaryFigures) (l : LimitEntry) (n : Nat),
    source.boundary = b.val ∧ s.be.estimators[b] = some e ∧ e.figures = some f ∧ s.tb.limits[b] = some l
      ∧ z ∈ (if source.isLf then f.lf else f.full).responsible
      ∧ (if source.isLf then l.lf else l.full) = .number n
      ∧ (source.isRunning = false →
          x = ((if source.isLf then f.lf else f.full).corrected : Int) - ((n : Int) + (peakAllowance s.ps.working : Int)))
      ∧ (source.isRunning = true →
          ∃ a r, s.ea.accounts[b] = some a ∧ a.runningLevel source.isLf = some r ∧ x = (r : Int) - (n : Int))

/-- The order of the sources: boundary, FULL before LF, INSTANT before RUNNING (R98). -/
def DemandSource.rank (source : DemandSource) : Nat :=
  4 * source.boundary + 2 * source.isLf.toNat + source.isRunning.toNat

/-- A demand is a zone's demand at a published set: the largest excess, and of the largest the first source; UNREACHED
without an excess (R98). -/
def IsDemand (s : State) (z : Fin 8) (d : Demand) : Prop :=
  (d = .unreached ∧ ∀ x source, ¬ Excess s z x source)
    ∨ ∃ x source, d = .value x source ∧ Excess s z x source
      ∧ ∀ x' source', Excess s z x' source' → x' < x ∨ (x' = x ∧ source.rank ≤ source'.rank)

/-! ### Resolution -/

/-- A zone has the SILENT cause: a SILENT limit in force in its band set at an enabled boundary it is coupled to
(R8, R94). -/
def SilentCause (bank : Bank) (limits : Vector (Option LimitEntry) 6) (z : Fin 8) : Prop :=
  ∃ (b : Fin 6) (e : LimitEntry), limits[b] = some e ∧ (boundaryItem bank b).enabled = true
    ∧ coupling bank b z ≠ none ∧ (e.full = .silent ∨ ((zoneItem bank z).isLow = true ∧ e.lf = .silent))

/-- Entry into a silencing state; a zone that already holds it is left as it is (R94 to R96). -/
def Silenced (maximum : Nat) (c : Controller) (state : ZoneState) (c' : Controller) : Prop :=
  (c.state = state → c' = c)
    ∧ (c.state ≠ state →
        c' = { c with
          state := state, attenuation := maximum, persistence := 0, releaseCount := 0, floorEpisode := false
          disturbed := true, tripHold := if state = .off then false else c.tripHold
          lastDemand := if state = .off then .absent else c.lastDemand })

/-- A record is resolved: into the silencing state of its highest cause, or from silence into HOLD at the maximum when
it has no cause; a zone that has none and is not silenced is left as it is (R94 to R97). -/
def Resolved (bank : Bank) (stop : Bool) (limits : Vector (Option LimitEntry) 6) (z : Fin 8) (c c' : Controller) :
    Prop :=
  let item := zoneItem bank z
  (item.enabled = false → Silenced item.maximum c .off c')
    ∧ (item.enabled = true → stop = true → Silenced item.maximum c .stopped c')
    ∧ (item.enabled = true → stop = false →
      (c.tripHold = true → Silenced item.maximum c .tripped c')
      ∧ (c.tripHold = false → c.muted = true → Silenced item.maximum c .muted c')
      ∧ (c.tripHold = false → c.muted = false → SilentCause bank limits z → Silenced item.maximum c .silent c')
      ∧ (c.tripHold = false → c.muted = false → ¬ SilentCause bank limits z →
          (c.state.silencing = false → c' = c)
          ∧ (c.state.silencing = true →
              c' = { c with
                state := .hold, attenuation := item.maximum, persistence := 0, releaseCount := 0
                floorEpisode := false, disturbed := true })))

/-! ### A published set -/

/-- The zone's published peak meets its trip level, for as many sets as its trip persistence asks (R104). -/
def TripsAtSet (item : ZoneItem) (peak : Int) (count : Nat) : Prop :=
  ∃ l, item.tripLevel = some l ∧ l ≤ peak ∧ item.persistence ≤ count + 1

/-- What a published set does to a zone of `s`, read from `t`, which holds the set's figures, estimates and running
levels: the zone is taken on its standing for the set, and the result is held to its record as it stands
(R98 to R104, R111; an entry into FREE and a trip become due, log 4; a record that a request, line or derivation has
touched since the last frame, log 27). -/
def State.ZoneTakesSet (s t : State) (z : Fin 8) : Prop :=
  let item := zoneItem s.ps.working z
  let c := s.zc.zones[z]
  let before := s.zc.standing[z]
  let peak := t.mb.published[z].peak
  let c' := t.zc.zones[z]
  (before.state.silencing = true →
      c' = { c with persistence := 0, lastDemand := .absent } ∧ z ∉ t.due.trips ∧ z ∉ t.due.frees)
    ∧ (before.state.silencing = false → TripsAtSet item peak before.persistence →
      c' = { c with persistence := min 8 (before.persistence + 1), lastDemand := .absent }
      ∧ z ∈ t.due.trips ∧ z ∉ t.due.frees)
    ∧ (before.state.silencing = false → ¬ TripsAtSet item peak before.persistence →
      let after := enforce s.ps.working item.maximum c'.lastDemand before
      let opens := after.state = .floor ∧ before.floorEpisode = false
      let released := (c'.lastDemand = .unreached
          ∨ ∃ n source, c'.lastDemand = .value n source ∧ n ≤ -(hysteresis s.ps.working : Int))
        ∧ before.state = .hold ∧ releaseDelay s.ps.working ≤ after.releaseCount
      let judged :=
        match item.tripLevel with
        | none => 0
        | some l => if l ≤ peak then min 8 (before.persistence + 1) else 0
      IsDemand t z c'.lastDemand
      ∧ z ∉ t.due.trips
      ∧ (z ∈ t.due.frees ↔ released ∧ c.disturbed = false)
      ∧ (c'.floorLatch = true ↔ c.floorLatch = true ∨ (opens ∧ s.stopCause = false))
      ∧ (c.disturbed = false →
          c' = { c with
            state := after.state, attenuation := min item.maximum after.attenuation, persistence := judged
            releaseCount := after.releaseCount, floorEpisode := after.floorEpisode
            lastDemand := c'.lastDemand, floorLatch := c'.floorLatch })
      ∧ (c.disturbed = true → c' = { c with lastDemand := c'.lastDemand, floorLatch := c'.floorLatch }))

/-- The FLOOR alerts of a published set taken by `s`, read from `t`: one for each zone that opens a FLOOR episode, in
zone order (R103). -/
def State.floorAlertsOf (s t : State) : List Alert :=
  ((List.finRange 8).filter fun z =>
      let before := s.zc.standing[z]
      !before.state.silencing && !t.due.trips.contains z && !before.floorEpisode
        && (enforce s.ps.working (zoneItem s.ps.working z).maximum t.zc.zones[z].lastDemand before).state == .floor).map
    fun z =>
      { kind := .floor, urgent := true, subject := some z.val, minute := s.stamp
        detail :=
          match t.zc.zones[z].lastDemand with
          | .value n _ => intWord n
          | _ => 0 }

/-- `t` holds the alert queue of `s` after some alerts: the newest eight of all, and ALERTS_LOST once one has been
dropped (R177). -/
def State.AlertsRaised (s t : State) (alerts : List Alert) : Prop :=
  t.mu.alerts = alerts.foldl (pushNewest 8) s.mu.alerts
    ∧ t.mu.alertsLost
        = (s.mu.alertsLost || decide (alerts ≠ [] ∧ 8 < s.mu.alerts.length + alerts.length))

/-! ### The close of a minute -/

/-- The entry that closes an account, with the running levels at close, as the rules of the close give it
(R81 to R83, R86). -/
def closingEntry (s : State) (isPartial : Bool) (b : Fin 6) (a : Account) : ReportEntry :=
  let level := fun isLf => (a.minuteLevel isLf).getD 0
  let running := fun isLf => (a.runningLevel isLf).getD 0
  let above := fun (limit : Limit) (n : Nat) =>
    match limit with
    | .silent => decide (silenceFloor s.ps.working < n)
    | .number l => decide (l < n)
  { boundary := b.val, runningFull := running false, runningLf := running true
    entry :=
      { minute := s.stamp, count := s.tb.tally, full := level false, lf := level true
        limitFull := a.startFull, limitLf := a.startLf, isPartial := isPartial
        unwatched :=
          match s.be.estimators[b] with
          | some ⟨_, _, some f, _⟩ => f.unwatched
          | _ => false
        marks :=
          ⟨above a.startFull (level false), above a.startLf (level true), above a.startFull (running false),
           above a.startLf (running true)⟩ } }

/-- The BREACH alerts of a close: for each boundary in order, one for each mark in order, urgent in a QUIET start
segment and in none (R16, R85). -/
def closingAlerts (s : State) : List Alert :=
  (List.finRange 6).flatMap fun b =>
    match s.ea.accounts[b] with
    | none => []
    | some a =>
      let marks := (closingEntry s false b a).entry.marks
      let urgent :=
        match a.startSegment with
        | none => true
        | some i => (segmentItem (boundaryPage s.ps.working b) i).kind == 1
      ([(marks.minuteFull, 1), (marks.minuteLf, 2), (marks.runningFull, 3), (marks.runningLf, 4)].filter (·.1)).map
        fun (_, d) => ⟨.breach, urgent, some b.val, s.stamp, d⟩

/-- What the close of a minute does to the accounts, the latches, the alerts and the reports of `s`, read from `t`; an
account is then left with the start figures of `t` (R81 to R86). -/
def State.MinuteClosed (s t : State) (isPartial : Bool) : Prop :=
  (∀ b : Fin 6,
      (s.ea.accounts[b] = none → t.ea.accounts[b] = none)
      ∧ (∀ a, s.ea.accounts[b] = some a →
          ∃ a', t.ea.accounts[b] = some a' ∧ a'.count = 0 ∧ a'.full = [] ∧ a'.lf = []
            ∧ a'.ring = pushNewest 14 a.ring (closingEntry s isPartial b a).entry
            ∧ (t.ea.latches[b]
                = if s.stopCause then s.ea.latches[b]
                  else
                    let marks := (closingEntry s isPartial b a).entry.marks
                    ⟨s.ea.latches[b].minuteFull || marks.minuteFull, s.ea.latches[b].minuteLf || marks.minuteLf,
                     s.ea.latches[b].runningFull || marks.runningFull,
                     s.ea.latches[b].runningLf || marks.runningLf⟩))
      ∧ (s.ea.accounts[b] = none → t.ea.latches[b] = s.ea.latches[b]))
    ∧ s.AlertsRaised t (if s.stopCause then [] else closingAlerts s)
    ∧ t.mu.reports = pushNewest 4 s.mu.reports
        { minute := s.stamp, count := s.tb.tally, isPartial := isPartial
          entries := (List.finRange 6).filterMap fun b => (s.ea.accounts[b]).map (closingEntry s isPartial b) }
    ∧ t.mu.reportsLost = (s.mu.reportsLost || decide (4 ≤ s.mu.reports.length))

/-- After a close, the limits in force are derived for the new minute at once, every account takes them as its start
figures and every zone is resolved under them; or, when a swap is ready, that waits for the swap
(R28, R34, R80, R115). -/
def State.DerivedAfterClose (s t : State) : Prop :=
  (s.swapReady = true →
      t.due.swap = true ∧ t.tb.limits = s.tb.limits ∧ t.zc = s.zc
      ∧ ∀ (b : Fin 6) a a', s.ea.accounts[b] = some a → t.ea.accounts[b] = some a' →
          a'.startFull = a.startFull ∧ a'.startLf = a.startLf ∧ a'.startSegment = a.startSegment)
    ∧ (s.swapReady = false →
      t.due.swap = s.due.swap ∧ t.tb.limits = deriveLimits s.ps.working t.tb.isSet t.tb.minute
      ∧ (∀ z : Fin 8, Resolved s.ps.working s.stopCause t.tb.limits z s.zc.zones[z] t.zc.zones[z])
      ∧ t.TripLineFollows
      ∧ ∀ (b : Fin 6) a' l, t.ea.accounts[b] = some a' → t.tb.limits[b] = some l →
          a'.startFull = l.full ∧ a'.startLf = l.lf ∧ a'.startSegment = l.segment)

/-! ### The swap -/

/-- The set of monitors mapped to a boundary differs between two plans (R73, R88). -/
def MonitorSetDiffers (old new : Bank) (b : Fin 6) : Prop :=
  ∃ m : Fin 12, ¬ (monitorBoundary old m = some b ↔ monitorBoundary new m = some b)

/-- A swap creates or resets the estimator record of a boundary (R73). -/
def RecordRenewed (old new : Bank) (b : Fin 6) : Prop :=
  (boundaryItem new b).enabled = true
    ∧ ((boundaryItem old b).enabled = false ∨ MonitorSetDiffers old new b
      ∨ ∃ z : Fin 8, coupling old b z ≠ coupling new b z)

/-- BE has brought its estimator and monitor records into line with a new plan (R73, R74). -/
def BeAligned (old new : Bank) (be be' : Be) : Prop :=
  (∀ b : Fin 6,
      ((boundaryItem new b).enabled = false → be'.estimators[b] = none)
      ∧ (RecordRenewed old new b → be'.estimators[b] = some ⟨0, 0, none, []⟩)
      ∧ ((boundaryItem new b).enabled = true → ¬ RecordRenewed old new b →
          be'.estimators[b] = be.estimators[b]))
    ∧ ∀ m : Fin 12,
      let target := monitorBoundary new m
      let renewed := monitorBoundary old m ≠ target ∨ ∃ b, target = some b ∧ RecordRenewed old new b
      (renewed → be'.monitors[m] = ⟨if target.isSome then .unheard else .unmapped, target, 0⟩)
      ∧ (¬ renewed → be'.monitors[m] = be.monitors[m])

/-- An account with the start figures of an entry of the limits in force (R80). -/
def Account.Starts (a : Account) (l : LimitEntry) (a' : Account) : Prop :=
  a' = { a with startFull := l.full, startLf := l.lf, startSegment := l.segment }

/-- EA has brought its accounts into line with a new plan and taken the limits derived under it; the latches are kept
(R80, R84, R88). -/
def AccountsAligned (old new : Bank) (limits : Vector (Option LimitEntry) 6) (ea ea' : Ea) : Prop :=
  ea'.latches = ea.latches
    ∧ ∀ b : Fin 6,
      ((boundaryItem new b).enabled = false → ea'.accounts[b] = none)
      ∧ ((boundaryItem new b).enabled = true → (boundaryItem old b).enabled = false →
          ∃ l a', limits[b] = some l ∧ ea'.accounts[b] = some a'
            ∧ Account.Starts ⟨0, [], [], .silent, .silent, none, []⟩ l a')
      ∧ ∀ a, (boundaryItem new b).enabled = true → (boundaryItem old b).enabled = true →
          ea.accounts[b] = some a →
          ∃ l a', limits[b] = some l ∧ ea'.accounts[b] = some a'
            ∧ (MonitorSetDiffers old new b → Account.Starts { a with ring := [] } l a')
            ∧ (¬ MonitorSetDiffers old new b → Account.Starts a l a')

/-- ZC has brought a record into line with a new plan, before it is resolved under it (R96, R116). -/
def ZoneAligned (old new : Bank) (z : Fin 8) (c c' : Controller) : Prop :=
  let item := zoneItem new z
  (item.enabled = false → c.state = .off → c' = { c with attenuation := item.maximum })
    ∧ (item.enabled = false → c.state ≠ .off → Silenced item.maximum c .off c')
    ∧ (item.enabled = true → (zoneItem old z).enabled = false → c' = c)
    ∧ (item.enabled = true → (zoneItem old z).enabled = true →
        c' = { c with
          attenuation := if c.state.silencing then item.maximum else min c.attenuation item.maximum
          persistence := if item.tripLevel = none then 0 else c.persistence })

/-! ### Invariants -/

/-- Every queue and ring is within its capacity (R61, R76, R155, R173, R174, R177, R178). -/
def State.QueuesBounded (s : State) : Prop :=
  s.mu.inbound.length ≤ 8 ∧ s.mu.replies.length + s.repliesOwed ≤ 4 ∧ s.mu.alerts.length ≤ 8
    ∧ s.mu.reports.length ≤ 4 ∧ s.lrx.fifo.length ≤ 4
    ∧ (∀ (b : Fin 6) e, s.be.estimators[b] = some e → e.ring.length ≤ 80)
    ∧ (∀ (b : Fin 6) a, s.ea.accounts[b] = some a → a.ring.length ≤ 14)

/-- While LRX is not LOCKED the FIFO is empty, LTX is unprimed, no sync mismatch is counted and no message is in
assembly; bits are kept in CONFIRM alone; the carrier count stands at 432 in NO_CARRIER and below it elsewhere, and the
other counts are within their ranges (R148, R149, R154, R169). -/
def State.LinkConsistent (s : State) : Prop :=
  (s.lrx.receiver ≠ .locked →
      s.lrx.fifo = [] ∧ s.ltx.primed = false ∧ s.lrx.mismatches = 0 ∧ s.lrx.assembler = .skip)
    ∧ (s.lrx.receiver ≠ .confirm → s.lrx.kept = [])
    ∧ (s.lrx.receiver = .noCarrier → s.lrx.carrier = 432 ∧ s.lrx.changed = false)
    ∧ (s.lrx.receiver ≠ .noCarrier → s.lrx.carrier < 432)
    ∧ s.lrx.kept.length < 432 ∧ s.lrx.mismatches < 4

/-- A record and its standing agree on silence, unless a resolution has come between them (R100). -/
def StandingAgrees (c : Controller) (st : Standing) : Prop :=
  c.disturbed = false → st.state.silencing = c.state.silencing

/-- Every zone is in the state its highest silencing cause gives, at its maximum attenuation, or in an enforcement
state at or below its maximum when it has no such cause (R92, R94, R95). -/
def State.ZonesResolved (s : State) : Prop :=
  ∀ z : Fin 8,
    StandingAgrees s.zc.zones[z] s.zc.standing[z]
    ∧ match silencingCause s.ps.working s.stopCause s.tb.limits z s.zc.zones[z] with
      | some state =>
        s.zc.zones[z].state = state ∧ s.zc.zones[z].attenuation = (zoneItem s.ps.working z).maximum
      | none =>
        s.zc.zones[z].state.silencing = false
          ∧ s.zc.zones[z].attenuation ≤ (zoneItem s.ps.working z).maximum

/-- The plan in force passes every check, and so does whatever is about to come into force; a CLEAN shadow is the
working plan; a RETAIN in progress leaves the retained state INVALID; while an activation is pending no operation
but a RETAIN runs (R120, R121, R135, R141). -/
def State.PlanSound (s : State) : Prop :=
  checkPlan s.ps.working = none
    ∧ (s.ps.retainedState = .valid → checkPlan s.ps.retained = none)
    ∧ (s.ps.shadowState = .clean → s.ps.shadow = s.ps.working)
    ∧ (s.ps.activationPending = true →
        checkPlan s.ps.shadow = none ∧ ∀ op, s.ps.operation = some op → op.kind = .retaining)
    ∧ (∀ op, s.ps.operation = some op → op.kind = .retaining → s.ps.retainedState = .invalid)

/-- The counters of device time are within their ranges; the position stands at 480 only while a minute boundary or
a setting is due; a setting that is due is pending (R26, R27, R31). -/
def State.TimeSound (s : State) : Prop :=
  s.tb.minute ≤ 1439 ∧ s.tb.position ≤ 480 ∧ (s.tb.position = 480 → s.due.tb ≠ none)
    ∧ -16 ≤ s.tb.drift ∧ s.tb.drift ≤ 16 ∧ (s.tb.tally : Int) + s.tb.drift ≤ s.tb.position
    ∧ (s.due.tb = some .setting → s.tb.setting ≠ none)
    ∧ ∀ set, s.tb.setting = some set → set.minute ≤ 1439 ∧ set.second ≤ 59

/-- The eight frame counts are equal and not above 6000 (R40). -/
def State.MetersInStep (s : State) : Prop :=
  ∃ n ≤ 6000, ∀ z : Fin 8, s.mb.meters[z].frames = n

/-- The records of TB, BE and EA are those of the working plan; the corrections lie from -150 to 150, and the
silence counts from 0 to 65535; a fall into STALE is due of mapped monitors alone, and none while a swap is due
(R34, R53, R63, R64, R76). -/
def State.RecordsMatchPlan (s : State) : Prop :=
  (∀ b : Fin 6,
      s.tb.limits[b].isSome = (boundaryItem s.ps.working b).enabled
      ∧ s.be.estimators[b].isSome = (boundaryItem s.ps.working b).enabled
      ∧ s.ea.accounts[b].isSome = (boundaryItem s.ps.working b).enabled
      ∧ ∀ e, s.be.estimators[b] = some e →
          -150 ≤ e.correctionFull ∧ e.correctionFull ≤ 150 ∧ -150 ≤ e.correctionLf ∧ e.correctionLf ≤ 150)
    ∧ (∀ m : Fin 12,
        s.be.monitors[m].boundary = monitorBoundary s.ps.working m
        ∧ (s.be.monitors[m].state = .unmapped ↔ s.be.monitors[m].boundary = none)
        ∧ s.be.monitors[m].silence ≤ 65535)
    ∧ (∀ m ∈ s.due.stale, s.be.monitors[m].state ≠ .unmapped)
    ∧ (s.due.swap = true → s.due.stale = [])

end Sys2Proof.Machine
end

