-- ==== Sys2Proof/Certificates/Slice0/Obligations.lean ====
section
/-! DEFINITION. The statements for the provers. -/

open Sys2Proof Sys2Proof.Machine

/-! ### The queue of commands -/

/-- A step runs the command at the front of the queue on the state with the queue's rest; on an empty queue the block
idles (the model's choice, log 1). -/
def Obligations.StepTakesTheFrontCommandOrIdles : Prop :=
  (∀ (c : Instr) (rest : List Instr) (s : State),
    s.pending = c :: rest → step s = exec c { s with pending := rest })
  ∧ ∀ s : State, s.pending = [] → step s = .next s

/-- Every command answers a next state in every state, and leaves the queue alone. -/
def Obligations.EveryCommandAnswersNext : Prop :=
  ∀ (c : Instr) (s : State), ∃ t, exec c s = .next t ∧ t.pending = s.pending

/-- In OFF no command but a power reset and a change of an input line's level has any effect (R196; that the lines'
levels still follow their pins is the model's choice, log 11). -/
def Obligations.OffPartIgnoresCommands : Prop :=
  ∀ (c : Instr) (s : State), s.supply = .off → (∀ l, c ≠ .powerReset l) → c ≠ .venueStopAsserted →
    c ≠ .venueStopReleased → c ≠ .planLockChange → exec c s = .next s

/-- A message that comes while the replies queued and owed make four waits in the inbound queue, and overwrites the
newest of a full one, setting LANE_OVERRUN (R173, R174). -/
def Obligations.MessageWaitsWhileFourRepliesStand : Prop :=
  ∀ (c : Instr) (m : Message) (s : State), messageOf c = some m → s.Awake →
    4 ≤ s.mu.replies.length + s.repliesOwed →
    (s.mu.inbound.length < 8 →
      exec c s = .next { s with mu := { s.mu with inbound := s.mu.inbound ++ [m] } })
    ∧ (s.mu.inbound.length = 8 →
      exec c s = .next
        { s with
          mu := { s.mu with inbound := s.mu.inbound.take 7 ++ [m] }
          lrx := { s.lrx with flags := { s.lrx.flags with laneOverrun := true } } })

/-- A command from outside the part first brings to its end what is left of an interval end already taken, each part as
its own command takes it: a message, a bit, a frame or a change of either link or line, a level of the supply, and the
completion of an operation. A setting or a minute boundary first takes what is left of the published set (log 33); an
interval end, and a frame, also the setting or the minute boundary; and a frame the interval end that its frame counts
call for, and the restart that is scheduled, the supply state then set from the level of the supply (R48, R166, R193; the
split of an interval end into commands is the model's, log 4, and that a restart waits as a mark of the state which the
next frame takes up is log 13). -/
def Obligations.CommandsFirstSettleWhatIsDue : Prop :=
  ∀ s : State, s.supply ≠ .off →
    (s.settle.Settled ∧ (s.Settled → s.settle = s)
      ∧ (∀ m rest, s.due.stale = m :: rest →
          ∃ u, exec (.monitorStale (m.val + 1)) s = .next u ∧ s.settle = u.settle)
      ∧ (∀ z rest, s.due.stale = [] → s.due.trips = z :: rest →
          ∃ u, exec (.trip z.val) s = .next u ∧ s.settle = u.settle)
      ∧ (∀ z rest, s.due.stale = [] → s.due.trips = [] → s.due.frees = z :: rest →
          ∃ u, exec (.enterFree z.val) s = .next u ∧ s.settle = u.settle)
      ∧ (s.due.stale = [] → s.due.trips = [] → s.due.frees = [] → s.due.swap = true → exec .swap s = .next s.settle))
    ∧ (∀ c m, messageOf c = some m → exec c s = exec c s.settle)
    ∧ (∀ (level : Nat) (bits : List Bool) (sync : LinkWord) (samples : Samples) (lane : LinkWord),
        ∀ c ∈ [Instr.committingCompletion, .copyingCompletion, .recallingCompletion, .checkingCompletion,
            .retainingCompletion, .lineTransition, .carrierLost, .syncCandidate bits, .syncConfirm bits,
            .frameTaken sync samples lane, .lockLost sync, .planLockChange, .supplyLow level, .supplyNormal level,
            .supplyOff level],
          exec c s = exec c s.settle)
    ∧ (s.venueStop = false → exec .venueStopAsserted s = exec .venueStopAsserted s.settle)
    ∧ (s.venueStop = true → exec .venueStopReleased s = exec .venueStopReleased s.settle)
    ∧ (∀ level, 2740 ≤ level → exec (.powerReset level) s = exec (.powerReset level) s.settle)
    ∧ (s.finishSet.due = { s.due with stale := [], trips := [], frees := [] }
      ∧ (s.due.swap = false → s.finishSet = s.settle)
      ∧ (s.due.tb = some .setting → exec .timeSetAct s = exec .timeSetAct s.finishSet)
      ∧ (s.due.tb = some .minuteBoundary → exec .minuteBoundary s = exec .minuteBoundary s.finishSet))
    ∧ (s.settleAll.Settled ∧ s.settleAll.due.tb = none ∧ s.settleAll.intervalComplete = s.intervalComplete
      ∧ (s.due.tb = none → s.settleAll = s.settle)
      ∧ (∀ c, (c = .timeSetAct ∧ s.due.tb = some .setting) ∨ (c = .minuteBoundary ∧ s.due.tb = some .minuteBoundary) →
          ∃ u, exec c s.settle = .next u ∧ s.settleAll = u.settle)
      ∧ (s.intervalComplete = true → exec .intervalEnd s = exec .intervalEnd s.settleAll))
    ∧ ((s.intervalComplete = false → s.settleFrame = s.settleAll)
      ∧ (s.intervalComplete = true → ∃ u, exec .intervalEnd s = .next u ∧ s.settleFrame = u.settleAll)
      ∧ (s.due.restart = false → exec .driveFrame s = exec .driveFrame s.settleFrame
          ∧ s.settleFrame.intervalComplete = false ∧ s.settleFrame.due.tb = none)
      ∧ (s.due.restart = true → exec .driveFrame s = exec .driveFrame (s.startUp 2 s.supplyLevel)))

/-! ### General requests -/

/-- IDENTIFY (R181). -/
def Obligations.IdentifyAnswersTheIdentity : Prop :=
  ∀ (tag : Byte) (s : State), s.Listening →
    encodeRequest tag .identify = ⟨0x01, [tag.setWidth 16]⟩
    ∧ exec (.identify tag) s
        = .next (s.queueReply
            { kind := 0x01, tag := tag, result := .done, detail := 0, data := [640, 1, 16, 8, 6, 12, 11] })

/-- STATUS (R182). -/
def Obligations.StatusReportsTheState : Prop :=
  ∀ (tag : Byte) (s : State), s.Listening →
    exec (.status tag) s
      = .next (s.queueReply
          { kind := 0x02, tag := tag, result := .done, detail := 0
            data :=
              [if s.tb.isSet then 2 else 1, natWord s.tb.minute, natWord s.tb.position,
               natWord (planStateCode s.ps.planState), natWord (planId s.ps.working),
               natWord (shadowCode s.ps.shadowState), natWord (retainedCode s.ps.retainedState)]
              ++ (match s.ps.staging with
                  | none => [0, 0x8000]
                  | some st => [1, natWord st.page.val])
              ++ [match s.ps.operation with
                  | none => 0
                  | some op => natWord (opCode op.kind)]
              ++ [flagWord s.ps.activationPending]
              ++ (match s.ps.lastOutcome with
                  | none => [0x8000, 0x8000, 0x8000]
                  | some o => [natWord (sourceCode o.source), natWord (outcomeResultCode o.result), o.detail])
              ++ [natWord (supplyCode s.supply), flagWord s.venueStop, flagWord s.planLock,
                  flagWord s.zc.tripLine, natWord (receiverCode s.lrx.receiver), 0,
                  natWord s.mu.replies.length, natWord s.mu.alerts.length, natWord s.mu.reports.length,
                  natWord s.repliesOwed, flagWord s.mu.alertsLost, flagWord s.mu.reportsLost] })

/-- LINK STATUS reports the receiver, the FIFO, the primed flag and the seven link flags, and clears the flags; it
changes nothing else (R164). -/
def Obligations.LinkStatusReportsAndClears : Prop :=
  ∀ (tag : Byte) (s : State), s.Listening →
    exec (.linkStatus tag) s
      = .next
          { s.queueReply
              { kind := 0x03, tag := tag, result := .done, detail := 0
                data :=
                  [natWord (receiverCode s.lrx.receiver), natWord s.lrx.mismatches, natWord s.lrx.fifo.length,
                   flagWord s.ltx.primed, flagWord s.lrx.flags.carrierLost, flagWord s.lrx.flags.lockLost,
                   flagWord s.lrx.flags.fifoOverflow, flagWord s.lrx.flags.fifoUnderflow,
                   flagWord s.lrx.flags.laneParity, flagWord s.lrx.flags.laneTruncated,
                   flagWord s.lrx.flags.laneOverrun] } with
            lrx := { s.lrx with flags := ⟨false, false, false, false, false, false, false⟩ } }

/-- ALARM STATUS reports every latch, every trip hold and the TRIP line, each at its place (R183, R184). -/
def Obligations.AlarmStatusReportsLatches : Prop :=
  ∀ (tag : Byte) (s : State), s.Listening →
    ∃ w1 w2 w3 w4 w5 : Word16,
      exec (.alarmStatus tag) s
        = .next (s.queueReply
            { kind := 0x04, tag := tag, result := .done, detail := 0, data := [w1, w2, w3, w4, w5] })
      ∧ (∀ z : Fin 8,
          w1.getLsbD z = s.zc.zones[z].tripLatch ∧ w1.getLsbD (8 + z) = s.zc.zones[z].floorLatch
          ∧ w4.getLsbD z = s.zc.zones[z].tripHold ∧ w4.getLsbD (8 + z) = false)
      ∧ (∀ b : Fin 6,
          let w := if b.val < 4 then w2 else w3
          let i := 4 * (b.val % 4)
          w.getLsbD i = s.ea.latches[b].minuteFull ∧ w.getLsbD (i + 1) = s.ea.latches[b].minuteLf
          ∧ w.getLsbD (i + 2) = s.ea.latches[b].runningFull ∧ w.getLsbD (i + 3) = s.ea.latches[b].runningLf)
      ∧ (∀ i, 8 ≤ i → w3.getLsbD i = false)
      ∧ w5 = if s.zc.tripLine then 1 else 0

/-- CLEAR ALARMS (R184): a bad third mask, a LOW supply, and the clearing of exactly the latches named, with the number
cleared as detail. -/
def Obligations.ClearAlarmsClearsTheNamedLatches : Prop :=
  ∀ (tag : Byte) (m1 m2 m3 : Word16) (s : State), s.Listening →
    (256 ≤ m3.toNat →
      exec (.clearAlarms tag m1 m2 m3) s
        = .next (s.queueReply { kind := 0x05, tag := tag, result := .badArgument, detail := 3, data := [] }))
    ∧ (m3.toNat < 256 → s.supply = .low →
      exec (.clearAlarms tag m1 m2 m3) s
        = .next (s.queueReply { kind := 0x05, tag := tag, result := .refused, detail := 1, data := [] }))
    ∧ (m3.toNat < 256 → s.supply = .normal →
      ∃ (t : State) (n : Nat), exec (.clearAlarms tag m1 m2 m3) s
          = .next (t.queueReply { kind := 0x05, tag := tag, result := .done, detail := natWord n, data := [] })
        ∧ t = { s with zc := { s.zc with zones := t.zc.zones }, ea := { s.ea with latches := t.ea.latches } }
        ∧ n + t.latchCount = s.latchCount
        ∧ (∀ z : Fin 8,
            t.zc.zones[z] = { s.zc.zones[z] with
              tripLatch := s.zc.zones[z].tripLatch && !m1.getLsbD z
              floorLatch := s.zc.zones[z].floorLatch && !m1.getLsbD (8 + z) })
        ∧ ∀ b : Fin 6,
            let w := if b.val < 4 then m2 else m3
            let i := 4 * (b.val % 4)
            t.ea.latches[b]
              = ⟨s.ea.latches[b].minuteFull && !w.getLsbD i, s.ea.latches[b].minuteLf && !w.getLsbD (i + 1),
                 s.ea.latches[b].runningFull && !w.getLsbD (i + 2),
                 s.ea.latches[b].runningLf && !w.getLsbD (i + 3)⟩)

/-- TIME SET (R29): out of range, and a setting in range that becomes pending and replaces an older one. One that finds
the older setting due, its interval end counted, makes that setting act first, with the swap that a step may bring, and
then becomes pending in its place (the model's choice, log 4). -/
def Obligations.TimeSetBecomesPending : Prop :=
  ∀ (tag : Byte) (minute second : Word16) (s : State), s.Listening →
    (1439 < minute.toNat →
      exec (.timeSet tag minute second) s
        = .next (s.queueReply { kind := 0x06, tag := tag, result := .badArgument, detail := 1, data := [] }))
    ∧ (minute.toNat ≤ 1439 → 59 < second.toNat →
      exec (.timeSet tag minute second) s
        = .next (s.queueReply { kind := 0x06, tag := tag, result := .badArgument, detail := 2, data := [] }))
    ∧ (minute.toNat ≤ 1439 → second.toNat ≤ 59 → s.due.tb = some .setting → s.tb.setting ≠ none →
      ∃ u, exec .timeSetAct s = .next u ∧ u.tb.setting = none
        ∧ (u.due.swap = false →
            exec (.timeSet tag minute second) s
              = .next { u with tb := { u.tb with setting := some ⟨minute.toNat, second.toNat, tag⟩ } })
        ∧ (u.due.swap = true →
            ∃ v, exec .swap u = .next v
              ∧ exec (.timeSet tag minute second) s
                = .next { v with tb := { v.tb with setting := some ⟨minute.toNat, second.toNat, tag⟩ } }))
    ∧ (minute.toNat ≤ 1439 → second.toNat ≤ 59 → s.due.tb ≠ some .setting →
      (s.tb.setting = none →
        exec (.timeSet tag minute second) s
          = .next { s with tb := { s.tb with setting := some ⟨minute.toNat, second.toNat, tag⟩ } })
      ∧ ∀ old, s.tb.setting = some old →
        exec (.timeSet tag minute second) s
          = .next
              { s.queueReply { kind := 0x06, tag := old.tag, result := .aborted, detail := 0, data := [] } with
                tb := { s.tb with setting := some ⟨minute.toNat, second.toNat, tag⟩ } })

/-- RELOCK by receiver state (R165, R154). -/
def Obligations.RelockRestartsTheSearch : Prop :=
  ∀ (tag : Byte) (s : State), s.Listening →
    (s.lrx.receiver = .noCarrier →
      exec (.relock tag) s
        = .next (s.queueReply { kind := 0x0C, tag := tag, result := .done, detail := 0, data := [] }))
    ∧ (s.lrx.receiver = .search ∨ s.lrx.receiver = .confirm →
      ∃ d : Word16, d = (if s.lrx.receiver = .search then 1 else 2)
        ∧ exec (.relock tag) s
          = .next
              { s.queueReply { kind := 0x0C, tag := tag, result := .done, detail := d, data := [] } with
                lrx := { s.lrx with receiver := .search, mismatches := 0, window := 0, seen := 0, kept := [] } })
    ∧ (s.lrx.receiver = .locked →
      ∃ t, exec (.relock tag) s = .next t
        ∧ t = { s with lrx := t.lrx, ltx := { s.ltx with primed := false }, mu := t.mu }
        ∧ t.mu = { s.mu with
            replies := s.mu.replies ++
              [{ kind := 0x0C, tag := tag, result := .done, detail := 3, data := [] }]
            alerts := t.mu.alerts, alertsLost := t.mu.alertsLost }
        ∧ s.AlertsRaised t [⟨.link, false, none, s.stamp, 2⟩]
        ∧ t.lrx = { s.lrx with
            receiver := .search, mismatches := 0, window := 0, seen := 0, kept := [], fifo := [], assembler := .skip
            flags := { s.lrx.flags with
              lockLost := true
              laneTruncated := s.lrx.flags.laneTruncated ||
                (match s.lrx.assembler with
                 | .collecting _ => true
                 | _ => false) } })

/-- RESTART draws BUSY while an operation runs, and otherwise is scheduled without a reply (R197). -/
def Obligations.RestartIsScheduledOrBusy : Prop :=
  ∀ (tag : Byte) (s : State), s.Listening →
    (∀ op, s.ps.operation = some op →
      exec (.restart tag) s
        = .next (s.queueReply
            { kind := 0x0D, tag := tag, result := .busy, detail := natWord (opCode op.kind), data := [] }))
    ∧ (s.ps.operation = none → exec (.restart tag) s = .next { s with due := { s.due with restart := true } })

/-- A message that fails a header check, an unlisted kind, a length its kind does not have, or a first word whose high byte
is not zero, draws BAD_REQUEST with the number of the first check it fails; a monitor report is dropped
(R175, R185). -/
def Obligations.BadRequestIsAnswered : Prop :=
  ∀ (kind : Byte) (words : List Word16) (n : Nat) (s : State), s.Listening →
    1 ≤ words.length → words.length ≤ 40 → FailsHeaderCheck kind words n →
    (kind = 0x20 → exec (.badRequest kind words) s = .next s)
    ∧ (kind ≠ 0x20 →
      exec (.badRequest kind words) s
        = .next (s.queueReply
            { kind := kind, tag := (words.headD 0).setWidth 8, result := .badRequest
              detail := natWord n, data := [] }))

/-! ### Requests on zones and boundaries -/

/-- ZONE STATUS reports the working record, the channels, the controller record and the published figures; a zone number
above 7 draws BAD_ARGUMENT (R114). -/
def Obligations.ZoneStatusReportsTheZone : Prop :=
  ∀ (tag : Byte) (zone : Word16) (s : State), s.Listening →
    (8 ≤ zone.toNat →
      exec (.zoneStatus tag zone) s
        = .next (s.queueReply { kind := 0x07, tag := tag, result := .badArgument, detail := 1, data := [] }))
    ∧ ∀ z : Fin 8, zone.toNat = z.val → exec (.zoneStatus tag zone) s
      = .next (s.queueReply
          { kind := 0x07, tag := tag, result := .done, detail := 0
            data :=
              [flagWord (zoneItem s.ps.working z).enabled, flagWord (zoneItem s.ps.working z).isLow,
               natWord (zoneItem s.ps.working z).maximum,
               (match (zoneItem s.ps.working z).tripLevel with
                | none => 0x7FFE
                | some l => intWord l),
               natWord (zoneItem s.ps.working z).persistence,
               natWord (zoneChannels s.ps.working z).length]
              ++ (zoneChannels s.ps.working z).map natWord
              ++ [natWord (zoneStateCode s.zc.zones[z].state), natWord s.zc.zones[z].attenuation,
                  flagWord s.zc.zones[z].muted, flagWord s.zc.zones[z].tripHold,
                  flagWord s.zc.zones[z].floorEpisode, natWord s.zc.zones[z].persistence,
                  natWord s.zc.zones[z].releaseCount]
              ++ (match s.zc.zones[z].lastDemand with
                  | .absent => [0x8000, 0]
                  | .unreached => [0x8001, 0]
                  | .value d source =>
                    [intWord d,
                     natWord (source.boundary + 16 * source.isLf.toNat + 32 * source.isRunning.toNat)])
              ++ [flagWord s.zc.zones[z].tripLatch, flagWord s.zc.zones[z].floorLatch,
                  intWord s.mb.published[z].level, intWord s.mb.published[z].peak] })

/-- BOUNDARY STATUS: its arguments, and its data for a boundary that is not enabled and for one that is: the latches, the
limits in force and the current segment, the estimates and corrections, the monitors, the account and the entry that the
selector names (R89, R90, R187; the order of the estimates is the model's, log 17, and so are the shape of the selected
entry and the absent words of a missing one, log 18). -/
def Obligations.BoundaryStatusReportsTheBoundary : Prop :=
  ∀ (tag : Byte) (boundary selector : Word16) (s : State), s.Listening →
    let absent := fun n : Option Nat =>
      match n with
      | none => (0x8000 : Word16)
      | some n => natWord n
    let limit := fun l : Limit =>
      match l with
      | .silent => (0x7FFF : Word16)
      | .number n => natWord n
    let flag := fun f : Bool => if f then (1 : Word16) else 0
    let marks := fun m : BreachMarks =>
      natWord ((if m.minuteFull then 1 else 0) + (if m.minuteLf then 2 else 0) + (if m.runningFull then 4 else 0)
        + (if m.runningLf then 8 else 0))
    let zoneSet := fun zones : List (Fin 8) =>
      natWord (((List.finRange 8).map fun z => if z ∈ zones then 2 ^ z.val else 0).sum)
    let monitorState := fun state : MonitorState =>
      match state with
      | .unmapped => 0
      | .unheard => 1
      | .live => 2
      | .stale => 3
    (6 ≤ boundary.toNat →
      exec (.boundaryStatus tag boundary selector) s
        = .next (s.queueReply { kind := 0x08, tag := tag, result := .badArgument, detail := 1, data := [] }))
    ∧ (boundary.toNat < 6 → 14 < selector.toNat →
      exec (.boundaryStatus tag boundary selector) s
        = .next (s.queueReply { kind := 0x08, tag := tag, result := .badArgument, detail := 2, data := [] }))
    ∧ ∀ b : Fin 6, boundary.toNat = b.val → selector.toNat ≤ 14 →
      ((boundaryItem s.ps.working b).enabled = false →
        exec (.boundaryStatus tag boundary selector) s
          = .next (s.queueReply
              { kind := 0x08, tag := tag, result := .done, detail := 0
                data := [0, marks s.ea.latches[b]] }))
      ∧ ∀ e l a, (boundaryItem s.ps.working b).enabled = true → s.be.estimators[b] = some e →
        s.tb.limits[b] = some l → s.ea.accounts[b] = some a →
        let figure := fun word : BoundaryFigures → Word16 =>
          match e.figures with
          | none => (0x8000 : Word16)
          | some f => word f
        let mapped := (List.finRange 12).filter fun m : Fin 12 => monitorBoundary s.ps.working m = some b
        let selected := if selector.toNat = 0 then none else a.ring.reverse[selector.toNat - 1]?
        exec (.boundaryStatus tag boundary selector) s
          = .next (s.queueReply
              { kind := 0x08, tag := tag, result := .done, detail := 0
                data :=
                  [1, marks s.ea.latches[b], limit l.full, limit l.lf, absent l.segment]
                  ++ [figure fun f => natWord f.full.uncorrected, figure fun f => natWord f.lf.uncorrected,
                      figure fun f => natWord f.full.corrected, figure fun f => natWord f.lf.corrected,
                      intWord e.correctionFull, intWord e.correctionLf,
                      figure fun f => intWord f.full.inUse, figure fun f => intWord f.lf.inUse,
                      figure fun f => flag f.unwatched,
                      figure fun f => zoneSet f.full.responsible, figure fun f => zoneSet f.lf.responsible,
                      natWord e.ring.length]
                  ++ (natWord mapped.length :: mapped.flatMap fun m =>
                      [natWord (m.val + 1 + 16 * monitorState s.be.monitors[m].state),
                       natWord s.be.monitors[m].silence])
                  ++ [natWord a.count, absent (a.minuteLevel false), absent (a.minuteLevel true),
                      absent (a.runningLevel false), absent (a.runningLevel true), natWord a.ring.length]
                  ++ match selected with
                    | none => [0x8000, 0x8000, 0x8000, 0x8000, 0x8000, 0x8000, 0x8000, 0x8000, 0x8000]
                    | some x =>
                      [absent x.minute, natWord x.count, natWord x.full, natWord x.lf, limit x.limitFull,
                       limit x.limitLf, flag x.isPartial, flag x.unwatched, marks x.marks] })

/-- MUTE ZONE sets the flag and moves a zone in SILENT or an enforcement state into MUTED at its maximum, a zone in a
higher state keeping its state; UNMUTE ZONE clears the flag and moves a MUTED zone into SILENT under a SILENT limit,
and otherwise into HOLD at its maximum, a zone in any other state keeping its state. A zone number above 7 draws
BAD_ARGUMENT. Either request and a published set leave the same zone records in either order, once what is due of the set
has been taken (R100, R112, R113; the split of the set into commands: log 4; the counts of the record: log 27). -/
def Obligations.MuteAndUnmuteZone : Prop :=
  ∀ (tag : Byte) (zone : Word16) (s : State), s.Listening →
    (8 ≤ zone.toNat →
      exec (.muteZone tag zone) s
        = .next (s.queueReply { kind := 0x09, tag := tag, result := .badArgument, detail := 1, data := [] })
      ∧ exec (.unmuteZone tag zone) s
        = .next (s.queueReply { kind := 0x0A, tag := tag, result := .badArgument, detail := 1, data := [] }))
    ∧ ∀ z : Fin 8, zone.toNat = z.val → s.ZonesResolved → s.TripLineFollows →
      (∃ c, exec (.muteZone tag zone) s
          = .next
              { s.queueReply
                  { kind := 0x09, tag := tag, result := .done
                    detail := if s.zc.zones[z].muted then 1 else 0, data := [] } with
                zc := { s.zc with zones := s.zc.zones.set z c } }
        ∧ (s.zc.zones[z].state = .off ∨ s.zc.zones[z].state = .stopped ∨ s.zc.zones[z].state = .tripped
              ∨ s.zc.zones[z].state = .muted →
            c = { s.zc.zones[z] with muted := true })
        ∧ (s.zc.zones[z].state = .silent ∨ s.zc.zones[z].state.silencing = false →
            c = { s.zc.zones[z] with
                  muted := true, state := .muted, attenuation := (zoneItem s.ps.working z).maximum
                  persistence := 0, releaseCount := 0, floorEpisode := false, disturbed := true }))
      ∧ (∃ c, exec (.unmuteZone tag zone) s
          = .next
              { s.queueReply
                  { kind := 0x0A, tag := tag, result := .done
                    detail := if s.zc.zones[z].muted then 1 else 0, data := [] } with
                zc := { s.zc with zones := s.zc.zones.set z c } }
        ∧ (s.zc.zones[z].state ≠ .muted → c = { s.zc.zones[z] with muted := false })
        ∧ (s.zc.zones[z].state = .muted →
            c = { s.zc.zones[z] with
                  muted := false
                  state := if silentCause s.ps.working s.tb.limits z then .silent else .hold
                  attenuation := (zoneItem s.ps.working z).maximum
                  persistence := 0, releaseCount := 0, floorEpisode := false, disturbed := true }))
      ∧ (s.due.tb = none → (∀ y : Fin 8, s.mb.meters[y].frames = 6000) →
        ∀ c ∈ [Instr.muteZone tag zone, .unmuteZone tag zone],
          ∃ t u t' u', exec c s = .next t ∧ exec .intervalEnd t = .next u
            ∧ exec .intervalEnd s = .next t' ∧ exec c t' = .next u' ∧ u.settle.zc = u'.zc)

/-- CLEAR TRIP brings a TRIPPED zone to MUTED, SILENT or HOLD and is refused in any other state; the TRIP line is
released when no other zone is TRIPPED; a zone number above 7 draws BAD_ARGUMENT (R106, R107). -/
def Obligations.ClearTripReleasesTheZone : Prop :=
  ∀ (tag : Byte) (zone : Word16) (s : State), s.Listening →
    (8 ≤ zone.toNat →
      exec (.clearTrip tag zone) s
        = .next (s.queueReply { kind := 0x0B, tag := tag, result := .badArgument, detail := 1, data := [] }))
    ∧ ∀ z : Fin 8, zone.toNat = z.val → s.ZonesResolved →
    (s.zc.zones[z].state ≠ .tripped →
      exec (.clearTrip tag zone) s
        = .next (s.queueReply
            { kind := 0x0B, tag := tag, result := .refused
              detail := natWord (zoneStateCode s.zc.zones[z].state), data := [] }))
    ∧ (s.zc.zones[z].state = .tripped →
      ∃ c t, exec (.clearTrip tag zone) s = .next t
        ∧ t = { s with
            zc := { s.zc with zones := s.zc.zones.set z c, tripLine := t.zc.tripLine }, mu := t.mu }
        ∧ t.mu = { s.mu with
            replies := s.mu.replies ++
              [{ kind := 0x0B, tag := tag, result := .done, detail := 0, data := [] }] }
        ∧ c = { s.zc.zones[z] with
                tripHold := false
                state := if s.zc.zones[z].muted then .muted
                  else if silentCause s.ps.working s.tb.limits z then .silent else .hold
                attenuation := (zoneItem s.ps.working z).maximum
                persistence := 0, releaseCount := 0, floorEpisode := false, disturbed := true }
        ∧ t.TripLineFollows)

/-- A MONITOR REPORT out of range or of an unmapped monitor is dropped; an accepted one makes the monitor LIVE with its
silence count 0, raises MONITOR_LIVE from UNHEARD and STALE, and, without WIND, moves the boundary's corrections
(R66 to R71). -/
def Obligations.MonitorReportIsTakenOrDropped : Prop :=
  ∀ (tag : Byte) (id period flags full : Word16) (lf : Option Word16) (s : State), s.Listening →
    ((id.toNat = 0 ∨ 12 < id.toNat ∨ period.toNat = 0 ∨ 80 < period.toNat ∨ 1400 < full.toNat
        ∨ (∃ l, lf = some l ∧ 1400 < l.toNat)) →
      exec (.monitorReport tag id period flags full lf) s = .next s)
    ∧ ∀ (m : Fin 12) (b : Fin 6), id.toNat = m.val + 1 → 1 ≤ period.toNat → period.toNat ≤ 80 →
      full.toNat ≤ 1400 → (∀ l, lf = some l → l.toNat ≤ 1400) →
      (s.be.monitors[m].state = .unmapped →
        exec (.monitorReport tag id period flags full lf) s = .next s)
      ∧ (s.be.monitors[m].state ≠ .unmapped → s.be.monitors[m].boundary = some b →
        ∃ t, exec (.monitorReport tag id period flags full lf) s = .next t
          ∧ t = { s with be := t.be, mu := { s.mu with alerts := t.mu.alerts, alertsLost := t.mu.alertsLost } }
          ∧ t.be.monitors = s.be.monitors.set m ⟨.live, some b, 0⟩
          ∧ (s.be.monitors[m].state = .live → t.mu = s.mu)
          ∧ (s.be.monitors[m].state = .unheard →
              s.AlertsRaised t [⟨.monitorLive, false, some (m.val + 1), s.stamp, 1⟩])
          ∧ (s.be.monitors[m].state = .stale →
              s.AlertsRaised t [⟨.monitorLive, false, some (m.val + 1), s.stamp, 2⟩])
          ∧ (∀ b' : Fin 6, b' ≠ b → t.be.estimators[b'] = s.be.estimators[b'])
          ∧ (flags.getLsbD 0 = true → t.be.estimators = s.be.estimators)
          ∧ (∀ e, s.be.estimators[b] = some e → flags.getLsbD 0 = false →
              ∃ e', t.be.estimators[b] = some e' ∧ e'.figures = e.figures ∧ e'.ring = e.ring
                ∧ (e.ring = [] → e' = e)
                ∧ (e.ring ≠ [] →
                    e'.correctionFull = reportCorrection (flags.getLsbD 1) e.correctionFull
                      ((full.toNat : Int)
                        - referenceLevel ((newestEntries e.ring period.toNat).map (·.full)))
                    ∧ (lf = none → e'.correctionLf = e.correctionLf)
                    ∧ ∀ l, lf = some l →
                        e'.correctionLf = reportCorrection (flags.getLsbD 1) e.correctionLf
                          ((l.toNat : Int)
                            - referenceLevel ((newestEntries e.ring period.toNat).map (·.lf))))))

/-- A monitor whose fall is due becomes STALE and raises its alert with its boundary as detail (R64, R65). -/
def Obligations.MonitorFallsStale : Prop :=
  ∀ (s : State) (m : Fin 12) (b : Fin 6), s.supply ≠ .off → m ∈ s.due.stale →
    s.be.monitors[m].boundary = some b →
    ∃ t, exec (.monitorStale (m.val + 1)) s = .next t
      ∧ t = { s with
          be := { s.be with monitors := t.be.monitors }
          due := { s.due with stale := t.due.stale }
          mu := { s.mu with alerts := t.mu.alerts, alertsLost := t.mu.alertsLost } }
      ∧ t.be.monitors = s.be.monitors.set m { s.be.monitors[m] with state := .stale }
      ∧ t.due.stale = s.due.stale.filter (· != m)
      ∧ s.AlertsRaised t [⟨.monitorStale, false, some (m.val + 1), s.stamp, natWord b.val⟩]

/-- A zone in HOLD whose release delay has been counted in full enters FREE with its attenuation unchanged and its
release count 0 (R102). -/
def Obligations.HeldZoneEntersFree : Prop :=
  ∀ (s : State) (z : Fin 8), s.supply ≠ .off → z ∈ s.due.frees → s.zc.zones[z].state = .hold →
    s.TripLineFollows →
    ∃ t, exec (.enterFree z.val) s = .next t
      ∧ t = { s with
          zc := { s.zc with zones := t.zc.zones }
          due := { s.due with frees := t.due.frees } }
      ∧ t.zc.zones = s.zc.zones.set z
          { s.zc.zones[z] with state := .free, releaseCount := 0, floorEpisode := false }
      ∧ t.due.frees = s.due.frees.filter (· != z)

/-- A zone whose trip is due is resolved with its trip hold set and its persistence count 0, the other zones left as they
are: when no higher cause is present, it enters TRIPPED at its maximum with the TRIP line asserted; the latch and the
urgent alert come unless VENUE STOP or a LOW supply holds them back, where the hold is still set and the zone is STOPPED
(R105, R107, R111). -/
def Obligations.ZoneTrips : Prop :=
  ∀ (s : State) (z : Fin 8), s.supply ≠ .off → z ∈ s.due.trips →
    ∃ t, exec (.trip z.val) s = .next t
      ∧ t = { s with
          zc := { s.zc with zones := t.zc.zones, tripLine := t.zc.tripLine }
          due := { s.due with trips := t.due.trips }
          mu := { s.mu with alerts := t.mu.alerts, alertsLost := t.mu.alertsLost } }
      ∧ t.due.trips = s.due.trips.filter (· != z)
      ∧ (∀ z' : Fin 8, z' ≠ z → t.zc.zones[z'] = s.zc.zones[z'])
      ∧ t.TripLineFollows
      ∧ Resolved s.ps.working s.stopCause s.tb.limits z
          { s.zc.zones[z] with
            tripHold := true, persistence := 0, tripLatch := s.zc.zones[z].tripLatch || !s.stopCause }
          t.zc.zones[z]
      ∧ (s.stopCause = false →
          s.AlertsRaised t [⟨.trip, true, some z.val, s.stamp, intWord s.mb.published[z].peak⟩])
      ∧ ((zoneItem s.ps.working z).enabled = true → s.stopCause = false → s.zc.zones[z].state ≠ .tripped →
          t.zc.zones[z].tripHold = true ∧ t.zc.zones[z].state = .tripped
          ∧ t.zc.zones[z].attenuation = (zoneItem s.ps.working z).maximum ∧ t.zc.zones[z].persistence = 0
          ∧ t.zc.zones[z].tripLatch = true)
      ∧ (s.stopCause = true →
          t.zc.zones[z].tripLatch = s.zc.zones[z].tripLatch ∧ t.mu = s.mu
          ∧ ((zoneItem s.ps.working z).enabled = true →
              t.zc.zones[z].tripHold = true ∧ t.zc.zones[z].state = .stopped ∧ t.zc.zones[z].persistence = 0
              ∧ (s.ZonesResolved → t.zc.zones[z].attenuation = (zoneItem s.ps.working z).maximum)))

/-! ### Requests on the plan store -/

/-- While an operation is in progress every plan store request but ABORT draws BUSY, with the operation as detail, and
changes nothing (R123). -/
def Obligations.PlanRequestsDrawBusy : Prop :=
  ∀ (tag : Byte) (s : State) (op : Operation), s.Listening → s.ps.operation = some op →
    let busy := fun kind : Byte => s.queueReply
      { kind := kind, tag := tag, result := .busy, detail := natWord (opCode op.kind), data := [] }
    (∀ b p, exec (.readPage tag b p) s = .next (busy 0x10))
    ∧ (∀ b p, exec (.stagePage tag b p) s = .next (busy 0x11))
    ∧ (∀ f v, 1 ≤ v.length → v.length ≤ 8 → exec (.writeSlots tag f v) s = .next (busy 0x12))
    ∧ exec (.commitPage tag) s = .next (busy 0x13)
    ∧ exec (.copyWorking tag) s = .next (busy 0x14)
    ∧ exec (.recallRetained tag) s = .next (busy 0x15)
    ∧ exec (.activate tag) s = .next (busy 0x16)
    ∧ exec (.cancelActivation tag) s = .next (busy 0x17)
    ∧ exec (.retain tag) s = .next (busy 0x18)

/-- READ PAGE of a bank returns the page's 24 slots with the bank's state as detail and empties the staging page; of
STAGING it returns the staging page and changes nothing (R125, R126; the detail 0 of
NOT_STAGED is the model's, log 31). -/
def Obligations.ReadPageReturnsThePage : Prop :=
  ∀ (tag : Byte) (bank page : Word16) (s : State), s.Listening → s.ps.operation = none →
    (4 ≤ bank.toNat →
      exec (.readPage tag bank page) s
        = .next (s.queueReply { kind := 0x10, tag := tag, result := .badArgument, detail := 1, data := [] }))
    ∧ (bank.toNat < 3 → 11 ≤ page.toNat →
      exec (.readPage tag bank page) s
        = .next (s.queueReply { kind := 0x10, tag := tag, result := .badArgument, detail := 2, data := [] }))
    ∧ (∀ p : Fin 11, bank.toNat < 3 → page.toNat = p.val →
      exec (.readPage tag bank page) s
        = .next
            { s.queueReply
                { kind := 0x10, tag := tag, result := .done
                  detail :=
                    if bank.toNat = 0 then natWord (retainedCode s.ps.retainedState)
                    else if bank.toNat = 1 then natWord (planStateCode s.ps.planState)
                    else natWord (shadowCode s.ps.shadowState)
                  data :=
                    (if bank.toNat = 0 then s.ps.retained[p]
                     else if bank.toNat = 1 then s.ps.working[p] else s.ps.shadow[p]).toList.flatMap
                      fun v : Slot => [(v >>> 16).setWidth 16, v.setWidth 16] } with
              ps := { s.ps with staging := none } })
    ∧ (bank.toNat = 3 →
      (s.ps.staging = none →
        exec (.readPage tag bank page) s
          = .next (s.queueReply { kind := 0x10, tag := tag, result := .notStaged, detail := 0, data := [] }))
      ∧ ∀ st, s.ps.staging = some st →
        exec (.readPage tag bank page) s
          = .next (s.queueReply
              { kind := 0x10, tag := tag, result := .done, detail := natWord st.page.val
                data := st.slots.toList.flatMap fun v : Slot => [(v >>> 16).setWidth 16, v.setWidth 16] }))

/-- STAGE PAGE copies the named page into the staging page, and is refused for an INVALID retained bank (R127). -/
def Obligations.StagePageLoadsThePage : Prop :=
  ∀ (tag : Byte) (bank page : Word16) (s : State), s.Listening → s.ps.operation = none →
    (3 ≤ bank.toNat →
      exec (.stagePage tag bank page) s
        = .next (s.queueReply { kind := 0x11, tag := tag, result := .badArgument, detail := 1, data := [] }))
    ∧ (bank.toNat < 3 → 11 ≤ page.toNat →
      exec (.stagePage tag bank page) s
        = .next (s.queueReply { kind := 0x11, tag := tag, result := .badArgument, detail := 2, data := [] }))
    ∧ (bank.toNat = 0 → page.toNat < 11 → s.ps.retainedState = .invalid →
      exec (.stagePage tag bank page) s
        = .next (s.queueReply { kind := 0x11, tag := tag, result := .refused, detail := 2, data := [] }))
    ∧ ∀ p : Fin 11, bank.toNat < 3 → page.toNat = p.val → (bank.toNat = 0 → s.ps.retainedState ≠ .invalid) →
      exec (.stagePage tag bank page) s
        = .next
            { s.queueReply
                { kind := 0x11, tag := tag, result := .done, detail := natWord p.val, data := [] } with
              ps := { s.ps with
                staging := some
                  ⟨p, if bank.toNat = 0 then s.ps.retained[p]
                      else if bank.toNat = 1 then s.ps.working[p] else s.ps.shadow[p]⟩ } }

/-- WRITE SLOTS writes its values into consecutive slots of the staging page, wrapping within the page, and no other
slot; its detail is the number of values (R128; the detail 0 of NOT_STAGED is the model's, log 31). -/
def Obligations.WriteSlotsWritesWithinThePage : Prop :=
  ∀ (tag : Byte) (first : Word16) (values : List Slot) (s : State), s.Listening → s.ps.operation = none →
    1 ≤ values.length → values.length ≤ 8 →
    (23 < first.toNat →
      exec (.writeSlots tag first values) s
        = .next (s.queueReply { kind := 0x12, tag := tag, result := .badArgument, detail := 1, data := [] }))
    ∧ (first.toNat ≤ 23 → s.ps.staging = none →
      exec (.writeSlots tag first values) s
        = .next (s.queueReply { kind := 0x12, tag := tag, result := .notStaged, detail := 0, data := [] }))
    ∧ ∀ st, first.toNat ≤ 23 → s.ps.staging = some st →
      ∃ slots : Page,
        exec (.writeSlots tag first values) s
          = .next
              { s.queueReply
                  { kind := 0x12, tag := tag, result := .done, detail := natWord values.length, data := [] } with
                ps := { s.ps with staging := some ⟨st.page, slots⟩ } }
        ∧ (∀ i v, values[i]? = some v → slots[(first.toNat + i) % 24]? = some v)
        ∧ ∀ j : Fin 24, (∀ i, i < values.length → (first.toNat + i) % 24 ≠ j.val) → slots[j] = st.slots[j]

/-- COMMIT PAGE draws PENDING, NOT_STAGED or CHECK_FAILED, which the last outcome records, or, with a staging page that
passes its page checks, starts COMMITTING; a failure is reported at the lowest slot that fails, and there with the lowest
check (R21, R22, R129, R146, R187; the detail 0 of PENDING and of NOT_STAGED is the model's, log 31). -/
def Obligations.CommitPageStartsCommitting : Prop :=
  ∀ (tag : Byte) (s : State), s.Listening → s.ps.operation = none →
    (s.ps.activationPending = true →
      exec (.commitPage tag) s
        = .next (s.queueReply { kind := 0x13, tag := tag, result := .pending, detail := 0, data := [] }))
    ∧ (s.ps.activationPending = false → s.ps.staging = none →
      exec (.commitPage tag) s
        = .next (s.queueReply { kind := 0x13, tag := tag, result := .notStaged, detail := 0, data := [] }))
    ∧ ∀ st, s.ps.activationPending = false → s.ps.staging = some st →
      (∀ slot code, PageReport st.page.val st.slots slot code →
        let detail := natWord (st.page.val * 4096 + slot * 128 + code)
        exec (.commitPage tag) s
          = .next
              { s.queueReply
                  { kind := 0x13, tag := tag, result := .checkFailed, detail := detail, data := [] } with
                ps := { s.ps with lastOutcome := some ⟨.commit, .reply .checkFailed, detail⟩ } })
      ∧ (PagePasses st.page.val st.slots →
        exec (.commitPage tag) s
          = .next { s with ps := { s.ps with operation := some ⟨.committing, tag, 0⟩ } })

/-- COPY WORKING, RECALL RETAINED, ACTIVATE and RETAIN: their refusals, and the operation each starts with the staging
page emptied; RETAIN sets the retained state to INVALID (R125, R131, R132, R133, R141; the detail 0 of
PENDING is the model's, log 31). -/
def Obligations.TimedRequestsStartTheirOperation : Prop :=
  ∀ (tag : Byte) (s : State), s.Listening → s.ps.operation = none →
    let answer := fun (kind : Byte) (result : ResultCode) (detail : Word16) => s.queueReply
      { kind := kind, tag := tag, result := result, detail := detail, data := [] }
    (s.ps.activationPending = true →
      exec (.copyWorking tag) s = .next (answer 0x14 .pending 0)
      ∧ exec (.recallRetained tag) s = .next (answer 0x15 .pending 0)
      ∧ (s.ps.shadowState ≠ .damaged → exec (.activate tag) s = .next (answer 0x16 .pending 0)))
    ∧ (s.ps.activationPending = false →
      exec (.copyWorking tag) s
        = .next { s with ps := { s.ps with staging := none, operation := some ⟨.copying, tag, 0⟩ } })
    ∧ (s.ps.activationPending = false → s.ps.retainedState = .invalid →
      exec (.recallRetained tag) s = .next (answer 0x15 .refused 2))
    ∧ (s.ps.activationPending = false → s.ps.retainedState = .blank →
      exec (.recallRetained tag) s = .next (answer 0x15 .refused 3))
    ∧ (s.ps.activationPending = false → s.ps.retainedState = .valid →
      exec (.recallRetained tag) s
        = .next { s with ps := { s.ps with staging := none, operation := some ⟨.recalling, tag, 0⟩ } })
    ∧ (s.ps.shadowState = .damaged → exec (.activate tag) s = .next (answer 0x16 .refused 3))
    ∧ (s.ps.shadowState ≠ .damaged → s.ps.activationPending = false →
      exec (.activate tag) s
        = .next { s with ps := { s.ps with staging := none, operation := some ⟨.checking, tag, 0⟩ } })
    ∧ (s.supply = .low → exec (.retain tag) s = .next (answer 0x18 .refused 1))
    ∧ (s.supply = .normal →
      exec (.retain tag) s
        = .next { s with ps := { s.ps with
            staging := none, retainedState := .invalid, operation := some ⟨.retaining, tag, 0⟩ } })

/-- CANCEL ACTIVATION is refused with nothing pending, and otherwise clears the flag, empties the staging page and
records the outcome, the shadow unchanged (R136, R146). -/
def Obligations.CancelActivationClearsThePending : Prop :=
  ∀ (tag : Byte) (s : State), s.Listening → s.ps.operation = none →
    (s.ps.activationPending = false →
      exec (.cancelActivation tag) s
        = .next (s.queueReply { kind := 0x17, tag := tag, result := .refused, detail := 0, data := [] }))
    ∧ (s.ps.activationPending = true →
      exec (.cancelActivation tag) s
        = .next
            { s.queueReply { kind := 0x17, tag := tag, result := .done, detail := 0, data := [] } with
              ps := { s.ps with
                staging := none, activationPending := false, lastOutcome := some ⟨.cancel, .reply .done, 0⟩ } })

/-- ABORT empties the staging page and answers DONE; an operation in progress is stopped, its owed reply queued first
as ABORTED with detail 1. Of the destination each slot holds its old value or the new one, whichever that is
(R144, R145: for every value of the free value of log 6). -/
def Obligations.AbortStopsTheOperation : Prop :=
  ∀ (tag : Byte) (s : State), s.Listening →
    (s.ps.operation = none →
      exec (.abort tag) s
        = .next
            { s.queueReply { kind := 0x19, tag := tag, result := .done, detail := 0, data := [] } with
              ps := { s.ps with staging := none } })
    ∧ ∀ op, s.ps.operation = some op →
      ∃ t, exec (.abort tag) s = .next t
        ∧ t = { s with ps := t.ps, mu := t.mu, stops := s.stops + 1 }
        ∧ t.mu = { s.mu with
            replies := s.mu.replies ++
              [{ kind := opRequest op.kind, tag := op.tag, result := .aborted, detail := 1, data := [] },
               { kind := 0x19, tag := tag, result := .done, detail := natWord (opCode op.kind), data := [] }] }
        ∧ t.ps = { s.ps with
            operation := none, staging := none
            lastOutcome := some ⟨opSource op.kind, .reply .aborted, 1⟩
            retained := t.ps.retained, retainedState := t.ps.retainedState
            shadow := t.ps.shadow, shadowState := t.ps.shadowState }
        ∧ t.ps.retainedState = (if op.kind = .retaining then .invalid else s.ps.retainedState)
        ∧ t.ps.shadowState
            = (if op.kind = .retaining ∨ op.kind = .checking then s.ps.shadowState else .damaged)
        ∧ (∀ p i, bankSlot t.ps.retained p i = bankSlot s.ps.retained p i
            ∨ (op.kind = .retaining ∧ bankSlot t.ps.retained p i = bankSlot s.ps.working p i))
        ∧ (∀ p i, bankSlot t.ps.shadow p i = bankSlot s.ps.shadow p i
            ∨ (op.kind = .copying ∧ bankSlot t.ps.shadow p i = bankSlot s.ps.working p i)
            ∨ (op.kind = .recalling ∧ bankSlot t.ps.shadow p i = bankSlot s.ps.retained p i)
            ∨ (op.kind = .committing
                ∧ ∃ st, s.ps.staging = some st ∧ p = st.page.val
                  ∧ bankSlot t.ps.shadow p i = slotAt st.slots i))

/-- COMMITTING, COPYING, RECALLING and RETAINING end with their banks written, the staging page emptied by a commit,
the states of R120 and R121, a DONE reply and the outcome recorded (R130, R131, R132, R142, R146). -/
def Obligations.WritingOperationsComplete : Prop :=
  ∀ (s : State) (op : Operation), s.Awake → s.ps.operation = some op →
    let ended := fun (kind : Byte) (source : OutcomeSource) (detail : Word16) (ps : Ps) =>
      { s.queueReply { kind := kind, tag := op.tag, result := .done, detail := detail, data := [] } with
        ps := { ps with operation := none, lastOutcome := some ⟨source, .reply .done, detail⟩ } }
    (∀ st, op.kind = .committing → s.ps.staging = some st →
      exec .committingCompletion s
        = .next (ended 0x13 .commit (natWord st.page.val)
            { s.ps with
              shadow := s.ps.shadow.set st.page st.slots, staging := none
              shadowState := if s.ps.shadowState = .damaged then .damaged else .edited }))
    ∧ (op.kind = .copying →
      exec .copyingCompletion s
        = .next (ended 0x14 .copy 0 { s.ps with shadow := s.ps.working, shadowState := .clean }))
    ∧ (op.kind = .recalling → s.ps.retained = s.ps.working →
      exec .recallingCompletion s
        = .next (ended 0x15 .recall 1 { s.ps with shadow := s.ps.retained, shadowState := .clean }))
    ∧ (op.kind = .recalling → s.ps.retained ≠ s.ps.working →
      exec .recallingCompletion s
        = .next (ended 0x15 .recall 2 { s.ps with shadow := s.ps.retained, shadowState := .edited }))
    ∧ (op.kind = .retaining →
      exec .retainingCompletion s
        = .next (ended 0x18 .retain (natWord (planId s.ps.working))
            { s.ps with retained := s.ps.working, retainedState := .valid }))

/-- CHECKING ends in CHECK_FAILED, at the first failure of the checks in their order, in LOCKED, at the first licensed
item that differs under PLAN LOCK, or in ACCEPTED, and only ACCEPTED leaves an activation pending (R21, R22, R24, R134,
R146, R187; the page check of an unused channel map entry and of a coupling's unused bits: logs 15 and 16). -/
def Obligations.CheckingDecidesTheActivation : Prop :=
  ∀ (s : State) (op : Operation), s.Awake → s.ps.operation = some op → op.kind = .checking →
    let ended := fun (result : ResultCode) (detail : Word16) (pending : Bool) =>
      { s.queueReply { kind := 0x16, tag := op.tag, result := result, detail := detail, data := [] } with
        ps := { s.ps with
          operation := none, lastOutcome := some ⟨.check, .reply result, detail⟩, activationPending := pending } }
    (∀ page slot code, PlanReport s.ps.shadow page slot code →
      exec .checkingCompletion s
        = .next (ended .checkFailed (natWord (page * 4096 + slot * 128 + code)) s.ps.activationPending))
    ∧ (∀ p i, PlanPasses s.ps.shadow → s.planLock = true → FirstLicensed s.ps.shadow s.ps.working p i →
      exec .checkingCompletion s
        = .next (ended .locked (natWord (p * 4096 + i * 128)) s.ps.activationPending))
    ∧ (PlanPasses s.ps.shadow → (s.planLock = false ∨ LicensedAgree s.ps.shadow s.ps.working) →
      exec .checkingCompletion s
        = .next (ended .accepted (natWord (planId s.ps.shadow)) true))

/-- A swap that is due is performed or dropped. Performed, the working bank takes the shadow whole and an ACTIVATED alert
is raised, and BE, EA and ZC bring their records into line with the new plan. Under PLAN LOCK, when a licensed item
differs, the activation is dropped with an ACTIVATION_DROPPED alert and the records stay. Either way the limits in force
are then derived from the plan in force, every account starts under them, and every zone is resolved
(R24, R28, R34, R73, R74, R80, R88, R96, R115, R116, R138 to R140; that the swap is a command of its own: log 4). -/
def Obligations.SwapIsPerformedOrDropped : Prop :=
  ∀ (s : State), s.supply ≠ .off → s.due.swap = true → s.ps.activationPending = true →
    (∀ op, s.ps.operation = some op → op.kind ≠ .retaining) →
    ∃ t, exec .swap s = .next t
      ∧ t = { s with
          ps := t.ps, mu := { s.mu with alerts := t.mu.alerts, alertsLost := t.mu.alertsLost }
          tb := { s.tb with limits := t.tb.limits }
          be := t.be, ea := t.ea, zc := { s.zc with zones := t.zc.zones, tripLine := t.zc.tripLine }
          due := { s.due with swap := false } }
      ∧ t.tb.limits = deriveLimits t.ps.working s.tb.isSet s.tb.minute
      ∧ t.TripLineFollows
      ∧ (s.planLock = false ∨ LicensedAgree s.ps.shadow s.ps.working →
          t.ps = { s.ps with
            working := s.ps.shadow, planState := .active, shadowState := .clean, activationPending := false
            lastOutcome := some ⟨.swap, .activated, natWord (planId s.ps.shadow)⟩ }
          ∧ s.AlertsRaised t [⟨.activated, false, none, s.stamp, natWord (planId s.ps.shadow)⟩]
          ∧ BeAligned s.ps.working s.ps.shadow s.be t.be
          ∧ AccountsAligned s.ps.working s.ps.shadow t.tb.limits s.ea t.ea
          ∧ ∀ z : Fin 8, ∃ c, ZoneAligned s.ps.working s.ps.shadow z s.zc.zones[z] c
              ∧ Resolved s.ps.shadow s.stopCause t.tb.limits z c t.zc.zones[z])
      ∧ (∀ p i, s.planLock = true → FirstLicensed s.ps.shadow s.ps.working p i →
          let detail := natWord (p * 4096 + i * 128)
          t.ps = { s.ps with activationPending := false, lastOutcome := some ⟨.swap, .dropped, detail⟩ }
          ∧ s.AlertsRaised t [⟨.activationDropped, false, none, s.stamp, detail⟩]
          ∧ t.be = s.be ∧ t.ea.latches = s.ea.latches
          ∧ (∀ b : Fin 6,
              (s.ea.accounts[b] = none → t.ea.accounts[b] = none)
              ∧ ∀ a l, s.ea.accounts[b] = some a → t.tb.limits[b] = some l →
                  ∃ a', t.ea.accounts[b] = some a' ∧ Account.Starts a l a')
          ∧ ∀ z : Fin 8, Resolved s.ps.working s.stopCause t.tb.limits z s.zc.zones[z] t.zc.zones[z])

/-! ### The word clock and device time -/

/-- One word clock period between interval ends: one frame with the sync word and the samples of R157 and R159, its
effect on the FIFO, the primed flag and FIFO_UNDERFLOW; each zone's record takes the energy and the peak of its
channels' samples and one frame more, and its standing for the set is its record as of this frame
(R40, R41, R100, R156, R157, R159). Where messages wait, MU takes them after the frame, the oldest first, for as long as
the replies queued and owed are below 4 (R174; that it does so after the frame is the model's order, log 25). A frame
that finds an operation at its bound first completes it, as its own row does (R124, log 25). -/
def Obligations.DriveFrameIsSentAndCounted : Prop :=
  (∀ s : State, ({ s with mu := { s.mu with inbound := [] } } : State).MidInterval →
    ∃ t, exec .driveFrame { s with mu := { s.mu with inbound := [] } } = .next t
      ∧ exec .driveFrame s = .next ({ t with mu := { t.mu with inbound := s.mu.inbound } } : State).drain)
  ∧ (∀ s : State,
    (s.mu.inbound = [] ∨ 4 ≤ s.mu.replies.length + s.repliesOwed → s.drain = s)
    ∧ ∀ m rest, s.mu.inbound = m :: rest → s.mu.replies.length + s.repliesOwed < 4 →
        s.drain = (({ s with mu := { s.mu with inbound := rest } } : State).takeMessage m).drain)
  ∧ (∀ (s : State) (c : Instr) (m : Message), s.Listening → messageOf c = some m →
    exec c s = .next (s.takeMessage m))
  ∧ (∀ (s : State) (op : Operation) (c : Instr), s.Awake → s.due.tb = none → s.intervalComplete = false →
    s.due.restart = false → s.ps.operation = some op → opBoundMs op.kind * 48 ≤ op.frames →
    ((op.kind = .committing ∧ c = .committingCompletion) ∨ (op.kind = .copying ∧ c = .copyingCompletion)
      ∨ (op.kind = .recalling ∧ c = .recallingCompletion) ∨ (op.kind = .checking ∧ c = .checkingCompletion)
      ∨ (op.kind = .retaining ∧ c = .retainingCompletion)) →
    ∃ u, exec c s = .next u ∧ u.ps.operation = none ∧ exec .driveFrame s = exec .driveFrame u)
  ∧ ∀ (s : State), s.MidInterval →
    ∃ t f, exec .driveFrame s = .next t ∧ t.driveOut = some f ∧ f.sync = 0x3A6C95
      ∧ t = { s with
          driveOut := some f, lrx := { s.lrx with fifo := t.lrx.fifo, flags := t.lrx.flags }, ltx := t.ltx
          mu := { s.mu with
            replies := t.mu.replies, alerts := t.mu.alerts, reports := t.mu.reports
            alertsLost := t.mu.alertsLost, reportsLost := t.mu.reportsLost }
          mb := { s.mb with meters := t.mb.meters }, zc := { s.zc with zones := t.zc.zones, standing := t.zc.standing }
          ps := { s.ps with operation := s.ps.operation.map fun op => { op with frames := op.frames + 1 } } }
      ∧ (∀ z : Fin 8,
          (let magnitudes := ((List.finRange 16).filter fun n : Fin 16 => channelZone s.ps.working n = some z).map fun n =>
              f.samples[n].toInt.natAbs
           t.mb.meters[z] =
            { energy := s.mb.meters[z].energy + (magnitudes.map (· ^ 2)).sum
              peak := magnitudes.foldl max s.mb.meters[z].peak
              frames := s.mb.meters[z].frames + 1 })
          ∧ t.zc.zones[z] = { s.zc.zones[z] with disturbed := false }
          ∧ t.zc.standing[z] =
            { state := s.zc.zones[z].state, attenuation := s.zc.zones[z].attenuation
              persistence := s.zc.zones[z].persistence, releaseCount := s.zc.zones[z].releaseCount
              floorEpisode := s.zc.zones[z].floorEpisode })
      ∧ (∀ x rest, s.lrx.receiver = .locked → s.lrx.fifo = x :: rest → (s.ltx.primed = true ∨ rest ≠ []) →
          t.lrx.fifo = rest ∧ t.ltx.primed = true ∧ t.lrx.flags = s.lrx.flags
          ∧ ∀ n : Fin 16,
              (channelZone s.ps.working n = none → f.samples[n] = 0)
              ∧ ∀ z, channelZone s.ps.working n = some z →
                  f.samples[n] = (if s.zc.zones[z].state.silencing then 0
                    else scaleSample x[n] s.zc.zones[z].attenuation))
      ∧ ((s.lrx.receiver ≠ .locked ∨ s.lrx.fifo = [] ∨ (s.ltx.primed = false ∧ s.lrx.fifo.length < 2)) →
          f.samples = Vector.replicate 16 0 ∧ t.lrx.fifo = s.lrx.fifo ∧ t.ltx.primed = s.ltx.primed
          ∧ t.lrx.flags = { s.lrx.flags with
              fifoUnderflow := s.lrx.flags.fifoUnderflow
                || (s.lrx.receiver == .locked && s.ltx.primed && s.lrx.fifo.isEmpty) })

/-- The lane word of a frame: the next word of the message in transmission, the fill word after it, the oldest urgent
alert before any other message, and the rotation among the classes when no alert is urgent, the header of the message
given going out in this frame (R161, R177 to R179). The words of a reply, an alert and a minute report are laid out as the
manual's tables have them (R176, R180, R191, R192). -/
def Obligations.LaneWordFollowsTheArbiter : Prop :=
  let absent := fun n : Option Nat =>
    match n with
    | none => (0x8000 : Word16)
    | some n => BitVec.ofNat 16 n
  let limit := fun l : Limit =>
    match l with
    | .silent => (0x7FFF : Word16)
    | .number n => BitVec.ofNat 16 n
  (∀ r : Reply,
    let data := if r.result = .done then r.data else []
    let code : Word16 :=
      match r.result with
      | .done => 0 | .accepted => 1 | .busy => 2 | .pending => 3 | .locked => 4 | .checkFailed => 5
      | .badRequest => 6 | .badArgument => 7 | .notStaged => 8 | .refused => 9 | .aborted => 10
    replyWords r
      = [BitVec.ofNat 16 ((r.kind ||| 0x80).toNat * 256 + (3 + data.length)), (0 : Byte) ++ r.tag, code, r.detail]
        ++ data)
  ∧ (∀ (a : Alert) (lost : Bool),
    let code : Byte :=
      match a.kind with
      | .started => 1 | .trip => 2 | .floor => 3 | .breach => 4 | .monitorStale => 5 | .monitorLive => 6
      | .link => 7 | .stop => 8 | .supply => 9 | .activated => 10 | .activationDropped => 11
    alertWords a lost
      = [0xE004, BitVec.ofBool a.urgent ++ BitVec.ofBool lost ++ (0 : BitVec 6) ++ code, absent a.subject,
         absent a.minute, a.detail])
  ∧ (∀ (r : MinuteReport) (lost : Bool), r.entries.length ≤ 6 → (∀ e ∈ r.entries, e.boundary ≤ 5) →
    reportWords r lost
      = [BitVec.ofNat 16 (0xE1 * 256 + (3 + 7 * r.entries.length)),
         BitVec.ofBool lost ++ BitVec.ofBool r.isPartial ++ (0 : BitVec 11) ++ BitVec.ofNat 3 r.entries.length,
         absent r.minute, BitVec.ofNat 16 r.count]
        ++ r.entries.flatMap fun e =>
            [(0 : BitVec 3) ++ BitVec.ofBool e.entry.marks.runningLf ++ BitVec.ofBool e.entry.marks.runningFull
                ++ BitVec.ofBool e.entry.marks.minuteLf ++ BitVec.ofBool e.entry.marks.minuteFull
                ++ BitVec.ofBool e.entry.unwatched ++ (0 : BitVec 5) ++ BitVec.ofNat 3 e.boundary,
             BitVec.ofNat 16 e.entry.full, BitVec.ofNat 16 e.entry.lf, limit e.entry.limitFull,
             limit e.entry.limitLf, BitVec.ofNat 16 e.runningFull, BitVec.ofNat 16 e.runningLf])
  ∧ ∀ (s : State), s.MidInterval →
    ∃ t f, exec .driveFrame s = .next t ∧ t.driveOut = some f ∧ laneGood f.lane = true
      ∧ (∀ w i v, s.ltx.sending = some ⟨w, i⟩ → w[i]? = some v →
          laneValue f.lane = v ∧ t.mu = s.mu
          ∧ (i + 1 = w.length → t.ltx.sending = none ∧ t.ltx.fillPending = true)
          ∧ (i + 1 < w.length → t.ltx.sending = some ⟨w, i + 1⟩))
      ∧ (s.ltx.sending = none → s.ltx.fillPending = true →
          laneValue f.lane = 0xFFFF ∧ t.mu = s.mu ∧ t.ltx.sending = none ∧ t.ltx.fillPending = false)
      ∧ (s.ltx.sending = none → s.ltx.fillPending = false →
          (∀ before a after, s.mu.alerts = before ++ a :: after → a.urgent = true →
              (∀ x ∈ before, x.urgent = false) →
            t.mu = { s.mu with alerts := before ++ after, alertsLost := false }
            ∧ t.ltx.sending = some ⟨alertWords a s.mu.alertsLost, 1⟩ ∧ t.ltx.lastClass = .alert
            ∧ laneValue f.lane = 0xE004)
          ∧ ((∀ x ∈ s.mu.alerts, x.urgent = false) →
            (∀ r rest, s.mu.replies = r :: rest →
                (s.ltx.lastClass = .report
                  ∨ (s.ltx.lastClass = .alert ∧ s.mu.reports = [])
                  ∨ (s.mu.alerts = [] ∧ s.mu.reports = [])) →
              t.mu = { s.mu with replies := rest } ∧ t.ltx.sending = some ⟨replyWords r, 1⟩
              ∧ t.ltx.lastClass = .reply ∧ some (laneValue f.lane) = (replyWords r).head?)
            ∧ (∀ a rest, s.mu.alerts = a :: rest →
                (s.ltx.lastClass = .reply
                  ∨ (s.ltx.lastClass = .report ∧ s.mu.replies = [])
                  ∨ (s.mu.replies = [] ∧ s.mu.reports = [])) →
              t.mu = { s.mu with alerts := rest, alertsLost := false }
              ∧ t.ltx.sending = some ⟨alertWords a s.mu.alertsLost, 1⟩ ∧ t.ltx.lastClass = .alert
              ∧ laneValue f.lane = 0xE004)
            ∧ (∀ r rest, s.mu.reports = r :: rest →
                (s.ltx.lastClass = .alert
                  ∨ (s.ltx.lastClass = .reply ∧ s.mu.alerts = [])
                  ∨ (s.mu.replies = [] ∧ s.mu.alerts = [])) →
              t.mu = { s.mu with reports := rest, reportsLost := false }
              ∧ t.ltx.sending = some ⟨reportWords r s.mu.reportsLost, 1⟩ ∧ t.ltx.lastClass = .report
              ∧ some (laneValue f.lane) = (reportWords r s.mu.reportsLost).head?)
            ∧ (s.mu.replies = [] → s.mu.alerts = [] → s.mu.reports = [] →
              laneValue f.lane = 0xFFFF ∧ t.mu = s.mu ∧ t.ltx.sending = none
              ∧ t.ltx.lastClass = s.ltx.lastClass)))

/-- The interval end: the eight figures are published together and the records return to 0; every estimator takes the
figures of the set; every account takes the corrected estimates; every mapped monitor's silence count rises, and falls
into STALE become due; every zone takes the set on its standing, by the trip judgement, the demand and the transition,
with the FLOOR alerts in zone order; and TB counts the interval, so that a setting is due, or a minute boundary at
position 480 (R27, R40, R43 to R45, R48, R55 to R61, R64, R78, R98 to R104, R111; that falls into STALE, trips, entries into FREE
and the minute boundary become due as commands of their own: log 4; that the FLOOR alerts of one set come in zone order is
the model's choice: log 5; the set and a record touched since the last frame: log 27; that a zone which trips has no
last demand: log 28). -/
def Obligations.IntervalEndPublishesAndCounts : Prop :=
  ∀ (s : State), s.supply ≠ .off → s.Settled → s.due.tb = none →
    (∀ z : Fin 8, s.mb.meters[z].frames = 6000) →
    ∃ t, exec .intervalEnd s = .next t
      ∧ t = { s with
          mb := t.mb, be := t.be, ea := { s.ea with accounts := t.ea.accounts }
          zc := { s.zc with zones := t.zc.zones, tripLine := t.zc.tripLine }, tb := t.tb
          due := { s.due with stale := t.due.stale, trips := t.due.trips, frees := t.due.frees, tb := t.due.tb }
          mu := { s.mu with alerts := t.mu.alerts, alertsLost := t.mu.alertsLost } }
      ∧ (∀ z : Fin 8,
          t.mb.published[z] = ⟨zoneLevel s.mb.meters[z].energy, zonePeak s.mb.meters[z].peak⟩
          ∧ t.mb.meters[z] = ⟨0, 0, 0⟩)
      ∧ t.tb = { s.tb with position := s.tb.position + 1, tally := s.tb.tally + 1 }
      ∧ (∀ b : Fin 6, s.be.estimators[b] = none →
          t.be.estimators[b] = none ∧ t.ea.accounts[b] = s.ea.accounts[b])
      ∧ (∀ b : Fin 6, ∀ e, s.be.estimators[b] = some e →
          ∃ f, t.be.estimators[b] = some
            { e with figures := some f, ring := pushNewest 80 e.ring ⟨f.full.uncorrected, f.lf.uncorrected⟩ }
            ∧ FiguresOf s t.mb.published b false e.correctionFull f.full
            ∧ FiguresOf s t.mb.published b true e.correctionLf f.lf
            ∧ (f.unwatched = true ↔ Unwatched s.ps.working s.be.monitors b)
            ∧ (s.ea.accounts[b] = none → t.ea.accounts[b] = none)
            ∧ ∀ a, s.ea.accounts[b] = some a →
                t.ea.accounts[b] = some
                  { a with
                    count := a.count + 1, full := Energy.add a.full f.full.corrected 1
                    lf := Energy.add a.lf f.lf.corrected 1 })
      ∧ (∀ m : Fin 12,
          (s.be.monitors[m].state = .unmapped → t.be.monitors[m] = s.be.monitors[m])
          ∧ (s.be.monitors[m].state ≠ .unmapped →
              t.be.monitors[m] = { s.be.monitors[m] with silence := min 65535 (s.be.monitors[m].silence + 1) }))
      ∧ (∀ m : Fin 12, m ∈ t.due.stale ↔
          t.be.monitors[m].state = .live ∧ staleTimeout s.ps.working ≤ t.be.monitors[m].silence)
      ∧ (∀ z : Fin 8, s.ZoneTakesSet t z)
      ∧ s.AlertsRaised t (if s.stopCause then [] else s.floorAlertsOf t)
      ∧ t.TripLineFollows
      ∧ t.due.tb = (if s.tb.setting.isSome then some .setting
          else if s.tb.position + 1 = 480 then some .minuteBoundary else none)

/-- A due setting acts as a trim or as a step. A step closes the minute as a partial one, sets the time of day, answers,
and the limits of the named minute are derived unless a swap is ready; a trim moves the position alone
(R28, R30 to R34, R80 to R86, R115; that it is a command of its own: log 4). -/
def Obligations.SettingActsAsTrimOrStep : Prop :=
  ∀ (s : State) (set : Setting), s.supply ≠ .off → s.due.tb = some .setting → s.tb.setting = some set →
    s.due.stale = [] → s.due.trips = [] → s.due.frees = [] →
    let target := set.second * 8
    let move : Int := (target : Int) - s.tb.position
    let isATrim := s.tb.isSet = true ∧ set.minute = s.tb.minute ∧ -16 ≤ move ∧ move ≤ 16
      ∧ -16 ≤ s.tb.drift + move ∧ s.tb.drift + move ≤ 16
    (isATrim →
      exec .timeSetAct s
        = .next
            { s.queueReply
                { kind := 0x06, tag := set.tag, result := .done, detail := 1
                  data := [natWord s.tb.minute, natWord target] } with
              tb := { s.tb with position := target, drift := s.tb.drift + move, setting := none }
              due := { s.due with tb := none } })
    ∧ (¬ isATrim →
      ∃ t, exec .timeSetAct s = .next t
        ∧ t = { s with
            tb := t.tb, ea := t.ea, zc := { s.zc with zones := t.zc.zones, tripLine := t.zc.tripLine }
            mu := { s.mu with
              replies := t.mu.replies, alerts := t.mu.alerts, alertsLost := t.mu.alertsLost
              reports := t.mu.reports, reportsLost := t.mu.reportsLost }
            due := { s.due with tb := none, swap := t.due.swap } }
        ∧ t.tb = { s.tb with
            isSet := true, minute := set.minute, position := target, tally := 0, drift := 0, stepStart := true
            setting := none, limits := t.tb.limits }
        ∧ t.mu.replies = s.mu.replies ++
            [{ kind := 0x06, tag := set.tag, result := .done, detail := 2
               data := [natWord set.minute, natWord target] }]
        ∧ s.MinuteClosed t true
        ∧ s.DerivedAfterClose t)

/-- A minute boundary: every account closes into its ring with its levels, its limits, its unwatched mark and its breach
marks; the breaches set their latches and raise their alerts unless VENUE STOP or a LOW supply holds them back; the minute
report is queued with an entry for each account; the minute of day advances; and the limits of the new minute are
derived unless a swap is ready (R27, R28, R34, R80 to R86, R115; that it is a command of its own: log 4). -/
def Obligations.MinuteBoundaryClosesTheMinute : Prop :=
  ∀ (s : State), s.supply ≠ .off → s.due.tb = some .minuteBoundary →
    s.due.stale = [] → s.due.trips = [] → s.due.frees = [] →
    ∃ t, exec .minuteBoundary s = .next t
      ∧ t = { s with
          tb := t.tb, ea := t.ea, zc := { s.zc with zones := t.zc.zones, tripLine := t.zc.tripLine }
          mu := { s.mu with
            alerts := t.mu.alerts, alertsLost := t.mu.alertsLost, reports := t.mu.reports
            reportsLost := t.mu.reportsLost }
          due := { s.due with tb := none, swap := t.due.swap } }
      ∧ t.tb = { s.tb with
          minute := if 1439 ≤ s.tb.minute then 0 else s.tb.minute + 1
          position := 0, tally := 0, drift := 0, stepStart := false, limits := t.tb.limits }
      ∧ s.MinuteClosed t s.tb.stepStart
      ∧ s.DerivedAfterClose t

/-! ### The program link -/

/-- A change of the line's level returns the carrier count to 0, which the bit period that it begins leaves at 0, and takes
LRX from NO_CARRIER to SEARCH, a change that a received bit carries as any other; in NO_CARRIER no bit is examined; 432 bit
periods without one take it to NO_CARRIER with CARRIER_LOST and one LINK alert with detail 4, and from LOCKED with the
effects of leaving LOCKED: LOCK_LOST set, the FIFO emptied, LTX unprimed, and a message in assembly discarded with
LANE_TRUNCATED (R149, R154, R169; that a bit is a level of the line is log 22, and that CARRIER_LOST changes nothing in
NO_CARRIER is the model's, log 3). -/
def Obligations.CarrierIsFollowed : Prop :=
  ∀ (s : State), s.Awake →
    (s.lrx.receiver ≠ .noCarrier →
      exec .lineTransition s
        = .next { s with lrx := { s.lrx with carrier := 0, lineLevel := !s.lrx.lineLevel, changed := true } })
    ∧ (s.lrx.receiver = .noCarrier →
      exec .lineTransition s
        = .next { s with lrx := { s.lrx with
            carrier := 0, lineLevel := !s.lrx.lineLevel, changed := true, receiver := .search, mismatches := 0
            window := 0, seen := 0, kept := [] } })
    ∧ (∀ (bit : Bool) (bits : List Bool) (u : State), bit ≠ s.lrx.lineLevel → exec .lineTransition s = .next u →
        s.receiveBits (bit :: bits) = u.receiveBits (bit :: bits))
    ∧ (∀ (bit : Bool) (bits : List Bool), s.lrx.receiver = .noCarrier → s.lrx.carrier = 432 →
        s.lrx.changed = false → bit = s.lrx.lineLevel → s.receiveBits (bit :: bits) = s.receiveBits bits)
    ∧ (s.lrx.receiver = .noCarrier → exec .carrierLost s = .next s)
    ∧ (s.lrx.receiver ≠ .noCarrier →
      ∃ t, exec .carrierLost s = .next t
        ∧ t = { s with
            lrx := t.lrx, ltx := { s.ltx with primed := t.ltx.primed }
            mu := { s.mu with alerts := t.mu.alerts, alertsLost := t.mu.alertsLost } }
        ∧ s.AlertsRaised t [⟨.link, false, none, s.stamp, 4⟩]
        ∧ (s.lrx.receiver = .locked →
            t.ltx.primed = false
            ∧ t.lrx = { s.lrx with
              receiver := .noCarrier, mismatches := 0, kept := [], carrier := 432, changed := false, fifo := []
              assembler := .skip
              flags := { s.lrx.flags with
                carrierLost := true, lockLost := true
                laneTruncated := s.lrx.flags.laneTruncated ||
                  (match s.lrx.assembler with
                   | .collecting _ => true
                   | _ => false) } })
        ∧ (s.lrx.receiver ≠ .locked →
            t.ltx = s.ltx
            ∧ t.lrx = { s.lrx with
              receiver := .noCarrier, mismatches := 0, kept := [], carrier := 432, changed := false
              flags := { s.lrx.flags with carrierLost := true } }))

/-- A bit received in SEARCH: the last 24 bits equal to the sync word make it the candidate position, and LRX enters
CONFIRM; otherwise the search goes on. The bit that brings the carrier count to 432 takes LRX to NO_CARRIER instead, with
CARRIER_LOST and one LINK alert of detail 4. Further bits are received after it, in order (R149, R150; that a bit is a
level of the line is log 22, that 24 bits must have been received since the search began is log 9, and that the bits of a
command are received one by one is log 23). -/
def Obligations.SearchFindsTheCandidate : Prop :=
  ∀ (bit : Bool) (bits : List Bool) (s : State), s.Awake → s.lrx.receiver = .search → s.lrx.carrier < 432 →
    let still := bit = s.lrx.lineLevel ∧ s.lrx.changed = false
    let window := (s.lrx.window <<< 1) ||| (if bit then 1 else 0)
    let found := 23 ≤ s.lrx.seen ∧ window = 0x3A6C95
    (¬ (still ∧ s.lrx.carrier = 431) →
      let t : State :=
        { s with lrx := { s.lrx with
            lineLevel := bit, changed := false, carrier := if still then s.lrx.carrier + 1 else 0
            window := window, seen := min 24 (s.lrx.seen + 1)
            receiver := if found then .confirm else .search
            kept := if found then [] else s.lrx.kept } }
      exec (.syncCandidate [bit]) s = .next t
      ∧ exec (.syncCandidate (bit :: bits)) s = .next (t.receiveBits bits))
    ∧ (still ∧ s.lrx.carrier = 431 →
      ∃ t, exec (.syncCandidate [bit]) s = .next t
        ∧ exec (.syncCandidate (bit :: bits)) s = .next (t.receiveBits bits)
        ∧ t = { s with
            lrx := { s.lrx with
              receiver := .noCarrier, mismatches := 0, kept := [], carrier := 432
              flags := { s.lrx.flags with carrierLost := true } }
            mu := { s.mu with alerts := t.mu.alerts, alertsLost := t.mu.alertsLost } }
        ∧ s.AlertsRaised t [⟨.link, false, none, s.stamp, 4⟩])

/-- A bit received in CONFIRM is kept; when 432 have been kept, the last 24 of them equal to the sync word bring LRX to
LOCKED with a LINK alert of detail 3, and otherwise the kept bits are searched as though the candidate had never
matched. The bit that brings the carrier count to 432 takes LRX to NO_CARRIER instead, the candidate abandoned, with
CARRIER_LOST and one LINK alert of detail 4. Further bits are received after it, in order
(R149, R151, R152; logs 22 and 23). -/
def Obligations.ConfirmDecidesTheLock : Prop :=
  ∀ (bit : Bool) (bits : List Bool) (s : State), s.Awake → s.lrx.receiver = .confirm → s.lrx.kept.length < 432 →
    s.lrx.carrier < 432 →
    let still := bit = s.lrx.lineLevel ∧ s.lrx.changed = false
    let l : Lrx :=
      { s.lrx with
        lineLevel := bit, changed := false, carrier := if still then s.lrx.carrier + 1 else 0
        kept := s.lrx.kept ++ [bit] }
    ∃ t, exec (.syncConfirm [bit]) s = .next t
      ∧ exec (.syncConfirm (bit :: bits)) s = .next (t.receiveBits bits)
      ∧ t = { s with lrx := t.lrx, mu := { s.mu with alerts := t.mu.alerts, alertsLost := t.mu.alertsLost } }
      ∧ (¬ (still ∧ s.lrx.carrier = 431) →
        (s.lrx.kept.length < 431 → t.lrx = l ∧ t.mu = s.mu)
        ∧ (s.lrx.kept.length = 431 → l.kept.drop 408 = wordBits 0x3A6C95 →
          t.lrx = { l with receiver := .locked, mismatches := 0, window := 0, seen := 0, kept := [] }
          ∧ s.AlertsRaised t [⟨.link, false, none, s.stamp, 3⟩])
        ∧ (s.lrx.kept.length = 431 → l.kept.drop 408 ≠ wordBits 0x3A6C95 →
          t.mu = s.mu
          ∧ t.lrx = l.kept.foldl Lrx.examine
              { l with receiver := .search, window := 0x3A6C95, seen := 24, kept := [] }))
      ∧ (still ∧ s.lrx.carrier = 431 →
        s.AlertsRaised t [⟨.link, false, none, s.stamp, 4⟩]
        ∧ t.lrx = { s.lrx with
            receiver := .noCarrier, mismatches := 0, kept := [], carrier := 432
            flags := { s.lrx.flags with carrierLost := true } })

/-- A frame taken in LOCKED: its samples enter the FIFO, overwriting the newest of a full one with FIFO_OVERFLOW; the
mismatch count follows its sync word; and the assembler acts on its lane word in IDLE, COLLECTING or SKIP. A message
that the lane word completes whole arrives as any message does; after a frame that completes none MU takes what it may
of the messages that wait. A frame whose sync word is the fourth mismatch in a row loses lock as LOCK_LOST does, and
its other bits are searched. A frame within which the carrier count reaches 432 is discarded whole: LRX leaves LOCKED
for NO_CARRIER with the effects of both, and the bits that follow are received there (R149, R153 to R155, R169 to
R174; the carrier count and the line's level over a frame's bits: log 22; that a message may arrive by a command of
its own: log 2; that the two rows meet: log 24; a carrier lost at the bit that completes the fourth mismatch: log 32; a
carrier lost at the last bit of the lane word, where the frame is discarded: log 34). -/
def Obligations.FrameIsTaken : Prop :=
  ∀ (sync lane : LinkWord) (samples : Samples) (s : State), s.Awake → s.lrx.receiver = .locked →
    let bits := wordBits sync ++ bodyBits samples lane
    let carried := bits.foldl Lrx.track s.lrx
    (sync ≠ 0x3A6C95 → s.lrx.mismatches = 3 → s.lrx.keepsCarrier (wordBits sync) = true →
      ∃ u, exec (.lockLost sync) s = .next u ∧ u.lrx.receiver = .search
        ∧ exec (.frameTaken sync samples lane) s = .next (u.receiveBits (bodyBits samples lane)).drain)
    ∧ (∀ before bit after, bits = before ++ bit :: after → s.lrx.keepsCarrier before = true →
      ((before ++ [bit]).foldl Lrx.track s.lrx).carrier = 432 →
      (before.length < 24 ∨ sync = 0x3A6C95 ∨ s.lrx.mismatches < 3) →
      ∃ u : State, exec (.frameTaken sync samples lane) s = .next (u.receiveBits after).drain
        ∧ u = { s with
            lrx := { s.lrx with
              receiver := .noCarrier, mismatches := 0, kept := [], carrier := 432, lineLevel := bit, changed := false
              fifo := [], assembler := .skip
              flags := { s.lrx.flags with
                carrierLost := true, lockLost := true
                laneTruncated := s.lrx.flags.laneTruncated ||
                  (match s.lrx.assembler with
                   | .collecting _ => true
                   | _ => false) } }
            ltx := { s.ltx with primed := false }
            mu := { s.mu with alerts := u.mu.alerts, alertsLost := u.mu.alertsLost } }
        ∧ s.AlertsRaised u [⟨.link, false, none, s.stamp, 4⟩])
    ∧ ((sync = 0x3A6C95 ∨ s.lrx.mismatches < 3) → s.lrx.keepsCarrier bits = true →
      ∃ l : Lrx,
        l = { s.lrx with
            carrier := carried.carrier, lineLevel := carried.lineLevel, changed := false, fifo := l.fifo
            mismatches := if sync = 0x3A6C95 then 0 else s.lrx.mismatches + 1
            assembler := l.assembler
            flags := { s.lrx.flags with fifoOverflow := l.flags.fifoOverflow, laneParity := l.flags.laneParity } }
        ∧ (s.lrx.fifo.length < 4 →
            l.fifo = s.lrx.fifo ++ [samples] ∧ l.flags.fifoOverflow = s.lrx.flags.fifoOverflow)
        ∧ (4 ≤ s.lrx.fifo.length →
            l.fifo = s.lrx.fifo.take 3 ++ [samples] ∧ l.flags.fifoOverflow = true)
        ∧ (laneValue lane = 0xFFFF → s.lrx.assembler = .idle ∨ s.lrx.assembler = .skip →
            l.assembler = .idle ∧ l.flags.laneParity = s.lrx.flags.laneParity)
        ∧ (laneValue lane ≠ 0xFFFF → s.lrx.assembler = .skip →
            l.assembler = .skip ∧ l.flags.laneParity = s.lrx.flags.laneParity)
        ∧ (laneValue lane ≠ 0xFFFF → s.lrx.assembler = .idle →
            (laneGood lane = false → l.assembler = .skip ∧ l.flags.laneParity = true)
            ∧ (laneGood lane = true → l.flags.laneParity = s.lrx.flags.laneParity
                ∧ l.assembler =
                    (if 1 ≤ (laneValue lane).toNat % 256 ∧ (laneValue lane).toNat % 256 ≤ 40 then
                      .collecting ⟨laneValue lane, [], (laneValue lane).toNat % 256, false⟩
                     else .skip)))
        ∧ (∀ p, s.lrx.assembler = .collecting p →
            (2 ≤ p.expected →
              l.assembler = .collecting
                  ⟨p.header, p.words ++ [laneValue lane], p.expected - 1, p.damaged || !laneGood lane⟩
              ∧ l.flags.laneParity = s.lrx.flags.laneParity)
            ∧ (p.expected = 1 → l.assembler = .idle
              ∧ ((p.damaged = true ∨ laneGood lane = false) → l.flags.laneParity = true)
              ∧ ((p.damaged = false ∧ laneGood lane = true) → l.flags.laneParity = s.lrx.flags.laneParity)))
        ∧ ((¬ ∃ p, s.lrx.assembler = .collecting p ∧ p.expected ≤ 1 ∧ p.damaged = false ∧ laneGood lane = true) →
            exec (.frameTaken sync samples lane) s = .next ({ s with lrx := l } : State).drain
            ∧ (s.mu.inbound = [] ∨ s.canTake = false →
                exec (.frameTaken sync samples lane) s = .next { s with lrx := l }))
        ∧ ∀ p, s.lrx.assembler = .collecting p → p.expected = 1 → p.damaged = false → laneGood lane = true →
            let m : Message := ⟨(p.header >>> 8).setWidth 8, p.words ++ [laneValue lane]⟩
            (∀ c, messageOf c = some m →
              exec (.frameTaken sync samples lane) s = exec c { s with lrx := l })
            ∧ (s.mu.inbound = [] → s.canTake = false →
              exec (.frameTaken sync samples lane) s
                = .next { s with lrx := l, mu := { s.mu with inbound := [m] } }))

/-- The fourth sync mismatch in a row takes LRX from LOCKED to SEARCH: the FIFO emptied, LTX unprimed, LOCK_LOST set, a
message in assembly discarded with LANE_TRUNCATED, and a LINK alert of detail 1. Where the carrier count reaches 432
within the sync word, its last bit included, the carrier is lost instead and the bits that follow are received in
NO_CARRIER (R149, R153, R154, R169; at the last bit that is the model's choice, log 32; the carrier over the bits:
log 22). -/
def Obligations.FourthMismatchLosesLock : Prop :=
  ∀ (sync : LinkWord) (s : State), s.Awake → s.lrx.receiver = .locked → s.lrx.mismatches = 3 → sync ≠ 0x3A6C95 →
    (s.lrx.keepsCarrier (wordBits sync) = true →
      ∃ t, exec (.lockLost sync) s = .next t
        ∧ t = { s with
            lrx := t.lrx, ltx := { s.ltx with primed := false }
            mu := { s.mu with alerts := t.mu.alerts, alertsLost := t.mu.alertsLost } }
        ∧ s.AlertsRaised t [⟨.link, false, none, s.stamp, 1⟩]
        ∧ t.lrx = { (wordBits sync).foldl Lrx.track s.lrx with
            receiver := .search, mismatches := 0, window := 0, seen := 0, kept := [], fifo := [], assembler := .skip
            flags := { s.lrx.flags with
              lockLost := true
              laneTruncated := s.lrx.flags.laneTruncated ||
                (match s.lrx.assembler with
                 | .collecting _ => true
                 | _ => false) } })
    ∧ ∀ before bit after, wordBits sync = before ++ bit :: after → s.lrx.keepsCarrier before = true →
      ((before ++ [bit]).foldl Lrx.track s.lrx).carrier = 432 →
      ∃ u v : State, exec (.lockLost sync) s = .next (u.receiveBits after)
        ∧ exec .carrierLost s = .next v
        ∧ u = { v with lrx := { v.lrx with lineLevel := bit } }

/-! ### Lines, supply and resets -/

/-- VENUE STOP asserted stops every enabled zone at its maximum with the trip holds and mute flags kept, and releases the
TRIP line; released, it lets every zone return to its highest remaining cause or to HOLD, its counts and latches as its
resolution leaves them. Each change raises one urgent STOP alert; a level the line already has is no change. A change of
PLAN LOCK changes its level alone. In OFF a change of either line changes its level alone, which is the model's
(R107 to R109, R199; log 11). -/
def Obligations.InputLinesAct : Prop :=
  ∀ s : State,
    (s.venueStop = true → exec .venueStopAsserted s = .next s)
    ∧ (s.venueStop = false → exec .venueStopReleased s = .next s)
    ∧ (s.supply = .off →
      exec .planLockChange s = .next { s with planLock := !s.planLock }
      ∧ (s.venueStop = false → exec .venueStopAsserted s = .next { s with venueStop := true })
      ∧ (s.venueStop = true → exec .venueStopReleased s = .next { s with venueStop := false }))
    ∧ (s.Awake → exec .planLockChange s = .next { s with planLock := !s.planLock })
    ∧ (s.Awake → s.venueStop = false →
      ∃ t, exec .venueStopAsserted s = .next t
        ∧ t = { s with
            venueStop := true, zc := { s.zc with zones := t.zc.zones, tripLine := t.zc.tripLine }
            mu := { s.mu with alerts := t.mu.alerts, alertsLost := t.mu.alertsLost } }
        ∧ s.AlertsRaised t [⟨.stop, true, none, s.stamp, 1⟩]
        ∧ t.TripLineFollows
        ∧ (∀ z : Fin 8, Resolved s.ps.working true s.tb.limits z s.zc.zones[z] t.zc.zones[z])
        ∧ (s.ZonesResolved → t.zc.tripLine = false
            ∧ ∀ z : Fin 8,
                t.zc.zones[z].muted = s.zc.zones[z].muted
                ∧ ((zoneItem s.ps.working z).enabled = false → t.zc.zones[z] = s.zc.zones[z])
                ∧ ((zoneItem s.ps.working z).enabled = true →
                    t.zc.zones[z].state = .stopped ∧ t.zc.zones[z].tripHold = s.zc.zones[z].tripHold
                    ∧ t.zc.zones[z].attenuation = (zoneItem s.ps.working z).maximum)))
    ∧ (s.Awake → s.venueStop = true →
      ∃ t, exec .venueStopReleased s = .next t
        ∧ t = { s with
            venueStop := false, zc := { s.zc with zones := t.zc.zones, tripLine := t.zc.tripLine }
            mu := { s.mu with alerts := t.mu.alerts, alertsLost := t.mu.alertsLost } }
        ∧ s.AlertsRaised t [⟨.stop, true, none, s.stamp, 2⟩]
        ∧ t.TripLineFollows
        ∧ (∀ z : Fin 8,
            Resolved s.ps.working (decide (s.supply = .low)) s.tb.limits z s.zc.zones[z] t.zc.zones[z])
        ∧ (s.ZonesResolved → ∀ z : Fin 8,
            (s.supply = .low → t.zc.zones[z] = s.zc.zones[z])
            ∧ (s.supply = .normal → (zoneItem s.ps.working z).enabled = true →
                t.zc.zones[z].muted = s.zc.zones[z].muted ∧ t.zc.zones[z].tripHold = s.zc.zones[z].tripHold
                ∧ t.zc.zones[z].state = (if s.zc.zones[z].tripHold then .tripped
                  else if s.zc.zones[z].muted then .muted
                  else if silentCause s.ps.working s.tb.limits z then .silent else .hold)
                ∧ t.zc.zones[z].attenuation = (zoneItem s.ps.working z).maximum)))

/-- A fall of the supply below 3000 mV enters LOW: every enabled zone is STOPPED, a RETAIN in progress is abandoned with
ABORTED and detail 2 and the retained state INVALID, and an urgent SUPPLY alert is raised. A rise to 3040 mV, the
threshold with its hysteresis, returns to NORMAL: every enabled zone leaves STOPPED unless VENUE STOP is asserted, and an
alert with detail 2 is raised. A level between changes the level alone (R110, R143, R193 to R195). That a level on the
other side of a command's threshold is no such crossing is the model's, log 3, and so are whole millivolts and nominal
thresholds, log 14. -/
def Obligations.SupplyFallsAndReturns : Prop :=
  ∀ (level : Nat) (s : State), s.Awake →
    (3000 ≤ level → exec (.supplyLow level) s = .next s)
    ∧ (level < 3000 → exec (.supplyNormal level) s = .next s)
    ∧ (s.supply = .low → 2700 ≤ level → level < 3000 →
      exec (.supplyLow level) s = .next { s with supplyLevel := level })
    ∧ (s.supply = .normal → 2700 ≤ level → level < 3000 →
      ∃ t, exec (.supplyLow level) s = .next t
        ∧ t = { s with
            supply := .low, supplyLevel := level
            zc := { s.zc with zones := t.zc.zones, tripLine := t.zc.tripLine }
            ps := t.ps, mu := t.mu, stops := t.stops }
        ∧ t.mu = { s.mu with
            replies := t.mu.replies, alerts := t.mu.alerts, alertsLost := t.mu.alertsLost }
        ∧ s.AlertsRaised t [⟨.supply, true, none, s.stamp, 1⟩]
        ∧ t.TripLineFollows
        ∧ (∀ z : Fin 8, Resolved s.ps.working true s.tb.limits z s.zc.zones[z] t.zc.zones[z])
        ∧ (s.ZonesResolved → ∀ z : Fin 8, (zoneItem s.ps.working z).enabled = true →
            t.zc.zones[z].state = .stopped
            ∧ t.zc.zones[z].attenuation = (zoneItem s.ps.working z).maximum)
        ∧ ((∀ op, s.ps.operation = some op → op.kind ≠ .retaining) →
            t.ps = s.ps ∧ t.mu.replies = s.mu.replies ∧ t.stops = s.stops)
        ∧ (∀ op, s.ps.operation = some op → op.kind = .retaining →
            t.ps = { s.ps with
              retained := t.ps.retained, retainedState := .invalid, operation := none
              lastOutcome := some ⟨.retain, .reply .aborted, 2⟩ }
            ∧ t.mu.replies = s.mu.replies ++
                [{ kind := 0x18, tag := op.tag, result := .aborted, detail := 2, data := [] }]
            ∧ t.stops = s.stops + 1
            ∧ ∀ p i, bankSlot t.ps.retained p i = bankSlot s.ps.retained p i
                ∨ bankSlot t.ps.retained p i = bankSlot s.ps.working p i))
    ∧ (s.supply = .normal → 3000 ≤ level →
      exec (.supplyNormal level) s = .next { s with supplyLevel := level })
    ∧ (s.supply = .low → 3000 ≤ level → level < 3040 →
      exec (.supplyNormal level) s = .next { s with supplyLevel := level })
    ∧ (s.supply = .low → 3040 ≤ level →
      ∃ t, exec (.supplyNormal level) s = .next t
        ∧ t = { s with
            supply := .normal, supplyLevel := level
            zc := { s.zc with zones := t.zc.zones, tripLine := t.zc.tripLine }
            mu := { s.mu with alerts := t.mu.alerts, alertsLost := t.mu.alertsLost } }
        ∧ s.AlertsRaised t [⟨.supply, true, none, s.stamp, 2⟩]
        ∧ t.TripLineFollows
        ∧ (∀ z : Fin 8, Resolved s.ps.working s.venueStop s.tb.limits z s.zc.zones[z] t.zc.zones[z])
        ∧ (s.ZonesResolved → ∀ z : Fin 8, (zoneItem s.ps.working z).enabled = true →
            t.zc.zones[z].attenuation = (zoneItem s.ps.working z).maximum
            ∧ t.zc.zones[z].state = (if s.venueStop then .stopped
                else if s.zc.zones[z].tripHold then .tripped
                else if s.zc.zones[z].muted then .muted
                else if silentCause s.ps.working s.tb.limits z then .silent else .hold)))

/-- When the supply falls below 2700 mV it enters OFF: all but the retained bank and the retained state is lost in every
block, no frame is on the drive link and the TRIP line is released; a RETAIN in progress is left INVALID, each slot of the
retained bank holding its old value or the new one, whichever that is (R143, R145, R193, R196). That the lost state is
represented blank is the model's, log 11; whole millivolts and nominal thresholds, log 14; that a level not below the
threshold is no such fall, log 3; and what of the retained bank was written is the free value of log 6. -/
def Obligations.SupplyOffKeepsOnlyTheRetainedBank : Prop :=
  ∀ (level : Nat) (s : State), s.Awake →
    (2700 ≤ level → exec (.supplyOff level) s = .next s)
    ∧ (level < 2700 →
      ∃ t, exec (.supplyOff level) s = .next t ∧ exec (.supplyLow level) s = .next t
        ∧ t = { s with
            supply := .off, supplyLevel := level, lrx := Lrx.reset s.lrx.lineLevel, ltx := Ltx.reset
            driveOut := none, mu := Mu.reset, tb := Tb.reset, mb := Mb.reset, be := Be.empty, ea := Ea.empty
            zc := Zc.empty, ps := Ps.blank t.ps.retained t.ps.retainedState, due := Due.none, stops := t.stops }
        ∧ t.zc.tripLine = false
        ∧ ((s.supply = .low ∨ ∀ op, s.ps.operation = some op → op.kind ≠ .retaining) →
            t.ps.retained = s.ps.retained ∧ t.ps.retainedState = s.ps.retainedState ∧ t.stops = s.stops)
        ∧ (∀ op, s.supply = .normal → s.ps.operation = some op → op.kind = .retaining →
            t.ps.retainedState = .invalid ∧ t.stops = s.stops + 1
            ∧ ∀ p i, bankSlot t.ps.retained p i = bankSlot s.ps.retained p i
                ∨ bankSlot t.ps.retained p i = bankSlot s.ps.working p i))

/-- Both resets: every block in its reset state, the plan taken up from the retained bank, the limits in force and the
accounts' start figures those of the schedule's fallback, the supply state set from the level of the supply, then STARTED
with its cause and, in LOW, the urgent SUPPLY alert (R26, R39, R54, R77, R93, R119, R148, R156, R162, R169, R179, R193,
R198). The power reset comes when the supply has risen to 2740 mV, the retention threshold with its hysteresis (whole
millivolts and nominal thresholds: log 14); that one below 2740 mV changes nothing is log 3, and in a part that is not OFF
the supply is lost first (log 12). That a restart is performed while its mark due.restart stands, with the level of the
supply for an operand, is log 13. A RETAIN in progress is cut short with no reply, each slot of the retained bank holding
its old value or the new one, whichever that is (R119, R145; log 6, as the count of stops). That the last frame of the
drive link outlasts a reset is log 10; the line's level and the empty window, log 9. Nothing is left due of the state
before, and every zone's standing is its record, which the reset leaves unmarked (the mark of log 27). -/
def Obligations.ResetsBringEveryBlockToItsResetState : Prop :=
  (∀ (level : Nat) (s : State), level < 2740 → exec (.powerReset level) s = .next s)
  ∧ (∀ (level : Nat) (s : State), 2740 ≤ level → s.supply ≠ .off →
    ∃ u, exec (.supplyOff 0) s = .next u ∧ u.supply = .off
      ∧ exec (.powerReset level) s = exec (.powerReset level) u)
  ∧ ∀ (level : Nat) (s : State) (c : Instr) (cause : Nat),
    ((c = .powerReset level ∧ cause = 1 ∧ 2740 ≤ level ∧ s.supply = .off)
      ∨ (c = .restartPerformed level ∧ cause = 2 ∧ 2700 ≤ level ∧ s.supply ≠ .off ∧ s.due.restart = true)) →
    ∃ t, exec c s = .next t
      ∧ t.pending = s.pending ∧ t.venueStop = s.venueStop ∧ t.planLock = s.planLock ∧ t.driveOut = s.driveOut
      ∧ t.supply = (if 3000 ≤ level then .normal else .low) ∧ t.supplyLevel = level
      ∧ t.lrx = {
          receiver := .search, mismatches := 0, window := 0, seen := 0, kept := [], carrier := 0
          lineLevel := s.lrx.lineLevel, changed := false, fifo := []
          flags := ⟨false, false, false, false, false, false, false⟩, assembler := .skip }
      ∧ t.ltx = { primed := false, sending := none, fillPending := true, lastClass := .report }
      ∧ t.mu = {
          inbound := [], replies := [], reports := [], alertsLost := false, reportsLost := false
          alerts :=
            ⟨.started, false, none, none,
              natWord (cause + 16 * retainedCode t.ps.retainedState
                + 256 * (if t.ps.retainedState = .valid then 2 else 1))⟩
            :: (if 3000 ≤ level then [] else [⟨.supply, true, none, none, 1⟩]) }
      ∧ t.repliesOwed = 0
      ∧ t.due = { stale := [], trips := [], frees := [], tb := none, swap := false, restart := false }
      ∧ t.tb.isSet = false ∧ t.tb.minute = 0 ∧ t.tb.position = 0 ∧ t.tb.tally = 0 ∧ t.tb.drift = 0
      ∧ t.tb.stepStart = false ∧ t.tb.setting = none ∧ t.tb.limits = deriveLimits t.ps.working false 0
      ∧ (∀ z : Fin 8, t.mb.meters[z] = ⟨0, 0, 0⟩ ∧ t.mb.published[z] = ⟨-1200, -1200⟩)
      ∧ ((∀ op, s.ps.operation = some op → op.kind ≠ .retaining) →
          t.ps.retained = s.ps.retained ∧ t.ps.retainedState = s.ps.retainedState ∧ t.stops = s.stops)
      ∧ (∀ op, s.ps.operation = some op → op.kind = .retaining →
          t.ps.retainedState = .invalid ∧ t.stops = s.stops + 1
          ∧ ∀ p i, bankSlot t.ps.retained p i = bankSlot s.ps.retained p i
              ∨ bankSlot t.ps.retained p i = bankSlot s.ps.working p i)
      ∧ (t.ps.retainedState = .valid → t.ps.working = t.ps.retained ∧ t.ps.planState = .active)
      ∧ (t.ps.retainedState ≠ .valid → t.ps.working = blankBank ∧ t.ps.planState = .noPlan)
      ∧ t.ps.shadow = t.ps.working ∧ t.ps.shadowState = .clean ∧ t.ps.staging = none
      ∧ t.ps.operation = none ∧ t.ps.activationPending = false ∧ t.ps.lastOutcome = none
      ∧ (∀ b : Fin 6,
          t.be.estimators[b] = (if (boundaryItem t.ps.working b).enabled then some ⟨0, 0, none, []⟩ else none)
          ∧ t.ea.latches[b] = ⟨false, false, false, false⟩
          ∧ ((boundaryItem t.ps.working b).enabled = false → t.ea.accounts[b] = none)
          ∧ ((boundaryItem t.ps.working b).enabled = true →
              ∃ l, t.tb.limits[b] = some l ∧ l.segment = none
                ∧ t.ea.accounts[b] = some
                  { count := 0, full := [], lf := [], startFull := l.full, startLf := l.lf, startSegment := none
                    ring := [] }))
      ∧ (∀ m : Fin 12,
          t.be.monitors[m] = ⟨if (monitorBoundary t.ps.working m).isSome then .unheard else .unmapped,
            monitorBoundary t.ps.working m, 0⟩)
      ∧ t.zc.tripLine = false
      ∧ ∀ z : Fin 8,
          t.zc.zones[z].muted = false ∧ t.zc.zones[z].tripHold = false ∧ t.zc.zones[z].tripLatch = false
          ∧ t.zc.zones[z].floorLatch = false ∧ t.zc.zones[z].persistence = 0 ∧ t.zc.zones[z].releaseCount = 0
          ∧ t.zc.zones[z].floorEpisode = false ∧ t.zc.zones[z].lastDemand = .absent
          ∧ t.zc.zones[z].attenuation = (zoneItem t.ps.working z).maximum
          ∧ t.zc.zones[z].state = (if (zoneItem t.ps.working z).enabled = false then .off
              else if s.venueStop || decide (level < 3000) then .stopped
              else if silentCause t.ps.working t.tb.limits z then .silent else .hold)
          ∧ t.zc.zones[z].disturbed = false
          ∧ t.zc.standing[z] =
            { state := t.zc.zones[z].state, attenuation := t.zc.zones[z].attenuation, persistence := 0
              releaseCount := 0, floorEpisode := false }

/-! ### The shared computations -/

/-- A zone's level is the largest whole number of centibels not greater than 100 log10 of its energy, held at or above
-1200 (R43, 00_scope section 6.2): with D the energy of 6000 full-scale frames, the energy e reaches 10 to the power
L/100 and no greater level up to 800 cB. So is a zone's peak, of the squared ratio of its peak magnitude to full scale
(R44). The reference level of some estimates, a minute level and a running level are the levels of the mean of the
energies, exactly: the reference level of the estimates alike, the minute level of the estimates that the accumulator has
added up, the running level of these and the ring's entries, each weighted by its interval count (R68, R78, R79). -/
def Obligations.ZoneLevelIsTheFloorOfTheLogarithm : Prop :=
  (∀ e : Nat, let D := 6000 * 8388608 ^ 2
    ∃ n : Nat, zoneLevel e = (n : Int) - 1200
      ∧ (0 < n → 10 ^ n * D ^ 100 ≤ e ^ 100 * 10 ^ 1200)
      ∧ ∀ k, n < k → k < 2048 → e ^ 100 * 10 ^ 1200 < 10 ^ k * D ^ 100)
  ∧ (∀ m : Nat, let F := 8388608
    ∃ n : Nat, zonePeak m = (n : Int) - 1200
      ∧ (0 < n → 10 ^ n * F ^ 200 ≤ m ^ 200 * 10 ^ 1200)
      ∧ ∀ k, n < k → k < 2048 → m ^ 200 * 10 ^ 1200 < 10 ^ k * F ^ 200)
  ∧ (∀ levels : List Nat, levels ≠ [] → (∀ l ∈ levels, l ≤ 1400) →
    IsMeanLevel (levels.map fun l => (l, 1)) (referenceLevel levels))
  ∧ ∀ (a : Account) (isLf : Bool) (levels : List Nat),
    (if isLf then a.lf else a.full) = levels.foldl (fun e l => Energy.add e l 1) [] → a.count = levels.length →
    (∀ l ∈ levels, l ≤ 1400) → (∀ x ∈ a.ring, x.full ≤ 1400 ∧ x.lf ≤ 1400) →
    let minute := levels.map fun l => (l, 1)
    let running := minute ++ a.ring.map fun x => (if isLf then x.lf else x.full, x.count)
    (levels = [] → a.minuteLevel isLf = none)
    ∧ (levels ≠ [] → ∃ L, a.minuteLevel isLf = some L ∧ IsMeanLevel minute L)
    ∧ ((running.map (·.2)).sum = 0 → a.runningLevel isLf = none)
    ∧ ((running.map (·.2)).sum ≠ 0 → ∃ L, a.runningLevel isLf = some L ∧ IsMeanLevel running L)

/-- A scaled sample has the sign of the program sample and the magnitude nearest to its magnitude times 10 to the power
-A/200, a half taken toward zero; at A = 0 it is the sample itself (R160). -/
def Obligations.ScaledSampleIsTheNearest : Prop :=
  ∀ (x : LinkWord) (A : Nat),
    (0 ≤ (scaleSample x A).toInt * x.toInt)
    ∧ (let n := (scaleSample x A).toInt.natAbs
       let m := x.toInt.natAbs
       (0 < n → (2 * n - 1) ^ 200 * 10 ^ A < (2 * m) ^ 200) ∧ (2 * m) ^ 200 ≤ (2 * n + 1) ^ 200 * 10 ^ A)
    ∧ scaleSample x 0 = x

/-- The enforcement transitions of a zone in an enforcement state by its demand (R101, R102). The entry of a zone in HOLD
into FREE, once its release count reaches the release delay, is not part of the transition: it becomes due and is a
command of its own, the model's choice (log 4). -/
def Obligations.EnforcementFollowsTheDemand : Prop :=
  ∀ (bank : Bank) (maximum : Nat) (d : Demand) (st : Standing), st.state.silencing = false →
    (∀ n source, d = .value n source → 0 < n → st.attenuation < maximum →
      enforce bank maximum d st
        = { st with
            state := .reduce, releaseCount := 0
            attenuation := min maximum
              (st.attenuation + reductionStep bank (min 15 (n / 10).toNat)) })
    ∧ (∀ n source, d = .value n source → 0 < n → maximum ≤ st.attenuation →
      enforce bank maximum d st = { st with state := .floor, releaseCount := 0, floorEpisode := true })
    ∧ (∀ n source, d = .value n source → n ≤ 0 → -(hysteresis bank : Int) < n →
      (st.state = .reduce ∨ st.state = .floor →
        enforce bank maximum d st = { st with state := .hold, releaseCount := 0, floorEpisode := false })
      ∧ (st.state = .hold → enforce bank maximum d st = { st with releaseCount := 0 })
      ∧ (st.state = .free → enforce bank maximum d st = st))
    ∧ ((d = .unreached ∨ ∃ n source, d = .value n source ∧ n ≤ 0 ∧ n ≤ -(hysteresis bank : Int)) →
      (st.state = .reduce ∨ st.state = .floor →
        enforce bank maximum d st = { st with state := .hold, releaseCount := 0, floorEpisode := false })
      ∧ (st.state = .hold → enforce bank maximum d st = { st with releaseCount := min 80 (st.releaseCount + 1) })
      ∧ (st.state = .free →
          enforce bank maximum d st = { st with attenuation := st.attenuation - releaseRate bank }))

/-- The limits in force of an enabled boundary. While the time is SET they are those of the current segment, the last that
has started by the minute of day, ramped toward the next segment, which the first follows at midnight; while it is UNSET
they are the lowest of its segments in each band, SILENT lowest, and no segment is current. A band's ramp value, within
the ramp window of a lower next limit, is the target plus its share of the fall taken up to a whole number; a SILENT next
limit ramps toward the silence floor. A disabled boundary has no entry (R34 to R38; a schedule of no segments, which no
plan that passes its checks has, gives SILENT: log 20). -/
def Obligations.RampLowersTheLimit : Prop :=
  (∀ (floor old ramp j : Nat) (next : Limit),
    rampLimit floor .silent next ramp j = .silent
    ∧ (∀ target, (next = .number target ∨ (next = .silent ∧ target = floor)) →
      ((target < old ∧ 1 ≤ j ∧ j ≤ ramp) →
        ∃ share, rampLimit floor (.number old) next ramp j = .number (target + share)
          ∧ (old - target) * j ≤ share * (ramp + 1) ∧ share * (ramp + 1) < (old - target) * j + (ramp + 1))
      ∧ (¬ (target < old ∧ 1 ≤ j ∧ j ≤ ramp) →
        rampLimit floor (.number old) next ramp j = .number old)))
  ∧ ∀ (bank : Bank) (minute : Nat) (b : Fin 6),
    let segments := segmentsInUse bank b
    let enabled := (boundaryItem bank b).enabled
    (∀ isSet, enabled = false → (deriveLimits bank isSet minute)[b] = none)
    ∧ (∀ i seg next, enabled = true → minute ≤ 1439 → segments[i]? = some seg → seg.start ≤ minute →
      (∀ k later, i < k → segments[k]? = some later → minute < later.start ∧ later.start ≤ 1439) →
      segments[(i + 1) % segments.length]? = some next → (i + 1 = segments.length → next.start = 0) →
        let j := if i + 1 < segments.length then next.start - minute else (1440 - minute) % 1440
        (deriveLimits bank true minute)[b] = some
          ⟨rampLimit (silenceFloor bank) (limitOf seg.full) (limitOf next.full) next.ramp j,
           rampLimit (silenceFloor bank) (limitOf seg.lf) (limitOf next.lf) next.ramp j, some i⟩)
    ∧ (enabled = true →
      ∃ full lf, (deriveLimits bank false minute)[b] = some ⟨full, lf, none⟩
        ∧ ∀ band : SegmentItem → Nat, ∀ lowest,
            (band = (·.full) ∧ lowest = full) ∨ (band = (·.lf) ∧ lowest = lf) →
          let limits := segments.map fun seg => limitOf (band seg)
          (.silent ∈ limits ∨ limits = [] → lowest = .silent)
          ∧ (.silent ∉ limits → limits ≠ [] →
              ∃ n, lowest = .number n ∧ .number n ∈ limits ∧ ∀ m, .number m ∈ limits → n ≤ m))

/-! ### Messages -/

/-- Every request, with its tag and its argument words at every value, is read back from its message whole; and a message
that is read as a request is that request's message, nothing of it dropped. -/
def Obligations.MessagesAndRequestsCorrespond : Prop :=
  (∀ (tag : Byte) (r : Request),
    (∀ first values, r = .writeSlots first values → 1 ≤ values.length ∧ values.length ≤ 8) →
    decodeMessage (encodeRequest tag r) = .ok (tag, r))
  ∧ ∀ (m : Message) (tag : Byte) (r : Request), decodeMessage m = .ok (tag, r) → encodeRequest tag r = m

/-- A lane word carries its lane value in bits 23 to 8, a parity bit in bit 7 that makes the ones of the two odd in number,
and zero pad bits; a received one has its value there, and good parity exactly when those ones are odd in number,
whatever its pad bits (R147, R186). -/
def Obligations.LaneWordsCarryTheirValue : Prop :=
  let ones := fun w : LinkWord => ((List.range 17).filter fun i => w.getLsbD (7 + i)).length
  (∀ v : Word16, laneValue (laneWord v) = v ∧ laneGood (laneWord v) = true ∧ ones (laneWord v) % 2 = 1
    ∧ (∀ i, i < 16 → (laneWord v).getLsbD (8 + i) = v.getLsbD i)
    ∧ ∀ i, i < 7 → (laneWord v).getLsbD i = false)
  ∧ ∀ w : LinkWord, (laneGood w = true ↔ ones w % 2 = 1)
    ∧ ∀ i, i < 16 → (laneValue w).getLsbD i = w.getLsbD (8 + i)

/-! ### Invariants -/

/-- Every queue, the FIFO and every ring stay within their capacities (R61, R76, R155, R173, R174, R177, R178). -/
def Obligations.QueuesStayBounded : Prop :=
  ∀ s t : State, s.QueuesBounded → step s = .next t → t.QueuesBounded

/-- The link receiver, the FIFO, LTX and the assembler stay consistent (R148, R154, R169). -/
def Obligations.LinkStaysConsistent : Prop :=
  ∀ s t : State, s.LinkConsistent → step s = .next t → t.LinkConsistent

/-- Every zone stays in the state its causes give, silenced zones at their maximum and the others not above it; and the
TRIP line stays asserted exactly when some zone is TRIPPED (R92, R94, R95, R107). -/
def Obligations.ZonesStayResolved : Prop :=
  ∀ s t : State, s.ZonesResolved ∧ s.TripLineFollows → step s = .next t → t.ZonesResolved ∧ t.TripLineFollows

/-- The plan in force always passes every check, and a CLEAN shadow is the plan in force (R120, R121, R135). -/
def Obligations.PlanStaysSound : Prop :=
  ∀ s t : State, s.PlanSound → step s = .next t → t.PlanSound

/-- The counters of device time stay within their ranges, and the eight frame counts stay equal and not above 6000
(R26, R31, R40). -/
def Obligations.TimeAndMetersStayInStep : Prop :=
  ∀ s t : State, s.TimeSound ∧ s.MetersInStep → step s = .next t → t.TimeSound ∧ t.MetersInStep

/-- The records of TB, BE and EA stay those of the working plan, and the corrections stay within 150 (R53, R63,
R76). -/
def Obligations.RecordsStayThePlans : Prop :=
  ∀ s t : State, s.RecordsMatchPlan → step s = .next t → t.RecordsMatchPlan

/-- Every invariant holds right after the reset. -/
def Obligations.InvariantsHoldAtReset : Prop :=
  State.reset.QueuesBounded ∧ State.reset.TripLineFollows ∧ State.reset.LinkConsistent
    ∧ State.reset.ZonesResolved ∧ State.reset.PlanSound ∧ State.reset.TimeSound ∧ State.reset.MetersInStep
    ∧ State.reset.RecordsMatchPlan
end

