-- ==== Sys2Proof/Laws/State.lean ====
section
/-! SUPPORT. What each state update leaves alone, and what it writes, one lemma for each update. -/

namespace Sys2Proof.Machine

/-! ### Fields an update keeps -/

/-- An alert touches the message unit alone. -/
@[simp] theorem State.raiseAlert_keeps (s : State) (a : Alert) :
    (s.raiseAlert a).pending = s.pending
    ∧ (s.raiseAlert a).supply = s.supply
    ∧ (s.raiseAlert a).supplyLevel = s.supplyLevel
    ∧ (s.raiseAlert a).venueStop = s.venueStop
    ∧ (s.raiseAlert a).planLock = s.planLock
    ∧ (s.raiseAlert a).lrx = s.lrx
    ∧ (s.raiseAlert a).ltx = s.ltx
    ∧ (s.raiseAlert a).driveOut = s.driveOut
    ∧ (s.raiseAlert a).tb = s.tb
    ∧ (s.raiseAlert a).mb = s.mb
    ∧ (s.raiseAlert a).be = s.be
    ∧ (s.raiseAlert a).ea = s.ea
    ∧ (s.raiseAlert a).zc = s.zc
    ∧ (s.raiseAlert a).ps = s.ps
    ∧ (s.raiseAlert a).due = s.due
    ∧ (s.raiseAlert a).stops = s.stops :=
  by and_intros <;> rfl

/-- An alert touches the message unit alone. -/
@[simp] theorem State.raise_keeps (s : State) (k : AlertKind) (u : Bool) (n : Option Nat) (d : Word16) :
    (s.raise k u n d).pending = s.pending
    ∧ (s.raise k u n d).supply = s.supply
    ∧ (s.raise k u n d).supplyLevel = s.supplyLevel
    ∧ (s.raise k u n d).venueStop = s.venueStop
    ∧ (s.raise k u n d).planLock = s.planLock
    ∧ (s.raise k u n d).lrx = s.lrx
    ∧ (s.raise k u n d).ltx = s.ltx
    ∧ (s.raise k u n d).driveOut = s.driveOut
    ∧ (s.raise k u n d).tb = s.tb
    ∧ (s.raise k u n d).mb = s.mb
    ∧ (s.raise k u n d).be = s.be
    ∧ (s.raise k u n d).ea = s.ea
    ∧ (s.raise k u n d).zc = s.zc
    ∧ (s.raise k u n d).ps = s.ps
    ∧ (s.raise k u n d).due = s.due
    ∧ (s.raise k u n d).stops = s.stops :=
  by and_intros <;> rfl

/-- A reply touches the message unit alone. -/
@[simp] theorem State.queueReply_keeps (s : State) (r : Reply) :
    (s.queueReply r).pending = s.pending
    ∧ (s.queueReply r).supply = s.supply
    ∧ (s.queueReply r).supplyLevel = s.supplyLevel
    ∧ (s.queueReply r).venueStop = s.venueStop
    ∧ (s.queueReply r).planLock = s.planLock
    ∧ (s.queueReply r).lrx = s.lrx
    ∧ (s.queueReply r).ltx = s.ltx
    ∧ (s.queueReply r).driveOut = s.driveOut
    ∧ (s.queueReply r).tb = s.tb
    ∧ (s.queueReply r).mb = s.mb
    ∧ (s.queueReply r).be = s.be
    ∧ (s.queueReply r).ea = s.ea
    ∧ (s.queueReply r).zc = s.zc
    ∧ (s.queueReply r).ps = s.ps
    ∧ (s.queueReply r).due = s.due
    ∧ (s.queueReply r).stops = s.stops :=
  by and_intros <;> rfl

/-- A reply touches the message unit alone. -/
@[simp] theorem State.answer_keeps (s : State) (k t : Byte) (r : ResultCode) (d : Nat) :
    (s.answer k t r d).pending = s.pending
    ∧ (s.answer k t r d).supply = s.supply
    ∧ (s.answer k t r d).supplyLevel = s.supplyLevel
    ∧ (s.answer k t r d).venueStop = s.venueStop
    ∧ (s.answer k t r d).planLock = s.planLock
    ∧ (s.answer k t r d).lrx = s.lrx
    ∧ (s.answer k t r d).ltx = s.ltx
    ∧ (s.answer k t r d).driveOut = s.driveOut
    ∧ (s.answer k t r d).tb = s.tb
    ∧ (s.answer k t r d).mb = s.mb
    ∧ (s.answer k t r d).be = s.be
    ∧ (s.answer k t r d).ea = s.ea
    ∧ (s.answer k t r d).zc = s.zc
    ∧ (s.answer k t r d).ps = s.ps
    ∧ (s.answer k t r d).due = s.due
    ∧ (s.answer k t r d).stops = s.stops :=
  by and_intros <;> rfl

/-- A reply touches the message unit alone. -/
@[simp] theorem State.answerData_keeps (s : State) (k t : Byte) (d : Nat) (w : List Word16) :
    (s.answerData k t d w).pending = s.pending
    ∧ (s.answerData k t d w).supply = s.supply
    ∧ (s.answerData k t d w).supplyLevel = s.supplyLevel
    ∧ (s.answerData k t d w).venueStop = s.venueStop
    ∧ (s.answerData k t d w).planLock = s.planLock
    ∧ (s.answerData k t d w).lrx = s.lrx
    ∧ (s.answerData k t d w).ltx = s.ltx
    ∧ (s.answerData k t d w).driveOut = s.driveOut
    ∧ (s.answerData k t d w).tb = s.tb
    ∧ (s.answerData k t d w).mb = s.mb
    ∧ (s.answerData k t d w).be = s.be
    ∧ (s.answerData k t d w).ea = s.ea
    ∧ (s.answerData k t d w).zc = s.zc
    ∧ (s.answerData k t d w).ps = s.ps
    ∧ (s.answerData k t d w).due = s.due
    ∧ (s.answerData k t d w).stops = s.stops :=
  by and_intros <;> rfl

/-- A minute report touches the message unit alone. -/
@[simp] theorem State.queueReport_keeps (s : State) (r : MinuteReport) :
    (s.queueReport r).pending = s.pending
    ∧ (s.queueReport r).supply = s.supply
    ∧ (s.queueReport r).supplyLevel = s.supplyLevel
    ∧ (s.queueReport r).venueStop = s.venueStop
    ∧ (s.queueReport r).planLock = s.planLock
    ∧ (s.queueReport r).lrx = s.lrx
    ∧ (s.queueReport r).ltx = s.ltx
    ∧ (s.queueReport r).driveOut = s.driveOut
    ∧ (s.queueReport r).tb = s.tb
    ∧ (s.queueReport r).mb = s.mb
    ∧ (s.queueReport r).be = s.be
    ∧ (s.queueReport r).ea = s.ea
    ∧ (s.queueReport r).zc = s.zc
    ∧ (s.queueReport r).ps = s.ps
    ∧ (s.queueReport r).due = s.due
    ∧ (s.queueReport r).stops = s.stops :=
  by and_intros <;> rfl

/-- The inbound queue belongs to the message unit. -/
@[simp] theorem State.setInbound_keeps (s : State) (q : List Message) :
    (s.setInbound q).pending = s.pending
    ∧ (s.setInbound q).supply = s.supply
    ∧ (s.setInbound q).supplyLevel = s.supplyLevel
    ∧ (s.setInbound q).venueStop = s.venueStop
    ∧ (s.setInbound q).planLock = s.planLock
    ∧ (s.setInbound q).lrx = s.lrx
    ∧ (s.setInbound q).ltx = s.ltx
    ∧ (s.setInbound q).driveOut = s.driveOut
    ∧ (s.setInbound q).tb = s.tb
    ∧ (s.setInbound q).mb = s.mb
    ∧ (s.setInbound q).be = s.be
    ∧ (s.setInbound q).ea = s.ea
    ∧ (s.setInbound q).zc = s.zc
    ∧ (s.setInbound q).ps = s.ps
    ∧ (s.setInbound q).due = s.due
    ∧ (s.setInbound q).stops = s.stops :=
  by and_intros <;> rfl

/-- The zone records belong to ZC. -/
@[simp] theorem State.setZones_keeps (s : State) (v : Vector Controller 8) :
    (s.setZones v).pending = s.pending
    ∧ (s.setZones v).supply = s.supply
    ∧ (s.setZones v).supplyLevel = s.supplyLevel
    ∧ (s.setZones v).venueStop = s.venueStop
    ∧ (s.setZones v).planLock = s.planLock
    ∧ (s.setZones v).lrx = s.lrx
    ∧ (s.setZones v).ltx = s.ltx
    ∧ (s.setZones v).driveOut = s.driveOut
    ∧ (s.setZones v).mu = s.mu
    ∧ (s.setZones v).tb = s.tb
    ∧ (s.setZones v).mb = s.mb
    ∧ (s.setZones v).be = s.be
    ∧ (s.setZones v).ea = s.ea
    ∧ (s.setZones v).ps = s.ps
    ∧ (s.setZones v).due = s.due
    ∧ (s.setZones v).stops = s.stops :=
  by and_intros <;> rfl

/-- The zone records belong to ZC. -/
@[simp] theorem State.setZone_keeps (s : State) (z : Fin 8) (c : Controller) :
    (s.setZone z c).pending = s.pending
    ∧ (s.setZone z c).supply = s.supply
    ∧ (s.setZone z c).supplyLevel = s.supplyLevel
    ∧ (s.setZone z c).venueStop = s.venueStop
    ∧ (s.setZone z c).planLock = s.planLock
    ∧ (s.setZone z c).lrx = s.lrx
    ∧ (s.setZone z c).ltx = s.ltx
    ∧ (s.setZone z c).driveOut = s.driveOut
    ∧ (s.setZone z c).mu = s.mu
    ∧ (s.setZone z c).tb = s.tb
    ∧ (s.setZone z c).mb = s.mb
    ∧ (s.setZone z c).be = s.be
    ∧ (s.setZone z c).ea = s.ea
    ∧ (s.setZone z c).ps = s.ps
    ∧ (s.setZone z c).due = s.due
    ∧ (s.setZone z c).stops = s.stops :=
  by and_intros <;> rfl

/-- A resolution touches ZC alone. -/
@[simp] theorem State.resolveWith_keeps (s : State) (z : Fin 8) (c : Controller) :
    (s.resolveWith z c).pending = s.pending
    ∧ (s.resolveWith z c).supply = s.supply
    ∧ (s.resolveWith z c).supplyLevel = s.supplyLevel
    ∧ (s.resolveWith z c).venueStop = s.venueStop
    ∧ (s.resolveWith z c).planLock = s.planLock
    ∧ (s.resolveWith z c).lrx = s.lrx
    ∧ (s.resolveWith z c).ltx = s.ltx
    ∧ (s.resolveWith z c).driveOut = s.driveOut
    ∧ (s.resolveWith z c).mu = s.mu
    ∧ (s.resolveWith z c).tb = s.tb
    ∧ (s.resolveWith z c).mb = s.mb
    ∧ (s.resolveWith z c).be = s.be
    ∧ (s.resolveWith z c).ea = s.ea
    ∧ (s.resolveWith z c).ps = s.ps
    ∧ (s.resolveWith z c).due = s.due
    ∧ (s.resolveWith z c).stops = s.stops :=
  by and_intros <;> rfl

/-- A resolution touches ZC alone. -/
@[simp] theorem State.resolveAll_keeps (s : State) :
    (s.resolveAll).pending = s.pending
    ∧ (s.resolveAll).supply = s.supply
    ∧ (s.resolveAll).supplyLevel = s.supplyLevel
    ∧ (s.resolveAll).venueStop = s.venueStop
    ∧ (s.resolveAll).planLock = s.planLock
    ∧ (s.resolveAll).lrx = s.lrx
    ∧ (s.resolveAll).ltx = s.ltx
    ∧ (s.resolveAll).driveOut = s.driveOut
    ∧ (s.resolveAll).mu = s.mu
    ∧ (s.resolveAll).tb = s.tb
    ∧ (s.resolveAll).mb = s.mb
    ∧ (s.resolveAll).be = s.be
    ∧ (s.resolveAll).ea = s.ea
    ∧ (s.resolveAll).ps = s.ps
    ∧ (s.resolveAll).due = s.due
    ∧ (s.resolveAll).stops = s.stops :=
  by and_intros <;> rfl

/-- The link flags belong to LRX. -/
@[simp] theorem State.withFlags_keeps (s : State) (f : LinkFlags) :
    (s.withFlags f).pending = s.pending
    ∧ (s.withFlags f).supply = s.supply
    ∧ (s.withFlags f).supplyLevel = s.supplyLevel
    ∧ (s.withFlags f).venueStop = s.venueStop
    ∧ (s.withFlags f).planLock = s.planLock
    ∧ (s.withFlags f).ltx = s.ltx
    ∧ (s.withFlags f).driveOut = s.driveOut
    ∧ (s.withFlags f).mu = s.mu
    ∧ (s.withFlags f).tb = s.tb
    ∧ (s.withFlags f).mb = s.mb
    ∧ (s.withFlags f).be = s.be
    ∧ (s.withFlags f).ea = s.ea
    ∧ (s.withFlags f).zc = s.zc
    ∧ (s.withFlags f).ps = s.ps
    ∧ (s.withFlags f).due = s.due
    ∧ (s.withFlags f).stops = s.stops :=
  by and_intros <;> rfl

/-- The assembler belongs to LRX. -/
@[simp] theorem State.setAssembler_keeps (s : State) (a : Assembler) :
    (s.setAssembler a).pending = s.pending
    ∧ (s.setAssembler a).supply = s.supply
    ∧ (s.setAssembler a).supplyLevel = s.supplyLevel
    ∧ (s.setAssembler a).venueStop = s.venueStop
    ∧ (s.setAssembler a).planLock = s.planLock
    ∧ (s.setAssembler a).ltx = s.ltx
    ∧ (s.setAssembler a).driveOut = s.driveOut
    ∧ (s.setAssembler a).mu = s.mu
    ∧ (s.setAssembler a).tb = s.tb
    ∧ (s.setAssembler a).mb = s.mb
    ∧ (s.setAssembler a).be = s.be
    ∧ (s.setAssembler a).ea = s.ea
    ∧ (s.setAssembler a).zc = s.zc
    ∧ (s.setAssembler a).ps = s.ps
    ∧ (s.setAssembler a).due = s.due
    ∧ (s.setAssembler a).stops = s.stops :=
  by and_intros <;> rfl

/-- The link flags belong to LRX. -/
@[simp] theorem State.setLaneParity_keeps (s : State) :
    (s.setLaneParity).pending = s.pending
    ∧ (s.setLaneParity).supply = s.supply
    ∧ (s.setLaneParity).supplyLevel = s.supplyLevel
    ∧ (s.setLaneParity).venueStop = s.venueStop
    ∧ (s.setLaneParity).planLock = s.planLock
    ∧ (s.setLaneParity).ltx = s.ltx
    ∧ (s.setLaneParity).driveOut = s.driveOut
    ∧ (s.setLaneParity).mu = s.mu
    ∧ (s.setLaneParity).tb = s.tb
    ∧ (s.setLaneParity).mb = s.mb
    ∧ (s.setLaneParity).be = s.be
    ∧ (s.setLaneParity).ea = s.ea
    ∧ (s.setLaneParity).zc = s.zc
    ∧ (s.setLaneParity).ps = s.ps
    ∧ (s.setLaneParity).due = s.due
    ∧ (s.setLaneParity).stops = s.stops :=
  by and_intros <;> rfl

/-- The FIFO belongs to LRX. -/
@[simp] theorem State.pushFifo_keeps (s : State) (x : Samples) :
    (s.pushFifo x).pending = s.pending
    ∧ (s.pushFifo x).supply = s.supply
    ∧ (s.pushFifo x).supplyLevel = s.supplyLevel
    ∧ (s.pushFifo x).venueStop = s.venueStop
    ∧ (s.pushFifo x).planLock = s.planLock
    ∧ (s.pushFifo x).ltx = s.ltx
    ∧ (s.pushFifo x).driveOut = s.driveOut
    ∧ (s.pushFifo x).mu = s.mu
    ∧ (s.pushFifo x).tb = s.tb
    ∧ (s.pushFifo x).mb = s.mb
    ∧ (s.pushFifo x).be = s.be
    ∧ (s.pushFifo x).ea = s.ea
    ∧ (s.pushFifo x).zc = s.zc
    ∧ (s.pushFifo x).ps = s.ps
    ∧ (s.pushFifo x).due = s.due
    ∧ (s.pushFifo x).stops = s.stops :=
  by and_intros <;> rfl

/-- A completed message touches the inbound queue and the link flags. -/
@[simp] theorem State.pushInbound_keeps (s : State) (m : Message) :
    (s.pushInbound m).pending = s.pending
    ∧ (s.pushInbound m).supply = s.supply
    ∧ (s.pushInbound m).supplyLevel = s.supplyLevel
    ∧ (s.pushInbound m).venueStop = s.venueStop
    ∧ (s.pushInbound m).planLock = s.planLock
    ∧ (s.pushInbound m).ltx = s.ltx
    ∧ (s.pushInbound m).driveOut = s.driveOut
    ∧ (s.pushInbound m).tb = s.tb
    ∧ (s.pushInbound m).mb = s.mb
    ∧ (s.pushInbound m).be = s.be
    ∧ (s.pushInbound m).ea = s.ea
    ∧ (s.pushInbound m).zc = s.zc
    ∧ (s.pushInbound m).ps = s.ps
    ∧ (s.pushInbound m).due = s.due
    ∧ (s.pushInbound m).stops = s.stops :=
  by and_intros <;> rfl

/-- The last outcome belongs to PS. -/
@[simp] theorem State.setOutcome_keeps (s : State) (o : OutcomeSource) (r : OutcomeResult) (d : Word16) :
    (s.setOutcome o r d).pending = s.pending
    ∧ (s.setOutcome o r d).supply = s.supply
    ∧ (s.setOutcome o r d).supplyLevel = s.supplyLevel
    ∧ (s.setOutcome o r d).venueStop = s.venueStop
    ∧ (s.setOutcome o r d).planLock = s.planLock
    ∧ (s.setOutcome o r d).lrx = s.lrx
    ∧ (s.setOutcome o r d).ltx = s.ltx
    ∧ (s.setOutcome o r d).driveOut = s.driveOut
    ∧ (s.setOutcome o r d).mu = s.mu
    ∧ (s.setOutcome o r d).tb = s.tb
    ∧ (s.setOutcome o r d).mb = s.mb
    ∧ (s.setOutcome o r d).be = s.be
    ∧ (s.setOutcome o r d).ea = s.ea
    ∧ (s.setOutcome o r d).zc = s.zc
    ∧ (s.setOutcome o r d).due = s.due
    ∧ (s.setOutcome o r d).stops = s.stops :=
  by and_intros <;> rfl

/-- The end of an operation touches PS and the reply queue. -/
@[simp] theorem State.endOperation_keeps (s : State) (op : Operation) (r : ResultCode) (d : Word16) :
    (s.endOperation op r d).pending = s.pending
    ∧ (s.endOperation op r d).supply = s.supply
    ∧ (s.endOperation op r d).supplyLevel = s.supplyLevel
    ∧ (s.endOperation op r d).venueStop = s.venueStop
    ∧ (s.endOperation op r d).planLock = s.planLock
    ∧ (s.endOperation op r d).lrx = s.lrx
    ∧ (s.endOperation op r d).ltx = s.ltx
    ∧ (s.endOperation op r d).driveOut = s.driveOut
    ∧ (s.endOperation op r d).tb = s.tb
    ∧ (s.endOperation op r d).mb = s.mb
    ∧ (s.endOperation op r d).be = s.be
    ∧ (s.endOperation op r d).ea = s.ea
    ∧ (s.endOperation op r d).zc = s.zc
    ∧ (s.endOperation op r d).due = s.due
    ∧ (s.endOperation op r d).stops = s.stops :=
  by and_intros <;> rfl

/-- A stopped operation touches PS, the reply queue and the count of stops. -/
@[simp] theorem State.stopOperation_keeps (s : State) (op : Operation) (d : Nat) :
    (s.stopOperation op d).pending = s.pending
    ∧ (s.stopOperation op d).supply = s.supply
    ∧ (s.stopOperation op d).supplyLevel = s.supplyLevel
    ∧ (s.stopOperation op d).venueStop = s.venueStop
    ∧ (s.stopOperation op d).planLock = s.planLock
    ∧ (s.stopOperation op d).lrx = s.lrx
    ∧ (s.stopOperation op d).ltx = s.ltx
    ∧ (s.stopOperation op d).driveOut = s.driveOut
    ∧ (s.stopOperation op d).tb = s.tb
    ∧ (s.stopOperation op d).mb = s.mb
    ∧ (s.stopOperation op d).be = s.be
    ∧ (s.stopOperation op d).ea = s.ea
    ∧ (s.stopOperation op d).zc = s.zc
    ∧ (s.stopOperation op d).due = s.due :=
  by and_intros <;> rfl

/-- The staging page belongs to PS. -/
@[simp] theorem State.discardStaging_keeps (s : State) :
    (s.discardStaging).pending = s.pending
    ∧ (s.discardStaging).supply = s.supply
    ∧ (s.discardStaging).supplyLevel = s.supplyLevel
    ∧ (s.discardStaging).venueStop = s.venueStop
    ∧ (s.discardStaging).planLock = s.planLock
    ∧ (s.discardStaging).lrx = s.lrx
    ∧ (s.discardStaging).ltx = s.ltx
    ∧ (s.discardStaging).driveOut = s.driveOut
    ∧ (s.discardStaging).mu = s.mu
    ∧ (s.discardStaging).tb = s.tb
    ∧ (s.discardStaging).mb = s.mb
    ∧ (s.discardStaging).be = s.be
    ∧ (s.discardStaging).ea = s.ea
    ∧ (s.discardStaging).zc = s.zc
    ∧ (s.discardStaging).due = s.due
    ∧ (s.discardStaging).stops = s.stops :=
  by and_intros <;> rfl

/-- The operation belongs to PS. -/
@[simp] theorem State.begin_keeps (s : State) (k : OpKind) (t : Byte) :
    (s.begin k t).pending = s.pending
    ∧ (s.begin k t).supply = s.supply
    ∧ (s.begin k t).supplyLevel = s.supplyLevel
    ∧ (s.begin k t).venueStop = s.venueStop
    ∧ (s.begin k t).planLock = s.planLock
    ∧ (s.begin k t).lrx = s.lrx
    ∧ (s.begin k t).ltx = s.ltx
    ∧ (s.begin k t).driveOut = s.driveOut
    ∧ (s.begin k t).mu = s.mu
    ∧ (s.begin k t).tb = s.tb
    ∧ (s.begin k t).mb = s.mb
    ∧ (s.begin k t).be = s.be
    ∧ (s.begin k t).ea = s.ea
    ∧ (s.begin k t).zc = s.zc
    ∧ (s.begin k t).due = s.due
    ∧ (s.begin k t).stops = s.stops :=
  by and_intros <;> rfl

/-- The operation belongs to PS. -/
@[simp] theorem State.countOperationFrame_keeps (s : State) :
    (s.countOperationFrame).pending = s.pending
    ∧ (s.countOperationFrame).supply = s.supply
    ∧ (s.countOperationFrame).supplyLevel = s.supplyLevel
    ∧ (s.countOperationFrame).venueStop = s.venueStop
    ∧ (s.countOperationFrame).planLock = s.planLock
    ∧ (s.countOperationFrame).lrx = s.lrx
    ∧ (s.countOperationFrame).ltx = s.ltx
    ∧ (s.countOperationFrame).driveOut = s.driveOut
    ∧ (s.countOperationFrame).mu = s.mu
    ∧ (s.countOperationFrame).tb = s.tb
    ∧ (s.countOperationFrame).mb = s.mb
    ∧ (s.countOperationFrame).be = s.be
    ∧ (s.countOperationFrame).ea = s.ea
    ∧ (s.countOperationFrame).zc = s.zc
    ∧ (s.countOperationFrame).due = s.due
    ∧ (s.countOperationFrame).stops = s.stops :=
  by and_intros <;> rfl

/-- The outbound lane position belongs to LTX. -/
@[simp] theorem State.setLane_keeps (s : State) (x : Option Transmission) (b : Bool) :
    (s.setLane x b).pending = s.pending
    ∧ (s.setLane x b).supply = s.supply
    ∧ (s.setLane x b).supplyLevel = s.supplyLevel
    ∧ (s.setLane x b).venueStop = s.venueStop
    ∧ (s.setLane x b).planLock = s.planLock
    ∧ (s.setLane x b).lrx = s.lrx
    ∧ (s.setLane x b).driveOut = s.driveOut
    ∧ (s.setLane x b).mu = s.mu
    ∧ (s.setLane x b).tb = s.tb
    ∧ (s.setLane x b).mb = s.mb
    ∧ (s.setLane x b).be = s.be
    ∧ (s.setLane x b).ea = s.ea
    ∧ (s.setLane x b).zc = s.zc
    ∧ (s.setLane x b).ps = s.ps
    ∧ (s.setLane x b).due = s.due
    ∧ (s.setLane x b).stops = s.stops :=
  by and_intros <;> rfl

/-- Measuring touches MB alone. -/
@[simp] theorem State.measure_keeps (s : State) (x : Samples) :
    (s.measure x).pending = s.pending
    ∧ (s.measure x).supply = s.supply
    ∧ (s.measure x).supplyLevel = s.supplyLevel
    ∧ (s.measure x).venueStop = s.venueStop
    ∧ (s.measure x).planLock = s.planLock
    ∧ (s.measure x).lrx = s.lrx
    ∧ (s.measure x).ltx = s.ltx
    ∧ (s.measure x).driveOut = s.driveOut
    ∧ (s.measure x).mu = s.mu
    ∧ (s.measure x).tb = s.tb
    ∧ (s.measure x).be = s.be
    ∧ (s.measure x).ea = s.ea
    ∧ (s.measure x).zc = s.zc
    ∧ (s.measure x).ps = s.ps
    ∧ (s.measure x).due = s.due
    ∧ (s.measure x).stops = s.stops :=
  by and_intros <;> rfl

/-- The standings belong to ZC. -/
@[simp] theorem State.recordStanding_keeps (s : State) :
    (s.recordStanding).pending = s.pending
    ∧ (s.recordStanding).supply = s.supply
    ∧ (s.recordStanding).supplyLevel = s.supplyLevel
    ∧ (s.recordStanding).venueStop = s.venueStop
    ∧ (s.recordStanding).planLock = s.planLock
    ∧ (s.recordStanding).lrx = s.lrx
    ∧ (s.recordStanding).ltx = s.ltx
    ∧ (s.recordStanding).driveOut = s.driveOut
    ∧ (s.recordStanding).mu = s.mu
    ∧ (s.recordStanding).tb = s.tb
    ∧ (s.recordStanding).mb = s.mb
    ∧ (s.recordStanding).be = s.be
    ∧ (s.recordStanding).ea = s.ea
    ∧ (s.recordStanding).ps = s.ps
    ∧ (s.recordStanding).due = s.due
    ∧ (s.recordStanding).stops = s.stops :=
  by and_intros <;> rfl

/-- A frame sent is the drive link's. -/
@[simp] theorem State.putFrame_keeps (s : State) (x : Samples) (w : Word16) :
    (s.putFrame x w).pending = s.pending
    ∧ (s.putFrame x w).supply = s.supply
    ∧ (s.putFrame x w).supplyLevel = s.supplyLevel
    ∧ (s.putFrame x w).venueStop = s.venueStop
    ∧ (s.putFrame x w).planLock = s.planLock
    ∧ (s.putFrame x w).lrx = s.lrx
    ∧ (s.putFrame x w).ltx = s.ltx
    ∧ (s.putFrame x w).mu = s.mu
    ∧ (s.putFrame x w).tb = s.tb
    ∧ (s.putFrame x w).mb = s.mb
    ∧ (s.putFrame x w).be = s.be
    ∧ (s.putFrame x w).ea = s.ea
    ∧ (s.putFrame x w).zc = s.zc
    ∧ (s.putFrame x w).ps = s.ps
    ∧ (s.putFrame x w).due = s.due
    ∧ (s.putFrame x w).stops = s.stops :=
  by and_intros <;> rfl

/-- Publishing touches MB alone. -/
@[simp] theorem State.publish_keeps (s : State) :
    (s.publish).pending = s.pending
    ∧ (s.publish).supply = s.supply
    ∧ (s.publish).supplyLevel = s.supplyLevel
    ∧ (s.publish).venueStop = s.venueStop
    ∧ (s.publish).planLock = s.planLock
    ∧ (s.publish).lrx = s.lrx
    ∧ (s.publish).ltx = s.ltx
    ∧ (s.publish).driveOut = s.driveOut
    ∧ (s.publish).mu = s.mu
    ∧ (s.publish).tb = s.tb
    ∧ (s.publish).be = s.be
    ∧ (s.publish).ea = s.ea
    ∧ (s.publish).zc = s.zc
    ∧ (s.publish).ps = s.ps
    ∧ (s.publish).due = s.due
    ∧ (s.publish).stops = s.stops :=
  by and_intros <;> rfl

/-- The estimates belong to BE. -/
@[simp] theorem State.formEstimates_keeps (s : State) :
    (s.formEstimates).pending = s.pending
    ∧ (s.formEstimates).supply = s.supply
    ∧ (s.formEstimates).supplyLevel = s.supplyLevel
    ∧ (s.formEstimates).venueStop = s.venueStop
    ∧ (s.formEstimates).planLock = s.planLock
    ∧ (s.formEstimates).lrx = s.lrx
    ∧ (s.formEstimates).ltx = s.ltx
    ∧ (s.formEstimates).driveOut = s.driveOut
    ∧ (s.formEstimates).mu = s.mu
    ∧ (s.formEstimates).tb = s.tb
    ∧ (s.formEstimates).mb = s.mb
    ∧ (s.formEstimates).ea = s.ea
    ∧ (s.formEstimates).zc = s.zc
    ∧ (s.formEstimates).ps = s.ps
    ∧ (s.formEstimates).due = s.due
    ∧ (s.formEstimates).stops = s.stops :=
  by and_intros <;> rfl

/-- The silence counts belong to BE. -/
@[simp] theorem State.countSilence_keeps (s : State) :
    (s.countSilence).pending = s.pending
    ∧ (s.countSilence).supply = s.supply
    ∧ (s.countSilence).supplyLevel = s.supplyLevel
    ∧ (s.countSilence).venueStop = s.venueStop
    ∧ (s.countSilence).planLock = s.planLock
    ∧ (s.countSilence).lrx = s.lrx
    ∧ (s.countSilence).ltx = s.ltx
    ∧ (s.countSilence).driveOut = s.driveOut
    ∧ (s.countSilence).mu = s.mu
    ∧ (s.countSilence).tb = s.tb
    ∧ (s.countSilence).mb = s.mb
    ∧ (s.countSilence).ea = s.ea
    ∧ (s.countSilence).zc = s.zc
    ∧ (s.countSilence).ps = s.ps
    ∧ (s.countSilence).stops = s.stops :=
  by and_intros <;> rfl

/-- The accumulators belong to EA. -/
@[simp] theorem State.accumulate_keeps (s : State) :
    (s.accumulate).pending = s.pending
    ∧ (s.accumulate).supply = s.supply
    ∧ (s.accumulate).supplyLevel = s.supplyLevel
    ∧ (s.accumulate).venueStop = s.venueStop
    ∧ (s.accumulate).planLock = s.planLock
    ∧ (s.accumulate).lrx = s.lrx
    ∧ (s.accumulate).ltx = s.ltx
    ∧ (s.accumulate).driveOut = s.driveOut
    ∧ (s.accumulate).mu = s.mu
    ∧ (s.accumulate).tb = s.tb
    ∧ (s.accumulate).mb = s.mb
    ∧ (s.accumulate).be = s.be
    ∧ (s.accumulate).zc = s.zc
    ∧ (s.accumulate).ps = s.ps
    ∧ (s.accumulate).due = s.due
    ∧ (s.accumulate).stops = s.stops :=
  by and_intros <;> rfl

/-- The interval counts belong to TB. -/
@[simp] theorem State.countInterval_keeps (s : State) :
    (s.countInterval).pending = s.pending
    ∧ (s.countInterval).supply = s.supply
    ∧ (s.countInterval).supplyLevel = s.supplyLevel
    ∧ (s.countInterval).venueStop = s.venueStop
    ∧ (s.countInterval).planLock = s.planLock
    ∧ (s.countInterval).lrx = s.lrx
    ∧ (s.countInterval).ltx = s.ltx
    ∧ (s.countInterval).driveOut = s.driveOut
    ∧ (s.countInterval).mu = s.mu
    ∧ (s.countInterval).mb = s.mb
    ∧ (s.countInterval).be = s.be
    ∧ (s.countInterval).ea = s.ea
    ∧ (s.countInterval).zc = s.zc
    ∧ (s.countInterval).ps = s.ps
    ∧ (s.countInterval).stops = s.stops :=
  by and_intros <;> rfl

/-- The latches belong to ZC and EA. -/
@[simp] theorem State.clearLatches_keeps (s : State) (a b c : Word16) :
    (s.clearLatches a b c).pending = s.pending
    ∧ (s.clearLatches a b c).supply = s.supply
    ∧ (s.clearLatches a b c).supplyLevel = s.supplyLevel
    ∧ (s.clearLatches a b c).venueStop = s.venueStop
    ∧ (s.clearLatches a b c).planLock = s.planLock
    ∧ (s.clearLatches a b c).lrx = s.lrx
    ∧ (s.clearLatches a b c).ltx = s.ltx
    ∧ (s.clearLatches a b c).driveOut = s.driveOut
    ∧ (s.clearLatches a b c).mu = s.mu
    ∧ (s.clearLatches a b c).tb = s.tb
    ∧ (s.clearLatches a b c).mb = s.mb
    ∧ (s.clearLatches a b c).be = s.be
    ∧ (s.clearLatches a b c).ps = s.ps
    ∧ (s.clearLatches a b c).due = s.due
    ∧ (s.clearLatches a b c).stops = s.stops :=
  by and_intros <;> rfl

/-- The zone records belong to ZC. -/
@[simp] theorem State.alignZones_keeps (s : State) (o n : Bank) :
    (s.alignZones o n).pending = s.pending
    ∧ (s.alignZones o n).supply = s.supply
    ∧ (s.alignZones o n).supplyLevel = s.supplyLevel
    ∧ (s.alignZones o n).venueStop = s.venueStop
    ∧ (s.alignZones o n).planLock = s.planLock
    ∧ (s.alignZones o n).lrx = s.lrx
    ∧ (s.alignZones o n).ltx = s.ltx
    ∧ (s.alignZones o n).driveOut = s.driveOut
    ∧ (s.alignZones o n).mu = s.mu
    ∧ (s.alignZones o n).tb = s.tb
    ∧ (s.alignZones o n).mb = s.mb
    ∧ (s.alignZones o n).be = s.be
    ∧ (s.alignZones o n).ea = s.ea
    ∧ (s.alignZones o n).ps = s.ps
    ∧ (s.alignZones o n).due = s.due
    ∧ (s.alignZones o n).stops = s.stops :=
  by and_intros <;> rfl

/-- The line belongs to LRX. -/
@[simp] theorem State.lineChange_keeps (s : State) :
    (s.lineChange).pending = s.pending
    ∧ (s.lineChange).supply = s.supply
    ∧ (s.lineChange).supplyLevel = s.supplyLevel
    ∧ (s.lineChange).venueStop = s.venueStop
    ∧ (s.lineChange).planLock = s.planLock
    ∧ (s.lineChange).ltx = s.ltx
    ∧ (s.lineChange).driveOut = s.driveOut
    ∧ (s.lineChange).mu = s.mu
    ∧ (s.lineChange).tb = s.tb
    ∧ (s.lineChange).mb = s.mb
    ∧ (s.lineChange).be = s.be
    ∧ (s.lineChange).ea = s.ea
    ∧ (s.lineChange).zc = s.zc
    ∧ (s.lineChange).ps = s.ps
    ∧ (s.lineChange).due = s.due
    ∧ (s.lineChange).stops = s.stops :=
  by and_intros <;> rfl

/-- The corrections belong to BE. -/
@[simp] theorem State.correctBoundary_keeps (s : State) (b : Fin 6) (p : Nat) (o : Bool) (f : Nat) (l : Option Nat) :
    (s.correctBoundary b p o f l).pending = s.pending
    ∧ (s.correctBoundary b p o f l).supply = s.supply
    ∧ (s.correctBoundary b p o f l).supplyLevel = s.supplyLevel
    ∧ (s.correctBoundary b p o f l).venueStop = s.venueStop
    ∧ (s.correctBoundary b p o f l).planLock = s.planLock
    ∧ (s.correctBoundary b p o f l).lrx = s.lrx
    ∧ (s.correctBoundary b p o f l).ltx = s.ltx
    ∧ (s.correctBoundary b p o f l).driveOut = s.driveOut
    ∧ (s.correctBoundary b p o f l).mu = s.mu
    ∧ (s.correctBoundary b p o f l).tb = s.tb
    ∧ (s.correctBoundary b p o f l).mb = s.mb
    ∧ (s.correctBoundary b p o f l).ea = s.ea
    ∧ (s.correctBoundary b p o f l).zc = s.zc
    ∧ (s.correctBoundary b p o f l).ps = s.ps
    ∧ (s.correctBoundary b p o f l).due = s.due
    ∧ (s.correctBoundary b p o f l).stops = s.stops :=
  by and_intros <;> rfl

/-! ### Fields an update writes -/

@[simp] theorem State.queueReply_replies (s : State) (r : Reply) :
    (s.queueReply r).mu.replies = s.mu.replies ++ [r]
    ∧ (s.queueReply r).mu.inbound = s.mu.inbound ∧ (s.queueReply r).mu.alerts = s.mu.alerts
    ∧ (s.queueReply r).mu.reports = s.mu.reports ∧ (s.queueReply r).mu.alertsLost = s.mu.alertsLost
    ∧ (s.queueReply r).mu.reportsLost = s.mu.reportsLost :=
  ⟨rfl, rfl, rfl, rfl, rfl, rfl⟩

@[simp] theorem State.raiseAlert_alerts (s : State) (a : Alert) :
    (s.raiseAlert a).mu.alerts = pushNewest Config.alertCap s.mu.alerts a
    ∧ (s.raiseAlert a).mu.inbound = s.mu.inbound ∧ (s.raiseAlert a).mu.replies = s.mu.replies
    ∧ (s.raiseAlert a).mu.reports = s.mu.reports ∧ (s.raiseAlert a).mu.reportsLost = s.mu.reportsLost :=
  ⟨rfl, rfl, rfl, rfl, rfl⟩

@[simp] theorem State.queueReport_reports (s : State) (r : MinuteReport) :
    (s.queueReport r).mu.reports = pushNewest Config.reportCap s.mu.reports r
    ∧ (s.queueReport r).mu.inbound = s.mu.inbound ∧ (s.queueReport r).mu.replies = s.mu.replies
    ∧ (s.queueReport r).mu.alerts = s.mu.alerts ∧ (s.queueReport r).mu.alertsLost = s.mu.alertsLost :=
  ⟨rfl, rfl, rfl, rfl, rfl⟩

@[simp] theorem State.setInbound_writes (s : State) (q : List Message) :
    (s.setInbound q).mu.inbound = q ∧ (s.setInbound q).mu.replies = s.mu.replies
    ∧ (s.setInbound q).mu.alerts = s.mu.alerts ∧ (s.setInbound q).mu.reports = s.mu.reports :=
  ⟨rfl, rfl, rfl, rfl⟩

@[simp] theorem State.setZones_writes (s : State) (v : Vector Controller 8) :
    (s.setZones v).zc.zones = v ∧ (s.setZones v).zc.standing = s.zc.standing
    ∧ (s.setZones v).zc.tripLine = v.toList.any (fun c => c.state == .tripped) :=
  ⟨rfl, rfl, rfl⟩

@[simp] theorem State.withFlags_writes (s : State) (f : LinkFlags) :
    (s.withFlags f).lrx.flags = f ∧ (s.withFlags f).lrx.receiver = s.lrx.receiver
    ∧ (s.withFlags f).lrx.fifo = s.lrx.fifo ∧ (s.withFlags f).lrx.assembler = s.lrx.assembler :=
  ⟨rfl, rfl, rfl, rfl⟩

/-- Writing back the zone records and line as they stand changes nothing. -/
theorem State.setInbound_self (s : State) : s.setInbound s.mu.inbound = s := rfl

end Sys2Proof.Machine
end

