-- ==== Sys2Proof/Laws/Ops.lean ====
section
/-! SUPPORT. What each shared operation can do, said once: the bounded queues, the search for a greatest number, and
what happens before and after a command from outside. -/

namespace Sys2Proof.Machine

/-! ### Bounded queues -/

theorem pushNewest_length {α : Type} (cap : Nat) (xs : List α) (x : α) :
    (pushNewest cap xs x).length = min (xs.length + 1) cap := by
  simp [pushNewest]; omega

theorem pushNewest_of_room {α : Type} {cap : Nat} {xs : List α} (x : α) (h : xs.length < cap) :
    pushNewest cap xs x = xs ++ [x] := by
  have : xs.length + 1 - cap = 0 := by omega
  simp [pushNewest, this]

theorem pushNewest_of_full {α : Type} {cap : Nat} {y : α} {xs : List α} (x : α) (h : xs.length + 1 = cap) :
    pushNewest cap (y :: xs) x = xs ++ [x] := by
  have : (y :: xs).length + 1 - cap = 1 := by simp; omega
  rw [pushNewest, this]; rfl

theorem pushOver_of_room {α : Type} {cap : Nat} {xs : List α} (x : α) (h : xs.length < cap) :
    pushOver cap xs x = xs ++ [x] := by
  rw [pushOver, List.take_of_length_le (by omega)]

theorem pushOver_length {α : Type} {cap : Nat} (xs : List α) (x : α) (h : 0 < cap) :
    (pushOver cap xs x).length = min (xs.length + 1) cap := by
  simp [pushOver]; omega

/-! ### The greatest number that meets a condition -/

/-- `greatest` stays within its range above the start. -/
theorem greatest_bounds (b : Nat) (p : Nat → Bool) (acc : Nat) :
    acc ≤ greatest b p acc ∧ greatest b p acc < acc + 2 ^ b := by
  induction b generalizing acc with
  | zero => simp [greatest]
  | succ b ih =>
    rw [greatest]
    have h1 := ih acc
    have h2 := ih (acc + 2 ^ b)
    rw [Nat.pow_succ]
    split <;> omega

/-- For a condition that, once false, stays false, `greatest` meets the condition or is the start, and no greater
number of its range meets it. -/
theorem greatest_spec (b : Nat) (p : Nat → Bool) (acc : Nat) (mono : ∀ i j, i ≤ j → p j = true → p i = true) :
    (greatest b p acc = acc ∨ p (greatest b p acc) = true)
    ∧ ∀ k, greatest b p acc < k → k < acc + 2 ^ b → p k = false := by
  induction b generalizing acc with
  | zero =>
    refine ⟨Or.inl rfl, fun k h1 h2 => ?_⟩
    simp only [greatest, pow_zero] at h1 h2; omega
  | succ b ih =>
    rw [greatest]
    by_cases hp : p (acc + 2 ^ b) = true
    · rw [if_pos hp]
      have h := ih (acc + 2 ^ b)
      refine ⟨Or.inr ?_, fun k h1 h2 => h.2 k h1 (by rw [Nat.pow_succ] at h2; omega)⟩
      rcases h.1 with he | he
      · rw [he]; exact hp
      · exact he
    · rw [if_neg hp]
      have h := ih acc
      refine ⟨h.1, fun k h1 h2 => ?_⟩
      by_cases hk : k < acc + 2 ^ b
      · exact h.2 k h1 hk
      · by_contra hc
        exact hp (mono _ k (by omega) (by simpa using hc))

/-! ### Folds -/

/-- A fold keeps what each of its steps keeps. -/
theorem foldl_keeps {α β γ : Type} (f : β → γ) (g : β → α → β) (h : ∀ s x, f (g s x) = f s) (xs : List α) (s : β) :
    f (xs.foldl g s) = f s := by
  induction xs generalizing s with
  | nil => rfl
  | cons x xs ih => rw [List.foldl_cons, ih, h]

/-- A fold keeps an invariant that each of its steps keeps. -/
theorem foldl_invariant {α β : Type} (P : β → Prop) (g : β → α → β) (h : ∀ s x, P s → P (g s x)) (xs : List α)
    (s : β) (hs : P s) : P (xs.foldl g s) := by
  induction xs generalizing s with
  | nil => exact hs
  | cons x xs ih => exact ih _ (h s x hs)

/-! ### Alerts -/

/-- Alerts raised in order touch the alert queue and ALERTS_LOST alone (R177). -/
theorem State.raiseAlerts_eq (s : State) (alerts : List Alert) :
    s.raiseAlerts alerts
      = { s with mu := { s.mu with
            alerts := alerts.foldl (pushNewest 8) s.mu.alerts
            alertsLost := s.mu.alertsLost || decide (alerts ≠ [] ∧ 8 < s.mu.alerts.length + alerts.length) } } := by
  induction alerts generalizing s with
  | nil => simp [State.raiseAlerts]
  | cons a rest ih =>
    have h : s.raiseAlerts (a :: rest) = (s.raiseAlert a).raiseAlerts rest := rfl
    have hl := pushNewest_length 8 s.mu.alerts a
    rw [h, ih]
    have hlost : ((s.mu.alertsLost || decide (8 ≤ s.mu.alerts.length))
          || decide (rest ≠ [] ∧ 8 < (pushNewest 8 s.mu.alerts a).length + rest.length))
        = (s.mu.alertsLost || decide (a :: rest ≠ [] ∧ 8 < s.mu.alerts.length + (a :: rest).length)) := by
      rw [Bool.or_assoc, ← Bool.decide_or]
      congr 1
      rw [decide_eq_decide, hl]
      cases rest with
      | nil => simp
      | cons b rest => simp; omega
    exact congrArg (fun lost : Bool => ({ s with mu := { s.mu with
      alerts := rest.foldl (pushNewest 8) (pushNewest 8 s.mu.alerts a), alertsLost := lost } } : State)) hlost

/-- A state that keeps the alert queue of alerts raised holds them. -/
theorem State.alertsRaised_of {s t u : State} {alerts : List Alert} (h : t.mu.alerts = (u.raiseAlerts alerts).mu.alerts)
    (hl : t.mu.alertsLost = (u.raiseAlerts alerts).mu.alertsLost) (hu : u.mu.alerts = s.mu.alerts)
    (hul : u.mu.alertsLost = s.mu.alertsLost) : s.AlertsRaised t alerts := by
  rw [State.raiseAlerts_eq] at h hl
  exact ⟨by rw [h, ← hu], by rw [hl, ← hul, ← hu]⟩

/-! ### Before a command from outside -/

/-- With nothing due, settling changes nothing. -/
theorem State.settle_of_settled {s : State} (h : s.Settled) : s.settle = s := by
  obtain ⟨h1, h2, h3, h4⟩ := h
  simp [State.settle, State.finishSet, State.finishSwap, h1, h2, h3, h4]

/-- With no setting or minute boundary due either, nothing at all is left to take. -/
theorem State.settleAll_of_settled {s : State} (h : s.Settled) (ht : s.due.tb = none) : s.settleAll = s := by
  have hs := State.settle_of_settled h
  obtain ⟨h1, h2, h3, h4⟩ := h
  simp [State.settleAll, hs, State.finishTime, ht, State.finishSwap, h4]

/-- A command from outside acts on an awake part as it stands. -/
theorem State.outside_of_awake {s : State} (h : s.Awake) (f : State → State) : s.outside f = .next (f s) := by
  simp [State.outside, h.1, State.settle_of_settled h.2]

/-- A command from outside has no effect in OFF. -/
theorem State.outside_of_off {s : State} (h : s.supply = .off) (f : State → State) : s.outside f = .next s := by
  simp [State.outside, h]

/-! ### After it: what MU takes -/

/-- With no message waiting, MU takes nothing. -/
theorem State.drain_of_empty {s : State} (h : s.mu.inbound = []) : s.drain = s := by
  rw [State.drain, h, drainQueue, ← h, State.setInbound_self]

/-- A message that may not be taken stays in the queue. -/
theorem State.drain_of_waiting {s : State} (h : s.canTake = false) : s.drain = s := by
  rw [State.drain]
  cases hq : s.mu.inbound with
  | nil => rw [drainQueue, ← hq, State.setInbound_self]
  | cons m rest => rw [drainQueue, h, if_neg (by simp), ← hq, State.setInbound_self]

/-- A message that reaches a listening part is taken at once; `hk` says that its taking leaves the inbound queue
alone. -/
theorem State.deliver_of_listening {s : State} (h : s.Listening) (m : Message)
    (hk : (s.takeMessage m).mu.inbound = s.mu.inbound) : s.deliver m = s.takeMessage m := by
  obtain ⟨-, hq, hr⟩ := h
  have hpush : (s.pushInbound m).mu.inbound = [m] := by simp [State.pushInbound, hq, pushOver]
  have hback : (s.pushInbound m).setInbound [] = s := by
    have : s = s.setInbound [] := by rw [← hq, State.setInbound_self]
    conv_rhs => rw [this]
    simp [State.setInbound, State.pushInbound, hq, Config.inboundCap]
  have hcan : (s.pushInbound m).canTake = true := by
    exact decide_eq_true hr
  rw [State.deliver, State.drain, hpush, drainQueue, if_pos hcan, hback, drainQueue]
  rw [← hq, ← hk, State.setInbound_self]

end Sys2Proof.Machine
end

