-- ==== Sys2Proof/Laws/Outer.lean ====
section
/-! SUPPORT. What lies outside the reach of the blocks' own work: the queue of commands, the supply, the input lines,
the drive link and the inbound queue. Each operation of the blocks keeps it, said once for each. -/

namespace Sys2Proof.Machine

/-- The parts of the state that no block's own work changes. -/
def State.outer (s : State) :
    List Instr × SupplyState × Nat × Bool × Bool × Option DriveFrame × List Message :=
  (s.pending, s.supply, s.supplyLevel, s.venueStop, s.planLock, s.driveOut, s.mu.inbound)

theorem outer_raiseAlert (s : State) (a : Alert) : (s.raiseAlert a).outer = s.outer := rfl
theorem outer_raise (s : State) (k : AlertKind) (u : Bool) (n : Option Nat) (d : Word16) :
    (s.raise k u n d).outer = s.outer := rfl
theorem outer_queueReply (s : State) (r : Reply) : (s.queueReply r).outer = s.outer := rfl
theorem outer_answer (s : State) (k t : Byte) (r : ResultCode) (d : Nat) : (s.answer k t r d).outer = s.outer := rfl
theorem outer_answerData (s : State) (k t : Byte) (d : Nat) (w : List Word16) :
    (s.answerData k t d w).outer = s.outer := rfl
theorem outer_queueReport (s : State) (r : MinuteReport) : (s.queueReport r).outer = s.outer := rfl
theorem outer_setTb (s : State) (x : Tb) : ({ s with tb := x } : State).outer = s.outer := rfl
theorem outer_discardStaging (s : State) : s.discardStaging.outer = s.outer := rfl
theorem outer_resolveAll (s : State) : s.resolveAll.outer = s.outer := rfl
theorem outer_endOperation (s : State) (op : Operation) (r : ResultCode) (d : Word16) :
    (s.endOperation op r d).outer = s.outer := rfl
theorem outer_stopOperation (s : State) (op : Operation) (d : Nat) : (s.stopOperation op d).outer = s.outer := rfl

/-! ### The published set -/

theorem outer_makeStale (s : State) (m : Fin 12) : (s.makeStale m).outer = s.outer := rfl

theorem outer_tripZone (s : State) (z : Fin 8) : (s.tripZone z).outer = s.outer := by
  unfold State.tripZone; dsimp only; split <;> rfl

theorem outer_freeZone (s : State) (z : Fin 8) : (s.freeZone z).outer = s.outer := by
  unfold State.freeZone; dsimp only; split <;> rfl

theorem outer_finishSet (s : State) : s.finishSet.outer = s.outer := by
  unfold State.finishSet; dsimp only
  rw [foldl_keeps State.outer _ (fun s z => by split <;> simp only [outer_freeZone]),
    foldl_keeps State.outer _ (fun s z => by split <;> simp only [outer_tripZone]),
    foldl_keeps State.outer _ (fun s m => by split <;> simp only [outer_makeStale])]

theorem outer_raiseAlerts (s : State) (alerts : List Alert) : (s.raiseAlerts alerts).outer = s.outer :=
  foldl_keeps State.outer _ (fun s a => outer_raiseAlert s a) _ s

theorem outer_takeSet (s : State) : s.takeSet.outer = s.outer := by
  unfold State.takeSet; dsimp only; rw [outer_raiseAlerts]; rfl

theorem outer_publish (s : State) : s.publish.outer = s.outer := rfl
theorem outer_formEstimates (s : State) : s.formEstimates.outer = s.outer := rfl
theorem outer_countSilence (s : State) : s.countSilence.outer = s.outer := rfl
theorem outer_accumulate (s : State) : s.accumulate.outer = s.outer := rfl
theorem outer_countInterval (s : State) : s.countInterval.outer = s.outer := rfl

theorem outer_intervalNow (s : State) : s.intervalNow.outer = s.outer := by
  rw [State.intervalNow, outer_countInterval, outer_takeSet, outer_accumulate, outer_countSilence, outer_formEstimates,
    outer_publish]

/-! ### The close, the swap and the derivation -/

theorem outer_closeMinute (s : State) (p : Bool) : (s.closeMinute p).outer = s.outer := by
  unfold State.closeMinute; rw [outer_queueReport, outer_raiseAlerts]; rfl

theorem outer_derive (s : State) : s.derive.outer = s.outer := rfl

theorem outer_afterClose (s : State) : s.afterClose.outer = s.outer := by
  unfold State.afterClose; split <;> rfl

theorem outer_takeSwap (s : State) : s.takeSwap.outer = s.outer := by
  unfold State.takeSwap; split <;> rfl

theorem outer_swapNow (s : State) : s.swapNow.outer = s.outer := by
  unfold State.swapNow; dsimp only; rw [outer_derive]; split
  · rw [outer_takeSwap]; rfl
  · rfl

theorem outer_finishSwap (s : State) : s.finishSwap.outer = s.outer := by
  unfold State.finishSwap; split
  · exact outer_swapNow s
  · rfl

theorem outer_settle (s : State) : s.settle.outer = s.outer := by
  rw [State.settle, outer_finishSwap, outer_finishSet]

theorem outer_boundaryNow (s : State) : s.boundaryNow.outer = s.outer := by
  unfold State.boundaryNow; dsimp only; rw [outer_afterClose, outer_setTb, outer_closeMinute]

theorem outer_trim (s : State) (set : Setting) : (s.trim set).outer = s.outer := rfl

theorem outer_stepTime (s : State) (set : Setting) : (s.stepTime set).outer = s.outer := by
  unfold State.stepTime; dsimp only
  rw [outer_afterClose, State.answerSetting, outer_answerData, outer_setTb, outer_closeMinute]

theorem outer_settingNow (s : State) : s.settingNow.outer = s.outer := by
  unfold State.settingNow; split
  · rfl
  · split
    · exact outer_trim s _
    · exact outer_stepTime s _

theorem outer_finishTime (s : State) : s.finishTime.outer = s.outer := by
  unfold State.finishTime; split
  · rfl
  · rw [outer_settingNow]; rfl
  · rw [outer_boundaryNow]; rfl

theorem outer_settleAll (s : State) : s.settleAll.outer = s.outer := by
  rw [State.settleAll, outer_finishSwap, outer_finishTime, outer_settle]

theorem outer_settleFrame (s : State) : s.settleFrame.outer = s.outer := by
  unfold State.settleFrame; dsimp only; split
  · rw [outer_settleAll, outer_intervalNow, outer_settleAll]
  · exact outer_settleAll s

/-! ### Requests -/

theorem outer_takeRelock (s : State) (t : Byte) : (s.takeRelock t).outer = s.outer := by
  unfold State.takeRelock State.relock; dsimp only
  cases s.lrx.receiver <;> first | rfl | (simp only [State.leaveLocked, State.unlock, State.truncate]; cases s.lrx.assembler <;> rfl)

theorem outer_placeSetting (s : State) (set : Setting) : (s.placeSetting set).outer = s.outer := by
  unfold State.placeSetting; dsimp only
  have h : (if s.due.tb = some .setting then s.finishTime.finishSwap else s).outer = s.outer := by
    split
    · rw [outer_finishSwap, outer_finishTime]
    · rfl
  rw [← h]
  split <;> rfl

theorem outer_onZone (s : State) (k t : Byte) (zone : Word16) (f : Fin 8 → State)
    (h : ∀ z, (f z).outer = s.outer) : (s.onZone k t zone f).outer = s.outer := by
  unfold State.onZone; split
  · exact h _
  · rfl

theorem outer_whenIdle (s : State) (k t : Byte) (judged : State) (h : judged.outer = s.outer) :
    (s.whenIdle k t judged).outer = s.outer := by
  unfold State.whenIdle; split
  · rfl
  · exact h

theorem outer_refreshMonitor (s : State) (m : Fin 12) : (s.refreshMonitor m).outer = s.outer := by
  unfold State.refreshMonitor; dsimp only; split <;> rfl

theorem outer_takeReport (s : State) (i p f l : Word16) (x : Option Word16) :
    (s.takeReport i p f l x).outer = s.outer := by
  unfold State.takeReport; dsimp only
  split
  · split
    · split
      · exact outer_refreshMonitor s _
      · split
        · exact outer_refreshMonitor s _
        · exact outer_refreshMonitor s _
    · rfl
  · rfl

theorem outer_takeReadPage (s : State) (t : Byte) (b p : Word16) : (s.takeReadPage t b p).outer = s.outer := by
  refine outer_whenIdle s _ _ _ ?_
  unfold State.judgeReadPage
  split
  · split <;> rfl
  · split
    · rfl
    · split <;> rfl

theorem outer_takeStagePage (s : State) (t : Byte) (b p : Word16) : (s.takeStagePage t b p).outer = s.outer := by
  refine outer_whenIdle s _ _ _ ?_
  unfold State.judgeStagePage
  split
  · rfl
  · split
    · split <;> rfl
    · rfl

theorem outer_takeWriteSlots (s : State) (t : Byte) (f : Word16) (v : List Slot) :
    (s.takeWriteSlots t f v).outer = s.outer := by
  refine outer_whenIdle s _ _ _ ?_
  unfold State.judgeWriteSlots
  split
  · rfl
  · split <;> rfl

theorem outer_takeCommit (s : State) (t : Byte) : (s.takeCommit t).outer = s.outer := by
  refine outer_whenIdle s _ _ _ ?_
  unfold State.judgeCommit
  split
  · rfl
  · split
    · rfl
    · unfold State.commitStaged; split <;> rfl

theorem outer_takeCopy (s : State) (t : Byte) : (s.takeCopy t).outer = s.outer := by
  refine outer_whenIdle s _ _ _ ?_; split <;> rfl

theorem outer_takeRecall (s : State) (t : Byte) : (s.takeRecall t).outer = s.outer := by
  refine outer_whenIdle s _ _ _ ?_
  split
  · rfl
  · split <;> rfl

theorem outer_takeActivate (s : State) (t : Byte) : (s.takeActivate t).outer = s.outer := by
  refine outer_whenIdle s _ _ _ ?_
  split
  · rfl
  · split <;> rfl

theorem outer_takeCancel (s : State) (t : Byte) : (s.takeCancel t).outer = s.outer := by
  refine outer_whenIdle s _ _ _ ?_; split <;> rfl

theorem outer_takeRetain (s : State) (t : Byte) : (s.takeRetain t).outer = s.outer := by
  refine outer_whenIdle s _ _ _ ?_; split <;> rfl

theorem outer_takeAbort (s : State) (t : Byte) : (s.takeAbort t).outer = s.outer := by
  unfold State.takeAbort; split
  · rw [outer_answer, outer_discardStaging, outer_stopOperation]
  · rfl

theorem outer_takeRequest (s : State) (t : Byte) (r : Request) : (s.takeRequest t r).outer = s.outer := by
  cases r with
  | identify => rfl
  | status => rfl
  | linkStatus => rfl
  | alarmStatus => rfl
  | clearAlarms a b c =>
    simp only [State.takeRequest, State.takeClearAlarms]
    split
    · rfl
    · split <;> rfl
  | timeSet a b =>
    simp only [State.takeRequest, State.takeTimeSet]
    split
    · rfl
    · split
      · rfl
      · exact outer_placeSetting s _
  | zoneStatus z => exact outer_onZone s _ _ _ _ fun z => rfl
  | boundaryStatus b k =>
    simp only [State.takeRequest, State.takeBoundaryStatus]
    split
    · split <;> rfl
    · rfl
  | muteZone z => exact outer_onZone s _ _ _ _ fun z => rfl
  | unmuteZone z => exact outer_onZone s _ _ _ _ fun z => rfl
  | clearTrip z =>
    refine outer_onZone s _ _ _ _ fun z => ?_
    dsimp only; split <;> rfl
  | relock => exact outer_takeRelock s t
  | restart =>
    simp only [State.takeRequest, State.takeRestart]; split <;> rfl
  | readPage b p => exact outer_takeReadPage s t b p
  | stagePage b p => exact outer_takeStagePage s t b p
  | writeSlots f v => exact outer_takeWriteSlots s t f v
  | commitPage => exact outer_takeCommit s t
  | copyWorking => exact outer_takeCopy s t
  | recallRetained => exact outer_takeRecall s t
  | activate => exact outer_takeActivate s t
  | cancelActivation => exact outer_takeCancel s t
  | retain => exact outer_takeRetain s t
  | abort => exact outer_takeAbort s t
  | monitorReport i p f l x => exact outer_takeReport s i p f l x

theorem outer_takeMessage (s : State) (m : Message) : (s.takeMessage m).outer = s.outer := by
  unfold State.takeMessage; split
  · exact outer_takeRequest s _ _
  · unfold State.rejectMessage; split <;> rfl

/-! ### Taking messages -/

/-- Taking messages keeps everything outside but the inbound queue. -/
theorem drainQueue_pending (q : List Message) (s : State) :
    (drainQueue q s).pending = s.pending ∧ (drainQueue q s).supply = s.supply
    ∧ (drainQueue q s).supplyLevel = s.supplyLevel
    ∧ (drainQueue q s).venueStop = s.venueStop ∧ (drainQueue q s).planLock = s.planLock
    ∧ (drainQueue q s).driveOut = s.driveOut := by
  induction q generalizing s with
  | nil => exact ⟨rfl, rfl, rfl, rfl, rfl, rfl⟩
  | cons m rest ih =>
    rw [drainQueue]
    split
    · have h := outer_takeMessage (s.setInbound rest) m
      simp only [State.outer, Prod.mk.injEq, State.setInbound_keeps] at h
      have h' := ih ((s.setInbound rest).takeMessage m)
      rw [h'.1, h'.2.1, h'.2.2.1, h'.2.2.2.1, h'.2.2.2.2.1, h'.2.2.2.2.2]
      exact ⟨h.1, h.2.1, h.2.2.1, h.2.2.2.1, h.2.2.2.2.1, h.2.2.2.2.2.1⟩
    · exact ⟨rfl, rfl, rfl, rfl, rfl, rfl⟩

/-- A message that reaches a listening part is taken at once. -/
theorem State.deliver_listening {s : State} (h : s.Listening) (m : Message) : s.deliver m = s.takeMessage m := by
  refine State.deliver_of_listening h m ?_
  have := outer_takeMessage s m
  simp only [State.outer, Prod.mk.injEq] at this
  exact this.2.2.2.2.2.2

/-- A message from outside, taken at once. -/
theorem State.receive_listening {s : State} (h : s.Listening) (m : Message) :
    s.receive m = .next (s.takeMessage m) := by
  rw [State.receive, State.outside_of_awake h.1, State.deliver_listening h]

end Sys2Proof.Machine
end

