-- ==== Sys2Proof/Laws/Zones.lean ====
section
/-! SUPPORT. The zone records: reading one after a write, and the TRIP line that every write of them follows. -/

namespace Sys2Proof.Machine

theorem vector_set_self {α : Type} {n : Nat} (v : Vector α n) (i : Fin n) (x : α) : (v.set i x)[i] = x := by simp

theorem vector_set_other {α : Type} {n : Nat} (v : Vector α n) (i j : Fin n) (x : α) (h : j ≠ i) :
    (v.set i x)[j] = v[j] := by
  simp only [Fin.getElem_fin]
  rw [Vector.getElem_set_ne]
  intro he; exact h (Fin.ext he.symm)

/-- The TRIP line's condition, zone by zone. -/
theorem any_tripped (zones : Vector Controller 8) :
    zones.toList.any (fun c => c.state == .tripped) = true ↔ ∃ z : Fin 8, zones[z].state = .tripped := by
  simp only [List.any_eq_true, beq_iff_eq]
  constructor
  · rintro ⟨c, hc, h⟩
    obtain ⟨i, hi, rfl⟩ := Vector.mem_iff_getElem.1 (by simpa using hc)
    exact ⟨⟨i, hi⟩, h⟩
  · rintro ⟨z, h⟩
    exact ⟨zones[z], by simp, h⟩

/-- After every write of the zone records the TRIP line follows them. -/
theorem State.setZones_follows (s : State) (zones : Vector Controller 8) : (s.setZones zones).TripLineFollows := by
  simp only [State.TripLineFollows, State.setZones]
  exact any_tripped zones

/-- A write of one record that neither trips the zone nor releases it leaves the TRIP line as it is. -/
theorem State.setZone_line {s : State} {z : Fin 8} {c : Controller} (h : s.TripLineFollows)
    (hc : c.state = .tripped ↔ s.zc.zones[z].state = .tripped) :
    s.setZone z c = { s with zc := { s.zc with zones := s.zc.zones.set z c } } := by
  have hline : (s.zc.zones.set z c).toList.any (fun c => c.state == .tripped) = s.zc.tripLine := by
    rw [State.TripLineFollows] at h
    rw [Bool.eq_iff_iff, any_tripped, h]
    constructor
    · rintro ⟨y, hy⟩
      by_cases hyz : y = z
      · subst hyz; rw [vector_set_self] at hy; exact ⟨y, hc.1 hy⟩
      · rw [vector_set_other _ _ _ _ hyz] at hy; exact ⟨y, hy⟩
    · rintro ⟨y, hy⟩
      by_cases hyz : y = z
      · subst hyz; exact ⟨y, by rw [vector_set_self]; exact hc.2 hy⟩
      · exact ⟨y, by rw [vector_set_other _ _ _ _ hyz]; exact hy⟩
  simp only [State.setZone, State.setZones, hline]

/-! ### Resolution -/

/-- Latches are held back exactly while a stop cause is present. -/
theorem State.latchesHeld_eq (s : State) : s.latchesHeld = s.stopCause := rfl

/-- The SILENT cause is the one the rule names (R8, R94). -/
theorem silentCause_iff (bank : Bank) (limits : Vector (Option LimitEntry) 6) (z : Fin 8) :
    silentCause bank limits z = true ↔ SilentCause bank limits z := by
  simp only [silentCause, List.any_eq_true, List.mem_finRange, true_and, SilentCause]
  refine exists_congr fun b => ?_
  cases h : limits[b] with
  | none => simp
  | some e => simp [contributesTo, Option.isSome_iff_ne_none, and_assoc]

/-- A zone that enters a silencing state, or already holds it. -/
theorem silenced_of (maximum : Nat) (c : Controller) (state : ZoneState) :
    Silenced maximum c state (if c.state = state then c else c.silence state maximum) := by
  refine ⟨fun h => if_pos h, fun h => ?_⟩
  rw [if_neg h, Controller.silence]
  by_cases ho : state = .off
  · subst ho; simp
  · simp [ho]

/-- Resolving a zone does what the rules say (R94 to R97). -/
theorem resolveZone_resolved (bank : Bank) (stop : Bool) (limits : Vector (Option LimitEntry) 6) (z : Fin 8)
    (c : Controller) : Resolved bank stop limits z c (resolveZone bank stop limits z c) := by
  have hs := silentCause_iff bank limits z
  unfold Resolved
  dsimp only
  refine ⟨fun h1 => ?_, fun h1 h2 => ?_, fun h1 h2 => ⟨fun h3 => ?_, fun h3 h4 => ?_, fun h3 h4 h5 => ?_,
    fun h3 h4 h5 => ?_⟩⟩
  · simp only [resolveZone, silencingCause, h1, Bool.not_false, if_true]
    exact silenced_of _ _ _
  · simp only [resolveZone, silencingCause, h1, h2, Bool.not_true, Bool.false_eq_true, if_false, if_true]
    exact silenced_of _ _ _
  · simp only [resolveZone, silencingCause, h1, h2, h3, Bool.not_true, Bool.false_eq_true, if_false, if_true]
    exact silenced_of _ _ _
  · simp only [resolveZone, silencingCause, h1, h2, h3, h4, Bool.not_true, Bool.false_eq_true, if_false, if_true]
    exact silenced_of _ _ _
  · simp only [resolveZone, silencingCause, h1, h2, h3, h4, hs.2 h5, Bool.not_true, Bool.false_eq_true, if_false,
      if_true]
    exact silenced_of _ _ _
  · have h6 : silentCause bank limits z = false := by rw [← Bool.not_eq_true, hs]; exact h5
    simp only [resolveZone, silencingCause, h1, h2, h3, h4, h6, Bool.not_true, Bool.false_eq_true, if_false]
    exact ⟨fun h => by simp [h], fun h => by simp [h, h3, h4, Controller.release]⟩

end Sys2Proof.Machine
end

