-- ==== Sys2Proof/Laws/Accounts.lean ====
section
/-! SUPPORT. The close of a minute does what the rules say of the accounts, the latches, the alerts and the reports. -/

namespace Sys2Proof.Machine

/-- The report entry of a closing account is the one the rules give (R81 to R83, R86). -/
theorem closedEntry_eq (s : State) (isPartial : Bool) (b : Fin 6) (a : Account) :
    closedEntry s isPartial b a = closingEntry s isPartial b a := by
  have hu : ((s.be.estimators[b]).bind (·.figures)).any (·.unwatched)
      = match s.be.estimators[b] with
        | some ⟨_, _, some f, _⟩ => f.unwatched
        | _ => false := by
    cases s.be.estimators[b] with
    | none => rfl
    | some e => obtain ⟨x, y, f, r⟩ := e; cases f <;> rfl
  obtain ⟨count, full, lf, startFull, startLf, segment, ring⟩ := a
  simp only [closedEntry, closingEntry, hu]
  cases startFull <;> cases startLf <;> rfl

/-- The marks of a close are those of the closed entry. -/
theorem closingMarks_eq {s : State} {b : Fin 6} {a : Account} (h : s.ea.accounts[b] = some a) (isPartial : Bool) :
    closingMarks s b = (closingEntry s isPartial b a).entry.marks := by
  rw [← closedEntry_eq, closingMarks, h]
  rfl

/-- The breaches that a set of marks holds, each with its detail. -/
theorem breachDetails_map (m : BreachMarks) (f : Word16 → Alert) :
    (breachDetails m).map (fun d => f (natWord d))
      = ([(m.minuteFull, 1), (m.minuteLf, 2), (m.runningFull, 3), (m.runningLf, 4)].filter (·.1)).map
          fun (x : Bool × Word16) => f x.2 := by
  obtain ⟨a, b, c, d⟩ := m
  cases a <;> cases b <;> cases c <;> cases d <;> rfl

/-- The BREACH alerts of a close are those the rules give (R84, R85). -/
theorem State.breachAlerts_eq (s : State) : s.breachAlerts = if s.stopCause then [] else closingAlerts s := by
  rw [State.breachAlerts, s.latchesHeld_eq]
  congr 1
  unfold closingAlerts
  congr 1
  funext b
  unfold boundaryBreaches
  cases h : s.ea.accounts[b] with
  | none => rfl
  | some a =>
    dsimp only
    rw [closingMarks_eq h false]
    have hb : breachUrgent s.ps.working b a.startSegment
        = match a.startSegment with
          | none => true
          | some i => (segmentItem (boundaryPage s.ps.working b) i).kind == 1 := by
      cases a.startSegment <;> rfl
    rw [hb]
    exact breachDetails_map _ fun d => { kind := .breach, urgent := _, subject := some b.val, minute := s.stamp, detail := d }

/-- The close of a minute touches EA, the alert queue and the report queue alone. -/
theorem State.closeMinute_keeps (s : State) (isPartial : Bool) :
    s.closeMinute isPartial
      = { s with
          ea := (s.closeMinute isPartial).ea
          mu := { s.mu with
            alerts := (s.closeMinute isPartial).mu.alerts, alertsLost := (s.closeMinute isPartial).mu.alertsLost
            reports := (s.closeMinute isPartial).mu.reports
            reportsLost := (s.closeMinute isPartial).mu.reportsLost } } := by
  rw [State.closeMinute, State.raiseAlerts_eq]
  rfl

/-- EA after the close of a minute is what the close of its accounts leaves. -/
theorem State.closeMinute_ea (s : State) (isPartial : Bool) :
    (s.closeMinute isPartial).ea = (s.closeAccounts isPartial).ea := by
  rw [State.closeMinute, State.raiseAlerts_eq]
  rfl

/-- The close of a minute does what the rules say (R81 to R86). -/
theorem State.minuteClosed_closeMinute (s : State) (isPartial : Bool) :
    s.MinuteClosed (s.closeMinute isPartial) isPartial := by
  have hea := s.closeMinute_ea isPartial
  refine ⟨fun b => ⟨fun h => ?_, fun a h => ?_, fun h => ?_⟩, ?_, ?_, ?_⟩
  · simp [hea, State.closeAccounts, Fin.getElem_fin] at h ⊢; exact h
  · refine ⟨a.close (closedEntry s isPartial b a).entry, ?_, rfl, rfl, rfl, ?_, ?_⟩
    · simp only [hea, State.closeAccounts, Fin.getElem_fin, Vector.getElem_ofFn] at h ⊢
      rw [h]; rfl
    · rw [closedEntry_eq]; rfl
    · have hm := closingMarks_eq h isPartial
      have hl : (s.closeMinute isPartial).ea.latches[b]
          = if s.stopCause then s.ea.latches[b] else (s.ea.latches[b]).or (closingMarks s b) := by
        rw [hea]
        simp only [State.closeAccounts, Fin.getElem_fin, Vector.getElem_ofFn, s.latchesHeld_eq]
        rfl
      rw [hl, hm]
      rfl
  · have hm : closingMarks s b = BreachMarks.clear := by rw [closingMarks, h]
    simp only [hea, State.closeAccounts, Fin.getElem_fin, Vector.getElem_ofFn] at h hm ⊢
    rw [hm]
    simp [BreachMarks.or, BreachMarks.clear]
  · refine State.alertsRaised_of (u := s.closeAccounts isPartial) ?_ ?_ rfl rfl
    · rw [State.closeMinute, s.breachAlerts_eq]; rfl
    · rw [State.closeMinute, s.breachAlerts_eq]; rfl
  · have h : (s.closeMinute isPartial).mu.reports = pushNewest 4 s.mu.reports (s.closingReport isPartial) := by
      rw [State.closeMinute, State.raiseAlerts_eq]; rfl
    have he : (fun b => (s.ea.accounts[b]).map (closedEntry s isPartial b))
        = fun b : Fin 6 => (s.ea.accounts[b]).map (closingEntry s isPartial b) := by
      funext b
      congr 1
      funext a
      exact closedEntry_eq s isPartial b a
    rw [h, State.closingReport, he]
  · rw [State.closeMinute, State.raiseAlerts_eq]; rfl

end Sys2Proof.Machine
end

