-- ==== Sys2Proof/Laws/Plan.lean ====
section
/-! SUPPORT. Pages and banks: what a write of consecutive slots does to each slot, and what a stopped operation leaves
in each. -/

namespace Sys2Proof.Machine

/-- A slot outside the written ones is unchanged. -/
theorem writeConsecutive_other (values : List Slot) :
    ∀ (page : Page) (first : Nat) (j : Fin 24), (∀ i, i < values.length → (first + i) % 24 ≠ j.val) →
      (writeConsecutive page first values)[j] = page[j] := by
  induction values with
  | nil => intro page first j _; rfl
  | cons v rest ih =>
    intro page first j h
    unfold writeConsecutive
    rw [ih]
    · have := h 0 (by simp)
      simp only [Fin.getElem_fin]
      rw [Vector.getElem_set_ne]
      simpa using this
    · intro i hi
      have := h (i + 1) (by simp; omega)
      rw [show first + 1 + i = first + (i + 1) by omega]; exact this

/-- The written slots hold the values, for no more values than a page has slots. -/
theorem writeConsecutive_written (values : List Slot) :
    ∀ (page : Page) (first i : Nat) (v : Slot), values.length ≤ 24 → values[i]? = some v →
      (writeConsecutive page first values)[(first + i) % 24]? = some v := by
  induction values with
  | nil => intro page first i v _ h; simp at h
  | cons x rest ih =>
    intro page first i v hl h
    have hl' : rest.length ≤ 23 := by simp at hl; omega
    unfold writeConsecutive
    cases i with
    | zero =>
      simp at h; subst h
      have hlt : (first + 0) % 24 < 24 := Nat.mod_lt _ (by decide)
      have := writeConsecutive_other rest (page.set (first % 24) x (Nat.mod_lt _ (by decide))) (first + 1)
        ⟨(first + 0) % 24, hlt⟩ (by intro i hi; simp; omega)
      rw [Vector.getElem?_eq_getElem hlt]
      simp only [Fin.getElem_fin] at this
      rw [this]; simp
    | succ i =>
      have := ih (page.set (first % 24) x (Nat.mod_lt _ (by decide))) (first + 1) i v (by omega) (by simpa using h)
      rw [show first + 1 + i = first + (i + 1) by omega] at this; exact this

/-- A slot of a bank whose writing was stopped is the old one or the new one, whichever way the free value falls. -/
theorem bankSlot_mixBank (stop : Nat) (old new : Bank) (p i : Nat) :
    bankSlot (mixBank stop old new) p i = bankSlot old p i
    ∨ bankSlot (mixBank stop old new) p i = bankSlot new p i := by
  unfold bankSlot mixBank
  by_cases hp : p < 11
  · simp only [hp, Vector.getElem?_eq_getElem, Option.getD_some, Vector.getElem_ofFn]
    unfold slotAt mixPage
    by_cases hi : i < 24
    · simp only [hi, Vector.getElem?_eq_getElem, Option.getD_some, Vector.getElem_ofFn]
      by_cases hc : Config.slotWritten stop p i = true <;> simp [hc]
    · simp [show 24 ≤ i by omega]
  · left; simp [show 11 ≤ p by omega]

/-- The retained bank after an operation is stopped: only a RETAIN has touched it. -/
theorem stoppedBanks_retained (stop : Nat) (ps : Ps) (kind : OpKind) (p i : Nat) :
    bankSlot (stoppedBanks stop ps kind).retained p i = bankSlot ps.retained p i
    ∨ (kind = .retaining ∧ bankSlot (stoppedBanks stop ps kind).retained p i = bankSlot ps.working p i) := by
  cases kind <;> simp [stoppedBanks]
  · cases ps.staging <;> simp
  · exact bankSlot_mixBank _ _ _ _ _

/-- The working bank is never the destination of an operation. -/
theorem stoppedBanks_working (stop : Nat) (ps : Ps) (kind : OpKind) :
    (stoppedBanks stop ps kind).working = ps.working := by
  cases kind <;> simp [stoppedBanks]
  cases ps.staging <;> simp

end Sys2Proof.Machine
end

