-- ==== Sys2Proof/Laws/Checks.lean ====
section
/-! SUPPORT. The checks of a plan and the lock comparison: each computed report is the one that the rules name. -/

namespace Sys2Proof.Machine

/-! ### The report of a list of findings -/

/-- The order in which findings are reported: the lower slot, and at one slot the lower code (R22). -/
def Earlier (f g : Nat × Nat) : Prop := f.1 < g.1 ∨ (f.1 = g.1 ∧ f.2 ≤ g.2)

theorem lowestFinding_go (fs : List (Nat × Nat)) (b : Nat × Nat) :
    ∃ g, fs.foldl
        (fun best f =>
          match best with
          | none => some f
          | some b => if f.1 < b.1 ∨ (f.1 = b.1 ∧ f.2 < b.2) then some f else some b) (some b) = some g
      ∧ g ∈ b :: fs ∧ ∀ h ∈ b :: fs, Earlier g h := by
  induction fs generalizing b with
  | nil => exact ⟨b, rfl, by simp, by simp [Earlier]⟩
  | cons x xs ih =>
    rw [List.foldl_cons]
    dsimp only
    split
    · rename_i hx
      obtain ⟨g, h1, h2, h3⟩ := ih x
      refine ⟨g, h1, by simp at h2 ⊢; tauto, fun h hh => ?_⟩
      rcases List.mem_cons.1 hh with rfl | hh
      · have := h3 x (by simp)
        simp only [Earlier] at this ⊢
        omega
      · exact h3 h hh
    · rename_i hx
      obtain ⟨g, h1, h2, h3⟩ := ih b
      refine ⟨g, h1, by simp at h2 ⊢; tauto, fun h hh => ?_⟩
      rcases List.mem_cons.1 hh with rfl | hh
      · exact h3 h (by simp)
      · rcases List.mem_cons.1 hh with rfl | hh
        · have := h3 b (by simp)
          simp only [Earlier] at this ⊢
          omega
        · exact h3 h (by simp [hh])

/-- No finding, no report. -/
theorem lowestFinding_none (fs : List (Nat × Nat)) : lowestFinding fs = none ↔ fs = [] := by
  cases fs with
  | nil => simp [lowestFinding]
  | cons x xs =>
    obtain ⟨g, h, -⟩ := lowestFinding_go xs x
    have : lowestFinding (x :: xs) = some g := h
    simp [this]

/-- The report is the earliest finding. -/
theorem lowestFinding_some (fs : List (Nat × Nat)) (g : Nat × Nat) :
    lowestFinding fs = some g ↔ g ∈ fs ∧ ∀ h ∈ fs, Earlier g h := by
  cases fs with
  | nil => simp [lowestFinding]
  | cons x xs =>
    obtain ⟨g', h, h2, h3⟩ := lowestFinding_go xs x
    have he : lowestFinding (x :: xs) = some g' := h
    rw [he, Option.some.injEq]
    constructor
    · rintro rfl; exact ⟨h2, h3⟩
    · rintro ⟨h4, h5⟩
      have h6 := h3 g h4
      have h7 := h5 g' h2
      simp only [Earlier] at h6 h7
      exact Prod.ext (by omega) (by omega)

/-! ### The findings of a page -/

theorem mem_failIf (bad : Bool) (slot code : Nat) (f : Nat × Nat) :
    f ∈ failIf bad slot code ↔ bad = true ∧ f = (slot, code) := by
  cases bad <;> simp [failIf]

set_option synthInstance.maxSize 2000 in
theorem namedBits_bit : ∀ p < 11, ∀ i < 24, ∀ k < 32, (namedBits p i).testBit k = true ↔ NamedBit p i k := by
  unfold NamedBit
  decide +kernel

set_option synthInstance.maxSize 2000 in
theorem licensedBits_bit : ∀ p < 11, ∀ i < 24, ∀ k < 32, (licensedBits p i).testBit k = true ↔ LicensedBit p i k := by
  unfold LicensedBit
  decide +kernel

/-- Some bit of a slot lies outside a mask. -/
theorem or_ne_mask (v : Slot) (mask : Nat) :
    (v.toNat ||| mask ≠ mask) ↔ ∃ k < 32, v.getLsbD k = true ∧ ¬ mask.testBit k = true := by
  constructor
  · intro h
    by_contra hc
    push Not at hc
    apply h
    apply Nat.eq_of_testBit_eq
    intro k
    rw [Nat.testBit_or]
    by_cases hv : v.toNat.testBit k = true
    · have hk : k < 32 := by
        by_contra hk
        have : v.toNat < 2 ^ k := lt_of_lt_of_le v.isLt (Nat.pow_le_pow_right (by decide) (by omega))
        rw [Nat.testBit_lt_two_pow this] at hv
        cases hv
      rw [hv, hc k hk hv]; rfl
    · simp at hv; rw [hv]; simp
  · rintro ⟨k, hk, hv, hm⟩ h
    apply hm
    rw [← h, Nat.testBit_or]
    have : v.toNat.testBit k = true := hv
    simp [this]

theorem mem_unusedFindings {p : Nat} (hp : p < 11) (page : Page) (slot code : Nat) :
    (slot, code) ∈ unusedFindings p page ↔ code = 2 ∧ UnusedFault p page slot := by
  simp only [unusedFindings, List.mem_flatMap, List.mem_range, mem_failIf, bne_iff_ne, Prod.mk.injEq, or_ne_mask,
    UnusedFault, cUnused]
  constructor
  · rintro ⟨i, hi, ⟨k, hk, h1, h2⟩, rfl, rfl⟩
    exact ⟨rfl, hi, k, hk, h1, fun h => h2 ((namedBits_bit p hp slot hi k hk).2 h)⟩
  · rintro ⟨rfl, hi, k, hk, h1, h2⟩
    exact ⟨slot, hi, ⟨k, hk, h1, fun h => h2 ((namedBits_bit p hp slot hi k hk).1 h)⟩, rfl, rfl⟩

theorem isBlankPage_iff (page : Page) : isBlankPage page = true ↔ page = blankPage := by simp [isBlankPage]

/-- A finding is placed at its slot with its code. -/
theorem placed_iff {bad slot code : Prop} : bad ∧ slot ∧ code ↔ code ∧ slot ∧ bad :=
  ⟨fun ⟨h, hs, hc⟩ => ⟨hc, hs, h⟩, fun ⟨hc, hs, h⟩ => ⟨h, hs, hc⟩⟩

theorem mem_venueFindings (page : Page) (slot code : Nat) :
    (slot, code) ∈ venueFindings page ↔ VenueFault page slot code := by
  have h0 : fieldOf (slotAt page 0) 0 16 < 65536 := Nat.mod_lt _ (by decide)
  unfold venueFindings VenueFault
  by_cases hb : page = blankPage
  · simp [hb, isBlankPage]
  · have : isBlankPage page = false := by simpa [isBlankPage] using hb
    simp only [this, Bool.false_eq_true, if_false, List.mem_flatMap, mem_failIf, outside, Bool.or_eq_true,
      decide_eq_true_eq, Prod.mk.injEq, cRange]
    constructor
    · rintro ⟨⟨i, low, high⟩, hm, h, rfl, rfl⟩
      dsimp only at h ⊢
      refine ⟨rfl, hb, low, high, ?_, by omega⟩
      rw [venueRanges, List.mem_cons] at hm
      refine hm.resolve_left fun he => ?_
      cases he
      omega
    · rintro ⟨rfl, -, low, high, hm, hn⟩
      exact ⟨(slot, low, high), List.mem_cons_of_mem _ hm, by dsimp only; omega, rfl, rfl⟩

/-- The bits of a slot's field, read one field within another. -/
theorem fieldOf_field (v : Slot) (lo len lo' len' : Nat) (h : lo' + len' ≤ len) :
    fieldOf v lo len / 2 ^ lo' % 2 ^ len' = fieldOf v (lo + lo') len' := by
  apply Nat.eq_of_testBit_eq
  intro k
  simp only [fieldOf, Nat.testBit_mod_two_pow, Nat.testBit_div_two_pow, Nat.testBit_shiftRight]
  by_cases hk : k < len'
  · simp [hk, show lo + (k + lo') = lo + lo' + k by omega,
      show k + lo' < len by omega]
  · simp [hk]

theorem fieldOf_lt (v : Slot) (lo len : Nat) : fieldOf v lo len < 2 ^ len := Nat.mod_lt _ (Nat.two_pow_pos _)

theorem mem_zonesFindings (page : Page) (slot code : Nat) :
    (slot, code) ∈ zonesFindings page ↔ ZonesFault page slot code := by
  have bit (i lo : Nat) : fieldOf (slotAt page i) lo 1 = 0 ∨ fieldOf (slotAt page i) lo 1 = 1 := by
    have := fieldOf_lt (slotAt page i) lo 1
    omega
  have record (i : Nat) :
      (!isEmptyRecord (zoneItemOf (slotAt page i)) && zoneOutOfRange (zoneItemOf (slotAt page i))) = true
      ↔ ¬ (fieldOf (slotAt page i) 0 1 = 0 ∧ fieldOf (slotAt page i) 1 1 = 0 ∧ fieldOf (slotAt page i) 2 10 = 0
            ∧ fieldOf (slotAt page i) 12 4 = 0 ∧ fieldOf (slotAt page i) 16 8 = 0 ∧ fieldOf (slotAt page i) 31 1 = 0)
          ∧ (fieldOf (slotAt page i) 2 10 < 60 ∨ 600 < fieldOf (slotAt page i) 2 10
              ∨ fieldOf (slotAt page i) 12 4 < 1 ∨ 8 < fieldOf (slotAt page i) 12 4
              ∨ 200 < fieldOf (slotAt page i) 16 8
              ∨ (fieldOf (slotAt page i) 31 1 = 0 ∧ fieldOf (slotAt page i) 16 8 ≠ 0)) := by
    rcases bit i 0 with h0 | h0 <;> rcases bit i 1 with h1 | h1 <;> rcases bit i 31 with h2 | h2 <;>
      simp [isEmptyRecord, zoneOutOfRange, zoneItemOf, outside, h0, h1, h2, or_assoc]
  have entry (n : Nat) : entryOutOfRange (channelEntry page n) = true
      ↔ fieldOf (slotAt page (8 + n / 4)) (8 * (n % 4) + 4) 1 = 0
        ∧ fieldOf (slotAt page (8 + n / 4)) (8 * (n % 4)) 4 ≠ 0 := by
    have h1 := fieldOf_field (slotAt page (8 + n / 4)) (8 * (n % 4)) 8 4 1 (by omega)
    have h2 := fieldOf_field (slotAt page (8 + n / 4)) (8 * (n % 4)) 8 0 4 (by omega)
    rw [show (2 : Nat) ^ 4 = 16 from rfl, show (2 : Nat) ^ 1 = 2 from rfl] at h1
    rw [show (2 : Nat) ^ 4 = 16 from rfl, Nat.pow_zero, Nat.div_one, Nat.add_zero] at h2
    simp only [entryOutOfRange, channelEntry, h1, h2, Bool.and_eq_true, beq_iff_eq, bne_iff_ne]
  simp only [zonesFindings, ZonesFault, List.mem_append, List.mem_flatMap, List.mem_range, mem_failIf, record, entry,
    Prod.mk.injEq, cRange]
  constructor
  · rintro (⟨z, hz, h, rfl, rfl⟩ | ⟨n, hn, h, rfl, rfl⟩)
    · exact ⟨rfl, Or.inl ⟨hz, h⟩⟩
    · exact ⟨rfl, Or.inr ⟨by omega, by omega, n % 4, by omega, h⟩⟩
  · rintro ⟨rfl, ⟨hz, h⟩ | ⟨h8, h12, j, hj, h⟩⟩
    · exact Or.inl ⟨slot, hz, h, rfl, rfl⟩
    · refine Or.inr ⟨4 * (slot - 8) + j, by omega, ?_, by omega, rfl⟩
      rw [show 8 + (4 * (slot - 8) + j) / 4 = slot by omega, show (4 * (slot - 8) + j) % 4 = j by omega]
      exact h

theorem mem_segmentFindings (page : Page) (i slot code : Nat) :
    (slot, code) ∈ segmentFindings page i ↔ SegmentFault page i slot code := by
  unfold segmentFindings SegmentFault
  generalize segmentItem page i = seg
  generalize (segmentItem page (i - 1)).start = before
  have curfew : (slot, code) ∈ (if seg.kind = curfewKind then
        if seg.full ≠ silentCode then [(segmentSlot i 18, cCurfewLimit)]
        else failIf (seg.lf != silentCode) (segmentSlot i 29) cCurfewLimit
      else []) ↔ code = 6 ∧ seg.kind = 2 ∧ ((slot = 2 + (40 * i + 18) / 32 ∧ seg.full ≠ 2047)
        ∨ (slot = 2 + (40 * i + 29) / 32 ∧ seg.full = 2047 ∧ seg.lf ≠ 2047)) := by
    simp only [curfewKind, silentCode, cCurfewLimit, segmentSlot]
    by_cases hk : seg.kind = 2
    · by_cases hf : seg.full = 2047
      · simp [hk, hf, mem_failIf]; tauto
      · simp [hk, hf]; tauto
    · simp [hk]
  simp only [List.mem_append, mem_failIf, Prod.mk.injEq, limitOutOfRange, segmentSlot, cRange, cSegmentOrder,
    silentCode, Bool.and_eq_true, decide_eq_true_eq, bne_iff_ne]
  rw [← curfew]
  simp only [or_assoc, and_or_left]
  exact or_congr placed_iff <| or_congr placed_iff <| or_congr placed_iff <| or_congr placed_iff <|
    or_congr placed_iff <| or_congr placed_iff Iff.rfl

theorem mem_spareSegmentFindings (page : Page) (i slot code : Nat) :
    (slot, code) ∈ spareSegmentFindings page i ↔ code = 2 ∧ SpareFault page i slot := by
  simp only [spareSegmentFindings, SpareFault, List.mem_append, mem_failIf, Prod.mk.injEq, segmentSlot, cUnused,
    bne_iff_ne]
  tauto

theorem mem_boundaryFindings (page : Page) (slot code : Nat) :
    (slot, code) ∈ boundaryFindings page ↔ BoundaryFault page slot code := by
  have e1 : fieldOf (slotAt page 0) 16 5 = (boundaryItemOf page).segmentCount := rfl
  have e2 : fieldOf (slotAt page 0) 8 8 = (boundaryItemOf page).staleMargin := rfl
  have e3 : fieldOf (slotAt page 1) 0 11 = (boundaryItemOf page).ceilingFull := rfl
  have e4 : fieldOf (slotAt page 1) 16 11 = (boundaryItemOf page).ceilingLf := rfl
  have e5 : fieldOf (slotAt page 0) 0 1 = 1 ↔ (boundaryItemOf page).enabled = true := by simp [boundaryItemOf]
  unfold boundaryFindings BoundaryFault
  simp only [e1, e2, e3, e4, e5]
  generalize boundaryItemOf page = item
  by_cases hc : 16 < item.segmentCount
  · simp [hc, cRange, show ¬ item.segmentCount ≤ 16 by omega]
    tauto
  · have hc' : item.segmentCount ≤ 16 := by omega
    have segs : (∃ a < 16, (slot, code) ∈
          if a < item.segmentCount then segmentFindings page a else spareSegmentFindings page a)
        ↔ (∃ i < item.segmentCount, SegmentFault page i slot code)
          ∨ (code = 2 ∧ ∃ i < 16, item.segmentCount ≤ i ∧ SpareFault page i slot) := by
      constructor
      · rintro ⟨a, ha, h⟩
        split at h
        · exact Or.inl ⟨a, by assumption, (mem_segmentFindings page a slot code).1 h⟩
        · have := (mem_spareSegmentFindings page a slot code).1 h
          exact Or.inr ⟨this.1, a, ha, by omega, this.2⟩
      · rintro (⟨a, ha, h⟩ | ⟨rfl, a, ha, hi, h⟩)
        · exact ⟨a, by omega, by rw [if_pos ha]; exact (mem_segmentFindings page a slot code).2 h⟩
        · exact ⟨a, ha, by
            rw [if_neg (by omega)]; exact (mem_spareSegmentFindings page a slot 2).2 ⟨rfl, h⟩⟩
    simp only [hc, if_false, hc', true_and, and_false, false_or, List.mem_append, mem_failIf, Prod.mk.injEq,
      List.mem_flatMap, List.mem_range, cRange, cNoSegment, cFirstStart, Bool.and_eq_true, decide_eq_true_eq,
      beq_iff_eq, bne_iff_ne, segs, show segmentSlot 0 0 = 2 from rfl]
    simp only [or_assoc, and_or_left]
    exact or_congr placed_iff <| or_congr placed_iff <| or_congr placed_iff <| or_congr placed_iff <|
      or_congr (placed_iff.trans (by simp only [and_assoc])) Iff.rfl

theorem mem_couplingsFindings (page : Page) (slot code : Nat) :
    (slot, code) ∈ couplingsFindings page ↔ CouplingsFault page slot code := by
  have half (v : Slot) (lo : Nat) : couplingOutOfRange (fieldOf v lo 16) = true
      ↔ (2 ^ 15 ≤ fieldOf v lo 16 ∧ 1600 < fieldOf v lo 16 % 2 ^ 11)
        ∨ (fieldOf v lo 16 < 2 ^ 15 ∧ fieldOf v lo 16 ≠ 0) := by
    have := fieldOf_lt v lo 16
    unfold couplingOutOfRange
    split <;> simp <;> omega
  simp only [couplingsFindings, CouplingsFault, List.mem_flatMap, List.mem_range, mem_failIf, Bool.or_eq_true, half,
    Prod.mk.injEq, cRange]
  constructor
  · rintro ⟨i, hi, h | h, rfl, rfl⟩
    · exact ⟨rfl, hi, 0, by decide, h⟩
    · exact ⟨rfl, hi, 1, by decide, h⟩
  · rintro ⟨rfl, hi, h, hh, hf⟩
    refine ⟨slot, hi, ?_, rfl, rfl⟩
    rcases (show h = 0 ∨ h = 1 by omega) with rfl | rfl
    · exact Or.inl hf
    · exact Or.inr hf

theorem mem_reductionFindings (page : Page) (slot code : Nat) :
    (slot, code) ∈ reductionFindings page ↔ ReductionFault page slot code := by
  unfold reductionFindings ReductionFault
  by_cases hb : page = blankPage
  · simp [hb, isBlankPage]
  · have : isBlankPage page = false := by simpa [isBlankPage] using hb
    simp only [this, Bool.false_eq_true, if_false, List.mem_flatMap, List.mem_range, List.mem_append, mem_failIf,
      outside, Bool.or_eq_true, Bool.and_eq_true, decide_eq_true_eq, Prod.mk.injEq, cRange, cStepOrder, hb, ne_eq,
      not_false_eq_true, true_and]
    constructor
    · rintro ⟨i, hi, ⟨h, rfl, rfl⟩ | ⟨h, rfl, rfl⟩⟩ <;> tauto
    · rintro ⟨hi, ⟨rfl, h⟩ | ⟨rfl, h⟩⟩ <;> exact ⟨slot, hi, by tauto⟩

theorem mem_monitorsFindings (page : Page) (slot code : Nat) :
    (slot, code) ∈ monitorsFindings page ↔ MonitorsFault page slot code := by
  have record (v : Slot) : monitorOutOfRange (fieldOf v 0 4) = true
      ↔ (8 ≤ fieldOf v 0 4 ∧ 5 < fieldOf v 0 4 - 8) ∨ (fieldOf v 0 4 < 8 ∧ fieldOf v 0 4 ≠ 0) := by
    have := fieldOf_lt v 0 4
    unfold monitorOutOfRange
    split <;> simp <;> omega
  simp only [monitorsFindings, MonitorsFault, List.mem_flatMap, List.mem_range, mem_failIf, record, Prod.mk.injEq,
    cRange]
  constructor
  · rintro ⟨i, hi, h, rfl, rfl⟩; exact ⟨rfl, hi, h⟩
  · rintro ⟨rfl, hi, h⟩; exact ⟨slot, hi, h, rfl, rfl⟩

/-- The findings of a page are the failures that the rules name (R21, R22). -/
theorem mem_pageFindings {p : Nat} (hp : p < 11) (page : Page) (slot code : Nat) :
    (slot, code) ∈ pageFindings p page ↔ PageFault p page slot code := by
  unfold pageFindings PageFault
  rw [List.mem_append, mem_unusedFindings hp]
  by_cases h0 : p = 0
  · subst h0; simp [mem_venueFindings]; tauto
  · by_cases h1 : p = 1
    · subst h1; simp [mem_zonesFindings]; tauto
    · by_cases h7 : p ≤ 7
      · simp [h0, h1, h7, show 2 ≤ p by omega, show p ≠ 8 by omega, show p ≠ 9 by omega, show p ≠ 10 by omega,
          mem_boundaryFindings]
        tauto
      · by_cases h8 : p = 8
        · subst h8; simp [mem_couplingsFindings]; tauto
        · by_cases h9 : p = 9
          · subst h9; simp [mem_reductionFindings]; tauto
          · have h10 : p = 10 := by omega
            subst h10; simp [mem_monitorsFindings]; tauto

/-! ### The reports -/

/-- The page checks report nothing exactly when none fails. -/
theorem checkPage_none {p : Nat} (hp : p < 11) (page : Page) : checkPage p page = none ↔ PagePasses p page := by
  rw [checkPage, Option.map_eq_none_iff, lowestFinding_none]
  constructor
  · intro h slot code hf
    have := (mem_pageFindings hp page slot code).2 hf
    rw [h] at this; cases this
  · intro h
    cases hl : pageFindings p page with
    | nil => rfl
    | cons f fs =>
      exact absurd ((mem_pageFindings hp page f.1 f.2).1 (by rw [hl]; simp)) (h f.1 f.2)

/-- The page checks report the failure at the lowest slot, and there the one of the lowest code (R22). -/
theorem checkPage_some {p : Nat} (hp : p < 11) (page : Page) (f : CheckFailure) :
    checkPage p page = some f ↔ f.page = p ∧ PageReport p page f.slot f.code := by
  rw [checkPage, Option.map_eq_some_iff]
  simp only [lowestFinding_some]
  constructor
  · rintro ⟨g, ⟨h1, h2⟩, rfl⟩
    refine ⟨rfl, (mem_pageFindings hp page g.1 g.2).1 h1, fun slot code hf => ?_⟩
    exact h2 (slot, code) ((mem_pageFindings hp page slot code).2 hf)
  · rintro ⟨rfl, h1, h2⟩
    refine ⟨(f.slot, f.code), ⟨(mem_pageFindings hp page _ _).2 h1, fun g hg => ?_⟩, rfl⟩
    exact h2 g.1 g.2 ((mem_pageFindings hp page g.1 g.2).1 hg)

/-! ### A whole plan -/

/-- The first of a list of answers is that of an element before which none answers. -/
theorem findSome_some {α β : Type} (f : α → Option β) (y : β) (xs : List α) :
    xs.findSome? f = some y ↔ ∃ before x after, xs = before ++ x :: after ∧ f x = some y ∧ ∀ z ∈ before, f z = none := by
  induction xs with
  | nil => simp
  | cons x xs ih =>
    rw [List.findSome?_cons]
    cases hx : f x with
    | some y' =>
      constructor
      · intro h; cases h; exact ⟨[], x, xs, rfl, hx, by simp⟩
      · rintro ⟨before, x', after, he, h1, h2⟩
        cases before with
        | nil => simp at he; rw [he.1, h1] at hx; cases hx; rfl
        | cons b bs => simp at he; have := h2 b (by simp); rw [← he.1, hx] at this; cases this
    | none =>
      rw [ih]
      constructor
      · rintro ⟨before, x', after, rfl, h1, h2⟩
        exact ⟨x :: before, x', after, rfl, h1, by simpa [hx] using h2⟩
      · rintro ⟨before, x', after, he, h1, h2⟩
        cases before with
        | nil => simp at he; rw [he.1, h1] at hx; cases hx
        | cons b bs =>
          simp at he
          exact ⟨bs, x', after, he.2, h1, fun z hz => h2 z (by simp [hz])⟩

/-- In the list of all numbers below a bound, the elements before one are the smaller ones. -/
theorem finRange_split {n : Nat} (x : Fin n) :
    ∃ before after, List.finRange n = before ++ x :: after ∧ ∀ y, y ∈ before ↔ y < x := by
  obtain ⟨before, after, h⟩ := List.append_of_mem (List.mem_finRange x)
  refine ⟨before, after, h, fun y => ?_⟩
  have hs : (before ++ x :: after).Pairwise (· < ·) := h ▸ List.pairwise_lt_finRange n
  rw [List.pairwise_append] at hs
  constructor
  · intro hy; exact hs.2.2 y hy x (by simp)
  · intro hy
    have hm : y ∈ before ++ x :: after := h ▸ List.mem_finRange y
    rcases List.mem_append.1 hm with hm | hm
    · exact hm
    · rcases List.mem_cons.1 hm with rfl | hm
      · exact absurd hy (lt_irrefl _)
      · exact absurd ((List.pairwise_cons.1 hs.2.1).1 y hm) (not_lt.2 hy.le)

theorem finRange_findSome {n : Nat} {β : Type} (f : Fin n → Option β) (y : β) :
    (List.finRange n).findSome? f = some y ↔ ∃ x, f x = some y ∧ ∀ z, z < x → f z = none := by
  rw [findSome_some]
  constructor
  · rintro ⟨before, x, after, he, h1, h2⟩
    refine ⟨x, h1, fun z hz => ?_⟩
    have hs : (before ++ x :: after).Pairwise (· < ·) := he ▸ List.pairwise_lt_finRange n
    have hm : z ∈ before ++ x :: after := he ▸ List.mem_finRange z
    rcases List.mem_append.1 hm with hm | hm
    · exact h2 z hm
    · rcases List.mem_cons.1 hm with rfl | hm
      · exact absurd hz (lt_irrefl _)
      · exact absurd ((List.pairwise_cons.1 (List.pairwise_append.1 hs).2.1).1 z hm) (not_lt.2 hz.le)
  · rintro ⟨x, h1, h2⟩
    obtain ⟨before, after, he, hb⟩ := finRange_split x
    exact ⟨before, x, after, he, h1, fun z hz => h2 z ((hb z).1 hz)⟩

theorem finRange_findSome_none {n : Nat} {β : Type} (f : Fin n → Option β) :
    (List.finRange n).findSome? f = none ↔ ∀ x, f x = none := by
  simp [List.findSome?_eq_none_iff]

/-- Every page passes. -/
theorem checkPages_none (bank : Bank) : checkPages bank = none ↔ ∀ p : Fin 11, PagePasses p.val bank[p] := by
  rw [checkPages, finRange_findSome_none]
  exact forall_congr' fun p => checkPage_none p.isLt _

/-- The first page that fails gives the report (R22). -/
theorem checkPages_some (bank : Bank) (f : CheckFailure) :
    checkPages bank = some f ↔
      ∃ p : Fin 11, f.page = p.val ∧ PageReport p.val bank[p] f.slot f.code
        ∧ ∀ q : Fin 11, q.val < p.val → PagePasses q.val bank[q] := by
  rw [checkPages, finRange_findSome]
  refine exists_congr fun p => ?_
  rw [checkPage_some p.isLt, and_assoc]
  refine and_congr_right fun _ => and_congr_right fun _ => ?_
  exact forall_congr' fun q => imp_congr Iff.rfl (checkPage_none q.isLt _)

/-! ### The cross-page checks -/

/-- An answer is the one of the lowest rank among ranked failures, and there is none when nothing fails. -/
def FirstOf (P : Nat → CheckFailure → Prop) (o : Option CheckFailure) : Prop :=
  (o = none → ∀ r f, ¬ P r f) ∧ ∀ f, o = some f → ∃ r, P r f ∧ ∀ r' f', P r' f' → r ≤ r'

theorem FirstOf.or {P Q : Nat → CheckFailure → Prop} {a b : Option CheckFailure} (ha : FirstOf P a) (hb : FirstOf Q b)
    (h : ∀ r f r' f', P r f → Q r' f' → r ≤ r') : FirstOf (fun r f => P r f ∨ Q r f) (a.or b) := by
  cases a with
  | none =>
    have hn := ha.1 rfl
    refine ⟨fun he r f hf => hf.elim (hn r f) (hb.1 (by simpa using he) r f), fun f he => ?_⟩
    obtain ⟨r, h1, h2⟩ := hb.2 f (by simpa using he)
    exact ⟨r, Or.inr h1, fun r' f' hf => hf.elim (fun hp => absurd hp (hn r' f')) (h2 r' f')⟩
  | some x =>
    refine ⟨fun he => by simp at he, fun f he => ?_⟩
    obtain ⟨r, h1, h2⟩ := ha.2 f (by simpa using he)
    exact ⟨r, Or.inl h1, fun r' f' hf => hf.elim (h2 r' f') (h r f r' f' h1)⟩

theorem FirstOf.findSome {n : Nat} {P : Fin n → Nat → CheckFailure → Prop} {f : Fin n → Option CheckFailure}
    (hf : ∀ i, FirstOf (P i) (f i)) (h : ∀ i j r g r' g', i < j → P i r g → P j r' g' → r ≤ r') :
    FirstOf (fun r g => ∃ i, P i r g) ((List.finRange n).findSome? f) := by
  refine ⟨fun he r g hg => ?_, fun g he => ?_⟩
  · obtain ⟨i, hi⟩ := hg
    exact (hf i).1 ((finRange_findSome_none f).1 he i) r g hi
  · obtain ⟨i, h1, h2⟩ := (finRange_findSome f g).1 he
    obtain ⟨r, h3, h4⟩ := (hf i).2 g h1
    refine ⟨r, ⟨i, h3⟩, fun r' g' ⟨j, hj⟩ => ?_⟩
    rcases lt_trichotomy i j with hlt | rfl | hlt
    · exact h i j r g r' g' hlt h3 hj
    · exact h4 r' g' hj
    · exact absurd hj ((hf j).1 (h2 j hlt) r' g')

theorem range_findSome {β : Type} (n : Nat) (f : Nat → Option β) :
    (List.range n).findSome? f = (List.finRange n).findSome? fun i => f i.val := by
  rw [show List.range n = (List.finRange n).map Fin.val from (List.map_coe_finRange_eq_range (n := n)).symm,
    List.findSome?_map]
  rfl

/-- One question with one failure. -/
theorem FirstOf.single {c : Prop} [Decidable c] (rank : Nat) (g : CheckFailure) :
    FirstOf (fun r f => c ∧ r = rank ∧ f = g) (if c then some g else none) := by
  split
  · rename_i hc
    exact ⟨fun he => by simp at he, fun f he => ⟨rank, ⟨hc, rfl, by simpa using he.symm⟩,
      fun r' f' hf => hf.2.1 ▸ le_refl _⟩⟩
  · rename_i hc
    exact ⟨fun _ r f hf => hc hf.1, fun f he => by simp at he⟩

theorem FirstOf.congr {P Q : Nat → CheckFailure → Prop} {o : Option CheckFailure} (h : ∀ r f, P r f ↔ Q r f)
    (hp : FirstOf P o) : FirstOf Q o := by
  have : P = Q := by funext r f; exact propext (h r f)
  exact this ▸ hp

/-- The failures of the ceiling check of one boundary. -/
def CeilingFault (bank : Bank) (b : Fin 6) (r : Nat) (f : CheckFailure) : Prop :=
  ∃ i < (boundaryItem bank b).segmentCount,
    ((segmentItem (boundaryPage bank b) i).full ≠ 2047
        ∧ (boundaryItem bank b).ceilingFull < (segmentItem (boundaryPage bank b) i).full
        ∧ r = 64 * b.val + 2 * i ∧ f = ⟨2 + b.val, 2 + (40 * i + 18) / 32, 8⟩)
    ∨ ((segmentItem (boundaryPage bank b) i).lf ≠ 2047
        ∧ (boundaryItem bank b).ceilingLf < (segmentItem (boundaryPage bank b) i).lf
        ∧ r = 64 * b.val + 2 * i + 1 ∧ f = ⟨2 + b.val, 2 + (40 * i + 29) / 32, 8⟩)

theorem segmentCount_lt (bank : Bank) (b : Fin 6) : (boundaryItem bank b).segmentCount < 32 := fieldOf_lt _ _ _

theorem firstOf_ceiling (bank : Bank) (b : Fin 6) : FirstOf (CeilingFault bank b) (checkCeiling bank b) := by
  unfold checkCeiling
  dsimp only
  rw [range_findSome]
  have one (i : Nat) :
      FirstOf (fun r f => ((segmentItem (boundaryPage bank b) i).full ≠ 2047
          ∧ (boundaryItem bank b).ceilingFull < (segmentItem (boundaryPage bank b) i).full
          ∧ r = 64 * b.val + 2 * i ∧ f = ⟨2 + b.val, 2 + (40 * i + 18) / 32, 8⟩)
        ∨ ((segmentItem (boundaryPage bank b) i).lf ≠ 2047
          ∧ (boundaryItem bank b).ceilingLf < (segmentItem (boundaryPage bank b) i).lf
          ∧ r = 64 * b.val + 2 * i + 1 ∧ f = ⟨2 + b.val, 2 + (40 * i + 29) / 32, 8⟩))
      (if aboveCeiling (segmentItem (boundaryPage bank b) i).full (boundaryItem bank b).ceilingFull then
          some ⟨2 + b.val, segmentSlot i 18, cCeiling⟩
        else if aboveCeiling (segmentItem (boundaryPage bank b) i).lf (boundaryItem bank b).ceilingLf then
          some ⟨2 + b.val, segmentSlot i 29, cCeiling⟩
        else none) := by
    have h := (FirstOf.single (c := aboveCeiling (segmentItem (boundaryPage bank b) i).full
        (boundaryItem bank b).ceilingFull = true) (64 * b.val + 2 * i) ⟨2 + b.val, segmentSlot i 18, cCeiling⟩).or
      (FirstOf.single (c := aboveCeiling (segmentItem (boundaryPage bank b) i).lf
        (boundaryItem bank b).ceilingLf = true) (64 * b.val + 2 * i + 1) ⟨2 + b.val, segmentSlot i 29, cCeiling⟩)
      (by rintro r f r' f' ⟨-, rfl, -⟩ ⟨-, rfl, -⟩; omega)
    have e : ∀ (p q : Bool) (x y : CheckFailure),
        (if p = true then some x else if q = true then some y else none)
          = (if p = true then some x else none).or (if q = true then some y else none) := by
      intro p q x y; cases p <;> cases q <;> rfl
    rw [e]
    refine FirstOf.congr (fun r f => ?_) h
    simp only [aboveCeiling, Bool.and_eq_true, bne_iff_ne, decide_eq_true_eq, silentCode, segmentSlot, cCeiling,
      and_assoc]
  refine FirstOf.congr (fun r f => ?_)
    (FirstOf.findSome (f := fun i : Fin _ => _) (fun i => one i.val) ?_)
  · unfold CeilingFault
    constructor
    · rintro ⟨i, hi⟩; exact ⟨i.val, i.isLt, hi⟩
    · rintro ⟨i, hlt, hi⟩; exact ⟨⟨i, hlt⟩, hi⟩
  · rintro i j r g r' g' hij (⟨-, -, rfl, -⟩ | ⟨-, -, rfl, -⟩) (⟨-, -, rfl, -⟩ | ⟨-, -, rfl, -⟩) <;>
      (have : i.val < j.val := hij; omega)

theorem firstOf_monitor (bank : Bank) (m : Fin 12) :
    FirstOf (fun r f => (∃ b : Fin 6, monitorBoundary bank m = some b ∧ (boundaryItem bank b).enabled = false)
      ∧ r = 400 + m.val ∧ f = ⟨10, m.val, 9⟩) (checkMonitor bank m) := by
  unfold checkMonitor
  cases hm : monitorBoundary bank m with
  | none => exact ⟨fun _ r f hf => by simp at hf, fun f he => by simp at he⟩
  | some b =>
    dsimp only
    cases he : (boundaryItem bank b).enabled with
    | true =>
      refine ⟨fun _ r f hf => ?_, fun f h => by cases h⟩
      obtain ⟨⟨b', h1, h2⟩, -⟩ := hf
      cases h1; rw [he] at h2; cases h2
    | false =>
      refine ⟨fun h => (by cases h), fun f h => ?_⟩
      cases h
      exact ⟨400 + m.val, ⟨⟨b, rfl, he⟩, rfl, rfl⟩, fun r' f' hf => hf.2.1 ▸ le_refl _⟩

theorem firstOf_channel (bank : Bank) (n : Nat) :
    FirstOf (fun r f => (fieldOf (bankSlot bank 1 (8 + n / 4)) (8 * (n % 4) + 4) 1 = 1
        ∧ 8 ≤ fieldOf (bankSlot bank 1 (8 + n / 4)) (8 * (n % 4)) 4)
      ∧ r = 420 + n ∧ f = ⟨1, 8 + n / 4, 10⟩) (checkChannel bank n) := by
  have h1 := fieldOf_field (bankSlot bank 1 (8 + n / 4)) (8 * (n % 4)) 8 4 1 (by omega)
  have h2 := fieldOf_field (bankSlot bank 1 (8 + n / 4)) (8 * (n % 4)) 8 0 4 (by omega)
  rw [show (2 : Nat) ^ 4 = 16 from rfl, show (2 : Nat) ^ 1 = 2 from rfl] at h1
  rw [show (2 : Nat) ^ 4 = 16 from rfl, Nat.pow_zero, Nat.div_one, Nat.add_zero] at h2
  unfold checkChannel
  have e : channelEntry (bank[1]?.getD blankPage) n = fieldOf (bankSlot bank 1 (8 + n / 4)) (8 * (n % 4)) 8 := rfl
  dsimp only
  rw [e, h1, h2]
  exact FirstOf.single _ _

theorem plansAnything_iff (bank : Bank) : plansAnything bank = true ↔ EnablesSomething bank := by
  simp [plansAnything, EnablesSomething]

theorem firstOf_blank (bank : Bank) :
    FirstOf (fun r f => EnablesSomething bank
      ∧ ((bank[(0 : Fin 11)] = blankPage ∧ r = 440 ∧ f = ⟨0, 0, 11⟩)
        ∨ (bank[(9 : Fin 11)] = blankPage ∧ r = 441 ∧ f = ⟨9, 0, 11⟩))) (checkBlank bank) := by
  unfold checkBlank
  have e0 : bank[0]?.getD blankPage = bank[(0 : Fin 11)] := by simp
  have e9 : bank[9]?.getD blankPage = bank[(9 : Fin 11)] := by simp
  rw [e0, e9]
  by_cases he : plansAnything bank = true
  · have he' := (plansAnything_iff bank).1 he
    rw [if_pos he]
    have h := (FirstOf.single (c := isBlankPage bank[(0 : Fin 11)] = true) 440 ⟨0, 0, cBlankInUse⟩).or
      (FirstOf.single (c := isBlankPage bank[(9 : Fin 11)] = true) 441 ⟨9, 0, cBlankInUse⟩)
      (by rintro r f r' f' ⟨-, rfl, -⟩ ⟨-, rfl, -⟩; omega)
    have e : ∀ (p q : Bool) (x y : CheckFailure),
        (if p = true then some x else if q = true then some y else none)
          = (if p = true then some x else none).or (if q = true then some y else none) := by
      intro p q x y; cases p <;> cases q <;> rfl
    rw [e]
    refine FirstOf.congr (fun r f => ?_) h
    simp only [isBlankPage_iff, cBlankInUse, he', true_and]
  · rw [if_neg he]
    exact ⟨fun _ r f hf => he ((plansAnything_iff bank).2 hf.1), fun f h => by simp at h⟩

/-- The cross-page checks report the failure of the lowest rank (R22). -/
theorem firstOf_cross (bank : Bank) :
    FirstOf (fun r f => CrossFault bank r f.page f.slot f.code) (crossChecks bank) := by
  unfold crossChecks
  have ceil (r f) (h : ∃ b, CeilingFault bank b r f) : r < 400 := by
    obtain ⟨b, i, hi, h⟩ := h
    have := segmentCount_lt bank b
    rcases h with ⟨-, -, rfl, -⟩ | ⟨-, -, rfl, -⟩ <;> omega
  have h1 := FirstOf.findSome (f := checkCeiling bank) (firstOf_ceiling bank) (by
    rintro b b' r g r' g' hb ⟨i, hi, h⟩ ⟨j, hj, h'⟩
    have h1 := segmentCount_lt bank b
    have h2 : b.val < b'.val := hb
    rcases h with ⟨-, -, rfl, -⟩ | ⟨-, -, rfl, -⟩ <;> rcases h' with ⟨-, -, rfl, -⟩ | ⟨-, -, rfl, -⟩ <;> omega)
  have h2 := FirstOf.findSome (f := fun m : Fin 12 => checkMonitor bank m) (firstOf_monitor bank) (by
    rintro m m' r g r' g' hm ⟨-, rfl, -⟩ ⟨-, rfl, -⟩
    have : m.val < m'.val := hm
    omega)
  have h3 := FirstOf.findSome (n := 16) (f := fun n : Fin 16 => checkChannel bank n.val)
    (fun n => firstOf_channel bank n.val) (by
      rintro m m' r g r' g' hm ⟨-, rfl, -⟩ ⟨-, rfl, -⟩
      have : m.val < m'.val := hm
      omega)
  rw [← range_findSome] at h3
  have h := h1.or (h2.or (h3.or (firstOf_blank bank) (by
      rintro r f r' f' ⟨n, -, rfl, -⟩ ⟨-, ⟨-, rfl, -⟩ | ⟨-, rfl, -⟩⟩ <;> omega)) (by
      rintro r f r' f' ⟨n, -, rfl, -⟩ (⟨m, -, rfl, -⟩ | ⟨-, ⟨-, rfl, -⟩ | ⟨-, rfl, -⟩⟩) <;> omega)) (by
      intro r f r' f' hc hq
      have := ceil r f hc
      rcases hq with ⟨n, -, rfl, -⟩ | ⟨m, -, rfl, -⟩ | ⟨-, ⟨-, rfl, -⟩ | ⟨-, rfl, -⟩⟩ <;> omega)
  refine FirstOf.congr (fun r f => ?_) h
  obtain ⟨page, slot, code⟩ := f
  simp only [CrossFault, CeilingFault, CheckFailure.mk.injEq]
  constructor
  · rintro (⟨b, i, hi, ⟨h1, h2, rfl, rfl, rfl, rfl⟩ | ⟨h1, h2, rfl, rfl, rfl, rfl⟩⟩ | ⟨m, ⟨b, h1, h2⟩, rfl, rfl, rfl, rfl⟩
      | ⟨n, ⟨h1, h2⟩, rfl, rfl, rfl, rfl⟩ | ⟨he, ⟨h1, rfl, rfl, rfl, rfl⟩ | ⟨h1, rfl, rfl, rfl, rfl⟩⟩)
    · exact Or.inl ⟨rfl, b, i, hi, rfl, Or.inl ⟨rfl, rfl, h1, h2⟩⟩
    · exact Or.inl ⟨rfl, b, i, hi, rfl, Or.inr ⟨rfl, rfl, h1, h2⟩⟩
    · exact Or.inr (Or.inl ⟨rfl, rfl, m, b, rfl, rfl, h1, h2⟩)
    · exact Or.inr (Or.inr (Or.inl ⟨rfl, rfl, n.val, n.isLt, rfl, rfl, h1, h2⟩))
    · exact Or.inr (Or.inr (Or.inr ⟨rfl, rfl, he, Or.inl ⟨rfl, rfl, h1⟩⟩))
    · exact Or.inr (Or.inr (Or.inr ⟨rfl, rfl, he, Or.inr ⟨rfl, rfl, h1⟩⟩))
  · rintro (⟨rfl, b, i, hi, rfl, ⟨rfl, rfl, h1, h2⟩ | ⟨rfl, rfl, h1, h2⟩⟩ | ⟨rfl, rfl, m, b, rfl, rfl, h1, h2⟩
      | ⟨rfl, rfl, n, hn, rfl, rfl, h1, h2⟩ | ⟨rfl, rfl, he, ⟨rfl, rfl, h1⟩ | ⟨rfl, rfl, h1⟩⟩)
    · exact Or.inl ⟨b, i, hi, Or.inl ⟨h1, h2, rfl, rfl, rfl, rfl⟩⟩
    · exact Or.inl ⟨b, i, hi, Or.inr ⟨h1, h2, rfl, rfl, rfl, rfl⟩⟩
    · exact Or.inr (Or.inl ⟨m, ⟨b, h1, h2⟩, rfl, rfl, rfl, rfl⟩)
    · exact Or.inr (Or.inr (Or.inl ⟨⟨n, hn⟩, ⟨h1, h2⟩, rfl, rfl, rfl, rfl⟩))
    · exact Or.inr (Or.inr (Or.inr ⟨he, Or.inl ⟨h1, rfl, rfl, rfl, rfl⟩⟩))
    · exact Or.inr (Or.inr (Or.inr ⟨he, Or.inr ⟨h1, rfl, rfl, rfl, rfl⟩⟩))

/-- A rank names one failure. -/
theorem CrossFault.unique {bank : Bank} {r p s c p' s' c' : Nat} (h : CrossFault bank r p s c)
    (h' : CrossFault bank r p' s' c') : p = p' ∧ s = s' ∧ c = c' := by
  have hc := segmentCount_lt bank
  simp only [CrossFault] at h h'
  rcases h with ⟨rfl, b, i, hi, rfl, ⟨hr, rfl, -, -⟩ | ⟨hr, rfl, -, -⟩⟩ | ⟨rfl, rfl, m, b, hr, rfl, -, -⟩
      | ⟨rfl, rfl, n, hn, hr, rfl, -, -⟩ | ⟨rfl, rfl, -, ⟨hr, rfl, -⟩ | ⟨hr, rfl, -⟩⟩ <;>
    rcases h' with ⟨rfl, b', j, hj, rfl, ⟨hr', rfl, -, -⟩ | ⟨hr', rfl, -, -⟩⟩ | ⟨rfl, rfl, m', b', hr', rfl, -, -⟩
      | ⟨rfl, rfl, n', hn', hr', rfl, -, -⟩ | ⟨rfl, rfl, -, ⟨hr', rfl, -⟩ | ⟨hr', rfl, -⟩⟩ <;>
    first
      | (have := hc b; have := hc b'; omega)
      | (have := hc b; omega)
      | (have := hc b'; omega)
      | omega

/-- A plan passes exactly when its checks report nothing. -/
theorem checkPlan_none (bank : Bank) : checkPlan bank = none ↔ PlanPasses bank := by
  rw [checkPlan, Option.or_eq_none_iff, checkPages_none, PlanPasses]
  refine and_congr_right fun _ => ⟨fun h r p s c => (firstOf_cross bank).1 h r ⟨p, s, c⟩, fun h => ?_⟩
  cases hc : crossChecks bank with
  | none => rfl
  | some f =>
    obtain ⟨r, h1, -⟩ := (firstOf_cross bank).2 f hc
    exact absurd h1 (h r f.page f.slot f.code)

/-- The report of a plan's checks is the one that the rules name (R22). -/
theorem checkPlan_some (bank : Bank) (f : CheckFailure) :
    checkPlan bank = some f ↔ PlanReport bank f.page f.slot f.code := by
  rw [checkPlan, Option.or_eq_some_iff, checkPages_some, checkPages_none, PlanReport]
  refine or_congr Iff.rfl (and_congr_right fun _ => ⟨fun h => ?_, fun ⟨r, h1, h2⟩ => ?_⟩)
  · obtain ⟨r, h1, h2⟩ := (firstOf_cross bank).2 f h
    exact ⟨r, h1, fun r' p s c hf => h2 r' ⟨p, s, c⟩ hf⟩
  · cases hc : crossChecks bank with
    | none => exact absurd h1 ((firstOf_cross bank).1 hc r f)
    | some g =>
      obtain ⟨r', h3, h4⟩ := (firstOf_cross bank).2 g hc
      have : r = r' := le_antisymm (h2 r' _ _ _ h3) (h4 r f h1)
      subst this
      obtain ⟨e1, e2, e3⟩ := h3.unique h1
      obtain ⟨_, _, _⟩ := f
      obtain ⟨_, _, _⟩ := g
      simp only at e1 e2 e3
      subst e1 e2 e3
      rfl

/-! ### The lock comparison -/

theorem and_ne_and (u v : Slot) (mask : Nat) (hm : mask < 2 ^ 32) :
    (u.toNat &&& mask ≠ v.toNat &&& mask) ↔ ∃ k < 32, mask.testBit k = true ∧ u.getLsbD k ≠ v.getLsbD k := by
  constructor
  · intro h
    by_contra hc
    push Not at hc
    apply h
    apply Nat.eq_of_testBit_eq
    intro k
    rw [Nat.testBit_and, Nat.testBit_and]
    by_cases hk : mask.testBit k = true
    · have hk32 : k < 32 := by
        by_contra hge
        rw [Nat.testBit_lt_two_pow (lt_of_lt_of_le hm (Nat.pow_le_pow_right (by decide) (by omega)))] at hk
        cases hk
      have : u.toNat.testBit k = v.toNat.testBit k := hc k hk32 hk
      rw [this]
    · simp at hk; simp [hk]
  · rintro ⟨k, -, hm', hne⟩ h
    apply hne
    have := congrArg (fun n => n.testBit k) h
    simp only [Nat.testBit_and, hm', Bool.and_true] at this
    exact this

theorem licensedBits_lt (p i : Nat) : licensedBits p i < 2 ^ 32 := by
  unfold licensedBits
  repeat' split
  all_goals decide

theorem licensedDiffer_iff (a b : Bank) {p i : Nat} (hp : p < 11) (hi : i < 24) :
    licensedDiffer a b p i = true ↔ LicensedDiffers a b p i := by
  rw [licensedDiffer, bne_iff_ne, and_ne_and _ _ _ (licensedBits_lt p i), LicensedDiffers]
  refine exists_congr fun k => and_congr_right fun hk => and_congr_left fun _ => ?_
  exact licensedBits_bit p hp i hi k hk

theorem range_find (n : Nat) (q : Nat → Bool) (i : Nat) :
    (List.range n).find? q = some i ↔ i < n ∧ q i = true ∧ ∀ j < i, q j = false := by
  rw [List.find?_range_eq_some]
  constructor
  · rintro ⟨h1, h2, h3⟩; exact ⟨by simpa using h2, h1, fun j hj => by simpa using h3 j hj⟩
  · rintro ⟨h1, h2, h3⟩; exact ⟨h2, by simpa using h1, fun j hj => by simp [h3 j hj]⟩

theorem lockSlot_none (a b : Bank) {p : Nat} (hp : p < 11) :
    ((List.range 24).find? fun i => licensedDiffer a b p i).map (fun i => (p, i)) = none
      ↔ ∀ i < 24, ¬ LicensedDiffers a b p i := by
  rw [Option.map_eq_none_iff, List.find?_eq_none]
  constructor
  · intro h i hi hd; exact h i (by simpa using hi) ((licensedDiffer_iff a b hp hi).2 hd)
  · intro h i hi hd
    exact h i (by simpa using hi) ((licensedDiffer_iff a b hp (by simpa using hi)).1 hd)

/-- Nothing differs exactly when the comparison names nothing (R24). -/
theorem lockComparison_none (a b : Bank) : lockComparison a b = none ↔ LicensedAgree a b := by
  rw [lockComparison, range_findSome, finRange_findSome_none]
  constructor
  · intro h p hp; exact (lockSlot_none a b hp).1 (h ⟨p, hp⟩)
  · intro h p; exact (lockSlot_none a b p.isLt).2 (h p.val p.isLt)

/-- The comparison names the first licensed item that differs (R24). -/
theorem lockComparison_some (a b : Bank) (p i : Nat) :
    lockComparison a b = some (p, i) ↔ FirstLicensed a b p i := by
  rw [lockComparison, range_findSome, finRange_findSome]
  constructor
  · rintro ⟨q, h1, h2⟩
    rw [Option.map_eq_some_iff] at h1
    obtain ⟨j, h1, he⟩ := h1
    cases he
    obtain ⟨hi, hd, hl⟩ := (range_find _ _ _).1 h1
    refine ⟨q.isLt, hi, (licensedDiffer_iff a b q.isLt hi).1 hd, fun p' hp' i' hi' hd' => ?_⟩
    rcases lt_trichotomy q.val p' with hlt | rfl | hlt
    · exact Or.inl hlt
    · refine Or.inr ⟨rfl, ?_⟩
      by_contra hc
      have := hl i' (by omega)
      rw [(licensedDiffer_iff a b q.isLt hi').2 hd'] at this
      cases this
    · exact absurd hd' ((lockSlot_none a b hp').1 (h2 ⟨p', hp'⟩ hlt) i' hi')
  · rintro ⟨hp, hi, hd, hf⟩
    refine ⟨⟨p, hp⟩, ?_, fun z hz => ?_⟩
    · have : (List.range 24).find? (fun i => licensedDiffer a b p i) = some i := by
        rw [range_find]
        refine ⟨hi, (licensedDiffer_iff a b hp hi).2 hd, fun j hj => ?_⟩
        by_contra hc
        have := hf p hp j (by omega) ((licensedDiffer_iff a b hp (by omega)).1 (by simpa using hc))
        omega
      dsimp only
      rw [this]; rfl
    · rw [lockSlot_none a b z.isLt]
      intro i' hi' hd'
      have h3 : z.val < p := hz
      have := hf z.val z.isLt i' hi' hd'
      omega

end Sys2Proof.Machine
end

