-- ==== Sys2Proof/Laws/Due.lean ====
section
/-! SUPPORT. What is due of an interval end: each part leaves its list when it is taken, taking the front of a list and
then the rest is taking them all, and nothing is left when all has been taken. -/

namespace Sys2Proof.Machine

/-! ### A list of parts, each taken while it is due -/

section Lists

variable {α β : Type} [DecidableEq α] (list : β → List α) (take : β → α → β)
  (htake : ∀ s a, list (take s a) = (list s).filter (· != a))

include htake

/-- A part that is no longer due is passed over. -/
theorem foldl_due_filter (m : α) (xs : List α) (s : β) (hm : m ∉ list s) :
    xs.foldl (fun s a => if (list s).contains a then take s a else s) s
      = (xs.filter (· != m)).foldl (fun s a => if (list s).contains a then take s a else s) s := by
  induction xs generalizing s with
  | nil => rfl
  | cons x xs ih =>
    by_cases hx : x = m
    · subst hx
      simpa [hm] using ih s hm
    · rw [List.foldl_cons, List.filter_cons_of_pos (by simpa using hx), List.foldl_cons]
      refine ih _ ?_
      split
      · rw [htake]; exact fun h => hm (List.mem_filter.1 h).1
      · exact hm

/-- The front of the list first, and then what the list holds after it. -/
theorem foldl_due_cons (m : α) (rest : List α) (s : β) (h : list s = m :: rest) :
    (list s).foldl (fun s a => if (list s).contains a then take s a else s) s
      = (list (take s m)).foldl (fun s a => if (list s).contains a then take s a else s) (take s m) := by
  have hlist : list (take s m) = rest.filter (· != m) := by rw [htake, h]; simp
  have hfront : (list s).contains m = true := by rw [h]; simp
  rw [hlist, ← foldl_due_filter list take htake m rest _ (by rw [hlist]; simp), h, List.foldl_cons, if_pos hfront]

/-- Nothing is left of a list when all its parts have been taken. -/
theorem foldl_due_empty (xs : List α) (s : β) (h : ∀ a ∈ list s, a ∈ xs) :
    list (xs.foldl (fun s a => if (list s).contains a then take s a else s) s) = [] := by
  induction xs generalizing s with
  | nil => exact List.eq_nil_iff_forall_not_mem.2 fun a ha => by simpa using h a ha
  | cons x xs ih =>
    rw [List.foldl_cons]
    refine ih _ fun a ha => ?_
    split at ha
    · rw [htake] at ha
      obtain ⟨ha, hne⟩ := List.mem_filter.1 ha
      exact (List.mem_cons.1 (h a ha)).resolve_left (by simpa using hne)
    · rename_i hx
      refine (List.mem_cons.1 (h a ha)).resolve_left fun he => hx ?_
      rw [← he]; simpa using ha

end Lists

/-! ### The published set -/

/-- A fall into STALE leaves its list, and touches nothing else that is due. -/
theorem State.makeStale_due (s : State) (m : Fin 12) :
    (s.makeStale m).due = { s.due with stale := s.due.stale.filter (· != m) } := rfl

/-- A trip leaves its list, and touches nothing else that is due. -/
theorem State.tripZone_due (s : State) (z : Fin 8) :
    (s.tripZone z).due = { s.due with trips := s.due.trips.filter (· != z) } := by
  unfold State.tripZone; dsimp only; split <;> rfl

/-- An entry into FREE leaves its list, and touches nothing else that is due. -/
theorem State.freeZone_due (s : State) (z : Fin 8) :
    (s.freeZone z).due = { s.due with frees := s.due.frees.filter (· != z) } := by
  unfold State.freeZone; dsimp only; split <;> rfl

/-- All that is due of the published set has been taken, and nothing else that is due. -/
theorem State.finishSet_due (s : State) :
    s.finishSet.due = { s.due with stale := [], trips := [], frees := [] } := by
  have hstale := foldl_due_empty (fun s : State => s.due.stale) State.makeStale (fun _ _ => rfl) s.due.stale s
    fun _ h => h
  have hrest := foldl_keeps (fun s : State => { s.due with stale := [] })
    (fun s m => if s.due.stale.contains m then s.makeStale m else s) (fun s m => by split <;> rfl) s.due.stale s
  unfold State.finishSet
  dsimp only
  generalize s.due.stale.foldl (fun s m => if s.due.stale.contains m then s.makeStale m else s) s = t at hstale hrest
  have htrips := foldl_due_empty (fun s : State => s.due.trips) State.tripZone
    (fun s z => by rw [State.tripZone_due]) t.due.trips t fun _ h => h
  have hkeep := foldl_keeps (fun s : State => { s.due with trips := [] })
    (fun s z => if s.due.trips.contains z then s.tripZone z else s)
    (fun s z => by split <;> simp only [State.tripZone_due]) t.due.trips t
  generalize t.due.trips.foldl (fun s z => if s.due.trips.contains z then s.tripZone z else s) t = u at htrips hkeep
  have hfrees := foldl_due_empty (fun s : State => s.due.frees) State.freeZone
    (fun s z => by rw [State.freeZone_due]) u.due.frees u fun _ h => h
  have hlast := foldl_keeps (fun s : State => { s.due with frees := [] })
    (fun s z => if s.due.frees.contains z then s.freeZone z else s)
    (fun s z => by split <;> simp only [State.freeZone_due]) u.due.frees u
  generalize u.due.frees.foldl (fun s z => if s.due.frees.contains z then s.freeZone z else s) u = v at hfrees hlast
  simp only [Due.mk.injEq] at hrest hkeep hlast
  rw [Due.mk.injEq]
  refine ⟨?_, ?_, hfrees, ?_, ?_, ?_⟩
  · rw [hlast.1, hkeep.1]; exact hstale
  · rw [hlast.2.1]; exact htrips
  · rw [hlast.2.2.2.1, hkeep.2.2.2.1, hrest.2.2.2.1]
  · rw [hlast.2.2.2.2.1, hkeep.2.2.2.2.1, hrest.2.2.2.2.1]
  · rw [hlast.2.2.2.2.2, hkeep.2.2.2.2.2, hrest.2.2.2.2.2]

/-- With nothing due of the published set, there is nothing to take. -/
theorem State.finishSet_of_none {s : State} (h1 : s.due.stale = []) (h2 : s.due.trips = []) (h3 : s.due.frees = []) :
    s.finishSet = s := by
  simp [State.finishSet, h1, h2, h3]

/-- Taking what is due of the published set leaves nothing to take. -/
theorem State.finishSet_twice (s : State) : s.finishSet.finishSet = s.finishSet := by
  have h := s.finishSet_due
  exact State.finishSet_of_none (by rw [h]) (by rw [h]) (by rw [h])

/-- The first fall into STALE, and then the rest. -/
theorem State.finishSet_stale {s : State} {m : Fin 12} {rest : List (Fin 12)} (h : s.due.stale = m :: rest) :
    s.finishSet = (s.makeStale m).finishSet := by
  unfold State.finishSet
  dsimp only
  rw [foldl_due_cons (fun s : State => s.due.stale) State.makeStale (fun _ _ => rfl) m rest s h]

/-- The first trip, when no fall into STALE is due, and then the rest. -/
theorem State.finishSet_trips {s : State} {z : Fin 8} {rest : List (Fin 8)} (hs : s.due.stale = [])
    (h : s.due.trips = z :: rest) : s.finishSet = (s.tripZone z).finishSet := by
  have hs' : (s.tripZone z).due.stale = [] := by rw [State.tripZone_due]; exact hs
  unfold State.finishSet
  dsimp only
  rw [hs, hs', List.foldl_nil, List.foldl_nil,
    foldl_due_cons (fun s : State => s.due.trips) State.tripZone (fun s z => by rw [State.tripZone_due]) z rest s h]

/-- The first entry into FREE, when nothing else of the set is due, and then the rest. -/
theorem State.finishSet_frees {s : State} {z : Fin 8} {rest : List (Fin 8)} (hs : s.due.stale = [])
    (ht : s.due.trips = []) (h : s.due.frees = z :: rest) : s.finishSet = (s.freeZone z).finishSet := by
  have hd := State.freeZone_due s z
  have hs' : (s.freeZone z).due.stale = [] := by rw [hd]; exact hs
  have ht' : (s.freeZone z).due.trips = [] := by rw [hd]; exact ht
  unfold State.finishSet
  dsimp only
  rw [hs, hs', List.foldl_nil, List.foldl_nil, ht, ht', List.foldl_nil, List.foldl_nil,
    foldl_due_cons (fun s : State => s.due.frees) State.freeZone (fun s z => by rw [State.freeZone_due]) z rest s h]

/-! ### The rest of an interval end -/

/-- The swap leaves nothing due of a close, and touches nothing else that is due. -/
theorem State.finishSwap_due (s : State) : s.finishSwap.due = { s.due with swap := false } := by
  unfold State.finishSwap
  split
  · unfold State.swapNow State.takeSwap State.derive; dsimp only
    repeat' split
    all_goals rfl
  · rename_i h
    rw [Bool.not_eq_true] at h
    rw [← h]

/-- A close of the minute makes nothing due. -/
theorem State.closeMinute_due (s : State) (isPartial : Bool) : (s.closeMinute isPartial).due = s.due := by
  rw [State.closeMinute, State.raiseAlerts_eq]; rfl

/-- What follows a close makes no more than a swap due. -/
theorem State.afterClose_due {s : State} {due : Due} (h : s.due = due) :
    ∃ swap, s.afterClose.due = { due with swap := swap } := by
  subst h
  unfold State.afterClose
  split
  · exact ⟨_, rfl⟩
  · exact ⟨s.due.swap, rfl⟩

/-- A setting that acts makes no more than a swap due. -/
theorem State.settingNow_due (s : State) : ∃ swap, s.settingNow.due = { s.due with swap := swap } := by
  unfold State.settingNow
  split
  · exact ⟨s.due.swap, rfl⟩
  · split
    · exact ⟨s.due.swap, rfl⟩
    · exact State.afterClose_due (s.closeMinute_due true)

/-- A minute boundary makes no more than a swap due. -/
theorem State.boundaryNow_due (s : State) : ∃ swap, s.boundaryNow.due = { s.due with swap := swap } :=
  State.afterClose_due (s.closeMinute_due s.tb.stepStart)

/-- The setting or minute boundary that is due has been taken; no more than a swap becomes due with it. -/
theorem State.finishTime_due (s : State) :
    ∃ swap, s.finishTime.due = { s.due with tb := none, swap := swap } := by
  unfold State.finishTime
  split
  · rename_i h; exact ⟨s.due.swap, by rw [← h]⟩
  · exact State.settingNow_due _
  · exact State.boundaryNow_due _

/-- After settling, nothing is left of a published set or of a close. -/
theorem State.settle_due (s : State) :
    s.settle.due = { s.due with stale := [], trips := [], frees := [], swap := false } := by
  rw [State.settle, State.finishSwap_due, State.finishSet_due]

theorem State.settle_settled (s : State) : s.settle.Settled := by
  rw [State.Settled, State.settle_due]; exact ⟨rfl, rfl, rfl, rfl⟩

/-- After settling all, nothing at all is left of an interval end. -/
theorem State.settleAll_due (s : State) :
    s.settleAll.due = { s.due with stale := [], trips := [], frees := [], tb := none, swap := false } := by
  obtain ⟨swap, h⟩ := s.settle.finishTime_due
  rw [State.settleAll, State.finishSwap_due, h, State.settle_due]

/-- Settling leaves nothing to settle. -/
theorem State.settle_twice (s : State) : s.settle.settle = s.settle := State.settle_of_settled s.settle_settled

theorem State.settleAll_twice (s : State) : s.settleAll.settleAll = s.settleAll := by
  have h := s.settleAll_due
  refine State.settleAll_of_settled ⟨?_, ?_, ?_, ?_⟩ ?_ <;> rw [h]

/-- A command from outside acts on a part that works as on the part that has settled. -/
theorem State.outside_settle {s : State} (h : s.supply ≠ .off) (f : State → State) :
    s.outside f = s.settle.outside f := by
  have hs := outer_settle s
  simp only [State.outer, Prod.mk.injEq] at hs
  rw [State.outside, State.outside, hs.2.1, if_neg h, if_neg h, State.settle_twice]

end Sys2Proof.Machine
end

