-- ==== Sys2Proof/Laws/Estimates.lean ====
section
/-! SUPPORT. The figures of a boundary and the demand of a zone are those that the rules give. -/

namespace Sys2Proof.Machine

/-! ### The figures of a band -/

theorem mem_contributions (s : State) (b : Fin 6) (isLf : Bool) (z : Fin 8) (level : Int) :
    (z, level) ∈ contributions s.ps.working s.mb.published s.zc.standing b isLf
      ↔ Contributes s s.mb.published b isLf z level := by
  simp only [contributions, List.mem_filterMap, List.mem_finRange, true_and, Contributes]
  constructor
  · rintro ⟨z', h⟩
    split at h
    · rename_i hc
      rw [Option.map_eq_some_iff] at h
      obtain ⟨n, hn, he⟩ := h
      cases he
      simp only [Bool.and_eq_true, Bool.or_eq_true, Bool.not_eq_true'] at hc
      refine ⟨hc.1.1, fun hl => ?_, hc.2, n, hn, rfl⟩
      rcases hc.1.2 with h | h
      · rw [hl] at h; cases h
      · exact h
    · cases h
  · rintro ⟨h1, h2, h3, c, h4, rfl⟩
    refine ⟨z, ?_⟩
    rw [if_pos, h4]
    · rfl
    · simp only [h1, h3, Bool.true_and, Bool.not_false, Bool.and_true, Bool.or_eq_true, Bool.not_eq_true']
      cases isLf
      · exact Or.inl rfl
      · exact Or.inr (h2 rfl)

/-- A zone contributes at most one level to a band. -/
theorem contributions_nodup (s : State) (b : Fin 6) (isLf : Bool) :
    ((contributions s.ps.working s.mb.published s.zc.standing b isLf).map (·.1)).Nodup := by
  have aux : ∀ (f : Fin 8 → Option (Fin 8 × Int)), (∀ z c, f z = some c → c.1 = z) → ∀ xs : List (Fin 8), xs.Nodup →
      ((xs.filterMap f).map (·.1)).Nodup ∧ ∀ z ∈ (xs.filterMap f).map (·.1), z ∈ xs := by
    intro f hf xs
    induction xs with
    | nil => intro _; simp
    | cons x xs ih =>
      intro hn
      obtain ⟨h1, h2⟩ := ih (List.nodup_cons.1 hn).2
      cases hx : f x with
      | none =>
        rw [List.filterMap_cons_none hx]
        exact ⟨h1, fun z hz => List.mem_cons_of_mem _ (h2 z hz)⟩
      | some c =>
        rw [List.filterMap_cons_some hx, List.map_cons, hf x c hx]
        refine ⟨List.nodup_cons.2 ⟨fun hm => (List.nodup_cons.1 hn).1 (h2 x hm), h1⟩, fun z hz => ?_⟩
        rcases List.mem_cons.1 hz with rfl | hz
        · simp
        · exact List.mem_cons_of_mem _ (h2 z hz)
  refine (aux _ (fun z c h => ?_) _ (List.nodup_finRange 8)).1
  dsimp only at h
  split at h
  · rw [Option.map_eq_some_iff] at h
    obtain ⟨n, -, rfl⟩ := h
    rfl
  · cases h

theorem largest_none (list : List (Fin 8 × Int)) : largest list = none ↔ list = [] := by
  cases list with
  | nil => simp [largest]
  | cons x xs => obtain ⟨z, c⟩ := x; simp only [largest]; split <;> simp

theorem largest_some (list : List (Fin 8 × Int)) (top : Int) (h : largest list = some top) :
    (∃ z, (z, top) ∈ list) ∧ ∀ z c, (z, c) ∈ list → c ≤ top := by
  induction list generalizing top with
  | nil => simp [largest] at h
  | cons x xs ih =>
    obtain ⟨z, c⟩ := x
    simp only [largest] at h
    cases hl : largest xs with
    | none =>
      rw [hl] at h
      cases h
      have := (largest_none xs).1 hl
      subst this
      exact ⟨⟨z, by simp⟩, by simp⟩
    | some m =>
      rw [hl] at h
      cases h
      obtain ⟨⟨z', hz⟩, hm⟩ := ih m hl
      constructor
      · rcases le_total c m with hcm | hcm
        · exact ⟨z', by rw [max_eq_right hcm]; simp [hz]⟩
        · exact ⟨z, by rw [max_eq_left hcm]; simp⟩
      · intro y d hy
        rcases List.mem_cons.1 hy with he | hy
        · cases he; exact le_max_left _ _
        · exact le_trans (hm y d hy) (le_max_right _ _)

theorem allowance_eq (n : Nat) : allowance n = allowanceOf n := by
  rcases n with _ | _ | _ | _ | _ | _ | _ | _ | _ | n <;> rfl

theorem monitorsOf_empty (bank : Bank) (b : Fin 6) :
    (monitorsOf bank b).isEmpty = true ↔ ∀ m : Fin 12, monitorBoundary bank m ≠ some b := by
  simp [monitorsOf, List.isEmpty_iff, List.filter_eq_nil_iff]

theorem unwatched_iff (bank : Bank) (monitors : Vector Monitor 12) (b : Fin 6) :
    unwatched bank monitors b = true ↔ Unwatched bank monitors b := by
  have h : (monitorsOf bank b).isEmpty = false ↔ ∃ m : Fin 12, monitorBoundary bank m = some b := by
    rw [← not_iff_not, Bool.not_eq_false, monitorsOf_empty]
    push Not; rfl
  simp only [unwatched, Unwatched, Bool.and_eq_true, Bool.not_eq_true', h, List.all_eq_true, bne_iff_ne]
  refine and_congr_right fun _ => forall_congr' fun m => ?_
  simp [monitorsOf]

/-- The figures that an interval end forms for a band are those of the rules (R55 to R60). -/
theorem bandFigures_spec (s : State) (b : Fin 6) (isLf : Bool) (correction : Int) :
    FiguresOf s s.mb.published b isLf correction (bandFigures s b isLf correction) := by
  have hmem := mem_contributions s b isLf
  have hnd := contributions_nodup s b isLf
  have huw := unwatched_iff s.ps.working s.be.monitors b
  have hem := monitorsOf_empty s.ps.working b
  unfold bandFigures FiguresOf
  dsimp only
  generalize contributions s.ps.working s.mb.published s.zc.standing b isLf = list at *
  refine ⟨?_, fun hn => ?_, fun z top hz htop => ?_, fun h => ?_, fun h => ?_, fun h => ?_, rfl⟩
  · unfold responsibleZones
    split
    · exact List.nodup_nil
    · exact List.Nodup.sublist (List.Sublist.map _ List.filter_sublist) hnd
  · have : list = [] := by
      cases list with
      | nil => rfl
      | cons x xs => exact absurd ((hmem x.1 x.2).1 (by simp)) (hn _ _)
    subst this
    exact ⟨rfl, rfl⟩
  · have hl : largest list = some top := by
      cases hl : largest list with
      | none =>
        have := (largest_none list).1 hl
        subst this
        exact absurd ((hmem z top).2 hz) (by simp)
      | some m =>
        obtain ⟨⟨z', h1⟩, h2⟩ := largest_some list m hl
        have h3 := htop z' m ((hmem z' m).1 h1)
        have h4 := h2 z top ((hmem z top).2 hz)
        rw [le_antisymm h3 h4]
    have hr : responsibleZones list = (list.filter fun c => decide (top - 60 ≤ c.2)).map (·.1) := by
      simp [responsibleZones, hl]
    refine ⟨fun z' => ?_, ?_⟩
    · rw [hr]
      simp only [List.mem_map, List.mem_filter, decide_eq_true_eq]
      constructor
      · rintro ⟨⟨y, c⟩, ⟨h1, h2⟩, rfl⟩; exact ⟨c, (hmem y c).1 h1, h2⟩
      · rintro ⟨c, h1, h2⟩; exact ⟨(z', c), ⟨(hmem z' c).2 h1, h2⟩, rfl⟩
    · simp only [uncorrectedEstimate, combinedLevel, hl, Option.map_some, allowance_eq]
  · rw [correctionInUse, if_pos (hem.2 h)]
  · have h1 : ¬ (monitorsOf s.ps.working b).isEmpty = true := by
      rw [hem]; push Not; exact h.1
    rw [correctionInUse, if_neg h1, if_pos (huw.2 h)]
  · obtain ⟨m, hm, hs⟩ := h
    have h1 : ¬ (monitorsOf s.ps.working b).isEmpty = true := by
      rw [hem]; push Not; exact ⟨m, hm⟩
    have h2 : ¬ unwatched s.ps.working s.be.monitors b = true := by
      rw [huw]; exact fun h => h.2 m hm hs
    rw [correctionInUse, if_neg h1, if_neg h2]

/-! ### Demand -/

/-- Of a list whose sources come in the order of their ranks, the first of the largest excesses. -/
theorem largestExcess_spec (list : List (Int × DemandSource)) (hs : list.Pairwise fun a b => a.2.rank ≤ b.2.rank) :
    (largestExcess list = .unreached ∧ list = [])
    ∨ ∃ x source, largestExcess list = .value x source ∧ (x, source) ∈ list
      ∧ ∀ x' source', (x', source') ∈ list → x' < x ∨ (x' = x ∧ source.rank ≤ source'.rank) := by
  induction list with
  | nil => exact Or.inl ⟨rfl, rfl⟩
  | cons a rest ih =>
    obtain ⟨x, source⟩ := a
    right
    obtain ⟨hfirst, hrest⟩ := List.pairwise_cons.1 hs
    rcases ih hrest with ⟨h1, rfl⟩ | ⟨y, src, h1, h2, h3⟩
    · exact ⟨x, source, by simp [largestExcess], by simp, by simp⟩
    · simp only [largestExcess, h1]
      by_cases hlt : x < y
      · rw [if_pos hlt]
        refine ⟨y, src, rfl, by simp [h2], fun x' source' hm => ?_⟩
        rcases List.mem_cons.1 hm with he | hm
        · cases he; exact Or.inl hlt
        · exact h3 x' source' hm
      · rw [if_neg hlt]
        refine ⟨x, source, rfl, by simp, fun x' source' hm => ?_⟩
        rcases List.mem_cons.1 hm with he | hm
        · cases he; exact Or.inr ⟨rfl, le_refl _⟩
        · have := h3 x' source' hm
          have hr := hfirst (x', source') hm
          dsimp only at hr
          rcases this with h | ⟨h, _⟩
          · exact Or.inl (by omega)
          · rcases lt_or_eq_of_le (not_lt.1 hlt) with h' | h'
            · exact Or.inl (by omega)
            · exact Or.inr ⟨by omega, hr⟩

/-- The excesses of a pair. -/
theorem mem_pairExcesses (s : State) (b : Fin 6) (isLf : Bool) (f : BandFigures) (e : LimitEntry) (x : Int)
    (source : DemandSource) :
    (x, source) ∈ pairExcesses s b isLf f e ↔
      ∃ n, (if isLf then e.lf else e.full) = .number n ∧ source.boundary = b.val ∧ source.isLf = isLf
        ∧ (source.isRunning = false → x = (f.corrected : Int) - ((n : Int) + (peakAllowance s.ps.working : Int)))
        ∧ (source.isRunning = true → ∃ a r, s.ea.accounts[b] = some a ∧ a.runningLevel isLf = some r
            ∧ x = (r : Int) - (n : Int)) := by
  obtain ⟨sb, sl, sr⟩ := source
  unfold pairExcesses
  cases hl : (if isLf = true then e.lf else e.full) with
  | silent => simp
  | number n =>
    simp only [List.mem_cons, Prod.mk.injEq, DemandSource.mk.injEq, Limit.number.injEq, exists_eq_left']
    cases ha : s.ea.accounts[b] with
    | none => cases sr <;> first | (simp; done) | (simp; tauto)
    | some a =>
      simp only [Option.bind_some]
      cases hr : a.runningLevel isLf with
      | none => cases sr <;> first | (simp [hr]; done) | (simp [hr]; tauto)
      | some r => cases sr <;> first | (simp [hr]; done) | (simp [hr]; tauto)

theorem pairExcesses_sorted (s : State) (b : Fin 6) (isLf : Bool) (f : BandFigures) (e : LimitEntry) :
    (pairExcesses s b isLf f e).Pairwise fun a b => a.2.rank ≤ b.2.rank := by
  unfold pairExcesses
  split
  · exact List.Pairwise.nil
  · split <;> simp [DemandSource.rank]

/-- The excesses of a zone at a boundary. -/
theorem mem_boundaryExcesses (s : State) (z : Fin 8) (b : Fin 6) (x : Int) (source : DemandSource) :
    (x, source) ∈ boundaryExcesses s z b ↔ source.boundary = b.val ∧ Excess s z x source := by
  unfold boundaryExcesses
  have out (h : ∀ e f l, s.be.estimators[b] = some e → e.figures = some f → s.tb.limits[b] = some l → False) :
      ¬ (source.boundary = b.val ∧ Excess s z x source) := by
    rintro ⟨hb, b', e, f, l, n, hb', h1, h2, h3, -⟩
    have : b' = b := Fin.ext (hb'.symm.trans hb)
    subst this
    exact h e f l h1 h2 h3
  split
  · rename_i f l hf hl
    rw [Option.bind_eq_some_iff] at hf
    obtain ⟨e, he, hf⟩ := hf
    rw [List.mem_append]
    constructor
    · rintro (h | h)
      all_goals
        split at h
        · rename_i hz
          obtain ⟨n, h1, h2, h3, h4, h5⟩ := (mem_pairExcesses s b _ _ l x source).1 h
          refine ⟨h2, b, e, f, l, n, h2, he, hf, hl, ?_, ?_, ?_, ?_⟩
          · rw [h3]; simpa using hz
          · rw [h3]; exact h1
          · rw [h3]; exact h4
          · rw [h3]; exact h5
        · cases h
    · rintro ⟨hb, b', e', f', l', n, hb', h1, h2, h3, h4, h5, h6, h7⟩
      have : b' = b := Fin.ext (hb'.symm.trans hb)
      subst this
      rw [he] at h1; cases h1
      rw [hf] at h2; cases h2
      rw [hl] at h3; cases h3
      cases hlf : source.isLf with
      | false =>
        rw [hlf] at h4 h5 h6 h7
        left
        rw [if_pos (by simpa using h4)]
        exact (mem_pairExcesses s b' false _ l x source).2 ⟨n, h5, hb', hlf, h6, h7⟩
      | true =>
        rw [hlf] at h4 h5 h6 h7
        right
        rw [if_pos (by simpa using h4)]
        exact (mem_pairExcesses s b' true _ l x source).2 ⟨n, h5, hb', hlf, h6, h7⟩
  · rename_i hn
    constructor
    · intro h; cases h
    · intro h
      exact absurd h (out fun e f l h1 h2 h3 => hn f l (by rw [h1]; exact h2) h3)

theorem boundaryExcesses_sorted (s : State) (z : Fin 8) (b : Fin 6) :
    (boundaryExcesses s z b).Pairwise fun a b => a.2.rank ≤ b.2.rank := by
  unfold boundaryExcesses
  split
  · rename_i f l _ _
    rw [List.pairwise_append]
    refine ⟨?_, ?_, ?_⟩
    · split
      · exact pairExcesses_sorted s b false _ _
      · exact List.Pairwise.nil
    · split
      · exact pairExcesses_sorted s b true _ _
      · exact List.Pairwise.nil
    · rintro ⟨x, src⟩ h ⟨x', src'⟩ h'
      split at h
      · split at h'
        · obtain ⟨_, _, h1, h2, _⟩ := (mem_pairExcesses s b false _ l x src).1 h
          obtain ⟨_, _, h3, h4, _⟩ := (mem_pairExcesses s b true _ l x' src').1 h'
          simp only [DemandSource.rank, h1, h2, h3, h4]
          have := src.isRunning.toNat_le
          simp; omega
        · cases h'
      · cases h
  · exact List.Pairwise.nil

/-- The demand that ZC forms is the one the rule gives (R98). -/
theorem demandOf_spec (s : State) (z : Fin 8) : IsDemand s z (demandOf s z) := by
  have mem (x : Int) (source : DemandSource) :
      (x, source) ∈ (List.finRange 6).flatMap (boundaryExcesses s z) ↔ Excess s z x source := by
    rw [List.mem_flatMap]
    constructor
    · rintro ⟨b, -, h⟩; exact ((mem_boundaryExcesses s z b x source).1 h).2
    · intro h
      obtain ⟨b, e, f, l, n, hb, -⟩ := id h
      exact ⟨b, List.mem_finRange b, (mem_boundaryExcesses s z b x source).2 ⟨hb, h⟩⟩
  have sorted : ((List.finRange 6).flatMap (boundaryExcesses s z)).Pairwise fun a b => a.2.rank ≤ b.2.rank := by
    rw [List.pairwise_flatMap]
    refine ⟨fun b _ => boundaryExcesses_sorted s z b, ?_⟩
    refine (List.pairwise_lt_finRange 6).imp ?_
    rintro b b' hlt ⟨x, src⟩ h ⟨x', src'⟩ h'
    have h1 := ((mem_boundaryExcesses s z b x src).1 h).1
    have h2 := ((mem_boundaryExcesses s z b' x' src').1 h').1
    have : b.val < b'.val := hlt
    have h3 := src.isRunning.toNat_le
    have h4 := src.isLf.toNat_le
    simp only [DemandSource.rank, h1, h2]
    omega
  rcases largestExcess_spec _ sorted with ⟨h1, h2⟩ | ⟨x, source, h1, h2, h3⟩
  · exact Or.inl ⟨h1, fun x source hx => by
      have := (mem x source).2 hx
      rw [h2] at this; cases this⟩
  · exact Or.inr ⟨x, source, h1, (mem x source).1 h2, fun x' source' hx => h3 x' source' ((mem x' source').2 hx)⟩

/-! ### A published set -/

/-- The zone trips at the set exactly when the rule says (R104). -/
theorem tripsNow_iff (item : ZoneItem) (peak : Int) (count : Nat) :
    tripsNow item peak count = true ↔ TripsAtSet item peak count := by
  unfold tripsNow TripsAtSet
  cases item.tripLevel <;> simp

/-- A zone demand is never absent. -/
theorem demandOf_ne_absent (s : State) (z : Fin 8) : demandOf s z ≠ .absent := by
  rcases demandOf_spec s z with ⟨h, -⟩ | ⟨x, source, h, -⟩ <;> rw [h] <;> simp

/-- The release delay has been counted in full exactly when the rule says (R102). -/
theorem freeDue_iff (bank : Bank) (d : Demand) (hd : d ≠ .absent) (before after : Standing) :
    freeDue bank d before after = true
      ↔ (d = .unreached ∨ ∃ n source, d = .value n source ∧ n ≤ -(hysteresis bank : Int))
        ∧ before.state = .hold ∧ releaseDelay bank ≤ after.releaseCount := by
  cases d with
  | absent => exact absurd rfl hd
  | unreached => simp [freeDue, Demand.reduces, Demand.releases]
  | value n source =>
    simp only [freeDue, Demand.reduces, Demand.releases, Bool.and_eq_true, Bool.not_eq_true', decide_eq_false_iff_not,
      decide_eq_true_eq, beq_iff_eq, reduceCtorEq, false_or, Demand.value.injEq]
    constructor
    · rintro ⟨⟨⟨-, h⟩, h2⟩, h3⟩; exact ⟨⟨n, source, ⟨rfl, rfl⟩, h⟩, h2, h3⟩
    · rintro ⟨⟨n', source', ⟨rfl, rfl⟩, h⟩, h2, h3⟩; exact ⟨⟨⟨by omega, h⟩, h2⟩, h3⟩

theorem opensFloor_iff (before after : Standing) :
    opensFloor before after = true ↔ after.state = .floor ∧ before.floorEpisode = false := by
  simp [opensFloor]

/-- The parts of the state that a demand is formed from. -/
theorem isDemand_congr {s t : State} (hbe : t.be.estimators = s.be.estimators) (hea : t.ea.accounts = s.ea.accounts)
    (htb : t.tb.limits = s.tb.limits) (hps : t.ps.working = s.ps.working) {z : Fin 8} {d : Demand} :
    IsDemand s z d → IsDemand t z d := by
  have he : ∀ x source, Excess t z x source ↔ Excess s z x source := by
    intro x source
    simp only [Excess, hbe, hea, htb, hps]
  intro h
  simp only [IsDemand, he]
  exact h

/-- The published set does to a zone what the rules say; `s` is the state that takes the set, and `t` one that holds
what the set leaves (R98 to R104, R111). -/
theorem State.takeSet_zone {s t : State} (htr : s.due.trips = []) (hfr : s.due.frees = [])
    (hz : t.zc.zones = s.takeSet.zc.zones) (hd : t.due.trips = s.takeSet.due.trips ∧ t.due.frees = s.takeSet.due.frees)
    (hmb : t.mb.published = s.mb.published) (hdem : ∀ z d, IsDemand s z d → IsDemand t z d) (z : Fin 8) :
    s.ZoneTakesSet t z := by
  have hrec : t.zc.zones[z] = s.recordAfter z := by
    rw [hz, State.takeSet, State.raiseAlerts_eq]
    simp [State.setZones]
  have htrips : z ∈ t.due.trips ↔ s.tripsAt z = true := by
    rw [hd.1, State.takeSet, State.raiseAlerts_eq]
    simp [htr]
  have hfrees : z ∈ t.due.frees ↔ s.freesAt z = true ∧ s.zc.zones[z].disturbed = false := by
    rw [hd.2, State.takeSet, State.raiseAlerts_eq]
    simp [hfr]
  have hpk : t.mb.published[z].peak = s.mb.published[z].peak := by rw [hmb]
  unfold State.ZoneTakesSet
  dsimp only
  rw [htrips, hfrees, hpk, hrec]
  refine ⟨fun h => ?_, fun h ht => ?_, fun h ht => ?_⟩
  · have h1 : s.enforces z = false := by rw [State.enforces, h]; rfl
    have h2 : s.tripsAt z = false := by simp [State.tripsAt, h1]
    have h3 : s.movesAt z = false := by simp [State.movesAt, h1]
    have h4 : s.freesAt z = false := by simp [State.freesAt, h3]
    simp [State.recordAfter, h2, h3, h4]
  · have h1 : s.enforces z = true := by rw [State.enforces, h]; rfl
    have h2 : s.tripsAt z = true := by rw [State.tripsAt, h1, (tripsNow_iff _ _ _).2 ht]; rfl
    have h3 : s.movesAt z = false := by simp [State.movesAt, h2]
    have h4 : s.freesAt z = false := by simp [State.freesAt, h3]
    simp [State.recordAfter, h2, h3, h4]
  · have h1 : s.enforces z = true := by rw [State.enforces, h]; rfl
    have ht' : tripsNow (zoneItem s.ps.working z) s.mb.published[z].peak s.zc.standing[z].persistence = false := by
      rw [← Bool.not_eq_true, tripsNow_iff]; exact ht
    have h2 : s.tripsAt z = false := by rw [State.tripsAt, h1, ht']; rfl
    have h3 : s.movesAt z = true := by simp [State.movesAt, h1, h2]
    have hlast : (s.recordAfter z).lastDemand = demandOf s z := by simp [State.recordAfter, h3]
    have hfloor : s.floorsAt z = opensFloor s.zc.standing[z] (s.standingAfter z) := by simp [State.floorsAt, h3]
    have hfree : s.freesAt z = freeDue s.ps.working (demandOf s z) s.zc.standing[z] (s.standingAfter z) := by
      simp [State.freesAt, h3]
    have hafter : s.standingAfter z
        = enforce s.ps.working (zoneItem s.ps.working z).maximum (demandOf s z) s.zc.standing[z] := rfl
    rw [hlast, ← hafter, ← freeDue_iff _ _ (demandOf_ne_absent s z), ← hfree, ← opensFloor_iff, ← hfloor,
      h2]
    have hrecord : s.recordAfter z
        = { s.zc.zones[z].apply (zoneItem s.ps.working z).maximum (s.standingAfter z)
              (judgePersistence (zoneItem s.ps.working z).tripLevel s.mb.published[z].peak s.zc.standing[z].persistence)
            with
            lastDemand := demandOf s z
            floorLatch := s.zc.zones[z].floorLatch || (s.floorsAt z && !s.latchesHeld) } := by
      rw [State.recordAfter, if_pos h3]
    refine ⟨hdem z _ (demandOf_spec s z), by simp, Iff.rfl, ?_, fun hu => ?_, fun hu => ?_⟩
    · rw [hrecord]
      have : s.latchesHeld = s.stopCause := rfl
      simp [this]
    · rw [hrecord, Controller.apply, if_neg (by rw [hu]; simp)]
      rfl
    · rw [hrecord, Controller.apply, if_pos hu]

/-- A published set touches the zone records, the trips and the entries into FREE that are due, and the alerts
(R98 to R104). -/
theorem State.takeSet_keeps (s : State) :
    s.takeSet = { s with
      zc := { s.zc with zones := Vector.ofFn s.recordAfter, tripLine := s.takeSet.zc.tripLine }
      due := { s.due with
        trips := s.due.trips ++ (List.finRange 8).filter s.tripsAt
        frees := s.due.frees ++ (List.finRange 8).filter fun z => s.freesAt z && !s.zc.zones[z].disturbed }
      mu := { s.mu with alerts := s.takeSet.mu.alerts, alertsLost := s.takeSet.mu.alertsLost } } := by
  rw [State.takeSet, State.raiseAlerts_eq]
  rfl

/-- After a published set the TRIP line follows the zones (R107). -/
theorem State.takeSet_follows (s : State) : s.takeSet.TripLineFollows := by
  rw [State.takeSet, State.raiseAlerts_eq]
  exact s.setZones_follows (Vector.ofFn s.recordAfter)

/-- The FLOOR alerts of a published set are those the rule gives, read from a state that holds what the set leaves
(R103, R111). -/
theorem State.floorAlerts_eq {s t : State} (htr : s.due.trips = []) (hz : t.zc.zones = s.takeSet.zc.zones)
    (hd : t.due.trips = s.takeSet.due.trips) : s.floorAlerts = if s.stopCause then [] else s.floorAlertsOf t := by
  have hlast (z : Fin 8) (h : s.movesAt z = true) : t.zc.zones[z].lastDemand = demandOf s z := by
    have hrec : t.zc.zones[z] = s.recordAfter z := by rw [hz, State.takeSet_keeps]; simp
    rw [hrec, State.recordAfter, if_pos h]
  have htrips (z : Fin 8) : t.due.trips.contains z = s.tripsAt z := by
    rw [Bool.eq_iff_iff, List.contains_iff_mem, hd, State.takeSet_keeps]
    simp [htr]
  have hopens (z : Fin 8) : s.floorsAt z
      = (!s.zc.standing[z].state.silencing && !t.due.trips.contains z && !s.zc.standing[z].floorEpisode
          && (enforce s.ps.working (zoneItem s.ps.working z).maximum t.zc.zones[z].lastDemand
                s.zc.standing[z]).state == .floor) := by
    have hm : (!s.zc.standing[z].state.silencing && !t.due.trips.contains z) = s.movesAt z := by
      rw [htrips]; rfl
    rw [hm, State.floorsAt]
    by_cases h : s.movesAt z = true
    · rw [h, hlast z h, opensFloor, State.standingAfter, Bool.true_and, Bool.true_and, Bool.and_comm]
    · have h' : s.movesAt z = false := by simpa using h
      simp [h']
  rw [State.floorAlerts, s.latchesHeld_eq, State.floorAlertsOf]
  dsimp only
  rw [← List.filter_congr fun z _ => hopens z]
  congr 1
  refine List.map_congr_left fun z hz => ?_
  have hmoves : s.movesAt z = true := by
    have := (List.mem_filter.1 hz).2
    rw [State.floorsAt, Bool.and_eq_true] at this
    exact this.1
  have hd := demandOf_ne_absent s z
  rw [hlast z hmoves]
  cases h : demandOf s z with
  | absent => exact absurd h hd
  | value n source => rfl
  | unreached => rfl

end Sys2Proof.Machine
end

