-- ==== Sys2Proof/Laws/Levels.lean ====
section
/-! SUPPORT. Sums of energies are compared exactly, and the level of a mean is the one that the manual defines
(00_scope section 6.2). -/

namespace Sys2Proof.Machine

/-! ### Powers of the hundredth root of 10 -/

open Polynomial

/-- x to the power n minus 10 has no factor over the rationals, by Eisenstein's criterion at 2. -/
theorem irreducible_pow_sub_ten {n : ℕ} (hn : 0 < n) : Irreducible (X ^ n - C 10 : ℚ[X]) := by
  have hm : (X ^ n - C 10 : ℤ[X]).Monic := monic_X_pow_sub_C _ hn.ne'
  have hdeg : (X ^ n - C 10 : ℤ[X]).degree = n := degree_X_pow_sub_C hn _
  have hZ : Irreducible (X ^ n - C 10 : ℤ[X]) := by
    refine irreducible_of_eisenstein_criterion (P := Ideal.span {2}) ?_ ?_ ?_ ?_ ?_ hm.isPrimitive
    · exact (Ideal.span_singleton_prime (by norm_num)).2 (Int.prime_iff_natAbs_prime.2 (by norm_num))
    · rw [hm.leadingCoeff, Ideal.mem_span_singleton]; norm_num
    · intro i hi
      rw [hdeg] at hi
      have hi : i < n := by exact_mod_cast hi
      rw [Ideal.mem_span_singleton, coeff_sub, coeff_X_pow, if_neg (by omega), coeff_C]
      split <;> norm_num
    · rw [hdeg]; exact_mod_cast hn
    · rw [coeff_sub, coeff_X_pow, if_neg (by omega), coeff_C_zero, Ideal.span_singleton_pow,
        Ideal.mem_span_singleton]; norm_num
  have := (hm.irreducible_iff_irreducible_map_fraction_map (K := ℚ)).1 hZ
  rwa [Polynomial.map_sub, Polynomial.map_pow, map_X, map_C, map_ofNat] at this

/-- The norm of a nonzero whole-number combination of powers of an n-th root of 10 is a nonzero whole number, so no
conjugate of it is small when the others are bounded. -/
theorem bound_of_embedding {K : Type} [Field K] [Algebra ℚ K] [FiniteDimensional ℚ K] {n : ℕ}
    (hfin : Module.finrank ℚ K = n) {r : K} (hr : r ^ n = 10) (hn : 0 < n) (g : ℤ[X]) (hx : aeval r g ≠ 0)
    (σ₀ : K →ₐ[ℚ] ℂ) {ρ : ℂ} (hρ : σ₀ r = ρ) {S : ℝ} (hS : ∀ z : ℂ, ‖z‖ ^ n = 10 → ‖aeval z g‖ ≤ S) :
    1 ≤ ‖aeval ρ g‖ * S ^ (n - 1) := by
  set x : K := aeval r g with hxdef
  have hri : IsIntegral ℤ r := ⟨X ^ n - C 10, monic_X_pow_sub_C _ hn.ne', by simp [hr]⟩
  have hxi : IsIntegral ℤ x :=
    IsIntegral.of_mem_of_fg (Algebra.adjoin ℤ {r}) hri.fg_adjoin_singleton _ (aeval_mem_adjoin_singleton _ _)
  obtain ⟨m, hm⟩ := IsIntegrallyClosed.isIntegral_iff.1 (Algebra.isIntegral_norm ℚ hxi)
  have hm0 : m ≠ 0 := by
    rintro rfl
    exact hx (Algebra.norm_eq_zero_iff.1 (by rw [← hm]; simp))
  have hprod := Algebra.norm_eq_prod_embeddings ℚ ℂ x
  rw [← hm] at hprod
  have hnorm : (1:ℝ) ≤ ∏ σ : K →ₐ[ℚ] ℂ, ‖σ x‖ := by
    rw [← norm_prod, ← hprod]
    simp only [eq_intCast, map_intCast]
    rw [Complex.norm_intCast]
    exact_mod_cast Int.one_le_abs hm0
  have hσ (σ : K →ₐ[ℚ] ℂ) : σ x = aeval (σ r) g :=
    (Polynomial.aeval_algHom_apply (σ.restrictScalars ℤ) r g).symm
  classical
  rw [← Finset.mul_prod_erase Finset.univ (fun σ : K →ₐ[ℚ] ℂ => ‖σ x‖) (Finset.mem_univ σ₀), hσ, hρ] at hnorm
  refine hnorm.trans (mul_le_mul_of_nonneg_left ?_ (norm_nonneg _))
  have hc : (Finset.univ.erase σ₀).card = n - 1 := by
    rw [Finset.card_erase_of_mem (Finset.mem_univ _), Finset.card_univ, AlgHom.card, hfin]
  rw [← hc]
  rw [← Finset.prod_const]
  refine Finset.prod_le_prod (fun σ _ => norm_nonneg _) fun σ _ => ?_
  rw [hσ]
  refine hS _ ?_
  rw [← norm_pow, ← map_pow, hr, map_ofNat]
  norm_num

/-- A polynomial of whole coefficients and degree below n does not come near 0 at the n-th root of 10. -/
theorem root_bound {n : ℕ} (hn : 0 < n) (g : ℤ[X]) (hg : g ≠ 0) (hd : g.natDegree < n) {S : ℝ}
    (hS : ∀ z : ℂ, ‖z‖ ^ n = 10 → ‖aeval z g‖ ≤ S) {θ : ℝ} (hθ : θ ^ n = 10) :
    1 ≤ |aeval θ g| * S ^ (n - 1) := by
  have hmon : (X ^ n - C 10 : ℚ[X]).Monic := monic_X_pow_sub_C _ hn.ne'
  have : Fact (Irreducible (X ^ n - C 10 : ℚ[X])) := ⟨irreducible_pow_sub_ten hn⟩
  have : FiniteDimensional ℚ (AdjoinRoot (X ^ n - C 10 : ℚ[X])) := hmon.finite_adjoinRoot
  have hfin : Module.finrank ℚ (AdjoinRoot (X ^ n - C 10 : ℚ[X])) = n := by
    rw [(AdjoinRoot.powerBasis' hmon).finrank, AdjoinRoot.powerBasis'_dim, natDegree_X_pow_sub_C]
  have hr : (AdjoinRoot.root (X ^ n - C 10 : ℚ[X])) ^ n = 10 := by
    have := AdjoinRoot.eval₂_root (X ^ n - C 10 : ℚ[X])
    simp only [eval₂_sub, eval₂_X_pow, eval₂_C] at this
    simpa [sub_eq_zero] using this
  have hx : aeval (AdjoinRoot.root (X ^ n - C 10 : ℚ[X])) g ≠ 0 := by
    rw [← aeval_map_algebraMap ℚ]
    intro h
    have hdvd := AdjoinRoot.mk_eq_zero.1 ((AdjoinRoot.aeval_eq _).symm.trans h)
    have hne : g.map (algebraMap ℤ ℚ) ≠ 0 := by
      rwa [Ne, Polynomial.map_eq_zero_iff (algebraMap ℤ ℚ).injective_int]
    have := natDegree_le_of_dvd hdvd hne
    rw [natDegree_X_pow_sub_C] at this
    have := this.trans natDegree_map_le
    omega
  have hroot : eval₂ ((Algebra.ofId ℚ ℂ) : ℚ →+* ℂ) (θ : ℂ) (X ^ n - C 10 : ℚ[X]) = 0 := by
    have : ((θ:ℂ)) ^ n = 10 := by exact_mod_cast hθ
    simp [this]
  have := bound_of_embedding hfin hr hn g hx (AdjoinRoot.liftAlgHom _ (Algebra.ofId ℚ ℂ) (θ : ℂ) hroot)
    (AdjoinRoot.liftAlgHom_root _ _ _ _) hS
  rwa [show aeval (θ : ℂ) g = ((aeval θ g : ℝ) : ℂ) from aeval_algebraMap_apply ℂ θ g, Complex.norm_real,
    Real.norm_eq_abs] at this

/-! ### The value of an exact sum -/

/-- The hundredth root of 10, the energy of 1 cB. -/
noncomputable def root : ℝ := energyOf 1

theorem root_pow (k : ℕ) : root ^ k = energyOf k := by
  rw [root, energyOf, energyOf, ← Real.rpow_natCast, ← Real.rpow_mul (by norm_num)]
  congr 1
  push_cast
  ring

theorem root_hundred : root ^ 100 = 10 := by
  rw [root_pow, energyOf]
  norm_num

theorem root_one_lt : 1 < root := by
  rw [root, energyOf]
  exact Real.one_lt_rpow (by norm_num) (by norm_num)

/-- The value of an exact sum. -/
noncomputable def Energy.value (e : Energy) : ℝ := (e.map fun t => (t.2 : ℝ) * root ^ t.1).sum

/-- An exact sum in its one form: powers below 100, rising, each with a count above 0. -/
def Energy.Canonical (e : Energy) : Prop := e.Pairwise (fun a b => a.1 < b.1) ∧ ∀ t ∈ e, t.1 < 100 ∧ 0 < t.2

theorem Energy.value_insert (k c : ℕ) (e : Energy) : (Energy.insert k c e).value = e.value + c * root ^ k := by
  induction e with
  | nil =>
    rw [Energy.insert]
    split
    · rename_i h; simp [Energy.value, h]
    · simp [Energy.value]
  | cons t rest ih =>
    obtain ⟨k', c'⟩ := t
    rw [Energy.insert]
    split
    · rename_i h; simp [h]
    · split
      · simp only [Energy.value, List.map_cons, List.sum_cons]; ring
      · split
        · rename_i h
          simp only [Energy.value, List.map_cons, List.sum_cons, h]; push_cast; ring
        · simp only [Energy.value, List.map_cons, List.sum_cons] at ih ⊢
          rw [ih]; ring

/-- Adding to an exact sum adds the weighted energy of the level (R78, R79). -/
theorem Energy.value_add (e : Energy) (level weight : ℕ) :
    (e.add level weight).value = e.value + weight * energyOf level := by
  rw [Energy.add, Energy.value_insert, ← root_pow level]
  conv_rhs => rw [← Nat.div_add_mod level 100, pow_add, pow_mul, root_hundred]
  push_cast
  ring

theorem Energy.mem_insert {k c : ℕ} {e : Energy} {t : ℕ × ℕ} (h : t ∈ Energy.insert k c e) (hc : 0 < c) :
    (t.1 = k ∧ 0 < t.2) ∨ ∃ c', c' ≤ t.2 ∧ (t.1, c') ∈ e := by
  induction e with
  | nil =>
    rw [Energy.insert, if_neg (by omega), List.mem_singleton] at h
    subst h
    exact Or.inl ⟨rfl, hc⟩
  | cons u rest ih =>
    obtain ⟨k', c'⟩ := u
    rw [Energy.insert, if_neg (by omega)] at h
    split at h
    · rcases List.mem_cons.1 h with rfl | h
      · exact Or.inl ⟨rfl, hc⟩
      · exact Or.inr ⟨t.2, le_rfl, h⟩
    · split at h
      · rcases List.mem_cons.1 h with rfl | h
        · exact Or.inl ⟨rfl, by dsimp only; omega⟩
        · exact Or.inr ⟨t.2, le_rfl, List.mem_cons_of_mem _ h⟩
      · rcases List.mem_cons.1 h with rfl | h
        · exact Or.inr ⟨c', le_rfl, List.mem_cons_self⟩
        · rcases ih h with h | ⟨d, hd, h⟩
          · exact Or.inl h
          · exact Or.inr ⟨d, hd, List.mem_cons_of_mem _ h⟩

theorem Energy.canonical_insert {k c : ℕ} (hk : k < 100) {e : Energy} (he : e.Canonical) :
    (Energy.insert k c e).Canonical := by
  by_cases hc : c = 0
  · have : Energy.insert k c e = e := by cases e <;> simp [Energy.insert, hc]
    rw [this]; exact he
  refine ⟨?_, fun t ht => ?_⟩
  · induction e with
    | nil => rw [Energy.insert, if_neg hc]; exact List.pairwise_singleton _ _
    | cons t rest ih =>
      obtain ⟨k', c'⟩ := t
      obtain ⟨hp, hm⟩ := he
      rw [List.pairwise_cons] at hp
      have hrest : Energy.Canonical rest := ⟨hp.2, fun t ht => hm t (List.mem_cons_of_mem _ ht)⟩
      rw [Energy.insert, if_neg hc]
      split
      · rename_i hlt
        refine List.pairwise_cons.2 ⟨fun t ht => ?_, List.pairwise_cons.2 hp⟩
        rcases List.mem_cons.1 ht with rfl | ht
        · exact hlt
        · exact lt_trans hlt (hp.1 t ht)
      · split
        · rename_i h
          subst h
          exact List.pairwise_cons.2 hp
        · refine List.pairwise_cons.2 ⟨fun t ht => ?_, ih hrest⟩
          rcases Energy.mem_insert ht (by omega) with ⟨h, -⟩ | ⟨d, -, h⟩
          · dsimp only; omega
          · exact hp.1 (t.1, d) h
  · rcases Energy.mem_insert ht (by omega) with ⟨h, h'⟩ | ⟨d, hd, h⟩
    · exact ⟨by omega, h'⟩
    · have := he.2 _ h
      exact ⟨this.1, by have := this.2; dsimp only at this; omega⟩

theorem Energy.canonical_add {e : Energy} (he : e.Canonical) (level weight : ℕ) : (e.add level weight).Canonical :=
  Energy.canonical_insert (Nat.mod_lt _ (by norm_num)) he

theorem Energy.canonical_nil : Energy.Canonical [] := ⟨List.Pairwise.nil, by simp⟩

/-! ### The whole-number bounds -/

/-- `powerFloor p k` is the whole part of 2 to the `p` times the power. -/
theorem powerFloor_spec (p : ℕ) {k : ℕ} (hk : k < 100) :
    (powerFloor p k : ℝ) ≤ 2 ^ p * root ^ k ∧ 2 ^ p * root ^ k < powerFloor p k + 1 := by
  have hiff (r : ℕ) : decide (r ^ 100 ≤ 10 ^ k * 2 ^ (100 * p)) = true ↔ (r : ℝ) ≤ 2 ^ p * root ^ k := by
    have hr : (0 : ℝ) ≤ 2 ^ p * root ^ k := by
      have := root_one_lt
      positivity
    rw [decide_eq_true_eq, ← pow_le_pow_iff_left₀ (a := (r : ℝ)) (by positivity) hr (by norm_num : 100 ≠ 0), mul_pow,
      ← pow_mul, ← pow_mul, mul_comm k, pow_mul root, root_hundred, mul_comm p, ← Nat.cast_le (α := ℝ)]
    push_cast
    rw [mul_comm]
  have hspec := greatest_spec (p + 4) (fun r => decide (r ^ 100 ≤ 10 ^ k * 2 ^ (100 * p))) 0 (by
    intro i j hij h
    rw [decide_eq_true_eq] at h ⊢
    exact (Nat.pow_le_pow_left hij _).trans h)
  rw [← powerFloor] at hspec
  have hb := (greatest_bounds (p + 4) (fun r => decide (r ^ 100 ≤ 10 ^ k * 2 ^ (100 * p))) 0).2
  rw [← powerFloor, Nat.zero_add] at hb
  constructor
  · rcases hspec.1 with h | h
    · rw [h]
      have := root_one_lt
      simp only [Nat.cast_zero]
      positivity
    · exact (hiff _).1 h
  · by_cases hlt : powerFloor p k + 1 < 2 ^ (p + 4)
    · have := hspec.2 (powerFloor p k + 1) (by omega) (by omega)
      have hn : ¬ ((powerFloor p k + 1 : ℕ) : ℝ) ≤ 2 ^ p * root ^ k := by
        rw [← hiff, this]
        simp
      push_cast at hn
      exact lt_of_not_ge hn
    · have h16 : ((powerFloor p k : ℝ) + 1) = 2 ^ (p + 4) := by
        have : powerFloor p k + 1 = 2 ^ (p + 4) := by omega
        exact_mod_cast this
      rw [h16, pow_add]
      have h10 : root ^ k ≤ 10 := by
        rw [← root_hundred]
        exact pow_le_pow_right₀ root_one_lt.le hk.le
      have : (0:ℝ) < 2 ^ p := by positivity
      nlinarith

theorem foldl_add_eq {α : Type} (f : α → ℕ) (xs : List α) (n : ℕ) :
    xs.foldl (fun sum x => sum + f x) n = n + (xs.map f).sum := by
  induction xs generalizing n with
  | nil => simp
  | cons x xs ih => rw [List.foldl_cons, ih, List.map_cons, List.sum_cons]; omega

/-- The counts of an exact sum, all together. -/
def Energy.counts (e : Energy) : ℕ := (e.map (·.2)).sum

theorem Energy.lower_le {e : Energy} (he : ∀ t ∈ e, t.1 < 100) (p : ℕ) : (e.lower p : ℝ) ≤ 2 ^ p * e.value := by
  rw [Energy.lower, foldl_add_eq, Nat.zero_add]
  induction e with
  | nil => simp [Energy.value]
  | cons t rest ih =>
    have h1 := (powerFloor_spec p (he t List.mem_cons_self)).1
    have h2 := ih fun u hu => he u (List.mem_cons_of_mem _ hu)
    simp only [Energy.value, List.map_cons, List.sum_cons, Nat.cast_add, Nat.cast_mul] at h2 ⊢
    rw [mul_add]
    refine add_le_add ?_ h2
    calc (t.2 : ℝ) * powerFloor p t.1 ≤ t.2 * (2 ^ p * root ^ t.1) := by gcongr
      _ = _ := by ring

theorem Energy.le_upper {e : Energy} (he : ∀ t ∈ e, t.1 < 100) (p : ℕ) : 2 ^ p * e.value ≤ (e.upper p : ℝ) := by
  rw [Energy.upper, foldl_add_eq, Nat.zero_add]
  induction e with
  | nil => simp [Energy.value]
  | cons t rest ih =>
    have h1 := (powerFloor_spec p (he t List.mem_cons_self)).2.le
    have h2 := ih fun u hu => he u (List.mem_cons_of_mem _ hu)
    simp only [Energy.value, List.map_cons, List.sum_cons, Nat.cast_add, Nat.cast_mul, Nat.cast_one] at h2 ⊢
    rw [mul_add]
    refine add_le_add ?_ h2
    calc (2 : ℝ) ^ p * (t.2 * root ^ t.1) = t.2 * (2 ^ p * root ^ t.1) := by ring
      _ ≤ _ := by gcongr

theorem Energy.upper_eq (e : Energy) (p : ℕ) : e.upper p = e.lower p + e.counts := by
  rw [Energy.upper, Energy.lower, foldl_add_eq, foldl_add_eq, Energy.counts]
  induction e with
  | nil => rfl
  | cons t rest ih => simp only [List.map_cons, List.sum_cons, Nat.zero_add] at ih ⊢; rw [ih]; ring

theorem Energy.upper_strict {e : Energy} (he : e.Canonical) (hne : e ≠ []) (p : ℕ) :
    2 ^ p * e.value < (e.upper p : ℝ) := by
  cases e with
  | nil => exact absurd rfl hne
  | cons t rest =>
    have ht := he.2 t List.mem_cons_self
    have h1 := (powerFloor_spec p ht.1).2
    have h2 := Energy.le_upper (e := rest) (fun u hu => (he.2 u (List.mem_cons_of_mem _ hu)).1) p
    rw [Energy.upper, foldl_add_eq, Nat.zero_add] at h2 ⊢
    simp only [Energy.value, List.map_cons, List.sum_cons, Nat.cast_add, Nat.cast_mul, Nat.cast_one] at h2 ⊢
    rw [mul_add]
    refine add_lt_add_of_lt_of_le ?_ h2
    have hc : (0 : ℝ) < t.2 := by exact_mod_cast ht.2
    calc (2 : ℝ) ^ p * (t.2 * root ^ t.1) = t.2 * (2 ^ p * root ^ t.1) := by ring
      _ < _ := by gcongr

/-! ### The comparison -/

/-- A comparison that is decided is right. -/
theorem Energy.compareAt_sound {e : Energy} (he : e.Canonical) {k : ℕ} (hk : k < 100) {p c : ℕ} {answer : Bool}
    (h : e.compareAt p k c = some answer) : answer = true ↔ c * root ^ k ≤ e.value := by
  have hf := powerFloor_spec p hk
  have hkeys : ∀ t ∈ e, t.1 < 100 := fun t ht => (he.2 t ht).1
  have hp : (0 : ℝ) < 2 ^ p := by positivity
  rw [Energy.compareAt] at h
  split at h
  · rename_i hle
    cases h
    refine ⟨fun _ => ?_, fun _ => rfl⟩
    have hle : (c : ℝ) * (powerFloor p k + 1) ≤ e.lower p := by exact_mod_cast hle
    have h1 : (2:ℝ) ^ p * (c * root ^ k) ≤ 2 ^ p * e.value :=
      calc (2:ℝ) ^ p * (c * root ^ k) = c * (2 ^ p * root ^ k) := by ring
        _ ≤ c * (powerFloor p k + 1) := by gcongr; exact hf.2.le
        _ ≤ _ := hle.trans (Energy.lower_le hkeys p)
    exact le_of_mul_le_mul_left h1 hp
  · rename_i hnle
    split at h
    · rename_i hle
      cases h
      refine ⟨fun h => (by cases h), fun hge => ?_⟩
      exfalso
      have hle : (e.upper p : ℝ) ≤ c * powerFloor p k := by exact_mod_cast hle
      have h2 : (c : ℝ) * powerFloor p k ≤ 2 ^ p * (c * root ^ k) :=
        calc (c : ℝ) * powerFloor p k ≤ c * (2 ^ p * root ^ k) := by gcongr; exact hf.1
          _ = _ := by ring
      have h3 : (2:ℝ) ^ p * (c * root ^ k) ≤ 2 ^ p * e.value := by gcongr
      by_cases hne : e = []
      · subst hne
        have hc : c = 0 := by
          by_contra hc
          have : (0:ℝ) < c * root ^ k := by
            have := root_one_lt
            have : (0:ℝ) < c := by exact_mod_cast Nat.pos_of_ne_zero hc
            positivity
          simp only [Energy.value, List.map_nil, List.sum_nil] at hge
          linarith
        exact hnle (by simp [hc])
      · have := Energy.upper_strict he hne p
        linarith
    · cases h

/-- The polynomial of the difference of an exact sum and a single term. -/
noncomputable def Energy.difference (e : Energy) (k c : ℕ) : Polynomial ℤ :=
  (e.map fun t => C (t.2 : ℤ) * X ^ t.1).sum - C (c : ℤ) * X ^ k

theorem Energy.aeval_difference {A : Type} [CommRing A] (e : Energy) (k c : ℕ) (z : A) :
    aeval z (e.difference k c) = (e.map fun t => (t.2 : A) * z ^ t.1).sum - c * z ^ k := by
  rw [Energy.difference, map_sub, map_list_sum, List.map_map]
  congr 1
  · congr 1
    refine List.map_congr_left fun t _ => ?_
    simp
  · simp

theorem Energy.coeff_terms (e : Energy) (i : ℕ) :
    (e.map fun t : ℕ × ℕ => C (t.2 : ℤ) * X ^ t.1).sum.coeff i = (e.map fun t => if t.1 = i then (t.2 : ℤ) else 0).sum := by
  induction e with
  | nil => simp
  | cons t rest ih =>
    rw [List.map_cons, List.sum_cons, coeff_add, ih, List.map_cons, List.sum_cons, coeff_C_mul_X_pow]
    congr 1
    by_cases h : t.1 = i
    · simp [h]
    · simp [h, Ne.symm h]

theorem Energy.natDegree_terms {e : Energy} (he : ∀ t ∈ e, t.1 < 100) :
    (e.map fun t : ℕ × ℕ => C (t.2 : ℤ) * X ^ t.1).sum.natDegree < 100 := by
  induction e with
  | nil => simp
  | cons t rest ih =>
    rw [List.map_cons, List.sum_cons]
    exact lt_of_le_of_lt (natDegree_add_le _ _)
      (max_lt (lt_of_le_of_lt (natDegree_C_mul_X_pow_le _ _) (he t List.mem_cons_self))
        (ih fun u hu => he u (List.mem_cons_of_mem _ hu)))

/-- Two exact sums in their one form that agree in every power are the same. -/
theorem Energy.difference_ne_zero {e : Energy} (he : e.Canonical) {k c : ℕ} (hc : 0 < c) (hne : e ≠ [(k, c)]) :
    e.difference k c ≠ 0 := by
  intro h0
  have hco (i : ℕ) : (e.map fun t => if t.1 = i then (t.2 : ℤ) else 0).sum = if i = k then (c : ℤ) else 0 := by
    have := congrArg (fun q => coeff q i) h0
    simp only [Energy.difference, coeff_sub, coeff_zero, coeff_C_mul_X_pow] at this
    rw [Energy.coeff_terms] at this
    linarith
  have hnonneg (l : Energy) (i : ℕ) : 0 ≤ (l.map fun t => if t.1 = i then (t.2 : ℤ) else 0).sum := by
    refine List.sum_nonneg fun x hx => ?_
    obtain ⟨t, -, rfl⟩ := List.mem_map.1 hx
    split <;> simp
  obtain ⟨hp, hm⟩ := he
  cases e with
  | nil =>
    have := hco k
    simp at this
    omega
  | cons t rest =>
    rw [List.pairwise_cons] at hp
    have htail (l : Energy) (i : ℕ) (hl : ∀ u ∈ l, u.1 ≠ i) :
        (l.map fun t => if t.1 = i then (t.2 : ℤ) else 0).sum = 0 := by
      refine List.sum_eq_zero fun x hx => ?_
      obtain ⟨u, hu, rfl⟩ := List.mem_map.1 hx
      exact if_neg (hl u hu)
    have h1 := hco t.1
    have hz := htail rest t.1 fun u hu => (hp.1 u hu).ne'
    rw [List.map_cons, List.sum_cons, if_pos rfl, hz] at h1
    have hpos := (hm t List.mem_cons_self).2
    have hk : t.1 = k := by
      by_contra hn
      rw [if_neg hn] at h1
      omega
    rw [if_pos hk] at h1
    cases rest with
    | nil => exact hne (by rw [← hk, show c = t.2 by omega])
    | cons u rest =>
      have h2 := hco u.1
      have hlt : t.1 < u.1 := hp.1 u List.mem_cons_self
      rw [if_neg (by omega), List.map_cons, List.sum_cons, if_neg (by omega), List.map_cons, List.sum_cons,
        if_pos rfl] at h2
      have := hnonneg rest u.1
      have := (hm u (List.mem_cons_of_mem _ List.mem_cons_self)).2
      omega

theorem pow_le_ten {x : ℝ} (h0 : 0 ≤ x) (h : x ^ 100 = 10) {k : ℕ} (hk : k < 100) : x ^ k ≤ 10 := by
  by_cases h1 : x ≤ 1
  · exact (pow_le_one₀ h0 h1).trans (by norm_num)
  · rw [← h]
    exact pow_le_pow_right₀ (by linarith) hk.le

theorem Energy.norm_terms_le {e : Energy} (he : ∀ t ∈ e, t.1 < 100) {z : ℂ} (hz : ‖z‖ ^ 100 = 10) :
    ‖(e.map fun t => (t.2 : ℂ) * z ^ t.1).sum‖ ≤ 10 * e.counts := by
  induction e with
  | nil => simp [Energy.counts]
  | cons t rest ih =>
    have h1 := ih fun u hu => he u (List.mem_cons_of_mem _ hu)
    have h2 := pow_le_ten (norm_nonneg z) hz (he t List.mem_cons_self)
    simp only [Energy.counts, List.map_cons, List.sum_cons, Nat.cast_add] at h1 ⊢
    refine (norm_add_le _ _).trans ?_
    rw [mul_add]
    refine add_le_add ?_ h1
    rw [norm_mul, norm_pow, Complex.norm_natCast, mul_comm 10]
    gcongr

/-- Unequal sums are told apart at `exactPlaces` binary places. -/
theorem Energy.compareAt_exact {e : Energy} (he : e.Canonical) {k c : ℕ} (hk : k < 100) (hc : 0 < c)
    (hne : e ≠ [(k, c)]) : e.compareAt (e.exactPlaces c) k c ≠ none := by
  intro hnone
  have hkeys : ∀ t ∈ e, t.1 < 100 := fun t ht => (he.2 t ht).1
  obtain ⟨S, hS⟩ : ∃ S : ℕ, S = 10 * e.counts + 10 * c := ⟨_, rfl⟩
  have hplaces : e.exactPlaces c = 100 * (Nat.log2 S + 2) + 16 := by
    rw [Energy.exactPlaces, foldl_add_eq, hS, Energy.counts, List.sum_map_mul_left, Nat.add_comm (10 * c)]
  generalize e.exactPlaces c = p at hnone hplaces
  have hf := powerFloor_spec p hk
  rw [Energy.compareAt] at hnone
  split at hnone
  · cases hnone
  rename_i h1
  split at hnone
  · cases hnone
  rename_i h2
  rw [Energy.upper_eq] at h2
  have h1 : (e.lower p : ℝ) < c * (powerFloor p k + 1) := by exact_mod_cast not_le.1 h1
  have h2 : (c : ℝ) * powerFloor p k < e.lower p + e.counts := by exact_mod_cast not_le.1 h2
  have hlow := Energy.lower_le hkeys p
  have hupp := Energy.le_upper hkeys p
  rw [Energy.upper_eq, Nat.cast_add] at hupp
  have hcr : (0 : ℝ) < c := by exact_mod_cast hc
  have hc1 : (c : ℝ) * powerFloor p k ≤ 2 ^ p * (c * root ^ k) := by
    calc (c : ℝ) * powerFloor p k ≤ c * (2 ^ p * root ^ k) := by gcongr; exact hf.1
      _ = _ := by ring
  have hc2 : 2 ^ p * (c * root ^ k) ≤ c * (powerFloor p k + 1) := by
    calc (2 : ℝ) ^ p * (c * root ^ k) = c * (2 ^ p * root ^ k) := by ring
      _ ≤ _ := by gcongr; exact hf.2.le
  have hclose : 2 ^ p * |e.value - c * root ^ k| < S := by
    rw [← abs_of_pos (show (0 : ℝ) < 2 ^ p by positivity), ← abs_mul, mul_sub, abs_lt]
    have hcnt : (0 : ℝ) ≤ e.counts := by positivity
    rw [hS]
    push_cast
    constructor <;> linarith
  have hdeg : (e.difference k c).natDegree < 100 := by
    exact lt_of_le_of_lt (natDegree_sub_le _ _)
      (max_lt (Energy.natDegree_terms hkeys) (lt_of_le_of_lt (natDegree_C_mul_X_pow_le _ _) hk))
  have hbound := root_bound (n := 100) (by norm_num) (e.difference k c) (Energy.difference_ne_zero he hc hne) hdeg
    (S := S) (fun z hz => by
      rw [Energy.aeval_difference, hS]
      refine (norm_sub_le _ _).trans ?_
      push_cast
      refine add_le_add (Energy.norm_terms_le hkeys hz) ?_
      rw [norm_mul, norm_pow, Complex.norm_natCast, mul_comm (10 : ℝ)]
      gcongr
      exact pow_le_ten (norm_nonneg z) hz hk) root_hundred
  rw [Energy.aeval_difference, show 100 - 1 = 99 from rfl] at hbound
  have hSpos : (0 : ℝ) < S := by rw [hS]; push_cast; positivity
  have hbig : (2 : ℝ) ^ p < S ^ 100 := by
    calc (2 : ℝ) ^ p ≤ 2 ^ p * (|e.value - c * root ^ k| * S ^ 99) := le_mul_of_one_le_right (by positivity) hbound
      _ = (2 ^ p * |e.value - c * root ^ k|) * S ^ 99 := by ring
      _ < S * S ^ 99 := by gcongr
      _ = S ^ 100 := by ring
  have hlog : (S : ℝ) ≤ 2 ^ (Nat.log2 S + 1) := by exact_mod_cast (Nat.lt_log2_self (n := S)).le
  refine absurd hbig (not_lt.2 ((pow_le_pow_left₀ hSpos.le hlog 100).trans ?_))
  rw [← pow_mul]
  exact pow_le_pow_right₀ (by norm_num) (by omega)

/-- The comparison of an exact sum with a single energy is exact. -/
theorem Energy.atLeast_iff {e : Energy} (he : e.Canonical) {k c : ℕ} (hk : k < 100) (hc : 0 < c) :
    e.atLeast k c = true ↔ c * root ^ k ≤ e.value := by
  rw [Energy.atLeast]
  by_cases hne : e = [(k, c)]
  · rw [if_pos hne]
    simp [hne, Energy.value]
  · rw [if_neg hne]
    cases h64 : e.compareAt 64 k c with
    | some answer => exact Energy.compareAt_sound he hk h64
    | none =>
      cases h512 : e.compareAt 512 k c with
      | some answer => exact Energy.compareAt_sound he hk h512
      | none =>
        cases h : e.compareAt (e.exactPlaces c) k c with
        | none => exact absurd h (Energy.compareAt_exact he hk hc hne)
        | some answer => exact Energy.compareAt_sound he hk h

/-! ### The level of a mean -/

/-- The exact sum of the energies of some levels, each with its weight, added to a sum. -/
theorem Energy.value_foldl {α : Type} (level weight : α → ℕ) (xs : List α) (e : Energy) :
    (xs.foldl (fun e x => e.add (level x) (weight x)) e).value
      = e.value + (xs.map fun x => (weight x : ℝ) * energyOf (level x)).sum := by
  induction xs generalizing e with
  | nil => simp
  | cons x xs ih => rw [List.foldl_cons, ih, Energy.value_add, List.map_cons, List.sum_cons]; ring

theorem Energy.canonical_foldl {α : Type} (level weight : α → ℕ) (xs : List α) {e : Energy} (he : e.Canonical) :
    (xs.foldl (fun e x => e.add (level x) (weight x)) e).Canonical := by
  induction xs generalizing e with
  | nil => exact he
  | cons x xs ih => exact ih (Energy.canonical_add he _ _)

theorem energyOf_mono {a b : ℕ} (h : a ≤ b) : energyOf a ≤ energyOf b := by
  rw [← root_pow, ← root_pow]
  exact pow_le_pow_right₀ root_one_lt.le h

theorem energyOf_strict {a b : ℕ} (h : a < b) : energyOf a < energyOf b := by
  rw [← root_pow, ← root_pow]
  exact pow_lt_pow_right₀ root_one_lt h

/-- The level of an exact sum divided by a count is that of the mean (section 6.2). -/
theorem Energy.meanLevel_isMeanLevel {e : Energy} (he : e.Canonical) {terms : List (ℕ × ℕ)} {count : ℕ}
    (hv : e.value = (terms.map fun t => (t.2 : ℝ) * energyOf t.1).sum) (hcount : (terms.map (·.2)).sum = count)
    (hpos : 0 < count) (hl : ∀ t ∈ terms, t.1 ≤ 1400) : IsMeanLevel terms (e.meanLevel count) := by
  have hp (l : ℕ) : e.atLeast (l % 100) (count * 10 ^ (l / 100)) = true ↔ count * energyOf l ≤ e.value := by
    rw [Energy.atLeast_iff he (Nat.mod_lt _ (by norm_num)) (by positivity), ← root_pow l]
    conv_rhs => rw [← Nat.div_add_mod l 100, pow_add, pow_mul, root_hundred]
    push_cast
    rw [mul_assoc]
  have hcr : (0 : ℝ) < count := by exact_mod_cast hpos
  have hspec := greatest_spec 11 (fun l => e.atLeast (l % 100) (count * 10 ^ (l / 100))) 0 (by
    intro i j hij h
    rw [hp] at h ⊢
    refine le_trans ?_ h
    gcongr
    exact energyOf_mono hij)
  have hb := (greatest_bounds 11 (fun l => e.atLeast (l % 100) (count * 10 ^ (l / 100))) 0).2
  rw [← Energy.meanLevel] at hspec hb
  have hlow : count * energyOf 0 ≤ e.value := by
    rw [hv, ← hcount]
    clear hv hcount hp hspec hb
    induction terms with
    | nil => simp
    | cons t rest ih =>
      have := ih fun u hu => hl u (List.mem_cons_of_mem _ hu)
      simp only [List.map_cons, List.sum_cons, Nat.cast_add, add_mul]
      refine add_le_add ?_ this
      gcongr
      exact energyOf_mono (Nat.zero_le _)
  have hhigh : e.value ≤ count * energyOf 1400 := by
    rw [hv, ← hcount]
    clear hv hcount hp hspec hb hlow
    induction terms with
    | nil => simp
    | cons t rest ih =>
      have := ih fun u hu => hl u (List.mem_cons_of_mem _ hu)
      simp only [List.map_cons, List.sum_cons, Nat.cast_add, add_mul]
      refine add_le_add ?_ this
      gcongr
      exact energyOf_mono (hl t List.mem_cons_self)
  rw [IsMeanLevel, hcount, ← hv]
  refine ⟨?_, ?_⟩
  · rcases hspec.1 with h | h
    · rw [h]; exact hlow
    · exact (hp _).1 h
  · by_cases hlt : e.meanLevel count + 1 < 2048
    · have := hspec.2 _ (Nat.lt_succ_self _) (by simpa using hlt)
      exact lt_of_not_ge fun h => absurd ((hp _).2 h) (by rw [Nat.succ_eq_add_one] at this; simp [this])
    · refine hhigh.trans_lt ?_
      gcongr
      exact energyOf_strict (by omega)

end Sys2Proof.Machine
end

