-- ==== Sys2Proof/Laws/Links.lean ====
section
/-! SUPPORT. What the receiver does over the bits of a frame, and what a completed message does, said once. -/

namespace Sys2Proof.Machine

/-! ### The carrier over bits -/

/-- The end of a bit period touches the carrier count alone (R149). -/
theorem Lrx.endPeriod_writes (l : Lrx) :
    l.endPeriod = { l with carrier := if l.changed then 0 else min 432 (l.carrier + 1), changed := false } := by
  obtain ⟨_, _, _, _, _, _, _, changed, _, _, _⟩ := l
  cases changed <;> rfl

/-- A bit period: the line takes the level of the bit, and the carrier count is 0 after a change and one more
without (R149). -/
theorem Lrx.track_eq (l : Lrx) (bit : Bool) :
    l.track bit = { l with
      carrier := if bit ≠ l.lineLevel ∨ l.changed = true then 0 else min 432 (l.carrier + 1)
      lineLevel := bit, changed := false } := by
  rw [Lrx.track, Lrx.endPeriod_writes]
  by_cases h : bit = l.lineLevel
  · subst h
    cases hc : l.changed <;> simp [hc]
  · have : (!l.lineLevel) = bit := by cases bit <;> cases hl : l.lineLevel <;> simp_all
    simp [h, Lrx.change, this]

theorem Lrx.track_carrier_le (l : Lrx) (bit : Bool) : (l.track bit).carrier ≤ 432 := by
  rw [Lrx.track_eq]
  dsimp only
  split
  · omega
  · exact Nat.min_le_left _ _

/-- Following the carrier touches what it counts alone (R149). -/
theorem Lrx.track_keeps (l : Lrx) (bits : List Bool) :
    bits.foldl Lrx.track l = { l with
      carrier := (bits.foldl Lrx.track l).carrier
      lineLevel := (bits.foldl Lrx.track l).lineLevel
      changed := (bits.foldl Lrx.track l).changed } := by
  induction bits generalizing l with
  | nil => rfl
  | cons bit rest ih => rw [List.foldl_cons, ih, Lrx.track_eq]

theorem Lrx.keepsCarrier_append (l : Lrx) (before after : List Bool) :
    l.keepsCarrier (before ++ after)
      = (l.keepsCarrier before && (before.foldl Lrx.track l).keepsCarrier after) := by
  induction before generalizing l with
  | nil => simp [Lrx.keepsCarrier]
  | cons bit rest ih => simp only [List.cons_append, Lrx.keepsCarrier, ih, List.foldl_cons, Bool.and_assoc]

theorem Lrx.track_one_mismatches (l : Lrx) (count : Nat) (bit : Bool) :
    ({ l with mismatches := count } : Lrx).track bit = { l.track bit with mismatches := count } := by
  rw [Lrx.track_eq, Lrx.track_eq]

/-- The carrier does not read the mismatch count. -/
theorem Lrx.track_mismatches (l : Lrx) (count : Nat) (bits : List Bool) :
    bits.foldl Lrx.track { l with mismatches := count } = { bits.foldl Lrx.track l with mismatches := count } := by
  induction bits generalizing l with
  | nil => rfl
  | cons bit rest ih =>
    rw [List.foldl_cons, List.foldl_cons, ← ih, Lrx.track_one_mismatches]

theorem Lrx.keepsCarrier_mismatches (l : Lrx) (count : Nat) (bits : List Bool) :
    ({ l with mismatches := count } : Lrx).keepsCarrier bits = l.keepsCarrier bits := by
  induction bits generalizing l with
  | nil => rfl
  | cons bit rest ih =>
    rw [Lrx.keepsCarrier, Lrx.keepsCarrier, Lrx.track_one_mismatches, ih]

/-! ### Received bits -/

/-- Outside NO_CARRIER a bit period follows the carrier alone (R149). -/
theorem State.passPeriod_of_carrier {s : State} (h : s.lrx.receiver ≠ .noCarrier) (bit : Bool) :
    s.passPeriod bit = { s with lrx := s.lrx.track bit } := by
  unfold State.passPeriod Lrx.track
  by_cases hb : bit = s.lrx.lineLevel
  · simp only [hb, if_true]
  · have : s.lineChange = { s with lrx := s.lrx.change } := by
      rw [State.lineChange]
      exact congrArg (fun l => ({ s with lrx := l } : State)) (if_neg h)
    simp only [hb, if_false, this]

/-- A bit that keeps the carrier is examined (R149 to R151). -/
theorem State.receiveBits_examine {s : State} (h : s.lrx.receiver ≠ .noCarrier) {bit : Bool}
    (hc : (s.lrx.track bit).carrier < 432) (rest : List Bool) :
    s.receiveBits (bit :: rest)
      = (({ s with lrx := s.lrx.track bit } : State).examineBit bit).receiveBits rest := by
  rw [State.receiveBits, State.passPeriod_of_carrier h]
  exact if_neg (by dsimp only [Config.frameBits]; omega)

/-- A bit that brings the carrier count to 432 is the loss of the carrier (R149). -/
theorem State.receiveBits_lose {s : State} (h : s.lrx.receiver ≠ .noCarrier) {bit : Bool}
    (hc : (s.lrx.track bit).carrier = 432) (rest : List Bool) :
    s.receiveBits (bit :: rest)
      = (({ s with lrx := s.lrx.track bit } : State).loseCarrier).receiveBits rest := by
  rw [State.receiveBits, State.passPeriod_of_carrier h]
  exact if_pos hc

theorem State.receiveBits_append (s : State) (before after : List Bool) :
    s.receiveBits (before ++ after) = (s.receiveBits before).receiveBits after := by
  induction before generalizing s with
  | nil => rfl
  | cons bit rest ih =>
    rw [List.cons_append, State.receiveBits, State.receiveBits]
    split <;> exact ih _

/-- In LOCKED, bits that keep the carrier are followed and not examined (R149, R153). -/
theorem State.receiveBits_of_locked {s : State} (hr : s.lrx.receiver = .locked) {bits : List Bool}
    (hc : s.lrx.keepsCarrier bits = true) :
    s.receiveBits bits = { s with lrx := bits.foldl Lrx.track s.lrx } := by
  induction bits generalizing s with
  | nil => rfl
  | cons bit rest ih =>
    rw [Lrx.keepsCarrier, Bool.and_eq_true, decide_eq_true_eq] at hc
    have ht : (s.lrx.track bit).receiver = .locked := by rw [Lrx.track_eq]; exact hr
    have he : ({ s with lrx := s.lrx.track bit } : State).examineBit bit = { s with lrx := s.lrx.track bit } := by
      simp [State.examineBit, Lrx.examine, ht]
    rw [State.receiveBits_examine (by rw [hr]; decide) hc.1, he, ih ht hc.2]
    rfl

/-- In LOCKED, the bit that brings the carrier count to 432 takes LRX to NO_CARRIER, and the rest is received there
(R149). -/
theorem State.receiveBits_of_lost {s : State} (hr : s.lrx.receiver = .locked) {before after : List Bool} {bit : Bool}
    (hc : s.lrx.keepsCarrier before = true) (hl : ((before ++ [bit]).foldl Lrx.track s.lrx).carrier = 432) :
    s.receiveBits (before ++ bit :: after)
      = (({ s with lrx := (before ++ [bit]).foldl Lrx.track s.lrx } : State).loseCarrier).receiveBits after := by
  rw [List.foldl_append] at hl ⊢
  have hn : (before.foldl Lrx.track s.lrx).receiver ≠ .noCarrier := by rw [Lrx.track_keeps]; simp [hr]
  rw [State.receiveBits_append, State.receiveBits_of_locked hr hc]
  exact State.receiveBits_lose (s := { s with lrx := before.foldl Lrx.track s.lrx }) hn hl after

/-! ### How far a receiver is from the lock -/

/-- No fewer than `n` + 1 further bits can bring the receiver to LOCKED: it is not there, and in CONFIRM that many are
still to be kept. -/
def Lrx.BitsFromLock (n : Nat) (l : Lrx) : Prop :=
  l.receiver ≠ .locked ∧ (l.receiver = .confirm → l.kept.length + n < 432)

theorem Lrx.bitsFromLock_of_lost {l : Lrx} (h : l.receiver = .noCarrier) (n : Nat) : l.BitsFromLock n := by
  refine ⟨?_, ?_⟩ <;> rw [h] <;> simp

/-- A bit brings the receiver one bit nearer to the lock at most. -/
theorem Lrx.bitsFromLock_examine {n : Nat} (hn : n < 432) {l : Lrx} (h : l.BitsFromLock (n + 1)) (bit : Bool) :
    (l.examine bit).BitsFromLock n := by
  unfold Lrx.examine
  split
  · rename_i hr
    generalize (l.window <<< 1 ||| (if bit = true then (1 : LinkWord) else 0)) = window
    by_cases hf : min 24 (l.seen + 1) = 24 ∧ window = Config.syncWord
    · rw [if_pos hf]
      exact ⟨by simp, by simpa using hn⟩
    · rw [if_neg hf]
      exact ⟨by simp [hr], by simp [hr]⟩
  · rename_i hr
    refine ⟨by simp [hr], fun _ => ?_⟩
    have := h.2 hr
    simp
    omega
  · rename_i hr
    exact Lrx.bitsFromLock_of_lost hr n
  · rename_i hr
    exact absurd hr h.1

/-- Fewer bits than it takes do not bring the receiver to LOCKED (R150, R151). -/
theorem State.receiveBits_not_locked {s : State} {bits : List Bool} (hl : bits.length < 432)
    (h : s.lrx.BitsFromLock bits.length) : (s.receiveBits bits).lrx.receiver ≠ .locked := by
  induction bits generalizing s with
  | nil => exact h.1
  | cons bit rest ih =>
    rw [List.length_cons] at hl h
    have hp : (s.passPeriod bit).lrx.BitsFromLock (rest.length + 1) := by
      unfold State.passPeriod
      dsimp only
      rw [Lrx.endPeriod_writes]
      split
      · exact h
      · unfold State.lineChange
        dsimp only
        split
        · exact ⟨by simp [Lrx.beginSearch], by simp [Lrx.beginSearch]⟩
        · exact h
    rw [State.receiveBits]
    generalize s.passPeriod bit = u at *
    split
    · refine ih (by omega) ?_
      unfold State.loseCarrier
      split
      · rename_i hr
        exact Lrx.bitsFromLock_of_lost hr _
      · exact Lrx.bitsFromLock_of_lost rfl _
    · refine ih (by omega) ?_
      have he := Lrx.bitsFromLock_examine (by omega) hp bit
      unfold State.examineBit
      dsimp only
      rw [if_neg]
      · exact he
      · rintro ⟨hc, hk⟩
        have := he.2 hc
        dsimp only [Config.frameBits] at hk
        omega

/-! ### The sync position and the frame -/

/-- A sync position that neither loses the carrier nor is the fourth mismatch (R153). -/
theorem State.takeSync_of_kept {s : State} {sync : LinkWord} (hr : s.lrx.receiver = .locked)
    (hs : sync = Config.syncWord ∨ s.lrx.mismatches < 3) (hc : s.lrx.keepsCarrier (wordBits sync) = true) :
    s.takeSync sync = { s with lrx := { (wordBits sync).foldl Lrx.track s.lrx with
      mismatches := mismatchesAfter s.lrx.mismatches sync } } := by
  have hm : ((wordBits sync).foldl Lrx.track s.lrx).mismatches = s.lrx.mismatches := by rw [Lrx.track_keeps]
  have hlt : ¬ 4 ≤ mismatchesAfter s.lrx.mismatches sync := by
    unfold mismatchesAfter
    rcases hs with hs | hs
    · rw [if_pos hs]; omega
    · split <;> omega
  rw [State.takeSync, State.receiveBits_of_locked hr hc]
  dsimp only
  rw [if_pos (by rw [Lrx.track_keeps]; exact hr), State.judgeSync]
  dsimp only
  rw [hm, if_neg hlt]

/-- A frame in LOCKED whose sync position keeps the lock and whose bits keep the carrier is taken (R149, R153, R155). -/
theorem State.programFrame_of_kept {s : State} {sync lane : LinkWord} {samples : Samples}
    (hr : s.lrx.receiver = .locked) (hs : sync = Config.syncWord ∨ s.lrx.mismatches < 3)
    (hc : s.lrx.keepsCarrier (wordBits sync ++ bodyBits samples lane) = true) :
    s.programFrame sync samples lane
      = (({ s with lrx := { (wordBits sync ++ bodyBits samples lane).foldl Lrx.track s.lrx with
            mismatches := mismatchesAfter s.lrx.mismatches sync } } : State).pushFifo samples).assemble lane := by
  rw [Lrx.keepsCarrier_append, Bool.and_eq_true] at hc
  have hl : ((wordBits sync).foldl Lrx.track s.lrx).receiver = .locked := by rw [Lrx.track_keeps]; exact hr
  rw [State.programFrame, State.takeSync_of_kept hr hs hc.1]
  dsimp only
  rw [if_pos hl, State.takeFrame, State.receiveBits_of_locked hl (by rw [Lrx.keepsCarrier_mismatches]; exact hc.2)]
  dsimp only
  rw [Lrx.track_mismatches, ← List.foldl_append, if_pos (by dsimp only; rw [Lrx.track_keeps]; exact hr)]

/-- A lane word that completes no message touches the assembler and LANE_PARITY alone (R170 to R172). -/
theorem State.assemble_keeps {s : State} {word : LinkWord}
    (h : ∀ p, s.lrx.assembler = .collecting p → p.expected ≤ 1 → p.damaged = false → laneGood word = true → False) :
    s.assemble word = { s with lrx := { s.lrx with
      assembler := (s.assemble word).lrx.assembler
      flags := { s.lrx.flags with laneParity := (s.assemble word).lrx.flags.laneParity } } } := by
  unfold State.assemble
  dsimp only
  cases ha : s.lrx.assembler with
  | idle =>
    dsimp only
    split
    · rfl
    · unfold State.takeHeader
      dsimp only
      split
      · rfl
      · split <;> rfl
  | skip =>
    dsimp only
    split <;> rfl
  | collecting p =>
    dsimp only [State.collect]
    split
    · rename_i he
      unfold State.endMessage
      dsimp only
      split
      · rfl
      · rename_i hd
        have hd : (p.damaged || !laneGood word) = false := by simpa using hd
        rw [Bool.or_eq_false_iff] at hd
        exact absurd (h p ha (by omega) hd.1 (by simpa using hd.2)) id
    · rfl

/-! ### Messages -/

/-- A command that is a message is the arrival of that message (R173, log 2). -/
theorem exec_of_messageOf {c : Instr} {m : Message} (h : messageOf c = some m) (s : State) :
    exec c s = s.receive m := by
  cases c <;> simp only [messageOf] at h <;> first
    | (cases h; done)
    | (cases h; rfl)
    | (split at h
       · rename_i hl
         cases h
         exact if_pos hl
       · cases h)

end Sys2Proof.Machine
end

