-- ==== Sys2Proof/Laws/Messages.lean ====
section
/-! SUPPORT. The words of messages: 32-bit values as pairs of words, the tag word, words of flags, and a request that
reaches a listening part. -/

namespace Sys2Proof

/-- The value of the two words of a value. -/
theorem joinSlot_split (v : Slot) : joinSlot ((v >>> 16).setWidth 16) (v.setWidth 16) = v := by
  ext i hi
  simp only [joinSlot, BitVec.getElem_or, BitVec.getElem_shiftLeft, BitVec.getElem_setWidth, BitVec.getLsbD_setWidth,
    BitVec.getLsbD_ushiftRight]
  by_cases h : i < 16
  · simp [h, hi]
  · have h1 : i - 16 < 16 := by omega
    have h2 : 16 + (i - 16) = i := by omega
    have h3 : i - 16 < 32 := by omega
    simp [h, h1, h2, BitVec.getLsbD_eq_getElem hi]

/-- The high word of a value put together from two. -/
theorem joinSlot_high (a b : Word16) : ((joinSlot a b) >>> 16).setWidth 16 = a := by
  ext i hi
  have h1 : 16 + i < 32 := by omega
  have h2 : ¬ (16 + i < 16) := by omega
  have h3 : 16 + i - 16 = i := by omega
  simp [joinSlot, hi, h1, h2, h3]

/-- The low word of a value put together from two. -/
theorem joinSlot_low (a b : Word16) : (joinSlot a b).setWidth 16 = b := by
  ext i hi
  simp [joinSlot]

/-- Values split into words are read back. -/
theorem joinSlots_split (values : List Slot) : joinSlots (values.flatMap splitSlot) = values := by
  induction values with
  | nil => rfl
  | cons v rest ih =>
    simp only [List.flatMap_cons, splitSlot, List.cons_append, List.nil_append, joinSlots, ih, joinSlot_split]

/-- The high byte of a tag word is zero. -/
theorem tagWord_high (tag : Byte) : tagWord tag >>> 8 = 0 := by
  ext i hi
  simp only [tagWord, BitVec.getElem_ushiftRight, BitVec.getLsbD_setWidth]
  simp

/-- The low byte of a tag word is the tag. -/
theorem tagWord_low (tag : Byte) : (tagWord tag).setWidth 8 = tag := by
  simp [tagWord]

namespace Machine

/-- The bits of a word of flags. -/
theorem getLsbD_wordOfFlags (flags : List Bool) (i : Nat) :
    (wordOfFlags flags).getLsbD i = (decide (i < 16) && flags.getD i false) := by
  rw [wordOfFlags, BitVec.getLsbD_setWidth, BitVec.getLsbD_ofBoolListLE]

/-- A word's high byte is not zero exactly from 256 up. -/
theorem high_byte_ne_zero (w : Word16) : w >>> 8 ≠ 0 ↔ 256 ≤ w.toNat := by
  have hw := w.isLt
  rw [ne_eq, ← BitVec.toNat_inj, BitVec.toNat_ushiftRight, Nat.shiftRight_eq_div_pow]
  simp only [BitVec.ofNat_eq_ofNat, BitVec.toNat_ofNat]
  omega

/-- The catalogue lists for each kind the lengths that the manual gives it (R185). -/
theorem catalogue_lengths (kind : Byte) :
    (Config.catalogue.find? (·.1 == kind)).map (·.2)
      = if requestLengths kind.toNat = [] then none else some (requestLengths kind.toNat) := by
  have all : ∀ k : Fin 256,
      (Config.catalogue.find? (·.1 == BitVec.ofNat 8 k.val)).map (·.2)
        = if requestLengths k.val = [] then none else some (requestLengths k.val) := by
    decide +kernel
  have h := all ⟨kind.toNat, kind.isLt⟩
  rwa [BitVec.ofNat_toNat, BitVec.setWidth_eq] at h

/-- The header check that a message fails is the one the rule gives (R175). -/
theorem failedHeaderCheck_some (kind : Byte) (words : List Word16) (n : Nat) :
    Config.failedHeaderCheck ⟨kind, words⟩ = some n ↔ FailsHeaderCheck kind words n := by
  have hc := catalogue_lengths kind
  have hw := high_byte_ne_zero (words.headD 0)
  unfold Config.failedHeaderCheck FailsHeaderCheck
  dsimp only
  by_cases hl : requestLengths kind.toNat = []
  · rw [if_pos hl, Option.map_eq_none_iff] at hc
    rw [hc, hl]
    simp [eq_comm]
  · rw [if_neg hl, Option.map_eq_some_iff] at hc
    obtain ⟨⟨k, lengths⟩, hf, he⟩ := hc
    dsimp only at he
    subst he
    rw [hf]
    dsimp only
    by_cases hm : words.length ∈ requestLengths kind.toNat
    · rw [if_neg (by simpa using hm)]
      by_cases hh : words.headD 0 >>> 8 ≠ 0
      · rw [if_pos hh]
        simp only [hl, hm, hw.1 hh, not_true_eq_false, and_false, false_or, and_true, Option.some.injEq]
        exact eq_comm
      · rw [if_neg hh]
        have : ¬ 256 ≤ (words.headD 0).toNat := fun h => hh (hw.2 h)
        simp only [hl, hm, this, not_true_eq_false, and_false, or_self, reduceCtorEq]
    · rw [if_pos (by simpa using hm)]
      simp only [hl, hm, not_false_eq_true, ne_eq, and_true, and_false, false_or, or_false, false_and, Option.some.injEq]
      exact eq_comm

/-- A request that reaches a listening part is taken at once, when its message is read as it. -/
theorem State.receive_request {s : State} (h : s.Listening) (tag : Byte) (r : Request)
    (hr : decodeMessage (encodeRequest tag r) = .ok (tag, r)) :
    s.receive (encodeRequest tag r) = .next (s.takeRequest tag r) := by
  rw [State.receive_listening h, State.takeMessage, hr]

end Machine

end Sys2Proof
end

