-- ==== Sys2Proof/Laws/Order.lean ====
section
/-! SUPPORT. A published set and what comes due of it, zone by zone, and that a mute flag written before the set or after
it leaves the same record (R100, R113, log 27). -/

namespace Sys2Proof.Machine

/-! ### One zone through a published set -/

/-- The record of a zone that a published set finds at `c`. -/
def State.recordTaken (s : State) (z : Fin 8) (c : Controller) : Controller :=
  let item := zoneItem s.ps.working z
  let before := s.zc.standing[z]
  if s.movesAt z then
    { c.apply item.maximum (s.standingAfter z)
        (judgePersistence item.tripLevel s.mb.published[z].peak before.persistence) with
      lastDemand := demandOf s z
      floorLatch := c.floorLatch || (s.floorsAt z && !s.latchesHeld) }
  else if s.tripsAt z then { c with persistence := min 8 (before.persistence + 1), lastDemand := .absent }
  else { c with persistence := 0, lastDemand := .absent }

theorem State.recordAfter_eq (s : State) (z : Fin 8) : s.recordAfter z = s.recordTaken z s.zc.zones[z] := rfl

/-- The record of a zone resolved under the causes of a state. -/
def State.resolved (s : State) (z : Fin 8) (c : Controller) : Controller :=
  resolveZone s.ps.working s.stopCause s.tb.limits z c

/-- The record of a zone that trips. -/
def State.recordTripped (s : State) (z : Fin 8) (c : Controller) : Controller :=
  s.resolved z { c with tripHold := true, persistence := 0, tripLatch := c.tripLatch || !s.latchesHeld }

/-- The record of a zone whose entry into FREE is taken. -/
def Controller.freed (c : Controller) : Controller :=
  if c.state = .hold then { c with state := .free, releaseCount := 0, floorEpisode := false } else c

/-- The record of a zone whose mute flag is written. -/
def State.recordMuted (s : State) (b : Bool) (z : Fin 8) (c : Controller) : Controller :=
  s.resolved z { c with muted := b }

/-- The record of a zone that a published set finds at `c`, once what is due of the set has been taken. -/
def State.recordSettled (s : State) (z : Fin 8) (c : Controller) : Controller :=
  let taken := if s.tripsAt z then s.recordTripped z (s.recordTaken z c) else s.recordTaken z c
  if s.freesAt z ∧ c.disturbed = false then taken.freed else taken

/-- A transition leaves a zone in an enforcement state in one. -/
theorem enforce_sounds (bank : Bank) (maximum : Nat) (d : Demand) (st : Standing) (h : st.state.silencing = false) :
    (enforce bank maximum d st).state.silencing = false := by
  unfold enforce
  split
  · split <;> rfl
  · split
    · split <;> first | rfl | (rename_i hh; simp_all [ZoneState.silencing])
    · split <;> first | rfl | (rename_i hh; simp_all [ZoneState.silencing])

/-- What `State.ZonesResolved` says of one record. -/
abbrev State.HoldsResolved (s : State) (z : Fin 8) (c : Controller) : Prop :=
  match silencingCause s.ps.working s.stopCause s.tb.limits z c with
  | some state => c.state = state ∧ c.attenuation = (zoneItem s.ps.working z).maximum
  | none => c.state.silencing = false ∧ c.attenuation ≤ (zoneItem s.ps.working z).maximum

/-- A resolved zone in an enforcement state has no silencing cause. -/
theorem State.HoldsResolved.sounds {s : State} {z : Fin 8} {c : Controller} (h : s.HoldsResolved z c)
    (hc : c.state.silencing = false) :
    (zoneItem s.ps.working z).enabled = true ∧ s.stopCause = false ∧ c.tripHold = false ∧ c.muted = false
    ∧ silentCause s.ps.working s.tb.limits z = false := by
  unfold State.HoldsResolved silencingCause at h
  cases he : (zoneItem s.ps.working z).enabled <;> cases hs : s.stopCause <;> cases ht : c.tripHold <;>
    cases hm : c.muted <;> cases hq : silentCause s.ps.working s.tb.limits z <;>
    simp only [he, hs, ht, hm, hq, Bool.not_true, Bool.not_false, Bool.false_eq_true, if_true, if_false] at h
  all_goals first | exact ⟨rfl, rfl, rfl, rfl, rfl⟩ | (rw [h.1] at hc; cases hc)

/-! ### The mute flag and the set -/

/-- A mute flag written before or after the demand and the floor latch of a set (R94, R95). -/
theorem State.recordMuted_demand {s : State} {z : Fin 8} {c : Controller} (h : s.HoldsResolved z c) (b : Bool)
    (d : Demand) (latch : Bool) :
    s.recordMuted b z { c with lastDemand := d, floorLatch := c.floorLatch || latch }
      = { s.recordMuted b z c with lastDemand := d, floorLatch := (s.recordMuted b z c).floorLatch || latch } := by
  unfold State.HoldsResolved silencingCause at h
  unfold State.recordMuted State.resolved resolveZone silencingCause
  generalize s.stopCause = stop at *
  generalize silentCause s.ps.working s.tb.limits z = silent at *
  generalize zoneItem s.ps.working z = item at *
  obtain ⟨st, att, mu, th, pc, rc, fe, tl, fl, ld, di⟩ := c
  cases he : item.enabled <;> simp only [he, Bool.not_false, Bool.not_true, Bool.false_eq_true, if_true, if_false] at h ⊢
  · obtain ⟨rfl, -⟩ := h; simp
  · cases stop <;> simp only [Bool.false_eq_true, if_true, if_false] at h ⊢
    · cases th <;> cases b <;> cases silent <;> simp [Controller.silence, Controller.release] <;> (try split) <;> simp
    · obtain ⟨rfl, -⟩ := h; simp

/-- A mute flag written before or after a set that the zone takes in silence (R100). -/
theorem State.recordMuted_silent {s : State} {z : Fin 8} {c : Controller} (h : s.HoldsResolved z c) (b : Bool) :
    s.recordMuted b z { c with persistence := 0, lastDemand := .absent }
      = { s.recordMuted b z c with persistence := 0, lastDemand := .absent } := by
  unfold State.HoldsResolved silencingCause at h
  unfold State.recordMuted State.resolved resolveZone silencingCause
  generalize s.stopCause = stop at *
  generalize silentCause s.ps.working s.tb.limits z = silent at *
  generalize zoneItem s.ps.working z = item at *
  obtain ⟨st, att, mu, th, pc, rc, fe, tl, fl, ld, di⟩ := c
  cases he : item.enabled <;> simp only [he, Bool.not_false, Bool.not_true, Bool.false_eq_true, if_true, if_false] at h ⊢
  · obtain ⟨rfl, -⟩ := h; simp
  · cases stop <;> simp only [Bool.false_eq_true, if_true, if_false] at h ⊢
    · cases th <;> cases b <;> cases silent <;> simp [Controller.silence, Controller.release] <;> (try split) <;> simp
    · obtain ⟨rfl, -⟩ := h; simp

/-- A mute flag written before or after a trip (R94, R105). -/
theorem State.recordMuted_tripped {s : State} {z : Fin 8} {c : Controller} (h : s.HoldsResolved z c) (b : Bool)
    (n : Nat) :
    s.recordMuted b z (s.recordTripped z { c with persistence := n, lastDemand := .absent })
      = s.recordTripped z { s.recordMuted b z c with persistence := n, lastDemand := .absent } := by
  unfold State.HoldsResolved silencingCause at h
  unfold State.recordMuted State.recordTripped State.resolved resolveZone silencingCause
  generalize s.latchesHeld = held
  generalize s.stopCause = stop at *
  generalize silentCause s.ps.working s.tb.limits z = silent at *
  generalize zoneItem s.ps.working z = item at *
  obtain ⟨st, att, mu, th, pc, rc, fe, tl, fl, ld, di⟩ := c
  cases he : item.enabled <;> simp only [he, Bool.not_false, Bool.not_true, Bool.false_eq_true, if_true, if_false] at h ⊢
  · obtain ⟨rfl, -⟩ := h; simp
  · cases stop <;> simp only [Bool.false_eq_true, if_true, if_false] at h ⊢
    · cases th <;> simp only [Bool.false_eq_true, if_true, if_false] at h ⊢
      · cases mu <;> simp only [Bool.false_eq_true, if_true, if_false] at h ⊢
        · cases silent <;> simp only [Bool.false_eq_true, if_true, if_false] at h ⊢
          · cases b <;> cases st <;> simp_all [Controller.silence, ZoneState.silencing]
          · obtain ⟨rfl, -⟩ := h
            cases b <;> simp [Controller.silence]
        · obtain ⟨rfl, -⟩ := h
          cases b <;> cases silent <;> simp [Controller.silence, Controller.release, ZoneState.silencing]
      · obtain ⟨rfl, -⟩ := h; simp
    · obtain ⟨rfl, -⟩ := h; simp

/-- A resolution of a record that an earlier one has marked leaves it marked. -/
theorem State.recordMuted_disturbed (s : State) (b : Bool) (z : Fin 8) {c : Controller} (h : c.disturbed = true) :
    (s.recordMuted b z c).disturbed = true := by
  unfold State.recordMuted State.resolved resolveZone
  split <;> split <;> first | exact h | rfl

/-- The mute flag of a zone that has no silencing cause (R94, R95). -/
theorem State.recordMuted_sounding {s : State} {z : Fin 8} (he : (zoneItem s.ps.working z).enabled = true)
    (hs : s.stopCause = false) (hq : silentCause s.ps.working s.tb.limits z = false) (b : Bool) {c : Controller}
    (hc : c.state.silencing = false) (hm : c.muted = false) (ht : c.tripHold = false) :
    s.recordMuted b z c
      = if b then ({ c with muted := true } : Controller).silence .muted (zoneItem s.ps.working z).maximum else c := by
  obtain ⟨st, att, mu, th, pc, rc, fe, tl, fl, ld, di⟩ := c
  dsimp only at hc hm ht
  subst hm ht
  unfold State.recordMuted State.resolved resolveZone silencingCause
  cases b <;> simp [he, hs, hq, hc]
  intro h; rw [h] at hc; cases hc

theorem Controller.freed_keeps (c : Controller) :
    c.freed.state.silencing = c.state.silencing ∧ c.freed.muted = c.muted ∧ c.freed.tripHold = c.tripHold := by
  unfold Controller.freed
  split
  · rename_i h; rw [h]; exact ⟨rfl, rfl, rfl⟩
  · exact ⟨rfl, rfl, rfl⟩

/-- A mute flag written before a published set, or after it and what came due of it, leaves the same record
(R100, R113). -/
theorem State.recordMuted_settled {s : State} {z : Fin 8} {c : Controller} (b : Bool)
    (hc : StandingAgrees c s.zc.standing[z]) (h : s.HoldsResolved z c) :
    s.recordMuted b z (s.recordSettled z c) = s.recordSettled z (s.recordMuted b z c) := by
  cases hst : s.zc.standing[z].state.silencing with
  | true =>
    have he : s.enforces z = false := by rw [State.enforces, hst]; rfl
    have ht : s.tripsAt z = false := by simp [State.tripsAt, he]
    have hm : s.movesAt z = false := by simp [State.movesAt, he]
    have hf : s.freesAt z = false := by simp [State.freesAt, hm]
    simp only [State.recordSettled, State.recordTaken, hm, ht, hf, Bool.false_eq_true, if_false, false_and]
    exact State.recordMuted_silent h b
  | false =>
    have he : s.enforces z = true := by rw [State.enforces, hst]; rfl
    cases ht : s.tripsAt z with
    | true =>
      have hm : s.movesAt z = false := by simp [State.movesAt, ht]
      have hf : s.freesAt z = false := by simp [State.freesAt, hm]
      simp only [State.recordSettled, State.recordTaken, hm, ht, hf, Bool.false_eq_true, if_true, if_false, false_and]
      exact State.recordMuted_tripped h b _
    | false =>
      have hm : s.movesAt z = true := by simp [State.movesAt, he, ht]
      cases hd : c.disturbed with
      | true =>
        have hd' := s.recordMuted_disturbed b z hd
        simp only [State.recordSettled, State.recordTaken, hm, ht, Controller.apply, hd, hd', Bool.false_eq_true,
          if_true, if_false, Bool.true_eq_false, and_false]
        have key := State.recordMuted_demand h b (demandOf s z) (s.floorsAt z && !s.latchesHeld)
        dsimp only at key
        rw [hd, hd'] at key
        exact key
      | false =>
        have hsound : c.state.silencing = false := by rw [← hc hd]; exact hst
        obtain ⟨h1, h2, h3, h4, h5⟩ := h.sounds hsound
        have hafter : (s.standingAfter z).state.silencing = false := enforce_sounds _ _ _ _ hst
        have hset : (s.recordSettled z c).state.silencing = false ∧ (s.recordSettled z c).muted = false
            ∧ (s.recordSettled z c).tripHold = false := by
          simp only [State.recordSettled, State.recordTaken, hm, ht, Controller.apply, hd, Bool.false_eq_true, if_true,
            if_false, and_true]
          split
          · rw [(Controller.freed_keeps _).1, (Controller.freed_keeps _).2.1, (Controller.freed_keeps _).2.2]
            exact ⟨hafter, h4, h3⟩
          · exact ⟨hafter, h4, h3⟩
        rw [State.recordMuted_sounding h1 h2 h5 b hset.1 hset.2.1 hset.2.2,
          State.recordMuted_sounding h1 h2 h5 b hsound h4 h3]
        cases b with
        | false => rfl
        | true =>
          simp only [if_true, Controller.silence, State.recordSettled, State.recordTaken, hm, ht, Controller.apply, hd,
            Bool.false_eq_true, if_false, and_true, Bool.true_eq_false, and_false, Controller.freed]
          split
          · split <;> simp
          · simp

/-! ### The whole of the set -/

/-- Taking parts of a list while they are due, each with its effect on the record of its own zone alone. -/
theorem foldl_due_zone (list : State → List (Fin 8)) (take : State → Fin 8 → State)
    (f : State → Fin 8 → Controller → Controller) (hlist : ∀ s a, list (take s a) = (list s).filter (· != a))
    (hself : ∀ s a, (take s a).zc.zones[a] = f s a s.zc.zones[a])
    (hother : ∀ s a b, b ≠ a → (take s a).zc.zones[b] = s.zc.zones[b]) (hf : ∀ s a b, f (take s a) b = f s b)
    (xs : List (Fin 8)) (s : State) (y : Fin 8) :
    (xs.foldl (fun s a => if (list s).contains a then take s a else s) s).zc.zones[y]
      = if y ∈ list s ∧ y ∈ xs then f s y s.zc.zones[y] else s.zc.zones[y] := by
  induction xs generalizing s with
  | nil => simp
  | cons x xs ih =>
    rw [List.foldl_cons, ih]
    by_cases hx : x ∈ list s
    · have hfront : (list s).contains x = true := by simpa using hx
      rw [if_pos hfront, hlist, hf]
      by_cases hy : y = x
      · subst hy
        simp only [hself]
        simp [hx]
      · rw [hother _ _ _ hy]
        simp [hy]
    · have hfront : ¬ (list s).contains x = true := by simpa using hx
      rw [if_neg hfront]
      by_cases hy : y = x
      · subst hy; simp [hx]
      · simp [hy]

/-- A trip writes the record of its zone alone, and the TRIP line. -/
theorem State.tripZone_zones (s : State) (z : Fin 8) :
    (s.tripZone z).zc.zones = s.zc.zones.set z (s.recordTripped z s.zc.zones[z]) := by
  unfold State.tripZone; dsimp only; split <;> rfl

/-- An entry into FREE writes the record of its zone alone. -/
theorem State.freeZone_zone (s : State) (z y : Fin 8) :
    (s.freeZone z).zc.zones[y] = if y = z then s.zc.zones[z].freed else s.zc.zones[y] := by
  unfold State.freeZone Controller.freed
  dsimp only
  by_cases hy : y = z
  · subst hy
    rw [if_pos rfl]
    split
    · exact vector_set_self _ _ _
    · rfl
  · rw [if_neg hy]
    split
    · exact vector_set_other _ _ _ _ hy
    · rfl

/-- What is due of a published set does this to the record of a zone (R102, R105). -/
theorem State.finishSet_zone (s : State) (y : Fin 8) :
    s.finishSet.zc.zones[y] =
      (let c := if y ∈ s.due.trips then s.recordTripped y s.zc.zones[y] else s.zc.zones[y]
       if y ∈ s.due.frees then c.freed else c) := by
  have hstale : ∀ xs : List (Fin 12),
      let t := xs.foldl (fun s m => if s.due.stale.contains m then s.makeStale m else s) s
      t.zc = s.zc ∧ t.due.trips = s.due.trips ∧ t.due.frees = s.due.frees ∧ t.recordTripped = s.recordTripped := fun xs =>
    ⟨foldl_keeps State.zc _ (fun s m => by split <;> rfl) xs s,
      foldl_keeps (fun s : State => s.due.trips) _ (fun s m => by split <;> rfl) xs s,
      foldl_keeps (fun s : State => s.due.frees) _ (fun s m => by split <;> rfl) xs s,
      foldl_keeps State.recordTripped _ (fun s m => by split <;> rfl) xs s⟩
  obtain ⟨h1, h2, h3, h4⟩ := hstale s.due.stale
  have hfrees := foldl_keeps (fun s : State => s.due.frees)
    (fun s z => if s.due.trips.contains z then s.tripZone z else s)
    (fun s z => by split <;> simp only [State.tripZone_due])
  have htrips : ∀ (s : State) (a b : Fin 8), (s.tripZone a).recordTripped b = s.recordTripped b := fun s a b => by
    unfold State.tripZone; dsimp only; split <;> rfl
  unfold State.finishSet
  dsimp only
  rw [foldl_due_zone (fun s => s.due.frees) State.freeZone (fun _ _ c => c.freed)
      (fun s z => by rw [State.freeZone_due]) (fun s a => by rw [State.freeZone_zone, if_pos rfl])
      (fun s a b h => by rw [State.freeZone_zone, if_neg h]) (fun _ _ _ => rfl),
    foldl_due_zone (fun s => s.due.trips) State.tripZone State.recordTripped (fun s z => by rw [State.tripZone_due])
      (fun s a => by rw [State.tripZone_zones, vector_set_self])
      (fun s a b h => by rw [State.tripZone_zones, vector_set_other _ _ _ _ h]) htrips]
  simp only [and_self]
  rw [hfrees, h1, h2, h3, h4]

/-- After an interval end and what came due of its set, each zone's record (R98 to R105). -/
theorem State.intervalNow_zone {s : State} (hs : s.Settled) (y : Fin 8) :
    s.intervalNow.finishSet.zc.zones[y]
      = s.publish.formEstimates.countSilence.accumulate.recordSettled y s.zc.zones[y] := by
  generalize hu : s.publish.formEstimates.countSilence.accumulate = u
  have hsame : u.zc.zones = s.zc.zones ∧ u.due.trips = s.due.trips ∧ u.due.frees = s.due.frees := by
    subst hu; exact ⟨rfl, rfl, rfl⟩
  have hnow : s.intervalNow = u.takeSet.countInterval := by subst hu; rfl
  have hkeep := u.takeSet_keeps
  have hzone : s.intervalNow.zc.zones[y] = u.recordTaken y s.zc.zones[y] := by
    rw [hnow]
    show u.takeSet.zc.zones[y] = _
    rw [hkeep, ← hsame.1]
    simp [State.recordAfter_eq]
  have htrips : y ∈ s.intervalNow.due.trips ↔ u.tripsAt y = true := by
    rw [hnow]
    show y ∈ u.takeSet.due.trips ↔ _
    rw [hkeep, hsame.2.1, hs.2.1]
    simp
  have hfrees : y ∈ s.intervalNow.due.frees ↔ u.freesAt y = true ∧ s.zc.zones[y].disturbed = false := by
    rw [hnow]
    show y ∈ u.takeSet.due.frees ↔ _
    rw [hkeep, hsame.2.2, hs.2.2.1, hsame.1]
    simp
  have htripped : s.intervalNow.recordTripped = u.recordTripped := by
    rw [hnow, hkeep]; rfl
  rw [State.finishSet_zone, hzone, htripped, State.recordSettled]
  simp only [htrips, hfrees]

end Sys2Proof.Machine
end

