-- ==== Sys2Proof/Laws/PerInstr.lean ====
section
/-! SUPPORT. A statement made of each command as syntax: the message a request command stands for passes the three
header checks of R175, a well-formed bad request fails one of them, and the other commands stand for no message. -/

namespace Sys2Proof.Laws.HeaderChecks

open Sys2Proof Sys2Proof.Machine

/-- What the header checks make of the message a well-formed command stands for (R175). -/
def Statement (i : Instr) : Prop :=
  i.WellFormed = true → ∀ m, messageOf i = some m →
    (Config.failedHeaderCheck m).isSome
      = match i with
        | .badRequest _ _ => true
        | _ => false

/-- The header checks pass a message of a kind in the catalogue, with a length its entry has and a tag word. -/
theorem passes {kind : Byte} {lengths : List Nat} {tag : Byte} {args : List Word16}
    (hk : Config.catalogue.find? (·.1 == kind) = some (kind, lengths))
    (hl : lengths.contains (args.length + 1) = true) :
    Config.failedHeaderCheck ⟨kind, tagWord tag :: args⟩ = none := by
  simp only [Config.failedHeaderCheck, hk, List.length_cons, hl, List.headD_cons, tagWord_high]
  simp

theorem identify (tag : Byte) : Statement (.identify tag) := by
  intro _ m hm
  cases hm
  rw [encodeRequest, Request.kind, passes (lengths := [1]) (by decide) rfl]
  rfl

theorem status (tag : Byte) : Statement (.status tag) := by
  intro _ m hm
  cases hm
  rw [encodeRequest, Request.kind, passes (lengths := [1]) (by decide) rfl]
  rfl

theorem linkStatus (tag : Byte) : Statement (.linkStatus tag) := by
  intro _ m hm
  cases hm
  rw [encodeRequest, Request.kind, passes (lengths := [1]) (by decide) rfl]
  rfl

theorem alarmStatus (tag : Byte) : Statement (.alarmStatus tag) := by
  intro _ m hm
  cases hm
  rw [encodeRequest, Request.kind, passes (lengths := [1]) (by decide) rfl]
  rfl

theorem clearAlarms (tag : Byte) (mask1 : Word16) (mask2 : Word16) (mask3 : Word16) : Statement (.clearAlarms tag mask1 mask2 mask3) := by
  intro _ m hm
  cases hm
  rw [encodeRequest, Request.kind, passes (lengths := [4]) (by decide) rfl]
  rfl

theorem timeSet (tag : Byte) (minute : Word16) (second : Word16) : Statement (.timeSet tag minute second) := by
  intro _ m hm
  cases hm
  rw [encodeRequest, Request.kind, passes (lengths := [3]) (by decide) rfl]
  rfl

theorem zoneStatus (tag : Byte) (zone : Word16) : Statement (.zoneStatus tag zone) := by
  intro _ m hm
  cases hm
  rw [encodeRequest, Request.kind, passes (lengths := [2]) (by decide) rfl]
  rfl

theorem boundaryStatus (tag : Byte) (boundary : Word16) (selector : Word16) : Statement (.boundaryStatus tag boundary selector) := by
  intro _ m hm
  cases hm
  rw [encodeRequest, Request.kind, passes (lengths := [3]) (by decide) rfl]
  rfl

theorem muteZone (tag : Byte) (zone : Word16) : Statement (.muteZone tag zone) := by
  intro _ m hm
  cases hm
  rw [encodeRequest, Request.kind, passes (lengths := [2]) (by decide) rfl]
  rfl

theorem unmuteZone (tag : Byte) (zone : Word16) : Statement (.unmuteZone tag zone) := by
  intro _ m hm
  cases hm
  rw [encodeRequest, Request.kind, passes (lengths := [2]) (by decide) rfl]
  rfl

theorem clearTrip (tag : Byte) (zone : Word16) : Statement (.clearTrip tag zone) := by
  intro _ m hm
  cases hm
  rw [encodeRequest, Request.kind, passes (lengths := [2]) (by decide) rfl]
  rfl

theorem relock (tag : Byte) : Statement (.relock tag) := by
  intro _ m hm
  cases hm
  rw [encodeRequest, Request.kind, passes (lengths := [1]) (by decide) rfl]
  rfl

theorem restart (tag : Byte) : Statement (.restart tag) := by
  intro _ m hm
  cases hm
  rw [encodeRequest, Request.kind, passes (lengths := [1]) (by decide) rfl]
  rfl

theorem readPage (tag : Byte) (bank : Word16) (page : Word16) : Statement (.readPage tag bank page) := by
  intro _ m hm
  cases hm
  rw [encodeRequest, Request.kind, passes (lengths := [3]) (by decide) rfl]
  rfl

theorem stagePage (tag : Byte) (bank : Word16) (page : Word16) : Statement (.stagePage tag bank page) := by
  intro _ m hm
  cases hm
  rw [encodeRequest, Request.kind, passes (lengths := [3]) (by decide) rfl]
  rfl

theorem writeSlots (tag : Byte) (first : Word16) (values : List Slot) : Statement (.writeSlots tag first values) := by
  intro hw m hm
  have hv : 1 ≤ values.length ∧ values.length ≤ 8 := by
    simpa [Instr.WellFormed, wfValues] using hw
  have hlen : (values.flatMap splitSlot).length = 2 * values.length := by
    simp [List.length_flatMap, splitSlot]; omega
  cases hm
  rw [encodeRequest, Request.kind, passes (lengths := [4, 6, 8, 10, 12, 14, 16, 18]) (by decide)]
  · rfl
  · simp [Request.args, hlen]; omega

theorem commitPage (tag : Byte) : Statement (.commitPage tag) := by
  intro _ m hm
  cases hm
  rw [encodeRequest, Request.kind, passes (lengths := [1]) (by decide) rfl]
  rfl

theorem copyWorking (tag : Byte) : Statement (.copyWorking tag) := by
  intro _ m hm
  cases hm
  rw [encodeRequest, Request.kind, passes (lengths := [1]) (by decide) rfl]
  rfl

theorem recallRetained (tag : Byte) : Statement (.recallRetained tag) := by
  intro _ m hm
  cases hm
  rw [encodeRequest, Request.kind, passes (lengths := [1]) (by decide) rfl]
  rfl

theorem activate (tag : Byte) : Statement (.activate tag) := by
  intro _ m hm
  cases hm
  rw [encodeRequest, Request.kind, passes (lengths := [1]) (by decide) rfl]
  rfl

theorem cancelActivation (tag : Byte) : Statement (.cancelActivation tag) := by
  intro _ m hm
  cases hm
  rw [encodeRequest, Request.kind, passes (lengths := [1]) (by decide) rfl]
  rfl

theorem retain (tag : Byte) : Statement (.retain tag) := by
  intro _ m hm
  cases hm
  rw [encodeRequest, Request.kind, passes (lengths := [1]) (by decide) rfl]
  rfl

theorem abort (tag : Byte) : Statement (.abort tag) := by
  intro _ m hm
  cases hm
  rw [encodeRequest, Request.kind, passes (lengths := [1]) (by decide) rfl]
  rfl

theorem monitorReport (tag : Byte) (id : Word16) (period : Word16) (flags : Word16) (full : Word16) (lf : Option Word16) : Statement (.monitorReport tag id period flags full lf) := by
  intro _ m hm
  cases hm
  rw [encodeRequest, Request.kind, passes (lengths := [5, 6]) (by decide)]
  · rfl
  · cases lf <;> simp [Request.args]

theorem badRequest (kind : Byte) (words : List Word16) : Statement (.badRequest kind words) := by
  intro hw m hm
  simp only [Instr.WellFormed, wfBadRequest, Bool.and_eq_true] at hw
  have : m = ⟨kind, words⟩ := by
    simp only [messageOf] at hm
    split at hm
    · exact (Option.some.inj hm).symm
    · cases hm
  rw [this]; exact hw.2

theorem committingCompletion : Statement .committingCompletion := by
  intro _ m hm; cases hm

theorem copyingCompletion : Statement .copyingCompletion := by
  intro _ m hm; cases hm

theorem recallingCompletion : Statement .recallingCompletion := by
  intro _ m hm; cases hm

theorem checkingCompletion : Statement .checkingCompletion := by
  intro _ m hm; cases hm

theorem retainingCompletion : Statement .retainingCompletion := by
  intro _ m hm; cases hm

theorem swap : Statement .swap := by
  intro _ m hm; cases hm

theorem driveFrame : Statement .driveFrame := by
  intro _ m hm; cases hm

theorem intervalEnd : Statement .intervalEnd := by
  intro _ m hm; cases hm

theorem monitorStale (id : Nat) : Statement (.monitorStale id) := by
  intro _ m hm; cases hm

theorem enterFree (zone : Nat) : Statement (.enterFree zone) := by
  intro _ m hm; cases hm

theorem trip (zone : Nat) : Statement (.trip zone) := by
  intro _ m hm; cases hm

theorem timeSetAct : Statement .timeSetAct := by
  intro _ m hm; cases hm

theorem minuteBoundary : Statement .minuteBoundary := by
  intro _ m hm; cases hm

theorem lineTransition : Statement .lineTransition := by
  intro _ m hm; cases hm

theorem carrierLost : Statement .carrierLost := by
  intro _ m hm; cases hm

theorem syncCandidate (bits : List Bool) : Statement (.syncCandidate bits) := by
  intro _ m hm; cases hm

theorem syncConfirm (bits : List Bool) : Statement (.syncConfirm bits) := by
  intro _ m hm; cases hm

theorem frameTaken (sync : LinkWord) (samples : Samples) (lane : LinkWord) : Statement (.frameTaken sync samples lane) := by
  intro _ m hm; cases hm

theorem lockLost (sync : LinkWord) : Statement (.lockLost sync) := by
  intro _ m hm; cases hm

theorem venueStopAsserted : Statement .venueStopAsserted := by
  intro _ m hm; cases hm

theorem venueStopReleased : Statement .venueStopReleased := by
  intro _ m hm; cases hm

theorem planLockChange : Statement .planLockChange := by
  intro _ m hm; cases hm

theorem supplyLow (level : Nat) : Statement (.supplyLow level) := by
  intro _ m hm; cases hm

theorem supplyNormal (level : Nat) : Statement (.supplyNormal level) := by
  intro _ m hm; cases hm

theorem supplyOff (level : Nat) : Statement (.supplyOff level) := by
  intro _ m hm; cases hm

theorem powerReset (level : Nat) : Statement (.powerReset level) := by
  intro _ m hm; cases hm

theorem restartPerformed (level : Nat) : Statement (.restartPerformed level) := by
  intro _ m hm; cases hm

end Sys2Proof.Laws.HeaderChecks
end

