-- ==== Sys2Proof/Laws/Supply.lean ====
section
/-! SUPPORT. What a new level of the supply, an entry into LOW and a reset do, said once. -/

namespace Sys2Proof.Machine

/-! ### A new level of the supply -/

/-- A new level in NORMAL (R193). -/
theorem State.supplyTo_of_normal {s : State} (h : s.supply = .normal) (level : Nat) :
    s.supplyTo level
      = if level < 2700 then ({ s with supplyLevel := level } : State).enterLow.powerOff
        else if level < 3000 then ({ s with supplyLevel := level } : State).enterLow
        else { s with supplyLevel := level } := by
  rw [State.supplyTo]
  dsimp only
  split
  · rfl
  · rename_i h'; rw [h] at h'; cases h'
  · rename_i h'; rw [h] at h'; cases h'

/-- A new level in LOW (R193). -/
theorem State.supplyTo_of_low {s : State} (h : s.supply = .low) (level : Nat) :
    s.supplyTo level
      = if level < 2700 then ({ s with supplyLevel := level } : State).powerOff
        else if 3040 ≤ level then ({ s with supplyLevel := level } : State).enterNormal
        else { s with supplyLevel := level } := by
  rw [State.supplyTo]
  dsimp only
  split
  · rename_i h'; rw [h] at h'; cases h'
  · rfl
  · rename_i h'; rw [h] at h'; cases h'

/-! ### The entry into LOW -/

/-- Resolving every zone resolves each. -/
theorem State.resolveAll_zone (s : State) (z : Fin 8) :
    s.resolveAll.zc.zones[z] = resolveZone s.ps.working s.stopCause s.tb.limits z s.zc.zones[z] := by
  simp [State.resolveAll, State.setZones]

/-- The entry into LOW with no RETAIN in progress (R194). -/
theorem State.enterLow_of_idle {s : State} (h : ∀ op, s.ps.operation = some op → op.kind ≠ .retaining) :
    s.enterLow = ({ s with supply := .low } : State).resolveAll.raise .supply true none 1 := by
  rw [State.enterLow]
  dsimp only
  cases ho : s.ps.operation with
  | none => rfl
  | some op =>
    dsimp only
    rw [if_neg (h op ho)]

/-- The entry into LOW abandons a RETAIN in progress (R143, R194). -/
theorem State.enterLow_of_retaining {s : State} {op : Operation} (h : s.ps.operation = some op)
    (hk : op.kind = .retaining) :
    s.enterLow
      = (({ s with supply := .low } : State).stopOperation op 2).resolveAll.raise .supply true none 1 := by
  rw [State.enterLow]
  dsimp only
  rw [h]
  dsimp only
  rw [if_pos hk]

/-- Each zone is resolved on the entry into LOW under the cause STOPPED (R110, R194). -/
theorem State.enterLow_zone (s : State) (z : Fin 8) :
    s.enterLow.zc.zones[z] = resolveZone s.ps.working true s.tb.limits z s.zc.zones[z] := by
  have resolved (t : State) (hs : t.supply = .low) :
      (t.resolveAll.raise .supply true none 1).zc.zones[z]
        = resolveZone t.ps.working true t.tb.limits z t.zc.zones[z] := by
    have hc : t.stopCause = true := by simp [State.stopCause, hs]
    rw [← hc]
    exact t.resolveAll_zone z
  by_cases h : ∃ op, s.ps.operation = some op ∧ op.kind = .retaining
  · obtain ⟨op, ho, hk⟩ := h
    rw [State.enterLow_of_retaining ho hk, resolved _ rfl]
    obtain ⟨kind, tag, frames⟩ := op
    dsimp only at hk
    subst hk
    rfl
  · rw [State.enterLow_of_idle fun op ho hk => h ⟨op, ho, hk⟩, resolved _ rfl]

/-- A zone of a resolved state that has the cause STOPPED is STOPPED at its maximum (R95, R110). -/
theorem State.ZonesResolved.stopped {s : State} (h : s.ZonesResolved) (z : Fin 8)
    (he : (zoneItem s.ps.working z).enabled = true) :
    (resolveZone s.ps.working true s.tb.limits z s.zc.zones[z]).state = .stopped
      ∧ (resolveZone s.ps.working true s.tb.limits z s.zc.zones[z]).attenuation
          = (zoneItem s.ps.working z).maximum := by
  have hz := (h z).2
  simp only [resolveZone, silencingCause, he, Bool.not_true, Bool.false_eq_true, if_false, if_true]
  split
  · rename_i hst
    refine ⟨hst, ?_⟩
    revert hz
    cases silencingCause s.ps.working s.stopCause s.tb.limits z s.zc.zones[z] with
    | none =>
      intro hz
      have h1 := hz.1
      rw [hst] at h1
      cases h1
    | some state => exact fun hz => hz.2
  · exact ⟨rfl, rfl⟩

/-! ### The resets -/

/-- A reset with no RETAIN in progress cuts nothing short. -/
theorem State.cutRetain_of_none {s : State} (h : ∀ op, s.ps.operation = some op → op.kind ≠ .retaining) :
    s.cutRetain = s := by
  rw [State.cutRetain, if_neg]
  cases ho : s.ps.operation with
  | none => simp
  | some op => simpa using h op ho

/-- A RETAIN that a reset cuts short leaves its slots as the free value says, and nothing else is changed
(R119, R145). -/
theorem State.cutRetain_of_retaining {s : State} {op : Operation} (ho : s.ps.operation = some op)
    (hk : op.kind = .retaining) :
    s.cutRetain = { s with
      ps := { s.ps with retained := mixBank s.stops s.ps.retained s.ps.working, retainedState := .invalid }
      stops := s.stops + 1 } := by
  rw [State.cutRetain, if_pos (by simp [ho, hk])]
  rfl

/-- Both resets: the blocks in their reset states, and the alert queue with STARTED and, in LOW, SUPPLY (R198). -/
theorem State.startUp_eq (s : State) (cause level : Nat) :
    s.startUp cause level = { s.cutRetain.resetBlocks level with
      mu := { Mu.reset with
        alerts := ⟨.started, false, none, none, startedDetail cause s.cutRetain.ps.startUp⟩
          :: (if 3000 ≤ level then [] else [⟨.supply, true, none, none, 1⟩]) } } := by
  rw [State.startUp]
  generalize s.cutRetain = s
  have hs (a : Alert) : ((s.resetBlocks level).raiseAlert a).supply = if 3000 ≤ level then .normal else .low := rfl
  dsimp only
  by_cases h : 3000 ≤ level
  · rw [hs, if_pos h, if_neg (by simp), if_pos h]
    rfl
  · rw [hs, if_neg h, if_pos rfl, if_neg h]
    rfl

end Sys2Proof.Machine
end

