-- ==== Sys2Proof/Laws/Swap.lean ====
section
/-! SUPPORT. The swap brings the records of BE, EA and ZC into line with the new plan as the rules say, and the
derivation gives every account its start figures. -/

namespace Sys2Proof.Machine

/-- The sets of mapped monitors differ (R73). -/
theorem monitorSetChanged_iff (old new : Bank) (b : Fin 6) :
    monitorSetChanged old new b = true ↔ MonitorSetDiffers old new b := by
  rw [monitorSetChanged, bne_iff_ne, MonitorSetDiffers, ← not_iff_not]
  push Not
  constructor
  · intro h m
    have hm : m ∈ monitorsOf old b ↔ m ∈ monitorsOf new b := by rw [h]
    simpa [monitorsOf] using hm
  · intro h
    unfold monitorsOf
    refine List.filter_congr fun m _ => ?_
    rw [Bool.eq_iff_iff, beq_iff_eq, beq_iff_eq]
    exact h m

/-- A record is created or reset (R73). -/
theorem recordReset_iff (old new : Bank) (b : Fin 6) : recordReset old new b = true ↔ RecordRenewed old new b := by
  simp [recordReset, RecordRenewed, couplingChanged, monitorSetChanged_iff, or_assoc]

/-- BE aligns its records as the rules say (R73, R74). -/
theorem Be.align_aligned (be : Be) (old new : Bank) : BeAligned old new be (be.align old new) := by
  refine ⟨fun b => ⟨fun h => ?_, fun h => ?_, fun h h' => ?_⟩, fun m => ?_⟩
  · simp [Be.align, h]
  · have hr := (recordReset_iff old new b).2 h
    simp [Be.align, h.1, hr, Estimator.fresh]
  · have hr : recordReset old new b = false := by rw [← Bool.not_eq_true, recordReset_iff]; exact h'
    simp [Be.align, h, hr]
  · have hc : (monitorBoundary old m ≠ monitorBoundary new m ∨ (monitorBoundary new m).any (recordReset old new))
        ↔ (monitorBoundary old m ≠ monitorBoundary new m
          ∨ ∃ b, monitorBoundary new m = some b ∧ RecordRenewed old new b) := by
      cases monitorBoundary new m <;> simp [recordReset_iff]
    dsimp only
    rw [← hc]
    constructor <;> intro h <;>
      simp only [Be.align, Fin.getElem_fin, Vector.getElem_ofFn, h, if_true, if_false, Monitor.fresh]

/-- The limits derived for a boundary. -/
theorem deriveLimits_get (bank : Bank) (isSet : Bool) (minute : Nat) (b : Fin 6) :
    (deriveLimits bank isSet minute)[b] = limitEntry bank isSet minute b := by
  simp [deriveLimits]

/-- Exactly the enabled boundaries have limits (R34). -/
theorem deriveLimits_of_enabled {bank : Bank} {b : Fin 6} (h : (boundaryItem bank b).enabled = true) (isSet : Bool)
    (minute : Nat) : ∃ l, (deriveLimits bank isSet minute)[b] = some l := by
  rw [deriveLimits_get, limitEntry, if_pos h]
  exact ⟨_, rfl⟩

/-- An account takes the start figures of its entry (R80). -/
theorem Ea.startMinute_some {ea : Ea} {limits : Vector (Option LimitEntry) 6} {b : Fin 6} {a : Account} {l : LimitEntry}
    (ha : ea.accounts[b] = some a) (hl : limits[b] = some l) :
    (ea.startMinute limits).accounts[b] = some (a.start l) := by
  simp only [Ea.startMinute, Fin.getElem_fin, Vector.getElem_ofFn] at ha hl ⊢
  rw [ha, hl]

/-- A boundary without an account gets none. -/
theorem Ea.startMinute_none {ea : Ea} {limits : Vector (Option LimitEntry) 6} {b : Fin 6}
    (ha : ea.accounts[b] = none) : (ea.startMinute limits).accounts[b] = none := by
  simp only [Ea.startMinute, Fin.getElem_fin, Vector.getElem_ofFn] at ha ⊢
  rw [ha]

/-- EA aligns its accounts, and they take the limits of the new plan, as the rules say (R80, R88). -/
theorem Ea.align_aligned (ea : Ea) (old new : Bank) (isSet : Bool) (minute : Nat) :
    AccountsAligned old new (deriveLimits new isSet minute) ea
      ((ea.align old new).startMinute (deriveLimits new isSet minute)) := by
  refine ⟨rfl, fun b => ⟨fun h => ?_, fun h h' => ?_, fun a h h' ha => ?_⟩⟩
  · exact Ea.startMinute_none (by simp [Ea.align, h])
  · obtain ⟨l, hl⟩ := deriveLimits_of_enabled h isSet minute
    exact ⟨l, _, hl, Ea.startMinute_some (a := Account.fresh) (by simp [Ea.align, h, h']) hl, rfl⟩
  · obtain ⟨l, hl⟩ := deriveLimits_of_enabled h isSet minute
    have hm := monitorSetChanged_iff old new b
    by_cases hc : monitorSetChanged old new b = true
    · refine ⟨l, _, hl, Ea.startMinute_some (a := { a with ring := [] }) ?_ hl, fun _ => rfl, fun hn => absurd (hm.1 hc) hn⟩
      simp only [Fin.getElem_fin] at ha
      simp [Ea.align, h, h', hc, ha]
    · refine ⟨l, _, hl, Ea.startMinute_some (a := a) ?_ hl, fun hn => absurd (hm.2 hn) hc, fun _ => rfl⟩
      simp only [Fin.getElem_fin] at ha
      simp [Ea.align, h, h', hc, ha]

/-- ZC aligns a record as the rules say (R96, R116). -/
theorem alignZone_aligned (old new : Bank) (z : Fin 8) (c : Controller) :
    ZoneAligned old new z c (alignZone old new z c) := by
  and_intros <;> intro h h'
  · simp [alignZone, h, h']
  · have := silenced_of (zoneItem new z).maximum c .off
    rw [if_neg h'] at this
    simpa [alignZone, h, h'] using this
  · simp [alignZone, h, h']
  · cases ht : (zoneItem new z).tripPresent <;> simp [alignZone, h, h', ZoneItem.tripLevel, ht]

/-! ### The derivation, and what follows a close -/

/-- The derivation resolves every zone under the limits it derives (R34, R94). -/
theorem State.derive_zone (s : State) (z : Fin 8) :
    s.derive.zc.zones[z]
      = resolveZone s.ps.working s.stopCause (deriveLimits s.ps.working s.tb.isSet s.tb.minute) z s.zc.zones[z] := by
  simp [State.derive, State.resolveAll, State.setZones, State.stopCause]

/-- After a derivation the TRIP line follows the zones (R107). -/
theorem State.derive_follows (s : State) : s.derive.TripLineFollows := by
  simp only [State.derive, State.resolveAll]
  exact State.setZones_follows _ _

/-- What follows a close touches the limits in force, EA, the zones with the TRIP line, and the swap that is due. -/
theorem State.afterClose_keeps (s : State) :
    s.afterClose = { s with
      tb := { s.tb with limits := s.afterClose.tb.limits }
      ea := s.afterClose.ea
      zc := { s.zc with zones := s.afterClose.zc.zones, tripLine := s.afterClose.zc.tripLine }
      due := { s.due with swap := s.afterClose.due.swap } } := by
  unfold State.afterClose
  split <;> rfl

/-- An account keeps all but its start figures when the minute starts. -/
theorem Ea.startMinute_account (ea : Ea) (limits : Vector (Option LimitEntry) 6) {b : Fin 6} {a : Account}
    (ha : ea.accounts[b] = some a) :
    ∃ a', (ea.startMinute limits).accounts[b] = some a' ∧ a'.count = a.count ∧ a'.full = a.full ∧ a'.lf = a.lf
      ∧ a'.ring = a.ring := by
  cases hl : limits[b] with
  | some l => exact ⟨_, Ea.startMinute_some ha hl, rfl, rfl, rfl, rfl⟩
  | none =>
    refine ⟨a, ?_, rfl, rfl, rfl, rfl⟩
    simp only [Ea.startMinute, Fin.getElem_fin, Vector.getElem_ofFn] at ha hl ⊢
    rw [ha, hl]

/-- A close leaves every account its start figures. -/
theorem State.closeMinute_start {s : State} {isPartial : Bool} {b : Fin 6} {a a' : Account}
    (h : s.ea.accounts[b] = some a) (h' : (s.closeMinute isPartial).ea.accounts[b] = some a') :
    a'.startFull = a.startFull ∧ a'.startLf = a.startLf ∧ a'.startSegment = a.startSegment := by
  rw [State.closeMinute_ea] at h'
  simp only [State.closeAccounts, Fin.getElem_fin, Vector.getElem_ofFn] at h h'
  rw [h] at h'
  cases h'
  exact ⟨rfl, rfl, rfl⟩

/-- The close of a minute is done in a state that has taken what follows the close, `s'` being the state of the close
with its counters advanced (R81 to R86). -/
theorem State.minuteClosed_afterClose {s s' : State} {isPartial : Bool} (he : s'.ea = (s.closeMinute isPartial).ea)
    (ha : s'.mu.alerts = (s.closeMinute isPartial).mu.alerts)
    (hal : s'.mu.alertsLost = (s.closeMinute isPartial).mu.alertsLost)
    (hr : s'.mu.reports = (s.closeMinute isPartial).mu.reports)
    (hrl : s'.mu.reportsLost = (s.closeMinute isPartial).mu.reportsLost) : s.MinuteClosed s'.afterClose isPartial := by
  have hmu : s'.afterClose.mu = s'.mu := by rw [State.afterClose_keeps]
  have hea : s'.afterClose.ea = (s.closeMinute isPartial).ea
      ∨ s'.afterClose.ea = (s.closeMinute isPartial).ea.startMinute s'.afterClose.tb.limits := by
    rw [← he]
    unfold State.afterClose
    split
    · exact Or.inl rfl
    · exact Or.inr rfl
  have hlatch : s'.afterClose.ea.latches = (s.closeMinute isPartial).ea.latches := by
    rcases hea with h | h <;> rw [h]
    rfl
  obtain ⟨h1, h2, h3, h4⟩ := s.minuteClosed_closeMinute isPartial
  refine ⟨fun b => ⟨fun h => ?_, fun a h => ?_, fun h => ?_⟩, ⟨?_, ?_⟩, ?_, ?_⟩
  · rcases hea with e | e <;> rw [e]
    · exact (h1 b).1 h
    · exact Ea.startMinute_none ((h1 b).1 h)
  · obtain ⟨a', e1, e2, e3, e4, e5, e6⟩ := (h1 b).2.1 a h
    rw [hlatch]
    rcases hea with e | e <;> rw [e]
    · exact ⟨a', e1, e2, e3, e4, e5, e6⟩
    · obtain ⟨a'', f1, f2, f3, f4, f5⟩ := Ea.startMinute_account _ s'.afterClose.tb.limits e1
      exact ⟨a'', f1, f2.trans e2, f3.trans e3, f4.trans e4, f5.trans e5, e6⟩
  · rw [hlatch]
    exact (h1 b).2.2 h
  · rw [hmu, ha]; exact h2.1
  · rw [hmu, hal]; exact h2.2
  · rw [hmu, hr]; exact h3
  · rw [hmu, hrl]; exact h4

/-- What follows a close is what the rules say, for a state that differs from the one that closed its minute in TB, EA and
MU and in what is due of TB (R28, R34, R80, R115). -/
theorem State.derivedAfterClose_afterClose {s s' : State} (hps : s'.ps = s.ps) (hzc : s'.zc = s.zc)
    (hstop : s'.stopCause = s.stopCause) (hswap : s'.due.swap = s.due.swap) (hl : s'.tb.limits = s.tb.limits)
    (hacc : ∀ (b : Fin 6) a a', s.ea.accounts[b] = some a → s'.ea.accounts[b] = some a' →
      a'.startFull = a.startFull ∧ a'.startLf = a.startLf ∧ a'.startSegment = a.startSegment) :
    s.DerivedAfterClose s'.afterClose := by
  have hr : s'.swapReady = s.swapReady := by simp only [State.swapReady, hps]
  refine ⟨fun h => ?_, fun h => ?_⟩
  · rw [State.afterClose, hr, h, if_pos rfl]
    exact ⟨rfl, hl, hzc, hacc⟩
  · rw [State.afterClose, hr, h, if_neg (by simp)]
    refine ⟨hswap, ?_, fun z => ?_, s'.derive_follows, fun b a' l ha hl => ?_⟩
    · rw [← hps]; rfl
    · rw [State.derive_zone, ← hps, ← hstop, ← hzc]
      exact resolveZone_resolved _ _ _ _ _
    · have hea : s'.derive.ea = s'.ea.startMinute s'.derive.tb.limits := rfl
      rw [hea] at ha
      cases hb : s'.ea.accounts[b] with
      | none => rw [Ea.startMinute_none hb] at ha; cases ha
      | some a => rw [Ea.startMinute_some hb hl] at ha; cases ha; exact ⟨rfl, rfl, rfl⟩

end Sys2Proof.Machine
end

