-- ==== Sys2Proof/Laws/Transmit.lean ====
section
/-! SUPPORT. The frame: what a period of the word clock with nothing else to do changes, and how the arbiter chooses. -/

namespace Sys2Proof.Machine

/-- The oldest urgent alert is taken, whatever stands before it. -/
theorem takeUrgent_of_urgent {before after : List Alert} {a : Alert} (ha : a.urgent = true)
    (hb : ∀ x ∈ before, x.urgent = false) :
    takeUrgent (before ++ a :: after) = some (a, before ++ after) := by
  induction before with
  | nil => simp [takeUrgent, ha]
  | cons x xs ih =>
    have := hb x (by simp)
    simp [takeUrgent, this, ih (fun y hy => hb y (by simp [hy]))]

/-- Without an urgent alert none is taken before its turn. -/
theorem takeUrgent_of_none {alerts : List Alert} (h : ∀ x ∈ alerts, x.urgent = false) : takeUrgent alerts = none := by
  induction alerts with
  | nil => rfl
  | cons x xs ih =>
    have := h x (by simp)
    simp [takeUrgent, this, ih (fun y hy => h y (by simp [hy]))]

theorem replyWords_length (r : Reply) : 4 ≤ (replyWords r).length := by simp [replyWords, withHeader]
theorem alertWords_length (a : Alert) (lost : Bool) : (alertWords a lost).length = 5 := by
  simp [alertWords, withHeader]
theorem reportWords_length (r : MinuteReport) (lost : Bool) : 4 ≤ (reportWords r lost).length := by
  simp [reportWords, withHeader]

/-- A frame measured into a record: the energy and the peak of the samples of the zone's channels, and one frame
more (R41). -/
theorem measureZone_eq (bank : Bank) (samples : Samples) (z : Fin 8) (m : Meter) :
    measureZone bank samples z m
      = let magnitudes := ((List.finRange 16).filter fun n : Fin 16 => channelZone bank n = some z).map fun n =>
          samples[n].toInt.natAbs
        { energy := m.energy + (magnitudes.map (· ^ 2)).sum
          peak := magnitudes.foldl max m.peak
          frames := m.frames + 1 } := by
  have step : ∀ (ns : List (Fin 16)) (m : Meter),
      ns.foldl (fun m (n : Fin 16) => if channelZone bank n = some z then m.add samples[n] else m) m
        = let magnitudes := (ns.filter fun n : Fin 16 => channelZone bank n = some z).map fun n =>
            samples[n].toInt.natAbs
          { m with energy := m.energy + (magnitudes.map (· ^ 2)).sum, peak := magnitudes.foldl max m.peak } := by
    intro ns
    induction ns with
    | nil => intro m; rfl
    | cons n ns ih =>
      intro m
      rw [List.foldl_cons, ih]
      by_cases h : channelZone bank n = some z
      · simp [h, Meter.add, Nat.add_assoc]
      · simp [h]
  rw [measureZone, step]

/-- The decision between program and silence touches the FIFO, the link flags and the primed flag. -/
theorem State.advanceFifo_writes (s : State) :
    s.advanceFifo = { s with
      lrx := { s.lrx with fifo := s.advanceFifo.lrx.fifo, flags := s.advanceFifo.lrx.flags }
      ltx := { s.ltx with primed := s.advanceFifo.ltx.primed } } := by
  unfold State.advanceFifo State.withFlags
  split
  · rfl
  · split <;> rfl

/-- The arbiter touches the outbound queues and their markers, and the last class. -/
theorem State.choose_writes {s t : State} {words : List Word16} (h : s.choose = some (words, t)) :
    t = { s with
      mu := { s.mu with
        replies := t.mu.replies, alerts := t.mu.alerts, reports := t.mu.reports
        alertsLost := t.mu.alertsLost, reportsLost := t.mu.reportsLost }
      ltx := { s.ltx with lastClass := t.ltx.lastClass } } := by
  unfold State.choose State.giveAlert at h
  split at h
  · simp at h; obtain ⟨_, rfl⟩ := h; rfl
  · obtain ⟨c, _, h⟩ := List.exists_of_findSome?_eq_some h
    unfold State.giveClass State.giveAlert at h
    cases c <;> simp at h <;> split at h <;> simp at h <;> obtain ⟨_, rfl⟩ := h <;> rfl

/-- The lane word touches the outbound queues and their markers, and LTX's lane, but not the primed flag. -/
theorem State.nextLane_writes (s : State) :
    s.nextLane.2 = { s with
      mu := { s.mu with
        replies := s.nextLane.2.mu.replies, alerts := s.nextLane.2.mu.alerts, reports := s.nextLane.2.mu.reports
        alertsLost := s.nextLane.2.mu.alertsLost, reportsLost := s.nextLane.2.mu.reportsLost }
      ltx := { s.nextLane.2.ltx with primed := s.ltx.primed } } := by
  unfold State.nextLane
  split
  · unfold State.sendWord; dsimp only; split <;> rfl
  · split
    · rfl
    · split
      · rename_i words t h
        have := State.choose_writes h
        unfold State.sendWord; dsimp only; split <;> (rw [this]; rfl)
      · rfl

/-- The frame sent: everything a word clock period writes, its samples formed before and its lane word after the
decision between program and silence. -/
theorem State.sendFrame_writes (s : State) :
    s.sendFrame = { s with
      driveOut := some ⟨Config.syncWord, s.driveSamples, laneWord s.advanceFifo.nextLane.1⟩
      lrx := { s.lrx with fifo := s.advanceFifo.lrx.fifo, flags := s.advanceFifo.lrx.flags }
      ltx := { s.advanceFifo.nextLane.2.ltx with primed := s.advanceFifo.ltx.primed }
      mu := { s.mu with
        replies := s.advanceFifo.nextLane.2.mu.replies
        alerts := s.advanceFifo.nextLane.2.mu.alerts
        reports := s.advanceFifo.nextLane.2.mu.reports
        alertsLost := s.advanceFifo.nextLane.2.mu.alertsLost
        reportsLost := s.advanceFifo.nextLane.2.mu.reportsLost }
      mb := { s.mb with
        meters := Vector.ofFn fun z => measureZone s.ps.working s.driveSamples z s.mb.meters[z] }
      zc := { s.zc with
        standing := s.zc.zones.map Controller.standing
        zones := s.zc.zones.map fun c => { c with disturbed := false } }
      ps := { s.ps with operation := s.ps.operation.map fun op => { op with frames := op.frames + 1 } } } := by
  unfold State.sendFrame
  dsimp only
  generalize s.driveSamples = samples
  generalize hn : s.advanceFifo.nextLane = n
  have h1 := State.nextLane_writes s.advanceFifo
  rw [hn] at h1
  have h2 := State.advanceFifo_writes s
  generalize s.advanceFifo = a at *
  obtain ⟨lane, t⟩ := n
  dsimp only at h1 ⊢
  rw [h1, h2]
  rfl

/-- In the middle of an interval nothing comes before the frame. -/
theorem State.beforeFrame_of_midInterval {s : State} (h : s.MidInterval) : s.beforeFrame = s := by
  obtain ⟨⟨_, hs⟩, ht, hc, hr, _, hb⟩ := h
  have hframe : s.settleFrame = s := by
    simp [State.settleFrame, State.settleAll_of_settled hs ht, hc]
  simp only [State.beforeFrame, hr, hframe, Bool.false_eq_true, if_false, State.completeOverdue]
  cases ho : s.ps.operation with
  | none => rfl
  | some op =>
    have := hb op ho
    exact if_neg (by simp only [Config.framesPerMs]; omega)

/-- A word clock period in the middle of an interval is the frame and nothing else. -/
theorem exec_driveFrame_of_midInterval {s : State} (h : s.MidInterval) : exec .driveFrame s = .next s.sendFrame := by
  have hb := State.beforeFrame_of_midInterval h
  have he : exec .driveFrame s = .next s.framePeriod := by
    have := h.1.1
    show s.within true _ = _
    simp [State.within, this]
  have hi : s.sendFrame.mu.inbound = [] := by
    rw [State.sendFrame_writes]; exact h.2.2.2.2.1
  rw [he, State.framePeriod, hb, State.drain_of_empty hi]

end Sys2Proof.Machine
end

