-- ==== Sys2Proof/Tests/Slice0.lean ====
section
/-! SUPPORT. The package's own tests: the ill-formed commands, the manual's worked figures, each command at work on a
small state, and a witness for the hypotheses of each statement. -/

namespace Sys2Proof.Tests

set_option Elab.async false

open Sys2Proof Sys2Proof.Machine

/-! ### Ill-formed commands -/

theorem test_wf_write_slots_none : (Instr.writeSlots 1 0 []).WellFormed = false := by decide
theorem test_wf_write_slots_nine : (Instr.writeSlots 1 0 (List.replicate 9 0)).WellFormed = false := by decide
theorem test_wf_write_slots_eight : (Instr.writeSlots 1 0 (List.replicate 8 0)).WellFormed = true := by decide
theorem test_wf_bad_request_good : (Instr.badRequest 0x01 [7]).WellFormed = false := by decide
theorem test_wf_bad_request_empty : (Instr.badRequest 0x30 []).WellFormed = false := by decide
theorem test_wf_bad_request_long : (Instr.badRequest 0x30 (List.replicate 41 0)).WellFormed = false := by decide
theorem test_wf_bad_request_kind : (Instr.badRequest 0x30 [7]).WellFormed = true := by decide
theorem test_wf_monitor_zero : (Instr.monitorStale 0).WellFormed = false := by decide
theorem test_wf_monitor_thirteen : (Instr.monitorStale 13).WellFormed = false := by decide
theorem test_wf_free_zone_eight : (Instr.enterFree 8).WellFormed = false := by decide
theorem test_wf_trip_zone_eight : (Instr.trip 8).WellFormed = false := by decide
theorem test_wf_search_bits_none : (Instr.syncCandidate []).WellFormed = false := by decide
theorem test_wf_confirm_bits_none : (Instr.syncConfirm []).WellFormed = false := by decide
theorem test_wf_confirm_bits_433 : (Instr.syncConfirm (List.replicate 433 true)).WellFormed = false := by
  decide +kernel
theorem test_wf_mismatch_match : (Instr.lockLost 0x3A6C95).WellFormed = false := by decide
theorem test_wf_supply_low : (Instr.supplyLow 3000).WellFormed = false := by decide
theorem test_wf_supply_normal : (Instr.supplyNormal 2999).WellFormed = false := by decide
theorem test_wf_supply_off : (Instr.supplyOff 2700).WellFormed = false := by decide
theorem test_wf_power_reset : (Instr.powerReset 2739).WellFormed = false := by decide
theorem test_wf_restart_performed : (Instr.restartPerformed 2699).WellFormed = false := by decide
theorem test_decode_table_word_none : decodeTableWord 16 0x0101 = none := by decide
theorem test_with_fetch_word_none : State.reset.withFetchWord 16 1 = State.reset := by rfl

/-! ### Messages (R168, R175, R186) -/

theorem test_identify_message : encodeRequest 0x5A .identify = ⟨0x01, [0x005A]⟩ := by decide
theorem test_write_slots_message :
    decodeMessage ⟨0x12, [0x0007, 22, 0x1234, 0x5678, 0, 9]⟩ = .ok (7, .writeSlots 22 [0x12345678, 9]) := by decide
theorem test_header_check_kind : decodeMessage ⟨0x0E, [1]⟩ = .error 1 := by decide
theorem test_header_check_length : decodeMessage ⟨0x12, [1, 0, 0, 0, 0]⟩ = .error 2 := by decide
theorem test_header_check_tag : decodeMessage ⟨0x01, [0x0101]⟩ = .error 3 := by decide
/-- The fill lane word holds sixteen ones, even in number, so its parity bit is 1 (R147). -/
theorem test_lane_word_fill : laneWord 0xFFFF = 0xFFFF80 := by decide
theorem test_lane_word_odd : laneWord 0x0001 = 0x000100 := by decide
theorem test_lane_word_bad : laneGood 0x000180 = false := by decide
theorem test_reply_words :
    replyWords ⟨0x0B, 7, .done, 0, []⟩ = [0x8B03, 7, 0, 0] := by decide
theorem test_started_words :
    alertWords ⟨.started, false, none, none, 0x212⟩ false = [0xE004, 1, 0x8000, 0x8000, 0x212] := by decide

/-! ### Levels and samples (R43, R44, R160, 00_scope section 6.2) -/

theorem test_level_full_scale : zonePeak 8388608 = 0 := by decide +kernel
theorem test_level_silence : zoneLevel 0 = -1200 := by decide +kernel
theorem test_level_half : zonePeak 4194304 = -61 := by decide +kernel
theorem test_scale_none : scaleSample 2097152 0 = 2097152 := by decide +kernel
theorem test_scale_240 : scaleSample 2097152 240 = 132321 := by decide +kernel
theorem test_scale_full_600 : scaleSample (BitVec.ofInt 24 (-8388608)) 600 = BitVec.ofInt 24 (-8389) := by
  decide +kernel
theorem test_scale_half_up : scaleSample 5 200 = 0 := by decide +kernel
theorem test_scale_half_down : scaleSample (BitVec.ofInt 24 (-15)) 200 = BitVec.ofInt 24 (-1) := by decide +kernel
theorem test_scale_to_zero : scaleSample 400 600 = 0 := by decide +kernel
/-- The running level of section 11.2.2. -/
theorem test_running_mean_572 :
    ((Energy.add (Energy.add [] 575 (14 * 480)) 350 480)).meanLevel (15 * 480) = 572 := by decide +kernel
/-- The reference level of section 11.3. -/
theorem test_reference_level_639 : referenceLevel [646, 644, 642, 640, 638, 636, 634, 632] = 639 := by
  decide +kernel
/-- A mean of equal levels is that level. -/
theorem test_mean_of_equals : referenceLevel [655, 655, 655] = 655 := by decide +kernel

/-! ### Limits (R36 to R38, section 11.2) -/

theorem test_ramp_full_1310 : rampLimit 450 (.number 680) (.number 640) 10 10 = .number 677 := by decide
theorem test_ramp_lf_1310 : rampLimit 450 (.number 720) .silent 10 10 = .number 696 := by decide
theorem test_ramp_full_1315 : rampLimit 450 (.number 680) (.number 640) 10 5 = .number 659 := by decide
theorem test_ramp_lf_1319 : rampLimit 450 (.number 720) .silent 10 1 = .number 475 := by decide
theorem test_ramp_window_not_open : rampLimit 450 (.number 680) (.number 640) 10 11 = .number 680 := by decide
theorem test_fallback_silent : lowestLimit [.number 680, .silent, .number 640] = .silent := by decide

/-! ### Estimates and corrections (R56 to R59, R69, R70) -/

theorem test_combined_level : combinedLevel [(2, 600), (0, 570)] = some 630 := by decide
theorem test_estimate_floor : uncorrectedEstimate 350 [] = 350 := by decide
theorem test_correction_step_down : reportCorrection false 17 16 = 16 := by decide
theorem test_correction_step_held : reportCorrection true 17 16 = 17 := by decide
theorem test_correction_step_up : reportCorrection false 0 40 = 5 := by decide

/-! ### A plan: two zones, one boundary and one monitor -/

/-- A page with the given first slots and zeros after them. -/
def pageOf (slots : List Slot) : Page := Vector.ofFn fun i => slots.getD i.val 0

/-- The VENUE page: id 42, release rate 6, release delay 16, hysteresis 20, peak allowance 40, silence floor 450,
estimate floor 350, stale timeout 240. -/
def venuePage : Page := pageOf [42, 6, 16, 20, 40, 450, 350, 240]

/-- The ZONES page: zone 0 of class LOW at 300 cB with trip level -30 and persistence 3, zone 1 of class FULL at 60 cB;
channels 0 and 2 to zone 0, channel 1 to zone 1. -/
def zonesPage : Page :=
  pageOf [0x801E34B3, 0x000010F1, 0, 0, 0, 0, 0, 0, 0x00101110]

/-- The page of boundary 0: stale margin 40, two segments, ceilings 900; from 0 OPEN at 680 and 720, from 1320 QUIET at
640 and SILENT with a ramp of 10. -/
def boundaryPage0 : Page :=
  let string : Nat :=
    680 * 2 ^ 18 + 720 * 2 ^ 29 + 2 ^ 40 * (1320 + 1 * 2 ^ 11 + 10 * 2 ^ 13 + 640 * 2 ^ 18 + 2047 * 2 ^ 29)
  Vector.ofFn fun i =>
    if i.val = 0 then 0x00022801
    else if i.val = 1 then BitVec.ofNat 32 (900 + 900 * 2 ^ 16)
    else if i.val < 22 then BitVec.ofNat 32 (string / 2 ^ (32 * (i.val - 2)))
    else 0

/-- The COUPLINGS page: zone 0 at 760 and zone 1 at 680 to boundary 0. -/
def couplingsPage : Page := pageOf [BitVec.ofNat 32 ((0x8000 + 760) + (0x8000 + 680) * 2 ^ 16)]

/-- The REDUCTION page of section 6.10. -/
def reductionPage : Page := pageOf [2, 2, 3, 3, 4, 4, 5, 6, 8, 10, 12, 15, 20, 25, 30, 40]

/-- The MONITORS page: monitor 1 at boundary 0. -/
def monitorsPage : Page := pageOf [8]

/-- The plan. -/
def plan : Bank :=
  Vector.ofFn fun p =>
    if p.val = 0 then venuePage
    else if p.val = 1 then zonesPage
    else if p.val = 2 then boundaryPage0
    else if p.val = 8 then couplingsPage
    else if p.val = 9 then reductionPage
    else if p.val = 10 then monitorsPage
    else blankPage

theorem test_plan_passes : checkPlan plan = none := by decide +kernel
theorem test_blank_passes : checkPlan blankBank = none := by decide +kernel
theorem test_plan_zone : zoneItem plan 0 = ⟨true, true, 300, 3, 30, true⟩ := by decide +kernel
theorem test_plan_segment : segmentItem boundaryPage0 1 = ⟨1320, 1, 10, 640, 2047⟩ := by decide +kernel
theorem test_plan_channels : zoneChannels plan 0 = [0, 2] := by decide +kernel
theorem test_plan_coupling : coupling plan 0 1 = some 680 := by decide +kernel
theorem test_check_step_order :
    checkPage 9 (pageOf (5 :: List.replicate 15 4)) = some ⟨9, 1, 7⟩ := by decide +kernel
theorem test_check_unused : checkPage 0 (venuePage.set 0 0x0001002A) = some ⟨0, 0, 2⟩ := by decide +kernel
theorem test_lock_comparison :
    lockComparison (plan.set 1 (zonesPage.set 6 1)) plan = none
    ∧ lockComparison (plan.set 1 (zonesPage.set 6 (240 * 4))) plan = some (1, 6) := by decide +kernel

/-! ### States -/

/-- A part that has taken up the plan at a power reset, its lines released. -/
def live : State :=
  ({ State.reset with
      venueStop := false, planLock := false
      ps := { State.reset.ps with retained := plan, retainedState := .valid } } : State).startUp 1 3300

/-- The same part with the time set to minute 600, where zone 0 has left SILENT and STARTED has been sent. -/
def timed : State :=
  ({ live with
      tb := { live.tb with isSet := true, minute := 600, position := 300, tally := 300 }
      mu := Mu.reset } : State).derive

/-- The state a command leads to. -/
def after (c : Instr) (s : State) : State :=
  match exec c s with
  | .next t => t
  | .fault _ => s
  | .refused _ => s

/-- Write parts of the state. -/
def withPs (f : Ps → Ps) (s : State) : State := { s with ps := f s.ps }
def withTb (f : Tb → Tb) (s : State) : State := { s with tb := f s.tb }
def withMu (f : Mu → Mu) (s : State) : State := { s with mu := f s.mu }
def withLrx (f : Lrx → Lrx) (s : State) : State := { s with lrx := f s.lrx }
def withDue (f : Due → Due) (s : State) : State := { s with due := f s.due }

/-- A receiver state. -/
def linked (r : ReceiverState) : State := withLrx (fun l => { l with receiver := r }) timed
/-- An operation in progress. -/
def working (k : OpKind) : State := withPs (fun ps => { ps with operation := some ⟨k, 9, 0⟩ }) timed
/-- A page in staging: the VENUE page with another plan id. -/
def staged : State := withPs (fun ps => { ps with staging := some ⟨0, venuePage.set 0 43⟩ }) timed
/-- An activation pending. -/
def pendingActivation : State :=
  withPs (fun ps => { ps with shadow := plan.set 0 (venuePage.set 0 43), shadowState := .edited, activationPending := true })
    timed
/-- A setting pending, of the minute the part stands in. -/
def setting (minute : Nat) : State := withTb (fun tb => { tb with setting := some ⟨minute, 38, 3⟩ }) timed
/-- The zones stopped by VENUE STOP. -/
def stopped : State := ({ timed with venueStop := true } : State).resolveAll
/-- The zones stopped by the supply. -/
def low : State := ({ timed with supply := .low, supplyLevel := 2900 } : State).resolveAll
/-- Zone 0 tripped. -/
def tripped : State := timed.resolveWith 0 { timed.zc.zones[(0 : Fin 8)] with tripHold := true }
/-- Zone 1 muted. -/
def muted : State := timed.resolveWith 1 { timed.zc.zones[(1 : Fin 8)] with muted := true }
/-- The loss of the supply. -/
def off : State := timed.powerOff
/-- A reply waiting to be sent. -/
def someReply : Reply := ⟨0x01, 1, .done, 0, []⟩
/-- The last of the replies queued. -/
def lastReply (s : State) : Option Reply := s.mu.replies.getLast?
/-- A reply of no data. -/
def plain (kind : Byte) (result : ResultCode) (detail : Word16) : Reply := ⟨kind, 7, result, detail, []⟩

theorem test_live_zones :
    live.zc.zones[(0 : Fin 8)].state = .silent ∧ live.zc.zones[(0 : Fin 8)].attenuation = 300
    ∧ live.zc.zones[(1 : Fin 8)].state = .hold ∧ live.zc.zones[(2 : Fin 8)].state = .off := by decide +kernel
theorem test_live_started : live.mu.alerts = [⟨.started, false, none, none, 0x211⟩] := by decide +kernel
theorem test_timed_limits : timed.tb.limits[(0 : Fin 6)] = some ⟨.number 680, .number 720, some 0⟩ := by
  decide +kernel

/-! ### Each command at work -/

theorem test_identify : lastReply (after (.identify 7) timed)
    = some ⟨0x01, 7, .done, 0, [640, 1, 16, 8, 6, 12, 11]⟩ := by decide +kernel
theorem test_status : ((lastReply (after (.status 7) timed)).map fun r => r.data.take 5)
    = some [2, 600, 300, 2, 42] := by decide +kernel
theorem test_link_status : ((lastReply (after (.linkStatus 7) (linked .locked))).map (·.data))
    = some [3, 0, 0, 0, 0, 0, 0, 0, 0, 0, 0] := by decide +kernel
theorem test_alarm_status : ((lastReply (after (.alarmStatus 7) (after (.trip 0)
    (withDue (fun d => { d with trips := [0] }) timed)))).map (·.data)) = some [1, 0, 0, 1, 1] := by decide +kernel
theorem test_clear_alarms : lastReply (after (.clearAlarms 7 1 0 0) (after (.trip 0)
    (withDue (fun d => { d with trips := [0] }) timed))) = some (plain 0x05 .done 1) := by decide +kernel
theorem test_time_set : (after (.timeSet 7 600 38) timed).tb.setting = some ⟨600, 38, 7⟩ := by decide +kernel
theorem test_zone_status : ((lastReply (after (.zoneStatus 7 0) timed)).map fun r => r.data.take 10)
    = some [1, 1, 300, intWord (-30), 3, 2, 0, 2, 7, 300] := by decide +kernel
theorem test_boundary_status : ((lastReply (after (.boundaryStatus 7 0 0) timed)).map fun r => r.data.take 7)
    = some [1, 0, 680, 720, 0, 0x8000, 0x8000] := by decide +kernel
theorem test_mute_zone : (after (.muteZone 7 1) timed).zc.zones[(1 : Fin 8)].state = .muted := by decide +kernel
theorem test_unmute_zone : (after (.unmuteZone 7 1) muted).zc.zones[(1 : Fin 8)].state = .hold := by decide +kernel
theorem test_clear_trip : (after (.clearTrip 7 0) tripped).zc.zones[(0 : Fin 8)].state = .hold
    ∧ (after (.clearTrip 7 0) tripped).zc.tripLine = false := by decide +kernel
theorem test_clear_trip_refused : lastReply (after (.clearTrip 7 0) timed) = some (plain 0x0B .refused 7) := by
  decide +kernel
theorem test_relock : lastReply (after (.relock 7) (linked .confirm)) = some (plain 0x0C .done 2) := by
  decide +kernel
theorem test_restart : (after (.restart 7) timed).due.restart = true := by decide +kernel
theorem test_restart_busy : lastReply (after (.restart 7) (working .copying)) = some (plain 0x0D .busy 2) := by
  decide +kernel
theorem test_read_page : ((lastReply (after (.readPage 7 1 0) timed)).map fun r => (r.detail, r.data.take 4))
    = some (2, [0, 42, 0, 6]) := by decide +kernel
theorem test_stage_page : (after (.stagePage 7 2 9) timed).ps.staging = some ⟨9, reductionPage⟩ := by decide +kernel
theorem test_write_slots : (after (.writeSlots 7 23 [5, 6]) staged).ps.staging
    = some ⟨0, (venuePage.set 23 5).set 0 6⟩ := by decide +kernel
theorem test_commit_page : (after (.commitPage 7) staged).ps.operation = some ⟨.committing, 7, 0⟩ := by
  decide +kernel
theorem test_committing_completion :
    (after .committingCompletion (after (.commitPage 7) staged)).ps.shadow = plan.set 0 (venuePage.set 0 43) := by
  decide +kernel
theorem test_copy_working : (after (.copyWorking 7) staged).ps.staging = none := by decide +kernel
theorem test_copying_completion : (after .copyingCompletion (working .copying)).ps.shadowState = .clean := by
  decide +kernel
theorem test_recall_retained : (after (.recallRetained 7) timed).ps.operation = some ⟨.recalling, 7, 0⟩ := by
  decide +kernel
theorem test_recalling_completion : (after .recallingCompletion (working .recalling)).ps.shadowState = .clean := by
  decide +kernel
theorem test_activate : (after (.activate 7) timed).ps.operation = some ⟨.checking, 7, 0⟩ := by decide +kernel
theorem test_checking_completion :
    (after .checkingCompletion (working .checking)).ps.activationPending = true := by decide +kernel
theorem test_cancel_activation : (after (.cancelActivation 7) pendingActivation).ps.activationPending = false := by
  decide +kernel
theorem test_retain : (after (.retain 7) timed).ps.retainedState = .invalid := by decide +kernel
theorem test_retaining_completion : (after .retainingCompletion (working .retaining)).ps.retainedState = .valid := by
  decide +kernel
theorem test_abort : (after (.abort 7) (working .checking)).mu.replies
    = [⟨0x16, 9, .aborted, 1, []⟩, plain 0x19 .done 4] := by decide +kernel
theorem test_monitor_report : (after (.monitorReport 7 1 8 0 655 none) timed).be.monitors[(0 : Fin 12)]
    = ⟨.live, some 0, 0⟩ := by decide +kernel
theorem test_bad_request : lastReply (after (.badRequest 0x0E [0x1207]) timed)
    = some (plain 0x0E .badRequest 1) := by decide +kernel
theorem test_swap : (after .swap (withDue (fun d => { d with swap := true }) pendingActivation)).ps.working
    = plan.set 0 (venuePage.set 0 43) := by decide +kernel
theorem test_drive_frame : (after .driveFrame timed).driveOut = some ⟨0x3A6C95, Vector.replicate 16 0, 0xFFFF80⟩ := by
  decide +kernel
theorem test_drive_frame_program :
    ((after .driveFrame (withLrx (fun l => { l with receiver := .locked, fifo := List.replicate 2 (Vector.replicate 16 2097152) })
      (timed.setZone 1 { timed.zc.zones[(1 : Fin 8)] with attenuation := 0 }))).driveOut.map
        fun f => (f.samples[0], f.samples[1], f.samples[3]))
      = some (66318, 2097152, 0) := by decide +kernel
/-- The eight records at the end of an interval. -/
def measured : State := { timed with mb := { timed.mb with meters := Vector.replicate 8 ⟨0, 0, 6000⟩ } }
/-- The same after a loud interval, the zones' standing recorded with it and zone 0's persistence count given. -/
def loud (persistence : Nat) : State :=
  let s := { timed with
    mb := { timed.mb with meters := Vector.replicate 8 ⟨6000 * 4194304 ^ 2, 8388608, 6000⟩ } }
  (s.setZone 0 { s.zc.zones[(0 : Fin 8)] with persistence := persistence }).recordStanding
theorem test_interval_end : (after .intervalEnd measured).tb.position = 301
    ∧ ((after .intervalEnd measured).be.estimators[(0 : Fin 6)].bind (·.figures)).isSome = true := by decide +kernel
/-- Zone 0 stands at its maximum, so that a demand above zero opens a FLOOR episode (R101, R103). -/
theorem test_floor_opens :
    let t := after .intervalEnd (loud 0)
    t.zc.zones[(0 : Fin 8)].state = .floor ∧ t.zc.zones[(0 : Fin 8)].floorEpisode = true
    ∧ t.zc.zones[(0 : Fin 8)].floorLatch = true
    ∧ t.mu.alerts = [⟨.floor, true, some 0, some 600, 59⟩] := by
  decide +kernel
/-- Stopped since the last frame, the zone keeps what the stop left it, and the set gives no latch and no alert (R95,
R100, R111). -/
theorem test_floor_opens_under_stop :
    let t := after .intervalEnd (withMu (fun _ => Mu.reset) (after .venueStopAsserted (loud 0)))
    t.zc.zones[(0 : Fin 8)].state = .stopped ∧ t.zc.zones[(0 : Fin 8)].floorEpisode = false
    ∧ t.zc.zones[(0 : Fin 8)].persistence = 0 ∧ t.zc.zones[(0 : Fin 8)].floorLatch = false ∧ t.mu.alerts = [] := by
  decide +kernel
/-- A mute and a set that opens a FLOOR episode, or completes a trip, leave the same records in either order, the latch of
the set among them (R100, R113). -/
theorem test_mute_and_set_meet : ∀ n ∈ [0, 2],
    let t := after .intervalEnd (after (.muteZone 7 0) (loud n))
    let u := after (.muteZone 7 0) (after .intervalEnd (loud n))
    t.settle.zc = u.zc ∧ (u.zc.zones[(0 : Fin 8)].floorLatch || u.zc.zones[(0 : Fin 8)].tripLatch) = true
    ∧ u.zc.zones[(0 : Fin 8)].floorEpisode = false ∧ u.zc.zones[(0 : Fin 8)].persistence = 0 := by
  decide +kernel
theorem test_trip_comes_due : (after .intervalEnd (loud 2)).due.trips = [0] := by decide +kernel
theorem test_monitor_stale : (after (.monitorStale 1)
    (withDue (fun d => { d with stale := [0] }) timed)).be.monitors[(0 : Fin 12)].state = .stale := by decide +kernel
theorem test_enter_free : (after (.enterFree 1)
    (withDue (fun d => { d with frees := [1] }) timed)).zc.zones[(1 : Fin 8)].state = .free := by decide +kernel
theorem test_trip : (after (.trip 0) (withDue (fun d => { d with trips := [0] }) timed)).zc.tripLine = true := by
  decide +kernel
theorem test_time_set_act : lastReply (after .timeSetAct (withDue (fun d => { d with tb := some .setting }) (setting 600)))
    = some ⟨0x06, 3, .done, 1, [600, 304]⟩ := by decide +kernel
theorem test_minute_boundary : (after .minuteBoundary (withDue (fun d => { d with tb := some .minuteBoundary }) timed)).tb.minute
    = 601 := by decide +kernel
theorem test_line_transition : (after .lineTransition (linked .noCarrier)).lrx.receiver = .search := by decide +kernel
theorem test_carrier_lost : (after .carrierLost (linked .locked)).lrx.receiver = .noCarrier := by decide +kernel
theorem test_sync_candidate : (after (.syncCandidate (wordBits 0x3A6C95)) timed).lrx.receiver = .confirm := by
  decide +kernel
/-- One bit before the end of a confirmation. -/
def almostConfirmed : State :=
  withLrx (fun l => { l with
    receiver := .confirm
    kept := (List.range 408).map (fun i => i % 2 == 0) ++ (wordBits 0x3A6C95).take 23 }) timed
theorem test_sync_confirm : (after (.syncConfirm [true]) almostConfirmed).lrx.receiver = .locked := by decide +kernel
theorem test_sync_confirm_fails : (after (.syncConfirm [false]) almostConfirmed).lrx.receiver = .search := by
  decide +kernel
theorem test_frame_taken : (after (.frameTaken 0x3A6C95 (Vector.replicate 16 5) 0xFFFF80) (linked .locked)).lrx.fifo
    = [Vector.replicate 16 5] := by decide +kernel
theorem test_lock_lost : (after (.lockLost 0) (withLrx (fun l => { l with mismatches := 3 }) (linked .locked))).lrx.receiver
    = .search := by decide +kernel
theorem test_venue_stop_asserted : (after .venueStopAsserted timed).zc.zones[(0 : Fin 8)].state = .stopped := by
  decide +kernel
theorem test_venue_stop_released : (after .venueStopReleased stopped).zc.zones[(0 : Fin 8)].state = .hold := by
  decide +kernel
theorem test_plan_lock_change : (after .planLockChange timed).planLock = true := by decide +kernel
theorem test_supply_low : (after (.supplyLow 2999) timed).zc.zones[(1 : Fin 8)].state = .stopped
    ∧ (after (.supplyLow 2999) timed).supplyLevel = 2999 := by decide +kernel
theorem test_supply_hysteresis :
    (after (.supplyNormal 3039) low).supply = .low ∧ (after (.supplyNormal 3040) low).supply = .normal
    ∧ (after (.supplyLow 3000) timed).supply = .normal := by decide +kernel
theorem test_supply_normal : (after (.supplyNormal 3040) low).zc.zones[(1 : Fin 8)].state = .hold := by decide +kernel
theorem test_supply_off : (after (.supplyOff 2699) timed).ps.retained = plan
    ∧ (after (.supplyOff 2699) timed).supply = .off ∧ (after (.supplyOff 2700) timed).supply = .normal := by
  decide +kernel
theorem test_power_reset : (after (.powerReset 2999) off).mu.alerts
      = [⟨.started, false, none, none, 0x211⟩, ⟨.supply, true, none, none, 1⟩]
    ∧ (after (.powerReset 2739) off).supply = .off ∧ (after (.powerReset 3000) off).supply = .normal := by decide +kernel
theorem test_restart_performed :
    (after (.restartPerformed 3300) (after (.restart 7) timed)).mu.alerts = [⟨.started, false, none, none, 0x212⟩]
    ∧ (after (.restartPerformed 3010) (after (.restart 7) low)).supply = .normal
    ∧ (after .driveFrame (after (.restart 7) (after (.supplyNormal 3010) low))).supply = .normal := by
  decide +kernel

/-! ### Witnesses: states and operands that meet the hypotheses of each statement -/

/-- What `State.ZonesResolved` asks of one zone, as a check. -/
def isResolved (s : State) (z : Fin 8) : Bool :=
  (s.zc.zones[z].disturbed || s.zc.standing[z].state.silencing == s.zc.zones[z].state.silencing)
    && match silencingCause s.ps.working s.stopCause s.tb.limits z s.zc.zones[z] with
      | some state =>
        s.zc.zones[z].state == state && s.zc.zones[z].attenuation == (zoneItem s.ps.working z).maximum
      | none =>
        !s.zc.zones[z].state.silencing
          && decide (s.zc.zones[z].attenuation ≤ (zoneItem s.ps.working z).maximum)

theorem zonesResolved_of {s : State} (h : (List.finRange 8).all (isResolved s) = true) : s.ZonesResolved := by
  intro z
  have hz : isResolved s z = true := List.all_eq_true.1 h z (List.mem_finRange z)
  rw [isResolved, Bool.and_eq_true] at hz
  refine ⟨fun hd => ?_, ?_⟩
  · rw [hd, Bool.false_or] at hz
    exact beq_iff_eq.1 hz.1
  · revert hz
    generalize silencingCause s.ps.working s.stopCause s.tb.limits z s.zc.zones[z] = cause
    cases cause with
    | none =>
      intro hz
      have h2 := hz.2
      simp only [Bool.and_eq_true, Bool.not_eq_true', decide_eq_true_eq] at h2
      exact h2
    | some state =>
      intro hz
      have h2 := hz.2
      simp only [Bool.and_eq_true, beq_iff_eq] at h2
      exact h2

/-- Program input that gives no carrier. -/
def silentLine : State := withLrx (fun l => { l with receiver := .noCarrier, carrier := 432 }) timed
/-- A receiver state, the carrier count one short of the loss of the carrier. -/
def fading (r : ReceiverState) : State := withLrx (fun l => { l with carrier := 431 }) (linked r)
/-- Messages waiting. -/
def queued (messages : List Message) (s : State) : State := withMu (fun mu => { mu with inbound := messages }) s
/-- Four replies that wait to be sent. -/
def full : State := withMu (fun mu => { mu with replies := List.replicate 4 someReply }) timed
/-- A restart scheduled. -/
def restarting (s : State) : State := withDue (fun d => { d with restart := true }) s
/-- A setting whose interval end has been counted. -/
def settingDue (minute : Nat) (s : State) : State :=
  withDue (fun d => { d with tb := some .setting }) (withTb (fun tb => { tb with setting := some ⟨minute, 38, 3⟩ }) s)
/-- A retained state other than VALID. -/
def retainedAs (state : RetainedState) : State := withPs (fun ps => { ps with retainedState := state }) timed
/-- An operation at its upper bound. -/
def overdue (k : OpKind) : State :=
  withPs (fun ps => { ps with operation := some ⟨k, 9, opBoundMs k * 48⟩ }) staged

theorem test_carrier_lost_and_found :
    let t := after (.syncCandidate [false, true]) (fading .search)
    t.lrx.receiver = .search ∧ t.lrx.seen = 1 ∧ t.lrx.carrier = 0
    ∧ t.mu.alerts = timed.mu.alerts ++ [⟨.link, false, none, some 600, 4⟩] := by decide +kernel
theorem test_change_counts_no_period :
    (after (.syncCandidate [true]) (after .lineTransition timed)).lrx.carrier = 0
    ∧ (after (.syncCandidate [true]) timed).lrx.carrier = 0
    ∧ (after (.syncCandidate [true, true]) timed).lrx.carrier = 1 := by decide +kernel
/-- A request that waits behind a scheduled restart is taken all the same (R174), and the restart then cuts its
operation short. -/
theorem test_restart_cuts_retain :
    let t := after (.retain 8) (after (.restart 7) timed)
    let u := after (.restartPerformed 3300) t
    t.ps.operation = some ⟨.retaining, 8, 0⟩ ∧ u.ps.retainedState = .invalid ∧ u.ps.operation = none
    ∧ u.mu.replies = [] := by decide +kernel

theorem test_witness_StepTakesTheFrontCommandOrIdles :
    ({ timed with pending := [.swap] } : State).pending = .swap :: [] ∧ timed.pending = [] := by decide +kernel

theorem test_witness_OffPartIgnoresCommands : off.supply = .off := by decide +kernel

theorem test_witness_MessageWaitsWhileFourRepliesStand :
    let overrun := queued (List.replicate 8 ⟨0x01, [1]⟩) full
    messageOf (.identify 7) = some ⟨0x01, [7]⟩ ∧ full.Awake ∧ 4 ≤ full.mu.replies.length + full.repliesOwed
    ∧ full.mu.inbound.length < 8 ∧ (queued (List.replicate 7 ⟨0x01, [1]⟩) full).Awake
    ∧ 4 ≤ (queued (List.replicate 7 ⟨0x01, [1]⟩) full).mu.replies.length
    ∧ (queued (List.replicate 7 ⟨0x01, [1]⟩) full).mu.inbound.length = 7 ∧ overrun.Awake ∧ 4 ≤ overrun.mu.replies.length + overrun.repliesOwed
    ∧ overrun.mu.inbound.length = 8 := by decide +kernel

theorem test_witness_CommandsFirstSettleWhatIsDue :
    let due := withDue (fun d => { d with stale := [0], trips := [0, 1], frees := [1] })
    let swapping := withDue (fun d => { d with swap := true }) pendingActivation
    measured.supply ≠ .off ∧ measured.due.restart = false ∧ messageOf (.status 7) = some ⟨0x02, [7]⟩
    ∧ (restarting timed).supply ≠ .off ∧ (restarting timed).due.restart = true
    ∧ (due timed).supply ≠ .off ∧ (due timed).due.stale = 0 :: [] ∧ timed.Settled ∧ timed.due.tb = none
    ∧ (withDue (fun d => { d with trips := [0, 1] }) timed).due.trips = 0 :: [1]
    ∧ (withDue (fun d => { d with frees := [1] }) timed).due.frees = 1 :: []
    ∧ swapping.supply ≠ .off ∧ swapping.due.swap = true ∧ swapping.due.trips = []
    ∧ (due timed).venueStop = false ∧ (due stopped).supply ≠ .off ∧ (due stopped).venueStop = true
    ∧ (due (settingDue 600 timed)).due.tb = some .setting
    ∧ (withDue (fun d => { d with tb := some .minuteBoundary }) (due timed)).due.tb = some .minuteBoundary
    ∧ (due measured).intervalComplete = true ∧ timed.intervalComplete = false := by decide +kernel

/-- For IDENTIFY, STATUS, LINK STATUS and ALARM STATUS. -/
theorem test_witness_Reports : ∀ s ∈ [timed, silentLine, low, restarting timed], s.Listening := by decide +kernel

theorem test_witness_ClearAlarmsClearsTheNamedLatches :
    timed.Listening ∧ timed.supply = .normal ∧ low.Listening ∧ low.supply = .low
    ∧ 256 ≤ (0x0100 : Word16).toNat ∧ (0x00FF : Word16).toNat < 256 := by decide +kernel

/-- The setting that is due brings a swap where an activation is pending. -/
theorem test_witness_TimeSetBecomesPending :
    (∀ s ∈ [timed, setting 600], s.Listening ∧ s.due.tb ≠ some .setting)
    ∧ timed.tb.setting = none ∧ (setting 600).tb.setting = some ⟨600, 38, 3⟩
    ∧ (∀ s ∈ [settingDue 600 timed, settingDue 601 pendingActivation],
        s.Listening ∧ s.due.tb = some .setting ∧ s.tb.setting ≠ none)
    ∧ (after .timeSetAct (settingDue 600 timed)).due.swap = false
    ∧ (after .timeSetAct (settingDue 601 pendingActivation)).due.swap = true
    ∧ 1439 < (1440 : Word16).toNat ∧ (1439 : Word16).toNat ≤ 1439 ∧ 59 < (60 : Word16).toNat
    ∧ (59 : Word16).toNat ≤ 59 := by decide +kernel

theorem test_witness_RelockRestartsTheSearch :
    ∀ r ∈ [ReceiverState.noCarrier, .search, .confirm, .locked],
      (linked r).Listening ∧ (linked r).lrx.receiver = r := by decide +kernel

/-- For RESTART and the plan store's BUSY. -/
theorem test_witness_Operations :
    (working .retaining).Listening ∧ (working .retaining).ps.operation = some ⟨.retaining, 9, 0⟩
    ∧ timed.ps.operation = none := by decide +kernel

theorem test_witness_BadRequestIsAnswered :
    timed.Listening ∧ FailsHeaderCheck 0x0E [7] 1 ∧ FailsHeaderCheck 0x01 (List.replicate 40 0) 2
    ∧ FailsHeaderCheck 0x20 [0x0107, 1, 8, 0, 655] 3 := by
  refine ⟨by decide +kernel, ?_⟩
  simp only [← failedHeaderCheck_some]
  decide +kernel

theorem test_witness_ZoneStatusReportsTheZone :
    timed.Listening ∧ 8 ≤ (8 : Word16).toNat ∧ (7 : Word16).toNat = (7 : Fin 8).val
    ∧ (0 : Word16).toNat = (0 : Fin 8).val := by decide +kernel

theorem test_witness_BoundaryStatusReportsTheBoundary :
    timed.Listening ∧ 6 ≤ (6 : Word16).toNat ∧ (5 : Word16).toNat < 6 ∧ 14 < (15 : Word16).toNat
    ∧ (14 : Word16).toNat ≤ 14 ∧ (5 : Word16).toNat = (5 : Fin 6).val
    ∧ (boundaryItem timed.ps.working 5).enabled = false ∧ (boundaryItem timed.ps.working 0).enabled = true
    ∧ timed.be.estimators[(0 : Fin 6)].isSome = true ∧ timed.tb.limits[(0 : Fin 6)].isSome = true
    ∧ timed.ea.accounts[(0 : Fin 6)].isSome = true := by decide +kernel

theorem test_witness_MuteAndUnmuteZone :
    (timed.ZonesResolved ∧ muted.ZonesResolved)
    ∧ (loud 2).ZonesResolved
    ∧ (∀ s ∈ [timed, muted], s.Listening ∧ s.TripLineFollows) ∧ 8 ≤ (8 : Word16).toNat
    ∧ timed.zc.zones[(7 : Fin 8)].state = .off ∧ timed.zc.zones[(0 : Fin 8)].state.silencing = false
    ∧ muted.zc.zones[(1 : Fin 8)].state = .muted
    ∧ (loud 2).Listening ∧ (loud 2).due.tb = none ∧ ∀ y : Fin 8, (loud 2).mb.meters[y].frames = 6000 :=
  ⟨⟨zonesResolved_of (by decide +kernel), zonesResolved_of (by decide +kernel)⟩,
    zonesResolved_of (by decide +kernel), by decide +kernel⟩

theorem test_witness_ClearTripReleasesTheZone :
    tripped.ZonesResolved ∧ tripped.Listening ∧ tripped.zc.zones[(0 : Fin 8)].state = .tripped
    ∧ tripped.zc.zones[(7 : Fin 8)].state ≠ .tripped ∧ (7 : Word16).toNat = (7 : Fin 8).val :=
  ⟨zonesResolved_of (by decide +kernel), by decide +kernel⟩

/-- Monitor 1 in a state, its boundary's ring with one entry. -/
def heard (state : MonitorState) : State :=
  { timed with be :=
      { timed.be with
        monitors := timed.be.monitors.set 0 ⟨state, some 0, 5⟩
        estimators := timed.be.estimators.set 0 (some ⟨17, 0, none, [⟨640, 600⟩]⟩) } }

theorem test_witness_MonitorReportIsTakenOrDropped :
    timed.Listening ∧ (13 : Word16).toNat = 13 ∧ (81 : Word16).toNat = 81 ∧ (1401 : Word16).toNat = 1401
    ∧ (1 : Word16).toNat = (0 : Fin 12).val + 1 ∧ (80 : Word16).toNat ≤ 80 ∧ (1400 : Word16).toNat ≤ 1400
    ∧ timed.be.monitors[(11 : Fin 12)].state = .unmapped
    ∧ timed.be.monitors[(0 : Fin 12)].boundary = some 0 ∧ timed.be.monitors[(0 : Fin 12)].state = .unheard
    ∧ timed.be.estimators[(0 : Fin 6)] = some ⟨0, 0, none, []⟩
    ∧ (∀ m ∈ [MonitorState.live, .stale], (heard m).Listening ∧ (heard m).be.monitors[(0 : Fin 12)].state = m)
    ∧ (heard .stale).be.estimators[(0 : Fin 6)] = some ⟨17, 0, none, [⟨640, 600⟩]⟩ := by decide +kernel

/-- For the falls into STALE, the entries into FREE and the trips. -/
def dueSet : State := withDue (fun d => { d with stale := [0], trips := [0, 1], frees := [1] }) timed

theorem test_witness_MonitorFallsStale :
    dueSet.supply ≠ .off ∧ (0 : Fin 12) ∈ dueSet.due.stale ∧ dueSet.be.monitors[(0 : Fin 12)].boundary = some 0 := by
  decide +kernel

theorem test_witness_HeldZoneEntersFree :
    dueSet.supply ≠ .off ∧ (1 : Fin 8) ∈ dueSet.due.frees ∧ dueSet.zc.zones[(1 : Fin 8)].state = .hold
    ∧ dueSet.TripLineFollows := by decide +kernel

theorem test_witness_ZoneTrips :
    let held := withDue (fun d => { d with trips := [0] }) stopped
    held.ZonesResolved ∧ dueSet.supply ≠ .off ∧ (0 : Fin 8) ∈ dueSet.due.trips
    ∧ (zoneItem dueSet.ps.working 0).enabled = true ∧ dueSet.stopCause = false
    ∧ dueSet.zc.zones[(0 : Fin 8)].state ≠ .tripped ∧ held.stopCause = true ∧ (0 : Fin 8) ∈ held.due.trips
    ∧ (zoneItem held.ps.working 0).enabled = true :=
  ⟨zonesResolved_of (by decide +kernel), by decide +kernel⟩

theorem test_witness_ReadPageReturnsThePage :
    timed.Listening ∧ timed.ps.operation = none ∧ 4 ≤ (4 : Word16).toNat ∧ (2 : Word16).toNat < 3
    ∧ 11 ≤ (11 : Word16).toNat ∧ (10 : Word16).toNat = (10 : Fin 11).val ∧ (3 : Word16).toNat = 3
    ∧ timed.ps.staging = none ∧ staged.Listening ∧ staged.ps.operation = none ∧ staged.ps.staging.isSome = true := by
  decide +kernel

theorem test_witness_StagePageLoadsThePage :
    (retainedAs .invalid).Listening ∧ (retainedAs .invalid).ps.operation = none
    ∧ (retainedAs .invalid).ps.retainedState = .invalid ∧ (0 : Word16).toNat = 0 ∧ (10 : Word16).toNat < 11
    ∧ 3 ≤ (3 : Word16).toNat ∧ timed.ps.retainedState ≠ .invalid := by decide +kernel

theorem test_witness_WriteSlotsWritesWithinThePage :
    staged.Listening ∧ staged.ps.operation = none ∧ staged.ps.staging = some ⟨0, venuePage.set 0 43⟩
    ∧ timed.Listening ∧ timed.ps.staging = none ∧ 23 < (24 : Word16).toNat ∧ (23 : Word16).toNat ≤ 23
    ∧ (List.replicate 8 (0 : Slot)).length = 8 := by decide +kernel

theorem test_witness_CommitPageStartsCommitting :
    (PagePasses 0 (venuePage.set 0 43) ∧ PageReport 0 (venuePage.set 1 0) 1 1)
    ∧ pendingActivation.Listening ∧ pendingActivation.ps.operation = none
    ∧ pendingActivation.ps.activationPending = true ∧ timed.ps.activationPending = false
    ∧ staged.ps.activationPending = false :=
  ⟨⟨(checkPage_none (by decide) _).1 (by decide +kernel),
    ((checkPage_some (by decide) _ ⟨0, 1, 1⟩).1 (by decide +kernel)).2⟩, by decide +kernel⟩

theorem test_witness_TimedRequestsStartTheirOperation :
    let damaged := withPs (fun ps => { ps with shadowState := .damaged }) timed
    (∀ s ∈ [timed, pendingActivation, retainedAs .blank, retainedAs .invalid, damaged, low],
      s.Listening ∧ s.ps.operation = none)
    ∧ (retainedAs .blank).ps.retainedState = .blank ∧ (retainedAs .invalid).ps.retainedState = .invalid
    ∧ pendingActivation.ps.activationPending = true ∧ pendingActivation.ps.shadowState ≠ .damaged
    ∧ timed.ps.activationPending = false ∧ timed.ps.retainedState = .valid ∧ damaged.ps.shadowState = .damaged
    ∧ low.supply = .low ∧ timed.supply = .normal := by decide +kernel

/-- For CANCEL ACTIVATION and ABORT. -/
theorem test_witness_CancelAndAbort :
    pendingActivation.Listening ∧ pendingActivation.ps.operation = none
    ∧ pendingActivation.ps.activationPending = true ∧ timed.ps.activationPending = false
    ∧ (working .committing).Listening ∧ (working .committing).ps.operation = some ⟨.committing, 9, 0⟩ := by
  decide +kernel

theorem test_witness_WritingOperationsComplete :
    let other := withPs (fun ps => { ps with retained := blankBank }) (working .recalling)
    (∀ k ∈ [OpKind.committing, .copying, .recalling, .retaining],
      (overdue k).Awake ∧ (overdue k).ps.operation = some ⟨k, 9, opBoundMs k * 48⟩)
    ∧ (overdue .committing).ps.staging.isSome = true
    ∧ (overdue .recalling).ps.retained = (overdue .recalling).ps.working
    ∧ other.Awake ∧ other.ps.retained ≠ other.ps.working := by decide +kernel

/-- A shadow that fails a check, one that changes a licensed item, and one that changes none. -/
def checking (lock : Bool) (shadow : Bank) : State :=
  { withPs (fun ps => { ps with shadow := shadow }) (working .checking) with planLock := lock }

theorem test_witness_CheckingDecidesTheActivation :
    let failing := checking true (plan.set 0 (venuePage.set 1 0))
    let licensed := checking true (plan.set 0 (venuePage.set 1 7))
    let free := checking true (plan.set 0 (venuePage.set 0 43))
    (∀ s ∈ [failing, licensed, free], s.Awake ∧ s.planLock = true) ∧ PlanReport failing.ps.shadow 0 1 1
    ∧ PlanPasses licensed.ps.shadow ∧ FirstLicensed licensed.ps.shadow licensed.ps.working 0 1
    ∧ PlanPasses free.ps.shadow ∧ LicensedAgree free.ps.shadow free.ps.working := by
  refine ⟨by decide +kernel, (checkPlan_some _ ⟨0, 1, 1⟩).1 (by decide +kernel), ?_⟩
  simp only [← checkPlan_none, ← lockComparison_some, ← lockComparison_none]
  decide +kernel

theorem test_witness_SwapIsPerformedOrDropped :
    let swapping := withDue (fun d => { d with swap := true }) pendingActivation
    let locked := { withPs (fun ps => { ps with shadow := plan.set 0 (venuePage.set 1 7) }) swapping with
      planLock := true }
    (LicensedAgree swapping.ps.shadow swapping.ps.working ∧ FirstLicensed locked.ps.shadow locked.ps.working 0 1)
    ∧ swapping.supply ≠ .off ∧ swapping.due.swap = true ∧ swapping.ps.activationPending = true
    ∧ swapping.ps.operation = none ∧ swapping.planLock = false
    ∧ (boundaryItem swapping.ps.shadow 0).enabled = true ∧ swapping.ea.accounts[(0 : Fin 6)].isSome = true
    ∧ locked.planLock = true :=
  ⟨⟨(lockComparison_none _ _).1 (by decide +kernel), (lockComparison_some _ _ _ _).1 (by decide +kernel)⟩,
    by decide +kernel⟩

/-- Messages that wait are taken after the frame, or wait on where four replies stand; and each operation has its
bound. -/
theorem test_witness_DriveFrameIsSentAndCounted :
    let playing := withLrx (fun l => { l with fifo := List.replicate 2 (Vector.replicate 16 5) }) (linked .locked)
    let starved := { linked .locked with ltx := { timed.ltx with primed := true } }
    let waiting := queued [⟨0x01, [7]⟩, ⟨0x0D, [8]⟩] timed
    let held := queued [⟨0x01, [7]⟩] full
    (∀ s ∈ [playing, timed, starved, queued [] waiting, queued [] held], s.MidInterval)
    ∧ playing.lrx.receiver = .locked ∧ playing.lrx.fifo = [Vector.replicate 16 5, Vector.replicate 16 5]
    ∧ channelZone playing.ps.working 3 = none ∧ channelZone playing.ps.working 2 = some 0
    ∧ timed.lrx.receiver ≠ .locked ∧ starved.lrx.fifo = [] ∧ starved.ltx.primed = true
    ∧ waiting.mu.inbound ≠ [] ∧ waiting.mu.replies.length + waiting.repliesOwed < 4
    ∧ held.mu.inbound ≠ [] ∧ 4 ≤ held.mu.replies.length + held.repliesOwed
    ∧ ∀ k ∈ [OpKind.committing, .copying, .recalling, .checking, .retaining],
        (overdue k).Awake ∧ (overdue k).due.tb = none ∧ (overdue k).intervalComplete = false
        ∧ (overdue k).due.restart = false ∧ (overdue k).ps.operation = some ⟨k, 9, opBoundMs k * 48⟩ := by
  decide +kernel

/-- The lane as it stands before a frame. -/
def lane (sending : Option Transmission) (fill : Bool) (mu : Mu) : State :=
  { timed with ltx := { timed.ltx with sending := sending, fillPending := fill }, mu := mu }

/-- An alert of the two kinds of urgency. -/
def anAlert (urgent : Bool) : Alert := ⟨.stop, urgent, none, none, 1⟩
/-- The entry of a minute ring. -/
def anEntry : RingEntry := ⟨none, 480, 700, 1400, .number 720, .silent, true, false, ⟨true, false, true, false⟩⟩

theorem test_report_words :
    reportWords ⟨none, 480, true, [⟨5, anEntry, 690, 650⟩]⟩ true
      = [0xE10A, 0xC001, 0x8000, 480, 0x0A05, 700, 1400, 720, 0x7FFF, 690, 650] := by decide

theorem test_witness_LaneWordFollowsTheArbiter :
    let report : MinuteReport := ⟨none, 480, false, List.replicate 6 ⟨5, anEntry, 690, 650⟩⟩
    (∀ s ∈
      [lane (some ⟨[1, 2], 1⟩) false Mu.reset, lane (some ⟨[1, 2], 0⟩) false Mu.reset, lane none true Mu.reset,
        lane none false { Mu.reset with alerts := [anAlert false, anAlert true], replies := [someReply] },
        lane none false { Mu.reset with alerts := [anAlert false], replies := [someReply] },
        lane none false { Mu.reset with alerts := [anAlert false] },
        lane none false { Mu.reset with reports := [report] }, lane none false Mu.reset],
      s.MidInterval)
    ∧ report.entries.length ≤ 6 ∧ ∀ e ∈ report.entries, e.boundary ≤ 5 := by decide +kernel

/-- Zone 0 is about to trip, zone 1 has been silenced since the last frame, and zone 2 was silenced before it. -/
theorem test_witness_IntervalEndPublishesAndCounts :
    let s := after (.muteZone 7 1) (loud 2)
    (TripsAtSet (zoneItem s.ps.working 0) (s.intervalNow.mb.published[(0 : Fin 8)].peak)
        s.zc.standing[(0 : Fin 8)].persistence
      ∧ ¬ TripsAtSet (zoneItem s.ps.working 1) (s.intervalNow.mb.published[(1 : Fin 8)].peak)
          s.zc.standing[(1 : Fin 8)].persistence)
    ∧ s.Awake ∧ s.due.tb = none ∧ (∀ z : Fin 8, s.mb.meters[z].frames = 6000)
    ∧ s.be.estimators[(0 : Fin 6)].isSome = true ∧ s.be.estimators[(1 : Fin 6)] = none
    ∧ s.ea.accounts[(0 : Fin 6)].isSome = true ∧ s.be.monitors[(0 : Fin 12)].state ≠ .unmapped
    ∧ s.be.monitors[(11 : Fin 12)].state = .unmapped
    ∧ s.zc.standing[(2 : Fin 8)].state.silencing = true
    ∧ s.zc.standing[(0 : Fin 8)].state.silencing = false
    ∧ s.zc.standing[(1 : Fin 8)].state.silencing = false
    ∧ s.zc.zones[(1 : Fin 8)].disturbed = true ∧ s.zc.zones[(1 : Fin 8)].state.silencing = true
    ∧ (loud 2).zc.zones[(1 : Fin 8)].disturbed = false
    ∧ measured.zc.zones[(0 : Fin 8)].disturbed = true ∧ measured.zc.zones[(0 : Fin 8)].state.silencing = false := by
  refine ⟨?_, by decide +kernel⟩
  simp only [← tripsNow_iff]
  decide +kernel

theorem test_witness_SettingActsAsTrimOrStep :
    let trimmed := settingDue 600 timed
    let stepped := settingDue 601 timed
    trimmed.supply ≠ .off ∧ trimmed.due.tb = some .setting ∧ trimmed.tb.setting = some ⟨600, 38, 3⟩
    ∧ trimmed.due.stale = [] ∧ trimmed.due.trips = [] ∧ trimmed.due.frees = []
    ∧ trimmed.tb.isSet = true ∧ trimmed.tb.minute = 600 ∧ trimmed.tb.position = 300 ∧ trimmed.tb.drift = 0
    ∧ stepped.tb.setting = some ⟨601, 38, 3⟩ ∧ stepped.tb.minute ≠ 601 ∧ stepped.due.swap = false
    ∧ stepped.swapReady = false ∧ (settingDue 601 pendingActivation).swapReady = true := by
  decide +kernel

theorem test_witness_MinuteBoundaryClosesTheMinute :
    let ending := withDue (fun d => { d with tb := some .minuteBoundary }) timed
    ending.supply ≠ .off ∧ ending.due.tb = some .minuteBoundary ∧ ending.due.stale = [] ∧ ending.due.trips = []
    ∧ ending.due.frees = [] ∧ ending.ea.accounts[(0 : Fin 6)].isSome = true
    ∧ ending.ea.accounts[(1 : Fin 6)] = none ∧ ending.swapReady = false ∧ ending.due.swap = false
    ∧ (withDue (fun d => { d with tb := some .minuteBoundary }) pendingActivation).swapReady = true := by
  decide +kernel

theorem test_witness_CarrierIsFollowed :
    (∀ s ∈ [timed, silentLine, linked .locked], s.Awake)
    ∧ timed.lrx.receiver ≠ .noCarrier ∧ timed.lrx.receiver ≠ .locked ∧ true ≠ timed.lrx.lineLevel
    ∧ silentLine.lrx.receiver = .noCarrier ∧ silentLine.lrx.carrier = 432 ∧ silentLine.lrx.changed = false
    ∧ false = silentLine.lrx.lineLevel ∧ true ≠ silentLine.lrx.lineLevel
    ∧ (linked .locked).lrx.receiver = .locked := by decide +kernel

/-- The last bit of a candidate; a bit that carries no change at the last count before the loss, where a change before it
and a change at it keep the carrier. -/
theorem test_witness_SearchFindsTheCandidate :
    let almost := withLrx (fun l => { l with window := 0x1D364A, seen := 23 }) (fading .search)
    let turned := after .lineTransition (fading .search)
    (∀ s ∈ [almost, turned, fading .search], s.Awake ∧ s.lrx.receiver = .search ∧ s.lrx.carrier < 432)
    ∧ 23 ≤ almost.lrx.seen ∧ (almost.lrx.window <<< 1 ||| 1) = 0x3A6C95 ∧ true ≠ almost.lrx.lineLevel
    ∧ turned.lrx.changed = true ∧ true = turned.lrx.lineLevel
    ∧ false = (fading .search).lrx.lineLevel ∧ (fading .search).lrx.changed = false
    ∧ (fading .search).lrx.carrier = 431 := by decide +kernel

theorem test_witness_ConfirmDecidesTheLock :
    (∀ s ∈ [almostConfirmed, linked .confirm, fading .confirm],
      s.Awake ∧ s.lrx.receiver = .confirm ∧ s.lrx.kept.length < 432 ∧ s.lrx.carrier < 432)
    ∧ almostConfirmed.lrx.kept.length = 431 ∧ almostConfirmed.lrx.carrier < 431
    ∧ (almostConfirmed.lrx.kept ++ [true]).drop 408 = wordBits 0x3A6C95
    ∧ (almostConfirmed.lrx.kept ++ [false]).drop 408 ≠ wordBits 0x3A6C95
    ∧ (linked .confirm).lrx.kept.length < 431
    ∧ false = (fading .confirm).lrx.lineLevel ∧ (fading .confirm).lrx.changed = false
    ∧ (fading .confirm).lrx.carrier = 431 := by decide +kernel

/-- Frames taken: with the FIFO full, with the last word of a message, with replies that hold the message back. -/
theorem test_witness_FrameIsTaken :
    let waiting := { linked .locked with mu := full.mu }
    let last := withLrx (fun l => { l with mismatches := 2, assembler := .collecting ⟨0x0101, [], 1, false⟩ }) waiting
    let crowded := withLrx (fun l => { l with fifo := List.replicate 4 (Vector.replicate 16 5) }) (linked .locked)
    (∀ s ∈ [waiting, last, crowded, linked .locked],
      s.Awake ∧ s.lrx.receiver = .locked ∧ s.lrx.mismatches < 3 ∧ s.mu.inbound = []
      ∧ s.lrx.keepsCarrier (wordBits 0x3A6C95 ++ bodyBits (Vector.replicate 16 0) 0xFFFF80) = true)
    ∧ waiting.canTake = false ∧ (linked .locked).canTake = true
    ∧ last.lrx.assembler = .collecting ⟨0x0101, [], 1, false⟩ ∧ 4 ≤ crowded.lrx.fifo.length
    ∧ (linked .locked).lrx.assembler = .skip ∧ (linked .locked).Listening
    ∧ laneGood 0x000100 = true ∧ laneGood 0x000180 = false ∧ laneValue 0xFFFF80 = 0xFFFF
    ∧ (laneValue 0x010480).toNat % 256 = 4 := by decide +kernel

/-- Frames lost: a fourth mismatch, and a carrier lost at the first bit, at the last bit of a mismatching sync word, within
the samples and at the last bit of all. -/
theorem test_witness_FrameIsLost :
    let slipping := withLrx (fun l => { l with mismatches := 3 }) (linked .locked)
    let lostAfter := fun (n : Nat) (s : State) =>
      s.Awake ∧ s.lrx.receiver = .locked ∧ s.lrx.keepsCarrier (List.replicate n false) = true
      ∧ ((List.replicate n false ++ [false]).foldl Lrx.track s.lrx).carrier = 432
    (slipping.Awake ∧ slipping.lrx.receiver = .locked ∧ slipping.lrx.mismatches = 3 ∧ (0 : LinkWord) ≠ 0x3A6C95
      ∧ slipping.lrx.keepsCarrier (wordBits 0) = true)
    ∧ wordBits 0 ++ bodyBits (Vector.replicate 16 0) 0 = List.replicate 432 false
    ∧ lostAfter 0 (fading .locked) ∧ lostAfter 431 (linked .locked)
    ∧ lostAfter 23 (withLrx (fun l => { l with carrier := 408, mismatches := 3 }) (linked .locked))
    ∧ lostAfter 23 (withLrx (fun l => { l with carrier := 408, mismatches := 2 }) (linked .locked))
    ∧ lostAfter 31 (withLrx (fun l => { l with carrier := 400, mismatches := 2 }) (linked .locked)) := by
  decide +kernel

theorem test_witness_InputLinesAct :
    (timed.ZonesResolved ∧ stopped.ZonesResolved)
    ∧ (∀ s ∈ [timed, stopped, { low with venueStop := true }], s.Awake)
    ∧ timed.venueStop = false ∧ stopped.venueStop = true ∧ stopped.supply = .normal
    ∧ ({ low with venueStop := true } : State).supply = .low
    ∧ off.supply = .off ∧ off.venueStop = false ∧ (after .venueStopAsserted off).supply = .off
    ∧ (after .venueStopAsserted off).venueStop = true :=
  ⟨⟨zonesResolved_of (by decide +kernel), zonesResolved_of (by decide +kernel)⟩, by decide +kernel⟩

/-- For the supply's crossings. -/
theorem test_witness_Supply :
    (timed.ZonesResolved ∧ low.ZonesResolved) ∧ (∀ s ∈ [timed, low, working .retaining], s.Awake)
    ∧ timed.supply = .normal ∧ low.supply = .low ∧ (working .retaining).supply = .normal
    ∧ timed.ps.operation = none ∧ (zoneItem timed.ps.working 0).enabled = true
    ∧ (zoneItem low.ps.working 0).enabled = true :=
  ⟨⟨zonesResolved_of (by decide +kernel), zonesResolved_of (by decide +kernel)⟩, by decide +kernel⟩

/-- The ranges of a supply level that the clauses name leave no level out: below 2700, to 2999, to 3039, and above. -/
theorem test_witness_SupplyLevels :
    2699 < 2700 ∧ 2700 ≤ 2999 ∧ 2999 < 3000 ∧ 3000 ≤ 3039 ∧ 3039 < 3040 ∧ 2739 < 2740 := by decide

/-- The power reset at 2740 mV itself and one millivolt short of it, and a restart that finds a RETAIN in progress. -/
theorem test_witness_ResetsBringEveryBlockToItsResetState :
    let cut := restarting (working .retaining)
    off.supply = .off ∧ off.ps.retainedState = .valid
    ∧ (after (.powerReset 2740) off).supply = .low ∧ (after (.powerReset 2739) off).supply = .off
    ∧ (restarting timed).supply ≠ .off ∧ (restarting timed).ps.operation = none
    ∧ (restarting (retainedAs .invalid)).ps.retainedState ≠ .valid
    ∧ cut.supply ≠ .off ∧ cut.due.restart = true ∧ cut.ps.operation = some ⟨.retaining, 9, 0⟩
    ∧ 2700 ≤ 2700 ∧ timed.supply ≠ .off := by
  decide +kernel

/-- Levels at the ends of their range, a minute of two intervals, and a minute with none beside a ring of one entry and
beside an empty one. -/
theorem test_witness_ZoneLevelIsTheFloorOfTheLogarithm :
    let energies := fun levels : List Nat => levels.foldl (fun e l => Energy.add e l 1) []
    let account := fun (n : Nat) (levels : List Nat) (ring : List RingEntry) =>
      (⟨n, energies levels, energies levels, .silent, .silent, none, ring⟩ : Account)
    (∀ l ∈ [0, 1400], l ≤ 1400) ∧ (account 2 [0, 1400] []).count = [0, 1400].length
    ∧ (∀ x ∈ (account 2 [0, 1400] [anEntry]).ring, x.full ≤ 1400 ∧ x.lf ≤ 1400)
    ∧ (account 2 [0, 1400] [anEntry]).runningLevel true = some 1399
    ∧ (account 0 [] [anEntry]).minuteLevel true = none ∧ (account 0 [] [anEntry]).runningLevel false = some 700
    ∧ (account 0 [] []).runningLevel false = none := by decide +kernel

theorem test_witness_EnforcementFollowsTheDemand :
    let st : Standing := ⟨.hold, 299, 0, 3, false⟩
    st.state.silencing = false ∧ st.attenuation < 300 ∧ hysteresis plan = 20
    ∧ ({ st with attenuation := 300 } : Standing).state.silencing = false
    ∧ ({ st with state := .free } : Standing).state.silencing = false
    ∧ ({ st with state := .floor } : Standing).state.silencing = false := by
  decide +kernel

/-- Where the clauses of the enforcement transitions meet, at a hysteresis of 20: a demand of 1 reduces, 0 and -19 lie in
the hold band, and -20 in the release band. -/
theorem test_enforcement_where_clauses_meet :
    let source : DemandSource := ⟨0, false, false⟩
    let after := fun d state => enforce plan 300 (.value d source) ⟨state, 299, 0, 3, false⟩
    hysteresis plan = 20 ∧ (0 : Int) < 1 ∧ (0 : Int) ≤ 0 ∧ -(20 : Int) < 0 ∧ -(20 : Int) < -19 ∧ (-20 : Int) ≤ -(20 : Int)
    ∧ after 1 .hold = ⟨.reduce, 300, 0, 0, false⟩ ∧ after 0 .hold = ⟨.hold, 299, 0, 0, false⟩
    ∧ after (-19) .hold = ⟨.hold, 299, 0, 0, false⟩ ∧ after (-20) .hold = ⟨.hold, 299, 0, 4, false⟩
    ∧ after (-19) .free = ⟨.free, 299, 0, 3, false⟩ ∧ after (-20) .free = ⟨.free, 293, 0, 3, false⟩ := by
  decide +kernel

/-- Boundary 0 of the plan: within the ramp of segment 1, at its start, and at midnight, where segment 0 follows. -/
theorem test_witness_RampLowersTheLimit :
    (boundaryItem plan 0).enabled = true ∧ (boundaryItem plan 1).enabled = false
    ∧ ((segmentsInUse plan 0).map (·.start)) = [0, 1320] ∧ (segmentsInUse plan 0)[0]? = some ⟨0, 0, 0, 680, 720⟩
    ∧ (segmentsInUse plan 0)[1]? = some ⟨1320, 1, 10, 640, 2047⟩
    ∧ (deriveLimits plan true 1310)[(0 : Fin 6)] = some ⟨.number 677, .number 696, some 0⟩
    ∧ (deriveLimits plan true 1320)[(0 : Fin 6)] = some ⟨.number 640, .silent, some 1⟩
    ∧ (deriveLimits plan false 0)[(0 : Fin 6)] = some ⟨.number 640, .silent, none⟩ := by decide +kernel

theorem test_witness_MessagesAndRequestsCorrespond :
    1 ≤ (List.replicate 8 (0 : Slot)).length ∧ (List.replicate 8 (0 : Slot)).length ≤ 8 := by decide

/-- The bounds, the link and the time of the timed part with a command before it. -/
theorem test_witness_QueuesLinkAndTime :
    let s : State := { timed with pending := [.status 7] }
    step s = .next (after (.status 7) timed) ∧ s.QueuesBounded ∧ s.LinkConsistent ∧ s.TimeSound ∧ s.MetersInStep := by
  refine ⟨rfl, ?_, ?_, ?_, 0, by decide, by decide +kernel⟩
  all_goals
    simp only [State.QueuesBounded, State.LinkConsistent, State.TimeSound, ← Option.mem_def]
    decide +kernel

/-- The zones, the plan and its records of the timed part with a command before it. -/
theorem test_witness_ZonesPlanAndRecords :
    let s : State := { timed with pending := [.muteZone 7 1] }
    step s = .next (after (.muteZone 7 1) timed) ∧ s.ZonesResolved ∧ s.TripLineFollows ∧ s.PlanSound
    ∧ s.RecordsMatchPlan := by
  refine ⟨rfl, zonesResolved_of (by decide +kernel), by decide +kernel, ?_, ?_⟩
  all_goals
    simp only [State.PlanSound, State.RecordsMatchPlan, ← Option.mem_def]
    decide +kernel

end Sys2Proof.Tests
end

section
/-! SUPPORT. The scaled sample is the nearest whole number (R160), and LINK STATUS reports the link and clears its flags
(R164). -/

namespace Sys2Proof.Machine

/-! ### The scaled magnitude -/

/-- A number below one that lies less than a half above the product does so too: the search of `scaleMagnitude` rests
on this. -/
theorem scaleBound_of_le {m A i j : Nat} (hij : i ≤ j) (h : (2 * j - 1) ^ 200 * 10 ^ A < (2 * m) ^ 200) :
    (2 * i - 1) ^ 200 * 10 ^ A < (2 * m) ^ 200 :=
  lt_of_le_of_lt (Nat.mul_le_mul_right _ (Nat.pow_le_pow_left (by omega) _)) h

/-- An attenuation does not raise a magnitude, so no number above the magnitude lies less than a half above the
product. -/
theorem le_of_scaleBound {m A n : Nat} (h : (2 * n - 1) ^ 200 * 10 ^ A < (2 * m) ^ 200) : n ≤ m := by
  have hpow : (2 * n - 1) ^ 200 < (2 * m) ^ 200 :=
    lt_of_le_of_lt (Nat.le_mul_of_pos_right _ (by positivity)) h
  have := lt_of_pow_lt_pow_left₀ 200 (Nat.zero_le _) hpow
  omega

/-- The scaled magnitude is 0 or lies less than a half above the product, and no greater number of 24 bits does. -/
theorem scaleMagnitude_spec (m A : Nat) :
    (scaleMagnitude m A = 0 ∨ (2 * scaleMagnitude m A - 1) ^ 200 * 10 ^ A < (2 * m) ^ 200)
    ∧ ∀ k, scaleMagnitude m A < k → k < 2 ^ 24 → (2 * m) ^ 200 ≤ (2 * k - 1) ^ 200 * 10 ^ A := by
  have hspec := greatest_spec 24 (fun n => decide ((2 * n - 1) ^ 200 * 10 ^ A < (2 * m) ^ 200)) 0
    fun i j hij h => decide_eq_true (scaleBound_of_le hij (of_decide_eq_true h))
  rw [← scaleMagnitude] at hspec
  obtain ⟨hmeets, hgreatest⟩ := hspec
  refine ⟨hmeets.imp_right of_decide_eq_true, fun k hk hlt => ?_⟩
  exact Nat.le_of_not_lt (of_decide_eq_false (hgreatest k hk (by omega)))

theorem scaleMagnitude_lower {m A : Nat} (h : 0 < scaleMagnitude m A) :
    (2 * scaleMagnitude m A - 1) ^ 200 * 10 ^ A < (2 * m) ^ 200 :=
  (scaleMagnitude_spec m A).1.resolve_left h.ne'

theorem scaleMagnitude_le (m A : Nat) : scaleMagnitude m A ≤ m := by
  obtain hzero | hbound := (scaleMagnitude_spec m A).1
  · omega
  · exact le_of_scaleBound hbound

/-- The product lies at most a half above the scaled magnitude: the next number is still in the range searched. -/
theorem scaleMagnitude_upper {m A : Nat} (hm : m ≤ 2 ^ 23) :
    (2 * m) ^ 200 ≤ (2 * scaleMagnitude m A + 1) ^ 200 * 10 ^ A := by
  have hle := scaleMagnitude_le m A
  have hnext := (scaleMagnitude_spec m A).2 (scaleMagnitude m A + 1) (by omega) (by omega)
  rwa [show 2 * (scaleMagnitude m A + 1) - 1 = 2 * scaleMagnitude m A + 1 by omega] at hnext

/-- With no attenuation the two bounds leave the magnitude itself alone. -/
theorem scaleMagnitude_zero {m : Nat} (hm : m ≤ 2 ^ 23) : scaleMagnitude m 0 = m := by
  have hle := scaleMagnitude_le m 0
  have hupper := scaleMagnitude_upper (A := 0) hm
  rw [pow_zero, mul_one] at hupper
  have := le_of_pow_le_pow_left₀ (by norm_num) (Nat.zero_le _) hupper
  omega

/-! ### The scaled sample -/

theorem natAbs_toInt_le (x : LinkWord) : x.toInt.natAbs ≤ 2 ^ 23 := by
  have hlow := x.le_toInt
  have hhigh := x.toInt_lt
  omega

/-- A scaled sample has the sign of the sample and the scaled magnitude: nothing is cut off at 24 bits. -/
theorem scaleSample_toInt (x : LinkWord) (A : Nat) :
    (scaleSample x A).toInt = x.toInt.sign * scaleMagnitude x.toInt.natAbs A := by
  have hle := scaleMagnitude_le x.toInt.natAbs A
  have hlow := x.le_toInt
  have hhigh := x.toInt_lt
  rw [scaleSample]
  generalize scaleMagnitude x.toInt.natAbs A = n at hle ⊢
  obtain hneg | hzero | hpos := lt_trichotomy x.toInt 0
  · rw [if_pos hneg, Int.sign_eq_neg_one_of_neg hneg, neg_one_mul]
    exact BitVec.toInt_ofInt_eq_self (by norm_num) (by omega) (by omega)
  · obtain rfl : n = 0 := by omega
    simp
  · rw [if_neg (by omega), Int.sign_eq_one_of_pos hpos, one_mul]
    exact BitVec.toInt_ofInt_eq_self (by norm_num) (by omega) (by omega)

theorem scaleSample_natAbs (x : LinkWord) (A : Nat) :
    (scaleSample x A).toInt.natAbs = scaleMagnitude x.toInt.natAbs A := by
  rw [scaleSample_toInt, Int.natAbs_mul, Int.natAbs_natCast]
  by_cases hx : x.toInt = 0
  · have hle := scaleMagnitude_le x.toInt.natAbs A
    rw [hx] at hle ⊢
    simp only [Int.sign_zero, Int.natAbs_zero, zero_mul] at hle ⊢
    omega
  · rw [Int.natAbs_sign_of_ne_zero hx, one_mul]

theorem scaleSample_sign (x : LinkWord) (A : Nat) : 0 ≤ (scaleSample x A).toInt * x.toInt := by
  calc (0 : Int) ≤ scaleMagnitude x.toInt.natAbs A * x.toInt.natAbs := by positivity
    _ = x.toInt.sign * scaleMagnitude x.toInt.natAbs A * x.toInt := by
      rw [← Int.sign_mul_self_eq_natAbs]; ring
    _ = (scaleSample x A).toInt * x.toInt := by rw [scaleSample_toInt]

theorem scaleSample_zero (x : LinkWord) : scaleSample x 0 = x := by
  refine BitVec.eq_of_toInt_eq ?_
  rw [scaleSample_toInt, scaleMagnitude_zero (natAbs_toInt_le x), Int.sign_mul_natAbs]

/-- Settles O49, from the bounds on the scaled magnitude, which the search for it gives. -/
theorem scaledSampleIsTheNearest : Obligations.ScaledSampleIsTheNearest := by
  intro x A
  refine ⟨scaleSample_sign x A, ?_, scaleSample_zero x⟩
  dsimp only
  rw [scaleSample_natAbs]
  exact ⟨scaleMagnitude_lower, scaleMagnitude_upper (natAbs_toInt_le x)⟩

/-! ### LINK STATUS -/

/-- A request's message is read back as the request, when the header checks pass it and its words are the request's. -/
theorem decodeMessage_encodeRequest_of {tag : Byte} {r : Request}
    (hcheck : Config.failedHeaderCheck (encodeRequest tag r) = none) (hargs : requestOf r.kind r.args = some r) :
    decodeMessage (encodeRequest tag r) = .ok (tag, r) := by
  have hread : requestOf (encodeRequest tag r).kind (encodeRequest tag r).words.tail = some r := hargs
  have htag : ((encodeRequest tag r).words.headD 0).setWidth 8 = tag := tagWord_low tag
  simp only [decodeMessage, hcheck, hread, htag]

theorem decodeMessage_linkStatus (tag : Byte) :
    decodeMessage (encodeRequest tag .linkStatus) = .ok (tag, .linkStatus) := by
  have hcheck := Laws.HeaderChecks.linkStatus tag rfl _ rfl
  exact decodeMessage_encodeRequest_of (Option.isNone_iff_eq_none.1 (by simpa using hcheck)) (by decide)

theorem exec_linkStatus_of_listening {s : State} (h : s.Listening) (tag : Byte) :
    exec (.linkStatus tag) s = .next (s.takeLinkStatus tag) :=
  State.receive_request h tag .linkStatus (decodeMessage_linkStatus tag)

/-- The reply to LINK STATUS is formed of the flags as they stand, before they are cleared. -/
theorem State.takeLinkStatus_eq (s : State) (tag : Byte) :
    s.takeLinkStatus tag
      = { s.queueReply
            { kind := Config.kLinkStatus, tag := tag, result := .done, detail := 0, data := linkStatusData s } with
          lrx := { s.lrx with flags := LinkFlags.clear } } := rfl

/-- Settles O8: a listening part takes LINK STATUS at once, and its taking is a reply and the clearing. -/
theorem linkStatusReportsAndClears : Obligations.LinkStatusReportsAndClears := by
  intro tag s h
  rw [exec_linkStatus_of_listening h, State.takeLinkStatus_eq]
  rfl

end Sys2Proof.Machine
end

section
/-! SUPPORT. IDENTIFY answers the identity of the part (R181), and ALARM STATUS lays out the latches as CLEAR ALARMS reads
its masks, with the trip holds and the TRIP line after them (R183, R184). -/

namespace Sys2Proof.Machine

/-! ### IDENTIFY -/

/-- A request with no argument words is read back as itself when the catalogue gives its kind the one length 1. -/
theorem decodeMessage_encodeRequest_of_args_nil {r : Request} (hargs : r.args = [])
    (hkind : Config.catalogue.find? (·.1 == r.kind) = some (r.kind, [1])) (hread : requestOf r.kind [] = some r)
    (tag : Byte) : decodeMessage (encodeRequest tag r) = .ok (tag, r) := by
  refine decodeMessage_encodeRequest_of ?_ (by rw [hargs, hread])
  rw [encodeRequest, hargs, Laws.HeaderChecks.passes hkind rfl]

theorem exec_identify_of_listening {s : State} (h : s.Listening) (tag : Byte) :
    exec (.identify tag) s = .next (s.takeIdentify tag) :=
  State.receive_request h tag .identify (decodeMessage_encodeRequest_of_args_nil rfl (by decide) (by decide) tag)

/-- Settles O6: a listening part takes IDENTIFY at once, and its taking is the reply of the seven words. -/
theorem identifyAnswersTheIdentity : Obligations.IdentifyAnswersTheIdentity := by
  intro tag s h
  exact ⟨rfl, exec_identify_of_listening h tag⟩

/-! ### The bits of the latch words -/

/-- A word of at most 16 flags holds each flag at its place, and zeros beyond them. -/
theorem getLsbD_wordOfFlags_of_length_le {flags : List Bool} (h : flags.length ≤ 16) (i : Nat) :
    (wordOfFlags flags).getLsbD i = flags.getD i false := by
  rw [getLsbD_wordOfFlags]
  by_cases hi : i < 16
  · rw [decide_eq_true hi, Bool.true_and]
  · rw [List.getD_eq_default _ _ (by omega), Bool.and_false]

/-- A flag of each zone, read at the place of zone `z`. -/
theorem getD_zoneFlags (zones : Vector Controller 8) (f : Controller → Bool) (z : Fin 8) :
    (zones.toList.map f).getD z false = f zones[z] := by
  simp

theorem zoneLatchWord_trip (zones : Vector Controller 8) (z : Fin 8) :
    (zoneLatchWord zones).getLsbD z = zones[z].tripLatch := by
  rw [zoneLatchWord, getLsbD_wordOfFlags_of_length_le (by simp), List.getD_append _ _ _ _ (by simp), getD_zoneFlags]

theorem zoneLatchWord_floor (zones : Vector Controller 8) (z : Fin 8) :
    (zoneLatchWord zones).getLsbD (8 + z) = zones[z].floorLatch := by
  have hplace : 8 + z.val - (zones.toList.map (·.tripLatch)).length = z := by simp
  rw [zoneLatchWord, getLsbD_wordOfFlags_of_length_le (by simp), List.getD_append_right _ _ _ _ (by simp), hplace,
    getD_zoneFlags]

theorem tripHoldWord_hold (zones : Vector Controller 8) (z : Fin 8) :
    (tripHoldWord zones).getLsbD z = zones[z].tripHold := by
  rw [tripHoldWord, getLsbD_wordOfFlags_of_length_le (by simp), getD_zoneFlags]

theorem tripHoldWord_high (zones : Vector Controller 8) {i : Nat} (hi : 8 ≤ i) :
    (tripHoldWord zones).getLsbD i = false := by
  rw [tripHoldWord, getLsbD_wordOfFlags_of_length_le (by simp)]
  exact List.getD_eq_default _ _ (by simpa using hi)

/-! ### The bits of the breach latch words -/

theorem breachFlags_length (latches : Vector BreachMarks 6) (boundaries : List (Fin 6)) :
    (boundaries.flatMap fun b => (latches[b]).toList).length = 4 * boundaries.length := by
  induction boundaries with
  | nil => rfl
  | cons b bs ih =>
    rw [List.flatMap_cons, List.length_append, ih, List.length_cons]
    simp only [BreachMarks.toList, List.length_cons, List.length_nil]
    omega

/-- The marks of the `k`-th boundary named begin at place `4 * k`. -/
theorem breachFlags_getD (latches : Vector BreachMarks 6) {boundaries : List (Fin 6)} {k : Nat} {b : Fin 6}
    (hb : boundaries[k]? = some b) {j : Nat} (hj : j < 4) :
    (boundaries.flatMap fun b => (latches[b]).toList).getD (4 * k + j) false = (latches[b]).toList.getD j false := by
  induction boundaries generalizing k with
  | nil => simp at hb
  | cons c bs ih =>
    have hlen : (latches[c]).toList.length = 4 := rfl
    rw [List.flatMap_cons]
    cases k with
    | zero =>
      obtain rfl : c = b := by simpa using hb
      rw [List.getD_append _ _ _ _ (by omega), Nat.mul_zero, Nat.zero_add]
    | succ k =>
      rw [List.getD_append_right _ _ _ _ (by omega), hlen, show 4 * (k + 1) + j - 4 = 4 * k + j by omega]
      exact ih (by simpa using hb)

/-- A breach latch word of at most four boundaries holds the marks of the `k`-th from bit `4 * k` up. -/
theorem breachLatchWord_bit (latches : Vector BreachMarks 6) {boundaries : List (Fin 6)} (hlen : boundaries.length ≤ 4)
    {k : Nat} {b : Fin 6} (hb : boundaries[k]? = some b) {j : Nat} (hj : j < 4) :
    (breachLatchWord latches boundaries).getLsbD (4 * k + j) = (latches[b]).toList.getD j false := by
  rw [breachLatchWord, getLsbD_wordOfFlags_of_length_le (by rw [breachFlags_length]; omega), breachFlags_getD latches hb hj]

/-- A breach latch word of at most two boundaries has a zero high byte. -/
theorem breachLatchWord_high (latches : Vector BreachMarks 6) {boundaries : List (Fin 6)} (hlen : boundaries.length ≤ 2)
    {i : Nat} (hi : 8 ≤ i) : (breachLatchWord latches boundaries).getLsbD i = false := by
  have hflags := breachFlags_length latches boundaries
  rw [breachLatchWord, getLsbD_wordOfFlags_of_length_le (by omega)]
  exact List.getD_eq_default _ _ (by omega)

/-- The second and third words of ALARM STATUS, read as CLEAR ALARMS reads its masks, are the breach latches (R183,
R184). -/
theorem breachMask_breachLatchWords (latches : Vector BreachMarks 6) (b : Fin 6) :
    breachMask (breachLatchWord latches [0, 1, 2, 3]) (breachLatchWord latches [4, 5]) b = latches[b] := by
  have hword : ∀ j < 4,
      (if b.val < 4 then breachLatchWord latches [0, 1, 2, 3] else breachLatchWord latches [4, 5]).getLsbD
        (4 * (b.val % 4) + j) = (latches[b]).toList.getD j false := by
    intro j hj
    by_cases hb : b.val < 4
    · have hplace : ∀ b : Fin 6, b.val < 4 → ([0, 1, 2, 3] : List (Fin 6))[b.val % 4]? = some b := by decide
      rw [if_pos hb, breachLatchWord_bit latches (by decide) (hplace b hb) hj]
    · have hplace : ∀ b : Fin 6, ¬ b.val < 4 → ([4, 5] : List (Fin 6))[b.val % 4]? = some b := by decide
      rw [if_neg hb, breachLatchWord_bit latches (by decide) (hplace b hb) hj]
  exact (BreachMarks.mk.injEq ..).mpr
    ⟨hword 0 (by decide), hword 1 (by decide), hword 2 (by decide), hword 3 (by decide)⟩

/-! ### ALARM STATUS -/

theorem exec_alarmStatus_of_listening {s : State} (h : s.Listening) (tag : Byte) :
    exec (.alarmStatus tag) s = .next (s.takeAlarmStatus tag) :=
  State.receive_request h tag .alarmStatus (decodeMessage_encodeRequest_of_args_nil rfl (by decide) (by decide) tag)

/-- Settles O9: a listening part takes ALARM STATUS at once, and each word of its reply is the model's word of those
latches. -/
theorem alarmStatusReportsLatches : Obligations.AlarmStatusReportsLatches := by
  intro tag s h
  refine ⟨_, _, _, _, _, exec_alarmStatus_of_listening h tag, fun z => ?zones, fun b => ?boundaries, fun i hi => ?unused,
    rfl⟩
  case zones =>
    exact ⟨zoneLatchWord_trip s.zc.zones z, zoneLatchWord_floor s.zc.zones z, tripHoldWord_hold s.zc.zones z,
      tripHoldWord_high s.zc.zones (by omega)⟩
  case boundaries =>
    have hmarks := breachMask_breachLatchWords s.ea.latches b
    exact ⟨congrArg BreachMarks.minuteFull hmarks, congrArg BreachMarks.minuteLf hmarks,
      congrArg BreachMarks.runningFull hmarks, congrArg BreachMarks.runningLf hmarks⟩
  case unused => exact breachLatchWord_high s.ea.latches (by decide) hi

end Sys2Proof.Machine
end

section
/-! SUPPORT. What a step is made of: the changes of one block each, with what holds where each is made. An invariant
that
every change keeps is one that every step keeps. -/

namespace Sys2Proof.Machine

/-- A zone's record after a change that leaves its silence, its causes and its mark alone (R94, R95). -/
structure Controller.Follows (maximum : Nat) (c c' : Controller) : Prop where
  muted : c'.muted = c.muted
  tripHold : c'.tripHold = c.tripHold
  disturbed : c'.disturbed = c.disturbed
  silencing : c'.state.silencing = c.state.silencing
  silent : c.state.silencing = true → c'.state = c.state ∧ c'.attenuation = c.attenuation
  sounding : c.state.silencing = false → c.attenuation ≤ maximum → c'.attenuation ≤ maximum

/-- One change of the part, made of one block's state where the conditions named hold. -/
inductive Change (s : State) : State → Prop
  /-- What no rule bounds: the levels, the frame sent, the lane, the count of stops. -/
  | books (level : Nat) (lock : Bool) (out : Option DriveFrame) (stops : Nat)
      (sending : Option Transmission) (fill : Bool) (last : OutClass) :
      Change s { s with
        supplyLevel := level, planLock := lock, driveOut := out, stops := stops
        ltx := { s.ltx with sending := sending, fillPending := fill, lastClass := last } }
  | alert (a : Alert) : Change s (s.raiseAlert a)
  | reply (r : Reply) (room : s.mu.replies.length + s.repliesOwed < 4) : Change s (s.queueReply r)
  | report (r : MinuteReport) : Change s (s.queueReport r)
  /-- A message enters the inbound queue (R173). -/
  | arrived (m : Message) :
      Change s { s with mu := { s.mu with inbound := pushOver Config.inboundCap s.mu.inbound m } }
  /-- Messages leave the queues of MU. -/
  | taken (m : Mu) (inbound : m.inbound.length ≤ s.mu.inbound.length)
      (replies : m.replies.length ≤ s.mu.replies.length) (alerts : m.alerts.length ≤ s.mu.alerts.length)
      (reports : m.reports.length ≤ s.mu.reports.length) : Change s { s with mu := m }
  /-- A setting becomes the pending one, in place of another or owing a reply (R29). -/
  | setting (set : Setting) (range : set.minute ≤ 1439 ∧ set.second ≤ 59)
      (room : s.tb.setting.isSome = true ∨ s.mu.replies.length + s.repliesOwed < 4) :
      Change s { s with tb := { s.tb with setting := some set } }
  /-- Less is due of an interval end, or other zones are. -/
  | lessDue (due : Due) (stale : ∀ m ∈ due.stale, m ∈ s.due.stale) (tb : due.tb = s.due.tb)
      (swap : due.swap = true → s.due.swap = true) : Change s { s with due := due }
  | staleDue (list : List (Fin 12)) (mapped : ∀ m ∈ list, s.be.monitors[m].state ≠ .unmapped)
      (swap : s.due.swap = false) : Change s { s with due := { s.due with stale := list } }
  | swapDue (stale : s.due.stale = []) : Change s { s with due := { s.due with swap := true } }
  /-- A zone is resolved with new causes of its own (R94). -/
  | resolved (z : Fin 8) (c : Controller) (state : c.state = s.zc.zones[z].state)
      (attenuation : c.attenuation = s.zc.zones[z].attenuation) (disturbed : c.disturbed = s.zc.zones[z].disturbed) :
      Change s (s.resolveWith z c)
  /-- The records of the zones change, their silence and its causes kept. -/
  | zones (zones : Vector Controller 8) (line : Bool)
      (follows : ∀ z : Fin 8, StandingAgrees s.zc.zones[z] s.zc.standing[z] →
        Controller.Follows (zoneItem s.ps.working z).maximum s.zc.zones[z] zones[z])
      (tripped : s.TripLineFollows → (line = true ↔ ∃ z : Fin 8, zones[z].state = .tripped)) :
      Change s { s with zc := { s.zc with zones := zones, tripLine := line } }
  | standing : Change s s.recordStanding
  /-- The monitors' records change, their mapping kept (R63, R64). -/
  | monitors (monitors : Vector Monitor 12)
      (mapped : (∀ m ∈ s.due.stale, s.be.monitors[m].state ≠ .unmapped) →
        ∀ m : Fin 12, monitors[m].boundary = s.be.monitors[m].boundary
        ∧ (monitors[m].state = .unmapped ↔ s.be.monitors[m].state = .unmapped)
        ∧ (s.be.monitors[m].silence ≤ 65535 → monitors[m].silence ≤ 65535)) :
      Change s { s with be := { s.be with monitors := monitors } }
  /-- The estimators' records change, each within its bounds (R53, R61, R69). -/
  | estimators (f : Fin 6 → Estimator → Estimator)
      (ring : ∀ b e, e.ring.length ≤ 80 → (f b e).ring.length ≤ 80)
      (corrections : ∀ b e, -150 ≤ e.correctionFull ∧ e.correctionFull ≤ 150 ∧ -150 ≤ e.correctionLf
          ∧ e.correctionLf ≤ 150 →
        -150 ≤ (f b e).correctionFull ∧ (f b e).correctionFull ≤ 150 ∧ -150 ≤ (f b e).correctionLf
          ∧ (f b e).correctionLf ≤ 150) (estimators : Vector (Option Estimator) 6)
      (at' : ∀ b : Fin 6, estimators[b] = (s.be.estimators[b]).map (f b)) :
      Change s { s with be := { s.be with estimators := estimators } }
  /-- The accounts change, each within its bound (R76). -/
  | accounts (f : Fin 6 → Account → Account) (ring : ∀ b a, a.ring.length ≤ 14 → (f b a).ring.length ≤ 14)
      (ea : Ea) (at' : ∀ b : Fin 6, ea.accounts[b] = (s.ea.accounts[b]).map (f b)) :
      Change s { s with ea := ea }
  /-- The plan store changes, the plan in force kept. -/
  | store (ps : Ps) (working : ps.working = s.ps.working)
      (room : ps.operation.isSome = true →
        s.ps.operation.isSome = true ∨ s.mu.replies.length + s.repliesOwed < 4)
      (sound : s.PlanSound → ({ s with ps := ps } : State).PlanSound) : Change s { s with ps := ps }
  /-- An operation ends with its owed reply (R124). -/
  | ended (ps : Ps) (r : Reply) (working : ps.working = s.ps.working) (busy : s.ps.operation.isSome = true)
      (idle : ps.operation = none) (sound : s.PlanSound → ({ s with ps := ps } : State).PlanSound) :
      Change s (({ s with ps := ps } : State).queueReply r)
  /-- A line or the supply changes, and every zone is resolved (R108 to R110). -/
  | resolves (stop : Bool) (supply : SupplyState) :
      Change s (({ s with venueStop := stop, supply := supply } : State).resolveAll)
  /-- VENUE STOP changes level while the part has stopped (R199). -/
  | offStop (stop : Bool) (off : s.supply = .off) : Change s { s with venueStop := stop }
  | derived : Change s s.derive
  /-- The due swap is performed and the limits derived (R139). -/
  | swapped (due : s.due.swap = true) (ready : s.swapReady = true) :
      Change s (({ s with due := { s.due with swap := false } } : State).performSwap.derive)
  /-- TB takes the due setting or minute boundary with no reply (R27). -/
  | turned (tb : Tb) (limits : tb.limits = s.tb.limits) (setting : tb.setting = s.tb.setting)
      (sound : s.TimeSound → ({ s with tb := tb, due := { s.due with tb := none } } : State).TimeSound) :
      Change s { s with tb := tb, due := { s.due with tb := none } }
  /-- TB acts on the due setting, which is answered (R31 to R33). -/
  | acted (tb : Tb) (r : Reply) (limits : tb.limits = s.tb.limits) (pending : s.tb.setting.isSome = true)
      (setting : tb.setting = none)
      (sound : s.TimeSound → ({ s with tb := tb, due := { s.due with tb := none } } : State).TimeSound) :
      Change s (({ s with tb := tb, due := { s.due with tb := none } } : State).queueReply r)
  | counted (due : s.due.tb = none) : Change s s.countInterval
  | published : Change s s.publish
  | measured (samples : Samples) (room : s.intervalComplete = false) : Change s (s.measure samples)
  /-- LRX and the primed flag of LTX change. -/
  | link (l : Lrx) (primed : Bool) (fifo : s.lrx.fifo.length ≤ 4 → l.fifo.length ≤ 4)
      (consistent : s.LinkConsistent →
        ({ s with lrx := l, ltx := { s.ltx with primed := primed } } : State).LinkConsistent) :
      Change s { s with lrx := l, ltx := { s.ltx with primed := primed } }
  | reset (cause level : Nat) : Change s (s.startUp cause level)
  | lost : Change s s.powerOff

/-- A run of changes. -/
abbrev Changes : State → State → Prop := Relation.ReflTransGen Change

/-- What every change keeps, a run of changes keeps. -/
theorem Changes.keeps {P : State → Prop} (h : ∀ {s t}, Change s t → P s → P t) {s t : State} (hc : Changes s t)
    (hs : P s) : P t := by
  induction hc with
  | refl => exact hs
  | tail _ hlast ih => exact h hlast ih

/-- The queue of commands is none of the blocks'. -/
theorem Change.pending {s t : State} (h : Change s t) : t.pending = s.pending := by
  cases h
  case reset cause level =>
    rw [State.startUp_eq, State.cutRetain]
    split <;> rfl
  case swapped due ready => rfl
  all_goals rfl

theorem Change.run {s t : State} (h : Change s t) : Changes s t := Relation.ReflTransGen.single h

end Sys2Proof.Machine
end

section
/-! SUPPORT. The invariants that every change keeps: the queues, the link, the zones, the plan, the clock and the
records. -/

namespace Sys2Proof.Machine

/-! ### The queues -/

theorem Ea.startMinute_ring_le {ea : Ea} {limits : Vector (Option LimitEntry) 6} {n : Nat}
    (h : ∀ (b : Fin 6) a, ea.accounts[b] = some a → a.ring.length ≤ n) (b : Fin 6) (a' : Account)
    (ha' : (ea.startMinute limits).accounts[b] = some a') : a'.ring.length ≤ n := by
  cases ha : ea.accounts[b] with
  | none => cases (Ea.startMinute_none ha).symm.trans ha'
  | some a =>
    obtain ⟨x, hx, -, -, -, hring⟩ := Ea.startMinute_account ea limits ha
    cases hx.symm.trans ha'
    rw [hring]
    exact h b a ha

theorem Ea.align_ring_le {ea : Ea} {old new : Bank} {n : Nat}
    (h : ∀ (b : Fin 6) a, ea.accounts[b] = some a → a.ring.length ≤ n) (b : Fin 6) (a' : Account)
    (ha' : (ea.align old new).accounts[b] = some a') : a'.ring.length ≤ n := by
  simp only [Ea.align, Fin.getElem_fin, Vector.getElem_ofFn] at ha' h
  split at ha'
  · cases ha'
  · split at ha'
    · cases ha'; exact Nat.zero_le n
    · split at ha'
      · obtain ⟨a, -, rfl⟩ := Option.map_eq_some_iff.1 ha'
        exact Nat.zero_le n
      · exact h b a' ha'

theorem Be.align_ring_le {be : Be} {old new : Bank} {n : Nat}
    (h : ∀ (b : Fin 6) e, be.estimators[b] = some e → e.ring.length ≤ n) (b : Fin 6) (e' : Estimator)
    (he' : (be.align old new).estimators[b] = some e') : e'.ring.length ≤ n := by
  simp only [Be.align, Fin.getElem_fin, Vector.getElem_ofFn] at he' h
  split at he'
  · cases he'
  · split at he'
    · cases he'; exact Nat.zero_le n
    · exact h b e' he'

theorem State.startUp_queuesBounded (s : State) (cause level : Nat) : (s.startUp cause level).QueuesBounded := by
  rw [State.startUp_eq]
  refine ⟨Nat.zero_le 8, Nat.zero_le 4, ?_, Nat.zero_le 4, Nat.zero_le 4, fun b e he => ?_, fun b a ha => ?_⟩
  · dsimp only; split <;> simp
  · simp only [State.resetBlocks, Be.startUp, Fin.getElem_fin, Vector.getElem_ofFn] at he
    split at he
    · cases he; exact Nat.zero_le 80
    · cases he
  · simp only [State.resetBlocks, Ea.startUp, Fin.getElem_fin, Vector.getElem_ofFn] at ha
    split at ha
    · cases ha; split <;> exact Nat.zero_le 14
    · cases ha

theorem State.powerOff_queuesBounded (s : State) : s.powerOff.QueuesBounded := by
  refine ⟨Nat.zero_le 8, Nat.zero_le 4, Nat.zero_le 8, Nat.zero_le 4, Nat.zero_le 4, fun b e he => ?_, fun b a ha => ?_⟩
  · simp [State.powerOff, Be.empty] at he
  · simp [State.powerOff, Ea.empty] at ha

theorem State.QueuesBounded.change {s t : State} (hc : Change s t) (h : s.QueuesBounded) : t.QueuesBounded := by
  obtain ⟨hin, hrep, hal, hrp, hff, hest, hacc⟩ := h
  have hkeep : s.QueuesBounded := ⟨hin, hrep, hal, hrp, hff, hest, hacc⟩
  cases hc
  case books | offStop | lessDue | staleDue | swapDue | resolved | zones | standing | monitors | resolves | counted
    | published
      | measured => exact hkeep
  case alert a =>
    refine ⟨hin, hrep, ?_, hrp, hff, hest, hacc⟩
    have := pushNewest_length 8 s.mu.alerts a
    exact this.le.trans (min_le_right _ _)
  case reply r room =>
    refine ⟨hin, ?_, hal, hrp, hff, hest, hacc⟩
    show (s.mu.replies ++ [r]).length + s.repliesOwed ≤ 4
    rw [List.length_append, List.length_singleton]
    omega
  case report r =>
    refine ⟨hin, hrep, hal, ?_, hff, hest, hacc⟩
    have := pushNewest_length 4 s.mu.reports r
    exact this.le.trans (min_le_right _ _)
  case arrived m =>
    refine ⟨?_, hrep, hal, hrp, hff, hest, hacc⟩
    have := pushOver_length s.mu.inbound m (show 0 < 8 by decide)
    exact this.le.trans (min_le_right _ _)
  case taken m inbound replies alerts reports =>
    refine ⟨inbound.trans hin, ?_, alerts.trans hal, reports.trans hrp, hff, hest, hacc⟩
    exact (Nat.add_le_add_right replies _).trans hrep
  case setting set range room =>
    refine ⟨hin, ?_, hal, hrp, hff, hest, hacc⟩
    show s.mu.replies.length + (s.ps.operation.isSome.toNat + 1) ≤ 4
    simp only [State.repliesOwed] at hrep room
    rcases room with room | room
    · rw [room] at hrep
      exact hrep
    · omega
  case estimators f ring corrections v at' =>
    refine ⟨hin, hrep, hal, hrp, hff, fun b e he => ?_, hacc⟩
    obtain ⟨e', he', rfl⟩ := Option.map_eq_some_iff.1 ((at' b).symm.trans he)
    exact ring b e' (hest b e' he')
  case accounts f ring ea at' =>
    refine ⟨hin, hrep, hal, hrp, hff, hest, fun b a ha => ?_⟩
    obtain ⟨a', ha', rfl⟩ := Option.map_eq_some_iff.1 ((at' b).symm.trans ha)
    exact ring b a' (hacc b a' ha')
  case store ps working room sound =>
    refine ⟨hin, ?_, hal, hrp, hff, hest, hacc⟩
    show s.mu.replies.length + (ps.operation.isSome.toNat + s.tb.setting.isSome.toNat) ≤ 4
    simp only [State.repliesOwed] at hrep room
    cases ho : ps.operation.isSome with
    | false => simp only [Bool.toNat_false]; omega
    | true =>
      rcases room ho with room | room
      · rw [room] at hrep
        exact hrep
      · simp only [Bool.toNat_true]; omega
  case ended ps r working busy idle sound =>
    refine ⟨hin, ?_, hal, hrp, hff, hest, hacc⟩
    show (s.mu.replies ++ [r]).length + (ps.operation.isSome.toNat + s.tb.setting.isSome.toNat) ≤ 4
    simp only [State.repliesOwed, busy, Bool.toNat_true] at hrep
    simp only [idle, List.length_append, List.length_singleton, Option.isSome_none, Bool.toNat_false]
    omega
  case derived =>
    refine ⟨hin, hrep, hal, hrp, hff, hest, fun b a ha => ?_⟩
    exact Ea.startMinute_ring_le hacc b a ha
  case swapped due ready =>
    refine ⟨hin, hrep, ?_, hrp, hff, fun b e he => ?_, fun b a ha => ?_⟩
    · exact (pushNewest_length 8 _ _).le.trans (min_le_right _ _)
    · exact Be.align_ring_le hest b e he
    · exact Ea.startMinute_ring_le (Ea.align_ring_le hacc) b a ha
  case turned tb limits setting sound =>
    refine ⟨hin, ?_, hal, hrp, hff, hest, hacc⟩
    show s.mu.replies.length + (s.ps.operation.isSome.toNat + tb.setting.isSome.toNat) ≤ 4
    rw [setting]
    exact hrep
  case acted tb r limits pending setting sound =>
    refine ⟨hin, ?_, hal, hrp, hff, hest, hacc⟩
    show (s.mu.replies ++ [r]).length + (s.ps.operation.isSome.toNat + tb.setting.isSome.toNat) ≤ 4
    simp only [State.repliesOwed, pending, Bool.toNat_true] at hrep
    simp only [setting, List.length_append, List.length_singleton, Option.isSome_none, Bool.toNat_false]
    omega
  case link l primed fifo consistent => exact ⟨hin, hrep, hal, hrp, fifo hff, hest, hacc⟩
  case reset cause level => exact State.startUp_queuesBounded s cause level
  case lost => exact State.powerOff_queuesBounded s

/-! ### The link -/

theorem linkConsistent_of_reset {s : State} {level : Bool} (hl : s.lrx = Lrx.reset level)
    (hp : s.ltx.primed = false) : s.LinkConsistent := by
  unfold State.LinkConsistent
  rw [hl, hp]
  simp [Lrx.reset]

theorem State.LinkConsistent.change {s t : State} (hc : Change s t) (h : s.LinkConsistent) : t.LinkConsistent := by
  cases hc
  case link l primed fifo consistent => exact consistent h
  case reset cause level =>
    exact linkConsistent_of_reset (by rw [State.startUp_eq]; rfl) (by rw [State.startUp_eq]; rfl)
  case lost => exact linkConsistent_of_reset rfl rfl
  all_goals exact h

/-! ### The clock and the meters -/

theorem timeSound_of_reset {s : State} {limits : Vector (Option LimitEntry) 6}
    (h : s.tb = { Tb.reset with limits := limits }) (hd : s.due.tb = none) : s.TimeSound := by
  unfold State.TimeSound
  rw [h, hd]
  simp [Tb.reset]

theorem State.TimeSound.change {s t : State} (hc : Change s t) (h : s.TimeSound) : t.TimeSound := by
  obtain ⟨hminute, hposition, hdue, hlow, hhigh, htally, hsetting, hrange⟩ := h
  have hkeep : s.TimeSound := ⟨hminute, hposition, hdue, hlow, hhigh, htally, hsetting, hrange⟩
  cases hc
  case setting set range room =>
    exact ⟨hminute, hposition, hdue, hlow, hhigh, htally, fun _ => nofun, fun _ h => by cases h; exact range⟩
  case lessDue due stale tb swap =>
    refine ⟨hminute, hposition, fun hp => ?_, hlow, hhigh, htally, fun hd => ?_, hrange⟩
    · exact fun hn => hdue hp (tb.symm.trans hn)
    · exact hsetting (tb.symm.trans hd)
  case turned tb limits setting sound => exact sound hkeep
  case acted tb r limits pending setting sound => exact sound hkeep
  case counted due =>
    have hp : s.tb.position ≠ 480 := fun hp => hdue hp due
    have hcount : s.countInterval.tb = { s.tb with position := s.tb.position + 1, tally := s.tb.tally + 1 } := rfl
    have hdue' : s.countInterval.due.tb
      = if s.tb.setting.isSome then some .setting
        else if s.tb.position + 1 = 480 then some .minuteBoundary else none := rfl
    unfold State.TimeSound
    rw [hcount, hdue']
    refine ⟨hminute, by dsimp only; omega, fun hq => ?_, hlow, hhigh, by push_cast; omega, ?_, hrange⟩
    · rw [if_pos hq]
      split <;> nofun
    · intro hs
      split at hs
      · rename_i hsome; exact Option.isSome_iff_ne_none.1 hsome
      · split at hs <;> cases hs
  case reset cause level => exact timeSound_of_reset (by rw [State.startUp_eq]; rfl) (by rw [State.startUp_eq]; rfl)
  case lost => exact timeSound_of_reset (limits := Vector.replicate 6 none) rfl rfl
  all_goals exact hkeep

theorem State.intervalComplete_iff (s : State) :
    s.intervalComplete = true ↔ ∀ z : Fin 8, s.mb.meters[z].frames = 6000 := by
  simp only [State.intervalComplete, List.all_eq_true, beq_iff_eq, Vector.mem_toList_iff]
  constructor
  · exact fun h z => h _ (Vector.getElem_mem z.isLt)
  · rintro h m hm
    obtain ⟨i, hi, rfl⟩ := Vector.getElem_of_mem hm
    exact h ⟨i, hi⟩

theorem measureZone_frames (bank : Bank) (samples : Samples) (z : Fin 8) (m : Meter) :
    (measureZone bank samples z m).frames = m.frames + 1 := by
  rw [measureZone_eq]

theorem State.MetersInStep.change {s t : State} (hc : Change s t) (h : s.MetersInStep) : t.MetersInStep := by
  cases hc
  case published => exact ⟨0, by decide, fun z => by simp [State.publish, Meter.zero]⟩
  case measured samples room =>
    obtain ⟨n, hn, hall⟩ := h
    have hne : n ≠ 6000 := by
      rintro rfl
      rw [(State.intervalComplete_iff s).2 hall] at room
      cases room
    refine ⟨n + 1, by omega, fun z => ?_⟩
    simp only [State.measure, Fin.getElem_fin, Vector.getElem_ofFn, measureZone_frames]
    exact congrArg (· + 1) (hall z)
  case reset cause level =>
    rw [State.startUp_eq]
    exact ⟨0, by decide, fun z => by simp [State.resetBlocks, Mb.reset, Meter.zero]⟩
  case lost => exact ⟨0, by decide, fun z => by simp [State.powerOff, Mb.reset, Meter.zero]⟩
  all_goals exact h

/-! ### The plan store -/

theorem checkPlan_blankBank : checkPlan blankBank = none := by decide +kernel

theorem checkPlan_startPlan {ps : Ps} (h : ps.retainedState = .valid → checkPlan ps.retained = none) :
    checkPlan (startPlan ps) = none := by
  unfold startPlan
  split
  · exact h ‹_›
  · exact checkPlan_blankBank

/-- A plan store without an operation, whose shadow is the plan in force, is sound when its retained bank is. -/
theorem planSound_of_idle {s : State} (hw : checkPlan s.ps.working = none)
    (hr : s.ps.retainedState = .valid → checkPlan s.ps.retained = none) (hs : s.ps.shadow = s.ps.working)
    (ho : s.ps.operation = none) : s.PlanSound := by
  refine ⟨hw, hr, fun _ => hs, fun _ => ⟨hs ▸ hw, fun op hop => ?_⟩, fun op hop => ?_⟩ <;> cases ho.symm.trans hop

theorem State.cutRetain_retained {s : State} (h : s.ps.retainedState = .valid → checkPlan s.ps.retained = none) :
    s.cutRetain.ps.retainedState = .valid → checkPlan s.cutRetain.ps.retained = none := by
  unfold State.cutRetain
  split
  · exact nofun
  · exact h

theorem State.PlanSound.change {s t : State} (hc : Change s t) (h : s.PlanSound) : t.PlanSound := by
  obtain ⟨hworking, hretained, hclean, hpending, hretaining⟩ := h
  have hkeep : s.PlanSound := ⟨hworking, hretained, hclean, hpending, hretaining⟩
  cases hc
  case store ps working room sound => exact sound hkeep
  case ended ps r working busy idle sound => exact sound hkeep
  case swapped due ready =>
    have hready : s.ps.activationPending = true := (Bool.and_eq_true_iff.1 ready).1
    exact ⟨(hpending hready).1, hretained, fun _ => rfl, nofun, hretaining⟩
  case reset cause level =>
    rw [State.startUp_eq]
    have hcut := State.cutRetain_retained hretained
    exact planSound_of_idle (checkPlan_startPlan hcut) hcut rfl rfl
  case lost => exact planSound_of_idle checkPlan_blankBank hretained rfl rfl
  all_goals exact hkeep

end Sys2Proof.Machine
end

section
/-! SUPPORT. The zones stay resolved and the TRIP line follows them (R92, R94, R95, R107), and the records stay those
of
the plan (R53, R63, R76): the two invariants of what a change leaves. -/

namespace Sys2Proof.Machine

/-! ### Resolving one record -/

/-- A record lies within its maximum, as an aligned one does: at it in silence, or about to leave OFF (R92, R116). -/
def Controller.Within (item : ZoneItem) (c : Controller) : Prop :=
  (c.state.silencing = true → c.attenuation = item.maximum ∨ (c.state = .off ∧ item.enabled = true))
    ∧ (c.state.silencing = false → c.attenuation ≤ item.maximum)

/-- What the causes of a zone ask of its record. -/
abbrev HoldsCause (bank : Bank) (stop : Bool) (limits : Vector (Option LimitEntry) 6) (z : Fin 8) (c : Controller) :
    Prop :=
  match silencingCause bank stop limits z c with
  | some state => c.state = state ∧ c.attenuation = (zoneItem bank z).maximum
  | none => c.state.silencing = false ∧ c.attenuation ≤ (zoneItem bank z).maximum

theorem silencingCause_congr (bank : Bank) (stop : Bool) (limits : Vector (Option LimitEntry) 6) (z : Fin 8)
    {c c' : Controller} (ht : c'.tripHold = c.tripHold) (hm : c'.muted = c.muted) :
    silencingCause bank stop limits z c' = silencingCause bank stop limits z c := by
  unfold silencingCause
  rw [ht, hm]

theorem silencingCause_silencing {bank : Bank} {stop : Bool} {limits : Vector (Option LimitEntry) 6} {z : Fin 8}
    {c : Controller} {state : ZoneState} (h : silencingCause bank stop limits z c = some state) :
    state.silencing = true := by
  unfold silencingCause at h
  repeat' split at h
  · cases h; rfl
  · cases h; rfl
  · cases h; rfl
  · cases h; rfl
  · cases h; rfl
  · cases h

/-- OFF is the cause of a disabled zone alone, and of every one. -/
theorem silencingCause_off {bank : Bank} {stop : Bool} {limits : Vector (Option LimitEntry) 6} {z : Fin 8}
    {c : Controller} (h : silencingCause bank stop limits z c = some .off) :
    (zoneItem bank z).enabled = false := by
  unfold silencingCause at h
  split at h
  · rename_i he; simpa using he
  · repeat' split at h
    all_goals cases h

theorem silencingCause_of_disabled {bank : Bank} (stop : Bool) (limits : Vector (Option LimitEntry) 6) {z : Fin 8}
    (c : Controller) (h : (zoneItem bank z).enabled = false) :
    silencingCause bank stop limits z c = some .off := by
  unfold silencingCause
  rw [if_pos (by simp [h])]

/-- Entry into a silencing state keeps the zone's causes: only OFF clears the hold, and OFF comes of the plan. -/
theorem silencingCause_silence {bank : Bank} {stop : Bool} {limits : Vector (Option LimitEntry) 6} {z : Fin 8}
    {c : Controller} {state : ZoneState} (h : silencingCause bank stop limits z c = some state) (maximum : Nat) :
    silencingCause bank stop limits z (c.silence state maximum) = some state := by
  by_cases ho : state = .off
  · subst ho
    exact silencingCause_of_disabled stop limits _ (silencingCause_off h)
  · rw [← h]
    refine silencingCause_congr bank stop limits z ?_ rfl
    simp [Controller.silence, ho]

theorem holdsCause_of_some {bank : Bank} {stop : Bool} {limits : Vector (Option LimitEntry) 6} {z : Fin 8}
    {c : Controller} {state : ZoneState} (h : silencingCause bank stop limits z c = some state)
    (hs : c.state = state) (ha : c.attenuation = (zoneItem bank z).maximum) : HoldsCause bank stop limits z c := by
  unfold HoldsCause
  rw [h]
  exact ⟨hs, ha⟩

theorem holdsCause_of_none {bank : Bank} {stop : Bool} {limits : Vector (Option LimitEntry) 6} {z : Fin 8}
    {c : Controller} (h : silencingCause bank stop limits z c = none) (hs : c.state.silencing = false)
    (ha : c.attenuation ≤ (zoneItem bank z).maximum) : HoldsCause bank stop limits z c := by
  unfold HoldsCause
  rw [h]
  exact ⟨hs, ha⟩

/-- Resolution leaves a record that its causes ask for (R94, R95, R97). -/
theorem resolveZone_holds {bank : Bank} {z : Fin 8} {c : Controller} (h : c.Within (zoneItem bank z)) (stop : Bool)
    (limits : Vector (Option LimitEntry) 6) :
    HoldsCause bank stop limits z (resolveZone bank stop limits z c) := by
  obtain ⟨hsilent, hsounding⟩ := h
  cases hc : silencingCause bank stop limits z c with
  | some state =>
    by_cases hstate : c.state = state
    · have hres : resolveZone bank stop limits z c = c := by simp only [resolveZone, hc, if_pos hstate]
      rw [hres]
      refine holdsCause_of_some hc hstate ((hsilent (hstate ▸ silencingCause_silencing hc)).resolve_right ?_)
      rintro ⟨hoff, hen⟩
      rw [silencingCause_off (hoff.symm.trans hstate ▸ hc)] at hen
      cases hen
    · have hres : resolveZone bank stop limits z c = c.silence state (zoneItem bank z).maximum := by
        simp only [resolveZone, hc, if_neg hstate]
      rw [hres]
      exact holdsCause_of_some (silencingCause_silence hc _) rfl rfl
  | none =>
    cases hs : c.state.silencing with
    | true =>
      have hres : resolveZone bank stop limits z c = c.release (zoneItem bank z).maximum := by
        simp only [resolveZone, hc, if_pos hs]
      rw [hres]
      exact holdsCause_of_none ((silencingCause_congr bank stop limits z rfl rfl).trans hc) rfl le_rfl
    | false =>
      have hres : resolveZone bank stop limits z c = c := by
        simp only [resolveZone, hc, hs, Bool.false_eq_true, if_false]
      rw [hres]
      exact holdsCause_of_none hc hs (hsounding hs)

/-- Resolution marks a record that it moves into or out of silence. -/
theorem resolveZone_agrees {c : Controller} {st : Standing} (h : StandingAgrees c st) (bank : Bank) (stop : Bool)
    (limits : Vector (Option LimitEntry) 6) (z : Fin 8) :
    StandingAgrees (resolveZone bank stop limits z c) st := by
  unfold resolveZone
  split
  · split
    · exact h
    · exact nofun
  · split
    · exact nofun
    · exact h

/-- A record that its causes ask for lies within its maximum. -/
theorem HoldsCause.within {bank : Bank} {stop : Bool} {limits : Vector (Option LimitEntry) 6} {z : Fin 8}
    {c : Controller} (h : HoldsCause bank stop limits z c) : c.Within (zoneItem bank z) := by
  unfold HoldsCause at h
  unfold Controller.Within
  split at h
  · exact ⟨fun _ => .inl h.2, fun _ => h.2.le⟩
  · exact ⟨fun hs => (Bool.false_ne_true (h.1.symm.trans hs)).elim, fun _ => h.2⟩

/-- A change that leaves silence, causes and the mark alone leaves a record that its causes ask for. -/
theorem HoldsCause.follows {bank : Bank} {stop : Bool} {limits : Vector (Option LimitEntry) 6} {z : Fin 8}
    {c c' : Controller} (h : HoldsCause bank stop limits z c) (hf : c.Follows (zoneItem bank z).maximum c') :
    HoldsCause bank stop limits z c' := by
  unfold HoldsCause at h ⊢
  rw [silencingCause_congr bank stop limits z hf.tripHold hf.muted]
  cases hc : silencingCause bank stop limits z c with
  | some state =>
    rw [hc] at h
    obtain ⟨hstate, hatt⟩ := h
    obtain ⟨hs, ha⟩ := hf.silent (hstate ▸ silencingCause_silencing hc)
    exact ⟨hs.trans hstate, ha.trans hatt⟩
  | none =>
    rw [hc] at h
    obtain ⟨hstate, hatt⟩ := h
    exact ⟨hf.silencing.trans hstate, hf.sounding hstate hatt⟩

theorem StandingAgrees.follows {c c' : Controller} {st : Standing} {maximum : Nat} (h : StandingAgrees c st)
    (hf : c.Follows maximum c') : StandingAgrees c' st := by
  intro hd
  rw [hf.silencing]
  exact h (hf.disturbed ▸ hd)

/-! ### The zones -/

theorem State.ZonesResolved.congr {s t : State} (h : s.ZonesResolved) (hzones : t.zc.zones = s.zc.zones)
    (hstanding : t.zc.standing = s.zc.standing) (hworking : t.ps.working = s.ps.working)
    (hstop : t.stopCause = s.stopCause) (hlimits : t.tb.limits = s.tb.limits) : t.ZonesResolved := by
  unfold State.ZonesResolved
  rw [hzones, hstanding, hworking, hstop, hlimits]
  exact h

theorem State.ZonesResolved.within {s : State} (h : s.ZonesResolved) (z : Fin 8) :
    s.zc.zones[z].Within (zoneItem s.ps.working z) := HoldsCause.within (h z).2

/-- Resolving every zone of records within their maxima leaves every zone resolved. -/
theorem State.resolveAll_resolved {s : State} (hagree : ∀ z : Fin 8, StandingAgrees s.zc.zones[z] s.zc.standing[z])
    (hwithin : ∀ z : Fin 8, s.zc.zones[z].Within (zoneItem s.ps.working z)) : s.resolveAll.ZonesResolved := by
  intro z
  rw [State.resolveAll_zone]
  exact ⟨resolveZone_agrees (hagree z) _ _ _ _, resolveZone_holds (hwithin z) _ _⟩

theorem State.resolveWith_resolved {s : State} (h : s.ZonesResolved) {z : Fin 8} {c : Controller}
    (hstate : c.state = s.zc.zones[z].state) (hatt : c.attenuation = s.zc.zones[z].attenuation)
    (hdisturbed : c.disturbed = s.zc.zones[z].disturbed) : (s.resolveWith z c).ZonesResolved := by
  intro y
  have hzone : (s.resolveWith z c).zc.zones[y]
      = if y = z then resolveZone s.ps.working s.stopCause s.tb.limits z c else s.zc.zones[y] := by
    show (s.zc.zones.set z _)[y] = _
    split
    · rename_i hy; rw [hy, vector_set_self]
    · rename_i hy; exact vector_set_other _ _ _ _ hy
  rw [hzone]
  split
  · rename_i hy
    subst hy
    refine ⟨resolveZone_agrees (fun hd => ?_) _ _ _ _, resolveZone_holds (z := y) (bank := s.ps.working) ?_ _ _⟩
    · rw [hstate]; exact (h y).1 (hdisturbed ▸ hd)
    · unfold Controller.Within
      rw [hstate, hatt]
      exact h.within y
  · exact h y

theorem alignZone_within {old new : Bank} {z : Fin 8} {c : Controller}
    (hoff : (zoneItem old z).enabled = false → c.state = .off) : (alignZone old new z c).Within (zoneItem new z) := by
  unfold alignZone
  dsimp only
  split
  · rename_i hnew
    split
    · exact ⟨fun _ => .inl rfl, fun hs => by simp_all [ZoneState.silencing]⟩
    · exact ⟨fun _ => .inl rfl, nofun⟩
  · rename_i hnew
    split
    · rename_i hold
      have hstate := hoff (by simpa using hold)
      exact ⟨fun _ => .inr ⟨hstate, by simpa using hnew⟩, fun hs => by rw [hstate] at hs; cases hs⟩
    · exact ⟨fun hs => .inl (if_pos hs), fun hs => by simp only [hs]; exact min_le_right _ _⟩

theorem alignZone_agrees {c : Controller} {st : Standing} (h : StandingAgrees c st) (old new : Bank) (z : Fin 8) :
    StandingAgrees (alignZone old new z c) st := by
  unfold alignZone
  dsimp only
  split
  · split
    · exact h
    · exact nofun
  · split <;> exact h

theorem State.ZonesResolved.off {s : State} (h : s.ZonesResolved) (z : Fin 8)
    (he : (zoneItem s.ps.working z).enabled = false) : s.zc.zones[z].state = .off := by
  have hz := (h z).2
  rw [silencingCause_of_disabled _ _ _ he] at hz
  exact hz.1

/-- After a swap performed and the derivation every zone is resolved under the new plan (R96, R115, R116). -/
theorem State.performSwap_derive_resolved {s : State} (h : s.ZonesResolved) : s.performSwap.derive.ZonesResolved := by
  have hzone (z : Fin 8) : s.performSwap.zc.zones[z] = alignZone s.ps.working s.ps.shadow z s.zc.zones[z] := by
    show (Vector.ofFn _)[z] = _
    simp
  refine State.resolveAll_resolved (s := { s.performSwap with
    tb := s.performSwap.derive.tb, ea := s.performSwap.derive.ea }) (fun z => ?_) (fun z => ?_)
  · rw [hzone]
    exact alignZone_agrees (h z).1 _ _ _
  · rw [hzone]
    exact alignZone_within fun he => h.off z he

theorem Controller.startUp_within (item : ZoneItem) : (Controller.startUp item).Within item := by
  unfold Controller.startUp
  split
  · exact ⟨nofun, fun _ => le_rfl⟩
  · exact ⟨fun _ => .inl rfl, nofun⟩

theorem resolveZone_tripHold {bank : Bank} {stop : Bool} {limits : Vector (Option LimitEntry) 6} {z : Fin 8}
    {c : Controller} (h : (resolveZone bank stop limits z c).tripHold = true) : c.tripHold = true := by
  unfold resolveZone at h
  split at h
  · split at h
    · exact h
    · exact (Bool.and_eq_true_iff.1 h).1
  · split at h <;> exact h

theorem silencingCause_tripped {bank : Bank} {stop : Bool} {limits : Vector (Option LimitEntry) 6} {z : Fin 8}
    {c : Controller} (h : silencingCause bank stop limits z c = some .tripped) : c.tripHold = true := by
  unfold silencingCause at h
  split at h
  · cases h
  · split at h
    · cases h
    · split at h
      · assumption
      · repeat' split at h
        all_goals cases h

theorem HoldsCause.tripHold {bank : Bank} {stop : Bool} {limits : Vector (Option LimitEntry) 6} {z : Fin 8}
    {c : Controller} (h : HoldsCause bank stop limits z c) (ht : c.state = .tripped) : c.tripHold = true := by
  unfold HoldsCause at h
  split at h
  · rename_i hc
    exact silencingCause_tripped (hc.trans (congrArg some (h.1.symm.trans ht)))
  · rw [ht] at h
    cases h.1

/-- The records of the zones after a reset (R93). -/
theorem startZones_zone (bank : Bank) (stop : Bool) (limits : Vector (Option LimitEntry) 6) (z : Fin 8) :
    (startZones bank stop limits)[z]
      = { resolveZone bank stop limits z (Controller.startUp (zoneItem bank z)) with disturbed := false } := by
  simp [startZones]

theorem startZones_holds (bank : Bank) (stop : Bool) (limits : Vector (Option LimitEntry) 6) (z : Fin 8) :
    HoldsCause bank stop limits z (startZones bank stop limits)[z] := by
  rw [startZones_zone]
  exact resolveZone_holds (Controller.startUp_within _) stop limits

/-- No zone is TRIPPED after a reset. -/
theorem startZones_not_tripped (bank : Bank) (stop : Bool) (limits : Vector (Option LimitEntry) 6) (z : Fin 8) :
    (startZones bank stop limits)[z].state ≠ .tripped := by
  intro ht
  have hhold := (startZones_holds bank stop limits z).tripHold ht
  rw [startZones_zone] at hhold
  have := resolveZone_tripHold hhold
  unfold Controller.startUp at this
  split at this <;> cases this

theorem State.startUp_resolved (s : State) (cause level : Nat) : (s.startUp cause level).ZonesResolved := by
  rw [State.startUp_eq]
  intro z
  refine ⟨fun _ => ?_, startZones_holds _ _ _ z⟩
  simp [State.resetBlocks, Controller.standing]

theorem zoneItem_blankBank : ∀ z : Fin 8,
    (zoneItem blankBank z).enabled = false ∧ (zoneItem blankBank z).maximum = 0 := by decide +kernel

theorem State.powerOff_resolved (s : State) : s.powerOff.ZonesResolved := by
  intro z
  obtain ⟨hdisabled, hmaximum⟩ := zoneItem_blankBank z
  have hzone : s.powerOff.zc.zones[z] = Controller.off 0 := by simp [State.powerOff, Zc.empty]
  refine ⟨fun _ => ?_, ?_⟩
  · rw [hzone]
    simp [State.powerOff, Zc.empty, Controller.off]
  · rw [hzone]
    exact holdsCause_of_some (silencingCause_of_disabled _ _ _ hdisabled) rfl hmaximum.symm

theorem State.ZonesResolved.change {s t : State} (hc : Change s t) (h : s.ZonesResolved) : t.ZonesResolved := by
  cases hc
  case resolved z c state attenuation disturbed => exact State.resolveWith_resolved h state attenuation disturbed
  case zones zones line follows tripped =>
    intro z
    have hf := follows z (h z).1
    exact ⟨(h z).1.follows hf, HoldsCause.follows (h z).2 hf⟩
  case standing =>
    intro z
    have hzone : s.recordStanding.zc.zones[z] = { s.zc.zones[z] with disturbed := false } := by
      simp [State.recordStanding]
    have hstanding : s.recordStanding.zc.standing[z] = s.zc.zones[z].standing := by
      simp [State.recordStanding]
    rw [hzone, hstanding]
    exact ⟨fun _ => rfl, (h z).2⟩
  case store ps working room sound => exact h.congr rfl rfl working rfl rfl
  case ended ps r working busy idle sound => exact h.congr rfl rfl working rfl rfl
  case turned tb limits setting sound => exact h.congr rfl rfl rfl rfl limits
  case acted tb r limits pending setting sound => exact h.congr rfl rfl rfl rfl limits
  case resolves stop supply =>
    exact State.resolveAll_resolved (s := { s with venueStop := stop, supply := supply }) (fun z => (h z).1) h.within
  case offStop stop off =>
    refine h.congr rfl rfl rfl ?_ rfl
    have hcause : (SupplyState.off != SupplyState.normal) = true := rfl
    simp [State.stopCause, off, hcause]
  case derived =>
    exact State.resolveAll_resolved (s := { s with tb := s.derive.tb, ea := s.derive.ea }) (fun z => (h z).1) h.within
  case swapped due ready =>
    exact State.performSwap_derive_resolved (s := { s with due := { s.due with swap := false } }) h
  case reset cause level => exact State.startUp_resolved s cause level
  case lost => exact State.powerOff_resolved s
  all_goals exact h

theorem State.tripLineFollows_change {s t : State} (hc : Change s t) (h : s.TripLineFollows) : t.TripLineFollows := by
  cases hc
  case resolved z c state attenuation disturbed => exact State.setZones_follows s _
  case zones zones line follows tripped => exact tripped h
  case standing =>
    refine h.trans (exists_congr fun z => ?_)
    simp [State.recordStanding]
  case resolves stop supply => exact State.setZones_follows { s with venueStop := stop, supply := supply } _
  case derived => exact State.derive_follows s
  case swapped due ready => exact State.derive_follows _
  case reset cause level =>
    rw [State.startUp_eq]
    exact ⟨nofun, fun ⟨z, hz⟩ => (startZones_not_tripped _ _ _ z hz).elim⟩
  case lost =>
    refine ⟨nofun, fun ⟨z, hz⟩ => ?_⟩
    simp [State.powerOff, Zc.empty, Controller.off] at hz
  all_goals exact h

/-! ### The records of the plan -/

/-- What `State.RecordsMatchPlan` says of the records of one boundary. -/
abbrev State.BoundaryMatches (s : State) (b : Fin 6) : Prop :=
  s.tb.limits[b].isSome = (boundaryItem s.ps.working b).enabled
    ∧ s.be.estimators[b].isSome = (boundaryItem s.ps.working b).enabled
    ∧ s.ea.accounts[b].isSome = (boundaryItem s.ps.working b).enabled
    ∧ ∀ e, s.be.estimators[b] = some e →
        -150 ≤ e.correctionFull ∧ e.correctionFull ≤ 150 ∧ -150 ≤ e.correctionLf ∧ e.correctionLf ≤ 150

/-- What it says of the record of one monitor. -/
abbrev State.MonitorMatches (s : State) (m : Fin 12) : Prop :=
  s.be.monitors[m].boundary = monitorBoundary s.ps.working m
    ∧ (s.be.monitors[m].state = .unmapped ↔ s.be.monitors[m].boundary = none)
    ∧ s.be.monitors[m].silence ≤ 65535

theorem deriveLimits_isSome (bank : Bank) (isSet : Bool) (minute : Nat) (b : Fin 6) :
    (deriveLimits bank isSet minute)[b].isSome = (boundaryItem bank b).enabled := by
  rw [deriveLimits_get, limitEntry]
  split <;> simp_all

theorem Ea.startMinute_isSome (ea : Ea) (limits : Vector (Option LimitEntry) 6) (b : Fin 6) :
    (ea.startMinute limits).accounts[b].isSome = ea.accounts[b].isSome := by
  simp only [Ea.startMinute, Fin.getElem_fin, Vector.getElem_ofFn]
  split <;> simp_all

theorem Ea.align_isSome {ea : Ea} {old new : Bank}
    (h : ∀ b : Fin 6, ea.accounts[b].isSome = (boundaryItem old b).enabled)
    (b : Fin 6) : (ea.align old new).accounts[b].isSome = (boundaryItem new b).enabled := by
  have hb := h b
  simp only [Ea.align, Fin.getElem_fin, Vector.getElem_ofFn] at hb ⊢
  cases hnew : (boundaryItem new b).enabled with
  | false => rfl
  | true =>
    cases hold : (boundaryItem old b).enabled with
    | false => rfl
    | true =>
      rw [hold] at hb
      simp only [Bool.not_true, Bool.false_eq_true, if_false]
      split
      · rw [Option.isSome_map]; exact hb
      · exact hb

/-- An aligned estimator is a fresh one or the one of before, of a boundary enabled in both plans (R73). -/
theorem Be.align_estimator (be : Be) (old new : Bank) (b : Fin 6) :
    ((boundaryItem new b).enabled = false ∧ (be.align old new).estimators[b] = none)
      ∨ ((boundaryItem new b).enabled = true ∧ (be.align old new).estimators[b] = some Estimator.fresh)
      ∨ ((boundaryItem new b).enabled = true ∧ (boundaryItem old b).enabled = true
        ∧ (be.align old new).estimators[b] = be.estimators[b]) := by
  simp only [Be.align, Fin.getElem_fin, Vector.getElem_ofFn]
  cases hnew : (boundaryItem new b).enabled with
  | false => exact .inl ⟨rfl, rfl⟩
  | true =>
    cases hreset : recordReset old new b with
    | true => exact .inr (.inl ⟨rfl, rfl⟩)
    | false =>
      refine .inr (.inr ⟨rfl, ?_, rfl⟩)
      by_contra hold
      simp [recordReset, hnew, hold] at hreset

theorem monitorMatches_fresh (target : Option (Fin 6)) :
    (Monitor.fresh target).boundary = target
      ∧ ((Monitor.fresh target).state = .unmapped ↔ (Monitor.fresh target).boundary = none)
      ∧ (Monitor.fresh target).silence ≤ 65535 := by
  cases target <;> simp [Monitor.fresh]

/-- After a swap performed and the derivation the records are those of the new plan (R73, R74, R88). -/
theorem State.performSwap_derive_matches {s : State} (hb : ∀ b, s.BoundaryMatches b) (hm : ∀ m, s.MonitorMatches m) :
    (∀ b, s.performSwap.derive.BoundaryMatches b) ∧ ∀ m, s.performSwap.derive.MonitorMatches m := by
  refine ⟨fun b => ⟨deriveLimits_isSome _ _ _ b, ?_, ?_, ?_⟩, fun m => ?_⟩
  · show (s.be.align s.ps.working s.ps.shadow).estimators[b].isSome = (boundaryItem s.ps.shadow b).enabled
    obtain ⟨hnew, he⟩ | ⟨hnew, he⟩ | ⟨hnew, hold, he⟩ := s.be.align_estimator s.ps.working s.ps.shadow b
    · rw [he, hnew]; rfl
    · rw [he, hnew]; rfl
    · rw [he, hnew, (hb b).2.1, hold]
  · exact (Ea.startMinute_isSome _ _ b).trans (Ea.align_isSome (fun b => (hb b).2.2.1) b)
  · intro e he
    have he : (s.be.align s.ps.working s.ps.shadow).estimators[b] = some e := he
    obtain ⟨-, h⟩ | ⟨-, h⟩ | ⟨-, -, h⟩ := s.be.align_estimator s.ps.working s.ps.shadow b
    · cases h.symm.trans he
    · cases h.symm.trans he
      decide
    · exact (hb b).2.2.2 e (h.symm.trans he)
  · show (s.be.align s.ps.working s.ps.shadow).monitors[m].boundary = monitorBoundary s.ps.shadow m
      ∧ ((s.be.align s.ps.working s.ps.shadow).monitors[m].state = .unmapped
        ↔ (s.be.align s.ps.working s.ps.shadow).monitors[m].boundary = none)
      ∧ (s.be.align s.ps.working s.ps.shadow).monitors[m].silence ≤ 65535
    have hmon := hm m
    simp only [State.MonitorMatches, Be.align, Fin.getElem_fin, Vector.getElem_ofFn] at hmon ⊢
    split
    · exact monitorMatches_fresh _
    · rename_i hsame
      obtain ⟨hboundary, hrest⟩ := hmon
      exact ⟨hboundary.trans (not_not.1 fun hne => hsame (.inl hne)), hrest⟩

theorem State.powerOff_matches (s : State) : s.powerOff.RecordsMatchPlan := by
  have hblank : ∀ b : Fin 6, (boundaryItem blankBank b).enabled = false := by decide +kernel
  have hunmapped : ∀ m : Fin 12, monitorBoundary blankBank m = none := by decide +kernel
  refine ⟨fun b => ?_, fun m => ?_, nofun, nofun⟩
  · simp only [State.powerOff, Tb.reset, Be.empty, Ea.empty, Ps.blank, hblank]
    simp
  · simp only [State.powerOff, Be.empty, Ps.blank, hunmapped]
    simp [Monitor.unmapped]

theorem State.RecordsMatchPlan.change {s t : State} (hc : Change s t) (h : s.RecordsMatchPlan) :
    t.RecordsMatchPlan := by
  obtain ⟨hb, hm, hstale, hswap⟩ := h
  have hkeep : s.RecordsMatchPlan := ⟨hb, hm, hstale, hswap⟩
  cases hc
  case lessDue due stale tb swap =>
    refine ⟨hb, hm, fun m hmem => hstale m (stale m hmem), fun hs => ?_⟩
    have hnil := hswap (swap hs)
    refine List.eq_nil_iff_forall_not_mem.2 fun m hmem => ?_
    have hold := stale m hmem
    rw [hnil] at hold
    cases hold
  case staleDue list mapped swap => exact ⟨hb, hm, mapped, fun hs => by cases swap.symm.trans hs⟩
  case swapDue stale => exact ⟨hb, hm, hstale, fun _ => stale⟩
  case monitors monitors mapped =>
    refine ⟨hb, fun m => ?_, fun m hmem => ?_, hswap⟩
    · obtain ⟨hboundary, hstate, hsilence⟩ := mapped hstale m
      obtain ⟨h1, h2, h3⟩ := hm m
      exact ⟨hboundary.trans h1, hstate.trans (h2.trans (by rw [hboundary])), hsilence h3⟩
    · exact fun hu => hstale m hmem ((mapped hstale m).2.1.1 hu)
  case estimators f ring corrections v at' =>
    refine ⟨fun b => ?_, hm, hstale, hswap⟩
    obtain ⟨h1, h2, h3, h4⟩ := hb b
    refine ⟨h1, ?_, h3, fun e he => ?_⟩
    · show v[b].isSome = _
      rw [at' b, Option.isSome_map]
      exact h2
    · obtain ⟨e', he', rfl⟩ := Option.map_eq_some_iff.1 ((at' b).symm.trans he)
      exact corrections b e' (h4 e' he')
  case accounts f ring ea at' =>
    refine ⟨fun b => ?_, hm, hstale, hswap⟩
    obtain ⟨h1, h2, h3, h4⟩ := hb b
    refine ⟨h1, h2, ?_, h4⟩
    show ea.accounts[b].isSome = _
    rw [at' b, Option.isSome_map]
    exact h3
  case store ps working room sound =>
    refine ⟨fun b => ?_, fun m => ?_, hstale, hswap⟩ <;> dsimp only <;> rw [working]
    · exact hb b
    · exact hm m
  case ended ps r working busy idle sound =>
    refine ⟨fun b => ?_, fun m => ?_, hstale, hswap⟩ <;> simp only [State.queueReply] <;> rw [working]
    · exact hb b
    · exact hm m
  case turned tb limits setting sound =>
    refine ⟨fun b => ?_, hm, hstale, hswap⟩
    dsimp only
    rw [limits]
    exact hb b
  case acted tb r limits pending setting sound =>
    refine ⟨fun b => ?_, hm, hstale, hswap⟩
    obtain ⟨h1, hrest⟩ := hb b
    refine ⟨?_, hrest⟩
    show tb.limits[b].isSome = _
    rw [limits]
    exact h1
  case derived =>
    refine ⟨fun b => ?_, hm, hstale, hswap⟩
    obtain ⟨-, h2, h3, h4⟩ := hb b
    exact ⟨deriveLimits_isSome _ _ _ b, h2, (Ea.startMinute_isSome _ _ b).trans h3, h4⟩
  case swapped due ready =>
    obtain ⟨hb', hm'⟩ := State.performSwap_derive_matches (s := { s with due := { s.due with swap := false } }) hb hm
    refine ⟨hb', hm', fun m hmem => ?_, nofun⟩
    have hmem : m ∈ s.due.stale := hmem
    rw [hswap due] at hmem
    cases hmem
  case reset cause level =>
    rw [State.startUp_eq]
    refine ⟨fun b => ⟨deriveLimits_isSome _ _ _ b, ?_, ?_, fun e he => ?_⟩, fun m => ?_, nofun, nofun⟩
    · simp only [State.resetBlocks, Be.startUp, Fin.getElem_fin, Vector.getElem_ofFn]
      split <;> simp_all
    · simp only [State.resetBlocks, Ea.startUp, Fin.getElem_fin, Vector.getElem_ofFn]
      split <;> simp_all
    · simp only [State.resetBlocks, Be.startUp, Fin.getElem_fin, Vector.getElem_ofFn] at he
      split at he
      · cases he; decide
      · cases he
    · simp only [State.resetBlocks, Be.startUp, Fin.getElem_fin, Vector.getElem_ofFn]
      exact monitorMatches_fresh _
  case lost => exact s.powerOff_matches
  all_goals exact hkeep

end Sys2Proof.Machine
end

section
/-! SUPPORT. What is due of an interval end, the interval end itself and the requests, each as a run of changes. -/

namespace Sys2Proof.Machine

/-- Fewer than four replies are queued or owed (R174). -/
abbrev State.HasRoom (s : State) : Prop := s.mu.replies.length + s.repliesOwed < 4

/-! ### Alerts, replies and less due -/

theorem changes_raise (s : State) (k : AlertKind) (u : Bool) (n : Option Nat) (d : Word16) :
    Changes s (s.raise k u n d) := (Change.alert _).run

theorem changes_raiseAlerts (s : State) (alerts : List Alert) : Changes s (s.raiseAlerts alerts) := by
  induction alerts generalizing s with
  | nil => exact .refl
  | cons a rest ih => exact (Change.alert a).run.trans (ih (s.raiseAlert a))

theorem changes_answer {s : State} (h : s.HasRoom) (k t : Byte) (r : ResultCode) (d : Nat) :
    Changes s (s.answer k t r d) := (Change.reply _ h).run

theorem changes_answerData {s : State} (h : s.HasRoom) (k t : Byte) (d : Nat) (w : List Word16) :
    Changes s (s.answerData k t d w) := (Change.reply _ h).run

/-! ### The published set -/

theorem changes_makeStale {s : State} {m : Fin 12} (h : m ∈ s.due.stale) : Changes s (s.makeStale m) := by
  have hmonitors : Change s { s with be := { s.be with
      monitors := s.be.monitors.set m { s.be.monitors[m] with state := .stale } } } := by
    refine Change.monitors _ fun hmapped y => ?_
    by_cases hy : y = m
    · subst hy
      rw [vector_set_self]
      exact ⟨rfl, ⟨nofun, fun hu => (hmapped y h hu).elim⟩, id⟩
    · rw [vector_set_other _ _ _ _ hy]
      exact ⟨rfl, Iff.rfl, id⟩
  refine .head hmonitors ?_
  refine .head (Change.lessDue { s.due with stale := s.due.stale.filter (· != m) }
    (fun _ hy => (List.mem_filter.1 hy).1) rfl id) ?_
  exact changes_raise _ _ _ _ _

theorem changes_tripZone (s : State) (z : Fin 8) : Changes s (s.tripZone z) := by
  have hresolved : Changes s (({ s with due := { s.due with trips := s.due.trips.filter (· != z) } } : State).resolveWith z
      { s.zc.zones[z] with
        tripHold := true, persistence := 0, tripLatch := s.zc.zones[z].tripLatch || !s.latchesHeld }) := by
    refine .head (Change.lessDue { s.due with trips := s.due.trips.filter (· != z) } (fun _ hm => hm) rfl id) ?_
    exact .single (Change.resolved z _ rfl rfl rfl)
  unfold State.tripZone
  dsimp only
  split
  · exact hresolved
  · exact hresolved.trans (changes_raise _ _ _ _ _)

theorem changes_freeZone (s : State) (z : Fin 8) : Changes s (s.freeZone z) := by
  have hless : Changes s { s with due := { s.due with frees := s.due.frees.filter (· != z) } } :=
    (Change.lessDue { s.due with frees := s.due.frees.filter (· != z) } (fun _ hm => hm) rfl id).run
  unfold State.freeZone
  dsimp only
  split
  · rename_i hhold
    refine hless.trans (.single (Change.zones _ _ (fun y _ => ?_) fun _ => any_tripped _))
    by_cases hy : y = z
    · subst hy
      rw [vector_set_self]
      refine ⟨rfl, rfl, rfl, ?_, fun hs => ?_, fun _ => id⟩
      · rw [hhold]; rfl
      · rw [hhold] at hs; cases hs
    · rw [vector_set_other _ _ _ _ hy]
      exact ⟨rfl, rfl, rfl, rfl, fun _ => ⟨rfl, rfl⟩, fun _ => id⟩
  · exact hless

/-- The taking of a list that is due, each while it is due, is a run of changes when each taking is. -/
theorem changes_foldl_due {α : Type} [DecidableEq α] {list : State → List α} {take : State → α → State}
    (h : ∀ s a, a ∈ list s → Changes s (take s a)) (xs : List α) (s : State) :
    Changes s (xs.foldl (fun s a => if (list s).contains a then take s a else s) s) := by
  induction xs generalizing s with
  | nil => exact .refl
  | cons a rest ih =>
    rw [List.foldl_cons]
    refine Relation.ReflTransGen.trans ?_ (ih _)
    split
    · exact h s a (by simpa using ‹(list s).contains a = true›)
    · exact .refl

theorem changes_finishSet (s : State) : Changes s s.finishSet := by
  have hstale (s : State) := changes_foldl_due (list := fun s => s.due.stale) (take := State.makeStale)
    (fun _ _ => changes_makeStale) s.due.stale s
  have htrips (s : State) := changes_foldl_due (list := fun s => s.due.trips) (take := State.tripZone)
    (fun s z _ => changes_tripZone s z) s.due.trips s
  have hfrees (s : State) := changes_foldl_due (list := fun s => s.due.frees) (take := State.freeZone)
    (fun s z _ => changes_freeZone s z) s.due.frees s
  exact (hstale s).trans ((htrips _).trans (hfrees _))

/-! ### The swap, and what follows a close -/

theorem PlanSound.withoutPending {s : State} (outcome : Option LastOutcome) (h : s.PlanSound) :
    ({ s with ps := { s.ps with activationPending := false, lastOutcome := outcome } } : State).PlanSound := by
  obtain ⟨hworking, hretained, hclean, -, hretaining⟩ := h
  exact ⟨hworking, hretained, hclean, nofun, hretaining⟩

theorem changes_dropSwap (s : State) (page slot : Nat) : Changes s (s.dropSwap page slot) := by
  refine .head (Change.store { s.ps with
      activationPending := false, lastOutcome := some ⟨.swap, .dropped, checkDetail page slot 0⟩ }
    rfl Or.inl (PlanSound.withoutPending _)) ?_
  exact changes_raise _ _ _ _ _

theorem changes_swapNow {s : State} (h : s.due.swap = true) : Changes s s.swapNow := by
  have hless : Changes s { s with due := { s.due with swap := false } } :=
    (Change.lessDue { s.due with swap := false } (fun _ hm => hm) rfl nofun).run
  unfold State.swapNow
  dsimp only
  cases hr : s.swapReady with
  | false =>
    rw [if_neg (show ¬ ({ s with due := { s.due with swap := false } } : State).swapReady = true from
      fun hready => Bool.false_ne_true (hr.symm.trans hready))]
    exact hless.trans Change.derived.run
  | true =>
    rw [if_pos (show ({ s with due := { s.due with swap := false } } : State).swapReady = true from hr)]
    unfold State.takeSwap
    split
    · exact hless.trans ((changes_dropSwap _ _ _).trans Change.derived.run)
    · exact (Change.swapped h hr).run

theorem changes_finishSwap (s : State) : Changes s s.finishSwap := by
  unfold State.finishSwap
  split
  · exact changes_swapNow ‹_›
  · exact .refl

theorem changes_settle (s : State) : Changes s s.settle := (changes_finishSet s).trans (changes_finishSwap _)

theorem changes_afterClose {s : State} (h : s.due.stale = []) : Changes s s.afterClose := by
  unfold State.afterClose
  split
  · exact (Change.swapDue h).run
  · exact Change.derived.run

theorem changes_closeMinute (s : State) (isPartial : Bool) : Changes s (s.closeMinute isPartial) := by
  have haccounts : Change s (s.closeAccounts isPartial) := by
    refine Change.accounts (fun b a => a.close (closedEntry s isPartial b a).entry) (fun b a _ => ?_) _ fun b => ?_
    · exact (pushNewest_length 14 _ _).le.trans (min_le_right _ _)
    · simp
  exact haccounts.run.trans ((changes_raiseAlerts _ _).trans (Change.report _).run)

/-! ### The setting and the minute boundary -/

/-- The close of a minute does not look at what is due. -/
theorem State.closeMinute_withDue (s : State) (due : Due) (isPartial : Bool) :
    ({ s with due := due } : State).closeMinute isPartial = { s.closeMinute isPartial with due := due } := by
  simp only [State.closeMinute, State.raiseAlerts_eq]
  rfl

theorem State.closeMinute_withoutTb (s : State) (isPartial : Bool) :
    ({ s with due := { s.due with tb := none } } : State).closeMinute isPartial
      = { s.closeMinute isPartial with due := { (s.closeMinute isPartial).due with tb := none } } := by
  rw [State.closeMinute_withDue, State.closeMinute_due]

/-- TB stands in range within a minute, with nothing of its own due. -/
theorem timeSound_of_position_lt {s : State} {tb : Tb} (hm : tb.minute ≤ 1439) (hp : tb.position < 480)
    (hd : -16 ≤ tb.drift ∧ tb.drift ≤ 16) (ht : (tb.tally : Int) + tb.drift ≤ tb.position)
    (hs : ∀ set, tb.setting = some set → set.minute ≤ 1439 ∧ set.second ≤ 59) :
    ({ s with tb := tb, due := { s.due with tb := none } } : State).TimeSound :=
  ⟨hm, hp.le, fun hpos => absurd hpos hp.ne, hd.1, hd.2, ht, nofun, hs⟩

theorem nextMinute_le (minute : Nat) : nextMinute minute ≤ 1439 := by
  unfold nextMinute
  split <;> omega

theorem changes_boundaryNow {s : State} (h : s.due.stale = []) :
    Changes s ({ s with due := { s.due with tb := none } } : State).boundaryNow := by
  unfold State.boundaryNow
  dsimp only
  rw [State.closeMinute_withoutTb]
  have hdue := State.closeMinute_due s s.tb.stepStart
  refine (changes_closeMinute s s.tb.stepStart).trans ?_
  generalize s.closeMinute s.tb.stepStart = t at hdue
  refine .head (Change.turned
    { t.tb with minute := nextMinute t.tb.minute, position := 0, tally := 0, drift := 0, stepStart := false }
    rfl rfl fun ht => ?_) ?_
  · exact timeSound_of_position_lt (nextMinute_le _) (Nat.zero_lt_succ _) ⟨by simp, by simp⟩ (by simp) ht.2.2.2.2.2.2.2
  · exact changes_afterClose ((congrArg Due.stale hdue).trans h)

theorem isTrim_iff (tb : Tb) (set : Setting) :
    isTrim tb set = true ↔
      tb.isSet = true ∧ set.minute = tb.minute
        ∧ ((set.target : Int) - tb.position).natAbs ≤ 16
          ∧ (tb.drift + ((set.target : Int) - tb.position)).natAbs ≤ 16 := by
  simp [isTrim, and_assoc]

theorem changes_trim {s : State} {set : Setting} (hs : s.tb.setting = some set) (ht : isTrim s.tb set = true) :
    Changes s (({ s with due := { s.due with tb := none } } : State).trim set) := by
  refine .single (Change.acted { s.tb with
    position := set.target, drift := s.tb.drift + ((set.target : Int) - s.tb.position), setting := none } _ rfl
    (by rw [hs]; rfl) rfl ?_)
  intro hsound
  obtain ⟨-, -, -, hdrift⟩ := (isTrim_iff s.tb set).1 ht
  obtain ⟨hminute, -, -, -, -, htally, -, hrange⟩ := hsound
  have hsecond := (hrange set hs).2
  refine timeSound_of_position_lt hminute ?_ ?_ ?_ nofun
  · show set.second * 8 < 480
    omega
  · show -16 ≤ s.tb.drift + ((set.target : Int) - s.tb.position)
    ∧ s.tb.drift + ((set.target : Int) - s.tb.position) ≤ 16
    omega
  · show (s.tb.tally : Int) + (s.tb.drift + ((set.target : Int) - s.tb.position)) ≤ set.target
    omega

theorem changes_stepTime {s : State} {set : Setting} (hs : s.tb.setting = some set) (h : s.due.stale = []) :
    Changes s (({ s with due := { s.due with tb := none } } : State).stepTime set) := by
  unfold State.stepTime
  dsimp only
  rw [State.closeMinute_withoutTb]
  have hkeeps := State.closeMinute_keeps s true
  refine (changes_closeMinute s true).trans ?_
  generalize s.closeMinute true = t at hkeeps
  have hset : t.tb.setting = some set := by rw [hkeeps]; exact hs
  have hdue : t.due.stale = s.due.stale := by rw [hkeeps]
  refine .head (Change.acted { t.tb with
      isSet := true, minute := set.minute, position := set.target, tally := 0, drift := 0, stepStart := true
      setting := none } _ rfl (by rw [hset]; rfl) rfl ?_) (changes_afterClose (hdue.trans h))
  intro hsound
  obtain ⟨-, -, -, -, -, -, -, hrange⟩ := hsound
  obtain ⟨hm, hsec⟩ := hrange set hset
  refine timeSound_of_position_lt hm ?_ ⟨by simp, by simp⟩ ?_ nofun
  · show set.second * 8 < 480
    omega
  · show ((0 : Nat) : Int) + 0 ≤ (set.target : Int)
    omega

theorem changes_finishTime {s : State} (h : s.due.stale = []) : Changes s s.finishTime := by
  unfold State.finishTime
  split
  · exact .refl
  · rename_i hdue
    unfold State.settingNow
    dsimp only
    split
    · rename_i hnone
      refine .single (Change.turned s.tb rfl rfl fun hsound => ?_)
      exact (hsound.2.2.2.2.2.2.1 hdue hnone).elim
    · split
      · exact changes_trim ‹_› ‹_›
      · exact changes_stepTime ‹_› h
  · exact changes_boundaryNow h

theorem State.settle_stale (s : State) : s.settle.due.stale = [] := (State.settle_settled s).1

theorem changes_settleAll (s : State) : Changes s s.settleAll :=
  (changes_settle s).trans ((changes_finishTime s.settle_stale).trans (changes_finishSwap _))

/-! ### The interval end -/

theorem changes_formEstimates (s : State) : Changes s s.formEstimates := by
  refine (Change.estimators (estimate s) (fun b e _ => ?_) (fun b e h => h) _ fun b => ?_).run
  · exact (pushNewest_length 80 _ _).le.trans (min_le_right _ _)
  · simp

theorem Monitor.countSilence_keeps (m : Monitor) :
    m.countSilence.boundary = m.boundary ∧ m.countSilence.state = m.state
      ∧ (m.silence ≤ 65535 → m.countSilence.silence ≤ 65535) := by
  unfold Monitor.countSilence
  split
  · exact ⟨rfl, rfl, id⟩
  · exact ⟨rfl, rfl, fun _ => min_le_left _ _⟩

theorem changes_countSilence {s : State} (h : s.due.swap = false) : Changes s s.countSilence := by
  have hmonitors : Change s { s with be := { s.be with
      monitors := Vector.ofFn fun m : Fin 12 => s.be.monitors[m].countSilence } } := by
    refine Change.monitors _ fun _ m => ?_
    obtain ⟨hboundary, hstate, hsilence⟩ := s.be.monitors[m].countSilence_keeps
    rw [Fin.getElem_fin, Vector.getElem_ofFn]
    exact ⟨hboundary, by rw [hstate], hsilence⟩
  refine .head hmonitors (.single (Change.staleDue _ (fun m hm => ?_) h))
  have hlive := (Bool.and_eq_true_iff.1 (List.mem_filter.1 hm).2).1
  rw [beq_iff_eq] at hlive
  rw [hlive]
  nofun

theorem changes_accumulate (s : State) : Changes s s.accumulate := by
  refine (Change.accounts (fun b a =>
    match (s.be.estimators[b]).bind (·.figures) with
    | some f => a.addInterval f.full.corrected f.lf.corrected
    | none => a) (fun b a h => ?_) _ fun b => ?_).run
  · split <;> exact h
  · simp only [Fin.getElem_fin, Vector.getElem_ofFn]
    cases s.ea.accounts[b.val] <;> cases (s.be.estimators[b.val]).bind (·.figures) <;> rfl

/-- A published set leaves silence, causes and the mark of a zone alone, where its standing agrees with its record. -/
theorem State.recordAfter_follows (s : State) (z : Fin 8) (h : StandingAgrees s.zc.zones[z] s.zc.standing[z]) :
    Controller.Follows (zoneItem s.ps.working z).maximum s.zc.zones[z] (s.recordAfter z) := by
  unfold State.recordAfter
  dsimp only
  split
  · rename_i hmoves
    have hstanding : s.zc.standing[z].state.silencing = false := by
      have := (Bool.and_eq_true_iff.1 hmoves).1
      simpa [State.enforces] using this
    have hafter := enforce_sounds s.ps.working (zoneItem s.ps.working z).maximum (demandOf s z) _ hstanding
    unfold Controller.apply
    cases hd : s.zc.zones[z].disturbed with
    | true => exact ⟨rfl, rfl, rfl, rfl, fun _ => ⟨rfl, rfl⟩, fun _ => id⟩
    | false =>
      have hsounds : s.zc.zones[z].state.silencing = false := (h hd).symm.trans hstanding
      refine ⟨rfl, rfl, hd.symm ▸ hd, ?_, fun hs => (Bool.false_ne_true (hsounds.symm.trans hs)).elim,
        fun _ _ => min_le_left _ _⟩
      rw [hsounds]
      exact hafter
  · split <;> exact ⟨rfl, rfl, rfl, rfl, fun _ => ⟨rfl, rfl⟩, fun _ => id⟩

theorem changes_takeSet (s : State) : Changes s s.takeSet := by
  have hzones : Change s (s.setZones (Vector.ofFn s.recordAfter)) := by
    refine Change.zones _ _ (fun z h => ?_) fun _ => any_tripped _
    have hafter : (Vector.ofFn s.recordAfter)[z] = s.recordAfter z := by simp
    rw [hafter]
    exact s.recordAfter_follows z h
  refine hzones.run.trans ?_
  refine .head (Change.lessDue { s.due with
    trips := s.due.trips ++ (List.finRange 8).filter s.tripsAt
    frees := s.due.frees ++ (List.finRange 8).filter fun z => s.freesAt z && !s.zc.zones[z].disturbed }
    (fun _ hm => hm) rfl id) ?_
  exact changes_raiseAlerts _ _

theorem changes_intervalNow {s : State} (hs : s.due.swap = false) (ht : s.due.tb = none) : Changes s s.intervalNow := by
  have htake := State.takeSet_keeps s.publish.formEstimates.countSilence.accumulate
  refine .head Change.published (.trans (changes_formEstimates _) (.trans (changes_countSilence ?_)
    (.trans (changes_accumulate _) (.trans (changes_takeSet _) (.single (Change.counted ?_))))))
  · exact hs
  · rw [htake]
    exact ht

end Sys2Proof.Machine
end

section
/-! SUPPORT. The requests and the completions of the plan store's operations, each as a run of changes; and MU's
taking of
the messages that wait. -/

namespace Sys2Proof.Machine

theorem State.canTake_iff (s : State) : s.canTake = true ↔ s.HasRoom := by
  rw [State.canTake, decide_eq_true_iff]
  rfl

/-- The replies queued and owed, as many as they are. -/
def State.load (s : State) : Nat := s.mu.replies.length + s.repliesOwed

/-- A reply after a run of changes that leaves the replies queued and owed as many. -/
theorem Changes.thenReply {s t : State} (hc : Changes s t) (h : s.HasRoom) (hl : t.load = s.load) (r : Reply) :
    Changes s (t.queueReply r) :=
  hc.tail (Change.reply r (hl.trans_lt h))

/-! ### The plan store -/

/-- While an operation other than a RETAIN is in progress no activation is pending. -/
theorem PlanSound.not_pending {s : State} (h : s.PlanSound) {op : Operation} (ho : s.ps.operation = some op)
    (hk : op.kind ≠ .retaining) : s.ps.activationPending = false := by
  obtain ⟨-, -, -, hpending, -⟩ := h
  by_contra ha
  exact hk ((hpending (by simpa using ha)).2 op ho)

/-- An operation ends with its banks written. -/
theorem changes_endOperation {s : State} {op : Operation} (ho : s.ps.operation = some op) (ps : Ps)
    (hw : ps.working = s.ps.working)
    (hs : s.PlanSound → ({ s with ps := { ps with operation := none } } : State).PlanSound) (r : ResultCode)
    (d : Word16) : Changes s (({ s with ps := ps } : State).endOperation op r d) :=
  .single (Change.ended { ps with
    operation := none, lastOutcome := some ⟨opSource op.kind, .reply r, d⟩ } _ hw (by rw [ho]; rfl) rfl hs)

/-- A stopped operation leaves a sound plan store (R145). -/
theorem PlanSound.stopped {s : State} {op : Operation} (h : s.PlanSound) (ho : s.ps.operation = some op) (stop : Nat) :
    ({ s with ps := { stoppedBanks stop s.ps op.kind with operation := none } } : State).PlanSound := by
  have hnot := PlanSound.not_pending h ho
  obtain ⟨hworking, hretained, hclean, hpending, hretaining⟩ := h
  cases hk : op.kind with
  | committing =>
    have hp := hnot (by rw [hk]; nofun)
    unfold stoppedBanks
    cases s.ps.staging <;>
      exact ⟨hworking, hretained, nofun, fun ha => (Bool.false_ne_true (hp.symm.trans ha)).elim, nofun⟩
  | copying =>
    have hp := hnot (by rw [hk]; nofun)
    exact ⟨hworking, hretained, nofun, fun ha => (Bool.false_ne_true (hp.symm.trans ha)).elim, nofun⟩
  | recalling =>
    have hp := hnot (by rw [hk]; nofun)
    exact ⟨hworking, hretained, nofun, fun ha => (Bool.false_ne_true (hp.symm.trans ha)).elim, nofun⟩
  | checking => exact ⟨hworking, hretained, hclean, fun ha => ⟨(hpending ha).1, nofun⟩, nofun⟩
  | retaining => exact ⟨hworking, nofun, hclean, fun ha => ⟨(hpending ha).1, nofun⟩, nofun⟩

theorem changes_stopOperation {s : State} {op : Operation} (ho : s.ps.operation = some op) (d : Nat) :
    Changes s (s.stopOperation op d) := by
  refine .head (Change.books s.supplyLevel s.planLock s.driveOut (s.stops + 1) s.ltx.sending s.ltx.fillPending
    s.ltx.lastClass) ?_
  exact changes_endOperation (s := { s with stops := s.stops + 1 }) ho _ (stoppedBanks_working _ _ _)
    (fun h => PlanSound.stopped h ho s.stops) _ _

theorem changes_completeCommit {s : State} {op : Operation} (ho : s.ps.operation = some op)
    (hk : op.kind = .committing) : Changes s (s.completeCommit op) := by
  unfold State.completeCommit
  split
  · refine changes_endOperation ho s.ps rfl (fun h => ?_) _ _
    obtain ⟨hworking, hretained, hclean, hpending, -⟩ := h
    exact ⟨hworking, hretained, hclean, fun ha => ⟨(hpending ha).1, nofun⟩, nofun⟩
  · rename_i st _
    refine changes_endOperation ho { s.ps with
      shadow := setPage s.ps.shadow st.page st.slots
      shadowState := if s.ps.shadowState = .damaged then .damaged else .edited
      staging := none } rfl (fun h => ?_) _ _
    have hp := PlanSound.not_pending h ho (by rw [hk]; nofun)
    obtain ⟨hworking, hretained, -, -, -⟩ := h
    refine ⟨hworking, hretained, fun hc => ?_, fun ha => (Bool.false_ne_true (hp.symm.trans ha)).elim, nofun⟩
    dsimp only at hc
    split at hc <;> cases hc

theorem changes_completeCopy {s : State} {op : Operation} (ho : s.ps.operation = some op) :
    Changes s (s.completeCopy op) := by
  refine changes_endOperation ho { s.ps with shadow := s.ps.working, shadowState := .clean } rfl (fun h => ?_) _ _
  obtain ⟨hworking, hretained, -, -, -⟩ := h
  exact ⟨hworking, hretained, fun _ => rfl, fun _ => ⟨hworking, nofun⟩, nofun⟩

theorem changes_completeRecall {s : State} {op : Operation} (ho : s.ps.operation = some op)
    (hk : op.kind = .recalling) : Changes s (s.completeRecall op) := by
  refine changes_endOperation ho { s.ps with
    shadow := s.ps.retained, shadowState := if s.ps.retained = s.ps.working then .clean else .edited } rfl
    (fun h => ?_) _ _
  have hp := PlanSound.not_pending h ho (by rw [hk]; nofun)
  obtain ⟨hworking, hretained, -, -, -⟩ := h
  refine ⟨hworking, hretained, fun hc => ?_, fun ha => (Bool.false_ne_true (hp.symm.trans ha)).elim, nofun⟩
  dsimp only at hc
  split at hc
  · assumption
  · cases hc

theorem changes_completeCheck {s : State} {op : Operation} (ho : s.ps.operation = some op) :
    Changes s (s.completeCheck op) := by
  have hkeep (h : s.PlanSound) : ({ s with ps := { s.ps with operation := none } } : State).PlanSound := by
    obtain ⟨hworking, hretained, hclean, hpending, -⟩ := h
    exact ⟨hworking, hretained, hclean, fun ha => ⟨(hpending ha).1, nofun⟩, nofun⟩
  unfold State.completeCheck
  split
  · exact changes_endOperation ho s.ps rfl hkeep _ _
  · rename_i hcheck
    split
    · exact changes_endOperation ho s.ps rfl hkeep _ _
    · refine changes_endOperation ho { s.ps with activationPending := true } rfl (fun h => ?_) _ _
      obtain ⟨hworking, hretained, hclean, -, -⟩ := h
      exact ⟨hworking, hretained, hclean, fun _ => ⟨hcheck, nofun⟩, nofun⟩

theorem changes_completeRetain {s : State} {op : Operation} (ho : s.ps.operation = some op) :
    Changes s (s.completeRetain op) := by
  refine changes_endOperation ho { s.ps with retained := s.ps.working, retainedState := .valid } rfl (fun h => ?_) _ _
  obtain ⟨hworking, -, hclean, hpending, -⟩ := h
  exact ⟨hworking, fun _ => hworking, hclean, fun ha => ⟨(hpending ha).1, nofun⟩, nofun⟩

theorem changes_completeOperation {s : State} {op : Operation} (ho : s.ps.operation = some op) :
    Changes s (s.completeOperation op) := by
  unfold State.completeOperation
  split
  · exact changes_completeCommit ho ‹_›
  · exact changes_completeCopy ho
  · exact changes_completeRecall ho ‹_›
  · exact changes_completeCheck ho
  · exact changes_completeRetain ho

theorem changes_completeOverdue (s : State) : Changes s s.completeOverdue := by
  unfold State.completeOverdue
  split
  · exact .refl
  · split
    · exact changes_completeOperation ‹_›
    · exact .refl

/-! ### The plan store's requests -/

theorem changes_whenIdle {s : State} (h : s.HasRoom) {k t : Byte} {judged : State}
    (hj : s.ps.operation = none → Changes s judged) : Changes s (s.whenIdle k t judged) := by
  unfold State.whenIdle
  split
  · exact changes_answer h _ _ _ _
  · exact hj ‹_›

/-- The staging page changes alone. -/
theorem changes_staging (s : State) (staging : Option Staging) :
    Changes s { s with ps := { s.ps with staging := staging } } :=
  .single (Change.store { s.ps with staging := staging } rfl Or.inl id)

theorem changes_takeReadPage {s : State} (h : s.HasRoom) (t : Byte) (b p : Word16) :
    Changes s (s.takeReadPage t b p) := by
  refine changes_whenIdle h fun _ => ?_
  unfold State.judgeReadPage
  split
  · split
    · exact changes_answer h _ _ _ _
    · exact changes_answerData h _ _ _ _
  · split
    · exact changes_answer h _ _ _ _
    · split
      · exact (changes_staging s none).thenReply h (by rfl) _
      · exact changes_answer h _ _ _ _

theorem changes_takeStagePage {s : State} (h : s.HasRoom) (t : Byte) (b p : Word16) :
    Changes s (s.takeStagePage t b p) := by
  refine changes_whenIdle h fun _ => ?_
  unfold State.judgeStagePage
  split
  · exact changes_answer h _ _ _ _
  · split
    · split
      · exact changes_answer h _ _ _ _
      · exact (changes_staging s _).thenReply h (by rfl) _
    · exact changes_answer h _ _ _ _

theorem changes_takeWriteSlots {s : State} (h : s.HasRoom) (t : Byte) (f : Word16) (v : List Slot) :
    Changes s (s.takeWriteSlots t f v) := by
  refine changes_whenIdle h fun _ => ?_
  unfold State.judgeWriteSlots
  split
  · exact changes_answer h _ _ _ _
  · split
    · exact changes_answer h _ _ _ _
    · exact (changes_staging s _).thenReply h (by rfl) _

/-- An operation begins on a part that owes fewer than four replies, with no activation pending unless it retains. -/
theorem changes_begin {s : State} (h : s.HasRoom) {kind : OpKind} (hk : kind ≠ .retaining)
    (ha : s.ps.activationPending = false) (tag : Byte) : Changes s (s.discardStaging.begin kind tag)
      ∧ Changes s (s.begin kind tag) := by
  have hsound (h : s.PlanSound) :
      ({ s with ps := { s.ps with operation := some ⟨kind, tag, 0⟩ } } : State).PlanSound := by
    obtain ⟨hworking, hretained, hclean, -, -⟩ := h
    refine ⟨hworking, hretained, hclean, fun hp => (Bool.false_ne_true (ha.symm.trans hp)).elim, fun op ho hr => ?_⟩
    cases ho
    exact (hk hr).elim
  exact ⟨.single (Change.store { s.ps with staging := none, operation := some ⟨kind, tag, 0⟩ } rfl
    (fun _ => .inr h) hsound),
    .single (Change.store { s.ps with operation := some ⟨kind, tag, 0⟩ } rfl (fun _ => .inr h) hsound)⟩

theorem changes_takeCommit {s : State} (h : s.HasRoom) (t : Byte) : Changes s (s.takeCommit t) := by
  refine changes_whenIdle h fun _ => ?_
  unfold State.judgeCommit
  split
  · exact changes_answer h _ _ _ _
  · rename_i ha
    split
    · exact changes_answer h _ _ _ _
    · unfold State.commitStaged
      split
      · rename_i st _ f _
        exact Changes.thenReply (.single (Change.store { s.ps with
          lastOutcome := some ⟨.commit, .reply .checkFailed, checkDetail f.page f.slot f.code⟩ } rfl Or.inl id)) h
            (by rfl) _
      · exact (changes_begin h (kind := .committing) nofun (by simpa using ha) t).2

theorem changes_takeCopy {s : State} (h : s.HasRoom) (t : Byte) : Changes s (s.takeCopy t) := by
  refine changes_whenIdle h fun _ => ?_
  split
  · exact changes_answer h _ _ _ _
  · rename_i ha
    exact (changes_begin h (kind := .copying) nofun (by simpa using ha) t).1

theorem changes_takeRecall {s : State} (h : s.HasRoom) (t : Byte) : Changes s (s.takeRecall t) := by
  refine changes_whenIdle h fun _ => ?_
  split
  · exact changes_answer h _ _ _ _
  · rename_i ha
    split
    · exact changes_answer h _ _ _ _
    · exact (changes_begin h (kind := .recalling) nofun (by simpa using ha) t).1

theorem changes_takeActivate {s : State} (h : s.HasRoom) (t : Byte) : Changes s (s.takeActivate t) := by
  refine changes_whenIdle h fun _ => ?_
  split
  · exact changes_answer h _ _ _ _
  · split
    · exact changes_answer h _ _ _ _
    · rename_i ha
      exact (changes_begin h (kind := .checking) nofun (by simpa using ha) t).1

theorem changes_takeCancel {s : State} (h : s.HasRoom) (t : Byte) : Changes s (s.takeCancel t) := by
  refine changes_whenIdle h fun _ => ?_
  split
  · exact Changes.thenReply (.single (Change.store { s.ps with
        staging := none, activationPending := false, lastOutcome := some ⟨.cancel, .reply .done, 0⟩ }
      rfl Or.inl (PlanSound.withoutPending (some ⟨.cancel, .reply .done, 0⟩)))) h (by rfl) _
  · exact changes_answer h _ _ _ _

theorem changes_takeRetain {s : State} (h : s.HasRoom) (t : Byte) : Changes s (s.takeRetain t) := by
  refine changes_whenIdle h fun _ => ?_
  split
  · exact changes_answer h _ _ _ _
  · refine .single (Change.store { s.ps with
        staging := none, retainedState := .invalid, operation := some ⟨.retaining, t, 0⟩ } rfl (fun _ => .inr h)
      fun hs => ?_)
    obtain ⟨hworking, -, hclean, hpending, -⟩ := hs
    exact ⟨hworking, nofun, hclean, fun ha => ⟨(hpending ha).1, fun op ho => by cases ho; rfl⟩, fun _ _ _ => rfl⟩

/-- A stopped operation's reply is queued and owed no more. -/
theorem State.stopOperation_load {s : State} {op : Operation} (ho : s.ps.operation = some op) (d : Nat) :
    (s.stopOperation op d).load = s.load := by
  show (s.mu.replies ++ [_]).length + (0 + s.tb.setting.isSome.toNat) = _
  rw [List.length_append, List.length_singleton, State.load, State.repliesOwed, ho, Option.isSome_some,
    Bool.toNat_true]
  omega

theorem changes_takeAbort {s : State} (h : s.HasRoom) (t : Byte) : Changes s (s.takeAbort t) := by
  unfold State.takeAbort
  split
  · rename_i op ho
    exact Changes.thenReply (t := (s.stopOperation op 1).discardStaging)
      (.trans (changes_stopOperation ho 1) (changes_staging _ none)) h (State.stopOperation_load ho 1) _
  · exact (changes_staging s none).thenReply h (by rfl) _

/-! ### The other requests -/

theorem changes_withFlags (s : State) (f : LinkFlags) : Changes s (s.withFlags f) :=
  .single (Change.link { s.lrx with flags := f } s.ltx.primed id id)

theorem changes_clearLatches (s : State) (m1 m2 m3 : Word16) : Changes s (s.clearLatches m1 m2 m3) := by
  have hzone (z : Fin 8) : (Vector.ofFn fun z => clearZoneLatches m1 z s.zc.zones[z])[z]
      = clearZoneLatches m1 z s.zc.zones[z] := by simp
  refine .head (Change.zones (Vector.ofFn fun z => clearZoneLatches m1 z s.zc.zones[z]) s.zc.tripLine
    (fun z _ => ?_) fun hline => ?_) ?_
  · rw [hzone]
    exact ⟨rfl, rfl, rfl, rfl, fun _ => ⟨rfl, rfl⟩, fun _ => id⟩
  · refine hline.trans (exists_congr fun z => ?_)
    rw [hzone]
    rfl
  · exact .single (Change.accounts (fun _ a => a) (fun _ _ => id) { s.ea with
      latches := Vector.ofFn fun b => (s.ea.latches[b]).without (breachMask m2 m3 b) } fun b => by simp)

theorem changes_takeClearAlarms {s : State} (h : s.HasRoom) (t : Byte) (m1 m2 m3 : Word16) :
    Changes s (s.takeClearAlarms t m1 m2 m3) := by
  unfold State.takeClearAlarms
  split
  · exact changes_answer h _ _ _ _
  · split
    · exact changes_answer h _ _ _ _
    · exact (changes_clearLatches s m1 m2 m3).thenReply h (by rfl) _

theorem State.afterClose_load (s : State) : s.afterClose.load = s.load := by
  rw [State.afterClose_keeps]
  rfl

theorem State.swapNow_load (s : State) : s.swapNow.load = s.load := by
  unfold State.swapNow State.takeSwap
  dsimp only
  split
  · split <;> rfl
  · rfl

theorem State.finishSwap_load (s : State) : s.finishSwap.load = s.load := by
  unfold State.finishSwap
  split
  · exact s.swapNow_load
  · rfl

/-- A setting that acts is answered: its reply is owed no more (R33). -/
theorem State.settingNow_load (s : State) : s.settingNow.load = s.load := by
  unfold State.settingNow
  split
  · rfl
  · rename_i set hset
    split
    · show (s.mu.replies ++ [_]).length + (s.ps.operation.isSome.toNat + 0) = _
      simp [State.load, State.repliesOwed, hset]
      omega
    · unfold State.stepTime
      dsimp only
      rw [State.afterClose_load, State.closeMinute_keeps]
      show (s.mu.replies ++ [_]).length + (s.ps.operation.isSome.toNat + 0) = _
      simp [State.load, State.repliesOwed, hset]
      omega

theorem State.finishTime_load {s : State} (h : s.due.tb = some .setting) : s.finishTime.load = s.load := by
  unfold State.finishTime
  rw [h]
  exact State.settingNow_load _

theorem changes_placeSetting {s : State} (hs : s.due.stale = []) (h : s.HasRoom) {set : Setting}
    (hr : set.minute ≤ 1439 ∧ set.second ≤ 59) : Changes s (s.placeSetting set) := by
  have hplace {t : State} (ht : t.HasRoom) : Changes t
      (let u := match t.tb.setting with
        | some old => t.answer Config.kTimeSet old.tag .aborted 0
        | none => t
       ({ u with tb := { u.tb with setting := some set } } : State)) := by
    dsimp only
    split
    · rename_i old hold
      refine .trans (changes_answer ht _ _ _ _) (.single (Change.setting set hr (.inl ?_)))
      show t.tb.setting.isSome = true
      rw [hold]
      rfl
    · exact .single (Change.setting set hr (.inr ht))
  unfold State.placeSetting
  by_cases hdue : s.due.tb = some .setting
  · rw [if_pos hdue]
    refine .trans (changes_finishTime hs) (.trans (changes_finishSwap _) (hplace ?_))
    show s.finishTime.finishSwap.load < 4
    rw [State.finishSwap_load, State.finishTime_load hdue]
    exact h
  · rw [if_neg hdue]
    exact hplace h

theorem changes_takeTimeSet {s : State} (hs : s.due.stale = []) (h : s.HasRoom) (t : Byte) (minute second : Word16) :
    Changes s (s.takeTimeSet t minute second) := by
  unfold State.takeTimeSet
  split
  · exact changes_answer h _ _ _ _
  · split
    · exact changes_answer h _ _ _ _
    · exact changes_placeSetting (set := ⟨minute.toNat, second.toNat, t⟩) hs h
        ⟨by dsimp only; omega, by dsimp only; omega⟩

theorem changes_onZone {s : State} (h : s.HasRoom) {k t : Byte} {zone : Word16} {f : Fin 8 → State}
    (hf : ∀ z, Changes s (f z)) : Changes s (s.onZone k t zone f) := by
  unfold State.onZone
  split
  · exact hf _
  · exact changes_answer h _ _ _ _

/-- A search begins, or begins anew, out of LOCKED. -/
theorem LinkConsistent.beginSearch {s : State} (h : s.LinkConsistent) (hr : s.lrx.receiver ≠ .locked)
    (hc : s.lrx.receiver ≠ .noCarrier) : ({ s with lrx := s.lrx.beginSearch } : State).LinkConsistent := by
  obtain ⟨hout, -, -, hcarrier, -, -⟩ := h
  obtain ⟨hfifo, hprimed, -, hassembler⟩ := hout hr
  exact ⟨fun _ => ⟨hfifo, hprimed, rfl, hassembler⟩, fun _ => rfl, nofun, fun _ => hcarrier hc, Nat.zero_lt_succ _,
    Nat.zero_lt_succ _⟩

/-- What leaving LOCKED writes (R154, R169). -/
theorem State.unlock_writes (s : State) :
    s.unlock = { s with
      lrx := { s.lrx with
        mismatches := 0, fifo := [], assembler := .skip
        flags := { s.lrx.flags with
          lockLost := true
          laneTruncated := s.lrx.flags.laneTruncated ||
            (match s.lrx.assembler with
             | .collecting _ => true
             | _ => false) } }
      ltx := { s.ltx with primed := false } } := by
  unfold State.unlock State.truncate
  cases h : s.lrx.assembler with
  | collecting p => simp [State.withFlags, State.setAssembler]
  | idle => simp [State.setAssembler]
  | skip => simp [State.setAssembler]

theorem changes_leaveLocked {s : State} (h : s.lrx.receiver = .locked) (d : Nat) : Changes s (s.leaveLocked d) := by
  unfold State.leaveLocked
  dsimp only
  rw [State.unlock_writes]
  refine .head (Change.link _ false (fun _ => Nat.zero_le _) fun hc => ?_) (changes_raise _ _ _ _ _)
  obtain ⟨-, -, -, hcarrier, -, -⟩ := hc
  exact ⟨fun _ => ⟨rfl, rfl, rfl, rfl⟩, fun _ => rfl, nofun, fun _ => hcarrier (by rw [h]; nofun), Nat.zero_lt_succ _,
    Nat.zero_lt_succ _⟩

theorem changes_relock (s : State) : Changes s s.relock := by
  have hsearch (hr : s.lrx.receiver ≠ .locked) (hc : s.lrx.receiver ≠ .noCarrier) :
      Changes s { s with lrx := s.lrx.beginSearch } :=
    .single (Change.link s.lrx.beginSearch s.ltx.primed id fun h => LinkConsistent.beginSearch h hr hc)
  unfold State.relock
  split
  · exact changes_leaveLocked ‹_› 2
  · rename_i h; exact hsearch (by rw [h]; nofun) (by rw [h]; nofun)
  · rename_i h; exact hsearch (by rw [h]; nofun) (by rw [h]; nofun)
  · exact .refl

theorem State.relock_load (s : State) : s.relock.load = s.load := by
  unfold State.relock
  split
  · unfold State.leaveLocked; rw [State.unlock_writes]; rfl
  · rfl
  · rfl
  · rfl

theorem changes_refreshMonitor {s : State} {m : Fin 12} (h : s.be.monitors[m].state ≠ .unmapped) :
    Changes s (s.refreshMonitor m) := by
  have hmonitors : Change s { s with be := { s.be with
      monitors := s.be.monitors.set m { s.be.monitors[m] with state := .live, silence := 0 } } } := by
    refine Change.monitors _ fun _ y => ?_
    by_cases hy : y = m
    · subst hy
      rw [vector_set_self]
      exact ⟨rfl, ⟨nofun, fun hu => (h hu).elim⟩, fun _ => Nat.zero_le _⟩
    · rw [vector_set_other _ _ _ _ hy]
      exact ⟨rfl, Iff.rfl, id⟩
  unfold State.refreshMonitor
  dsimp only
  split
  · exact .head hmonitors (changes_raise _ _ _ _ _)
  · exact .head hmonitors (changes_raise _ _ _ _ _)
  · exact .single hmonitors
  · exact .single hmonitors

theorem reportCorrection_bounds {overload : Bool} {c d : Int} (h : -150 ≤ c ∧ c ≤ 150) :
    -150 ≤ reportCorrection overload c d ∧ reportCorrection overload c d ≤ 150 := by
  unfold reportCorrection stepCorrection
  split
  · exact h
  · omega

theorem moveCorrections_ring (e : Estimator) (period : Nat) (overload : Bool) (full : Nat) (lf : Option Nat) :
    (moveCorrections e period overload full lf).ring = e.ring := by
  unfold moveCorrections
  dsimp only
  split <;> rfl

theorem moveCorrections_bounds {e : Estimator} {period : Nat} {overload : Bool} {full : Nat} {lf : Option Nat}
    (h : -150 ≤ e.correctionFull ∧ e.correctionFull ≤ 150 ∧ -150 ≤ e.correctionLf ∧ e.correctionLf ≤ 150) :
    -150 ≤ (moveCorrections e period overload full lf).correctionFull
      ∧ (moveCorrections e period overload full lf).correctionFull ≤ 150
      ∧ -150 ≤ (moveCorrections e period overload full lf).correctionLf
      ∧ (moveCorrections e period overload full lf).correctionLf ≤ 150 := by
  obtain ⟨hf1, hf2, hl1, hl2⟩ := h
  unfold moveCorrections
  dsimp only
  split
  · exact ⟨hf1, hf2, hl1, hl2⟩
  · obtain ⟨h1, h2⟩ := reportCorrection_bounds (overload := overload)
      (d := (full : Int) - (referenceLevel ((newestEntries e.ring period).map (·.full)) : Int)) ⟨hf1, hf2⟩
    refine ⟨h1, h2, ?_⟩
    cases lf with
    | none => exact ⟨hl1, hl2⟩
    | some level => exact reportCorrection_bounds ⟨hl1, hl2⟩

theorem changes_correctBoundary (s : State) (b : Fin 6) (p : Nat) (o : Bool) (f : Nat) (l : Option Nat) :
    Changes s (s.correctBoundary b p o f l) := by
  refine .single (Change.estimators
    (fun b' e => if b' = b then moveCorrections e p o f l else e) (fun b' e h => ?_) (fun b' e h => ?_) _ fun b' => ?_)
  · split
    · rw [moveCorrections_ring]; exact h
    · exact h
  · split
    · exact moveCorrections_bounds h
    · exact h
  · by_cases hb : b' = b
    · subst hb
      rw [vector_set_self]
      simp
    · rw [vector_set_other _ _ _ _ hb]
      simp [hb]

theorem changes_takeReport (s : State) (i p f l : Word16) (x : Option Word16) : Changes s (s.takeReport i p f l x) := by
  unfold State.takeReport
  dsimp only
  split
  · split
    · rename_i haccepted
      have hmapped := bne_iff_ne.1 (Bool.and_eq_true_iff.1 haccepted).2
      have hrefresh := changes_refreshMonitor hmapped
      split
      · exact hrefresh
      · split
        · exact hrefresh
        · exact hrefresh.trans (changes_correctBoundary _ _ _ _ _ _)
    · exact .refl
  · exact .refl

/-- A zone's mute or trip request resolves it with new causes and is answered. -/
theorem changes_resolveReply {s : State} (h : s.HasRoom) (z : Fin 8) (c : Controller)
    (state : c.state = s.zc.zones[z].state) (attenuation : c.attenuation = s.zc.zones[z].attenuation)
    (disturbed : c.disturbed = s.zc.zones[z].disturbed) (k t : Byte) (d : Nat) :
    Changes s ((s.resolveWith z c).answer k t .done d) :=
  Changes.thenReply (t := s.resolveWith z c) (.single (Change.resolved z c state attenuation disturbed)) h (by rfl) _

theorem changes_takeRequest {s : State} (hs : s.due.stale = []) (h : s.HasRoom) (t : Byte) (r : Request) :
    Changes s (s.takeRequest t r) := by
  cases r with
  | identify => exact changes_answerData h _ _ _ _
  | status => exact changes_answerData h _ _ _ _
  | linkStatus => exact .trans (changes_answerData h Config.kLinkStatus t 0 (linkStatusData s)) (changes_withFlags _ _)
  | alarmStatus => exact changes_answerData h _ _ _ _
  | clearAlarms a b c => exact changes_takeClearAlarms h t a b c
  | timeSet a b => exact changes_takeTimeSet hs h t a b
  | zoneStatus z => exact changes_onZone h fun z => changes_answerData h _ _ _ _
  | boundaryStatus b k =>
    simp only [State.takeRequest, State.takeBoundaryStatus]
    split
    · split
      · exact changes_answer h _ _ _ _
      · exact changes_answerData h _ _ _ _
    · exact changes_answer h _ _ _ _
  | muteZone z =>
    show Changes s (s.takeMute t z)
    exact changes_onZone h fun z => changes_resolveReply h z { s.zc.zones[z] with muted := true } rfl rfl rfl _ _ _
  | unmuteZone z =>
    show Changes s (s.takeUnmute t z)
    exact changes_onZone h fun z => changes_resolveReply h z { s.zc.zones[z] with muted := false } rfl rfl rfl _ _ _
  | clearTrip z =>
    show Changes s (s.takeClearTrip t z)
    refine changes_onZone h fun z => ?_
    dsimp only
    split
    · exact changes_resolveReply h z { s.zc.zones[z] with tripHold := false } rfl rfl rfl _ _ _
    · exact changes_answer h _ _ _ _
  | relock => exact (changes_relock s).thenReply h s.relock_load _
  | restart =>
    simp only [State.takeRequest, State.takeRestart]
    split
    · exact changes_answer h _ _ _ _
    · exact .single (Change.lessDue { s.due with restart := true } (fun _ hm => hm) rfl id)
  | readPage b p => exact changes_takeReadPage h t b p
  | stagePage b p => exact changes_takeStagePage h t b p
  | writeSlots f v => exact changes_takeWriteSlots h t f v
  | commitPage => exact changes_takeCommit h t
  | copyWorking => exact changes_takeCopy h t
  | recallRetained => exact changes_takeRecall h t
  | activate => exact changes_takeActivate h t
  | cancelActivation => exact changes_takeCancel h t
  | retain => exact changes_takeRetain h t
  | abort => exact changes_takeAbort h t
  | monitorReport i p f l x => exact changes_takeReport s i p f l x

end Sys2Proof.Machine
end

section
/-! SUPPORT. MU's taking of the messages that wait, and a command from outside or of the part itself, as runs of
changes.
No request makes a monitor due to fall STALE, so the swap stays free of stale monitors while MU takes messages. -/

namespace Sys2Proof.Machine

/-! ### What is due after a request -/

theorem State.whenIdle_due {s judged : State} {k t : Byte} (h : judged.due = s.due) :
    (s.whenIdle k t judged).due = s.due := by
  unfold State.whenIdle
  split
  · rfl
  · exact h

theorem State.onZone_due {s : State} {k t : Byte} {zone : Word16} {f : Fin 8 → State} (h : ∀ z, (f z).due = s.due) :
    (s.onZone k t zone f).due = s.due := by
  unfold State.onZone
  split
  · exact h _
  · rfl

theorem State.takeCommit_due (s : State) (t : Byte) : (s.takeCommit t).due = s.due := by
  refine State.whenIdle_due ?_
  unfold State.judgeCommit
  split
  · rfl
  · split
    · rfl
    · unfold State.commitStaged
      split <;> rfl

theorem State.takeReadPage_due (s : State) (t : Byte) (b p : Word16) : (s.takeReadPage t b p).due = s.due := by
  refine State.whenIdle_due ?_
  unfold State.judgeReadPage
  repeat' split
  all_goals rfl

theorem State.takeStagePage_due (s : State) (t : Byte) (b p : Word16) : (s.takeStagePage t b p).due = s.due := by
  refine State.whenIdle_due ?_
  unfold State.judgeStagePage
  repeat' split
  all_goals rfl

theorem State.takeWriteSlots_due (s : State) (t : Byte) (f : Word16) (v : List Slot) :
    (s.takeWriteSlots t f v).due = s.due := by
  refine State.whenIdle_due ?_
  unfold State.judgeWriteSlots
  repeat' split
  all_goals rfl

theorem State.relock_due (s : State) : s.relock.due = s.due := by
  unfold State.relock
  split
  · unfold State.leaveLocked
    rw [State.unlock_writes]
    rfl
  all_goals rfl

theorem State.takeReport_due (s : State) (i p f l : Word16) (x : Option Word16) :
    (s.takeReport i p f l x).due = s.due := by
  have hrefresh (m : Fin 12) : (s.refreshMonitor m).due = s.due := by
    unfold State.refreshMonitor
    dsimp only
    split <;> rfl
  unfold State.takeReport
  dsimp only
  split
  · split
    · split
      · exact hrefresh _
      · split <;> exact hrefresh _
    · rfl
  · rfl

theorem State.placeSetting_stale (s : State) (set : Setting) : (s.placeSetting set).due.stale = s.due.stale := by
  have hdue : (if s.due.tb = some .setting then s.finishTime.finishSwap else s).due.stale = s.due.stale := by
    split
    · obtain ⟨swap, h⟩ := s.finishTime_due
      rw [State.finishSwap_due, h]
    · rfl
  unfold State.placeSetting
  dsimp only
  split <;> exact hdue

/-- No request makes a monitor due to fall STALE. -/
theorem State.takeRequest_stale (s : State) (t : Byte) (r : Request) :
    (s.takeRequest t r).due.stale = s.due.stale := by
  cases r with
  | identify | status | linkStatus | alarmStatus => rfl
  | clearAlarms a b c =>
    simp only [State.takeRequest, State.takeClearAlarms]
    repeat' split
    all_goals rfl
  | timeSet a b =>
    simp only [State.takeRequest, State.takeTimeSet]
    split
    · rfl
    · split
      · rfl
      · exact s.placeSetting_stale _
  | zoneStatus z => exact congrArg Due.stale (State.onZone_due fun _ => rfl)
  | muteZone z => exact congrArg Due.stale (State.onZone_due fun _ => rfl)
  | unmuteZone z => exact congrArg Due.stale (State.onZone_due fun _ => rfl)
  | clearTrip z => exact congrArg Due.stale (State.onZone_due fun _ => by dsimp only; split <;> rfl)
  | boundaryStatus b k =>
    simp only [State.takeRequest, State.takeBoundaryStatus]
    repeat' split
    all_goals rfl
  | relock => exact congrArg Due.stale s.relock_due
  | restart =>
    simp only [State.takeRequest, State.takeRestart]
    split <;> rfl
  | readPage b p => exact congrArg Due.stale (s.takeReadPage_due t b p)
  | stagePage b p => exact congrArg Due.stale (s.takeStagePage_due t b p)
  | writeSlots f v => exact congrArg Due.stale (s.takeWriteSlots_due t f v)
  | commitPage => exact congrArg Due.stale (s.takeCommit_due t)
  | copyWorking => exact congrArg Due.stale (State.whenIdle_due (by split <;> rfl))
  | recallRetained => exact congrArg Due.stale (State.whenIdle_due (by (repeat' split) <;> rfl))
  | activate => exact congrArg Due.stale (State.whenIdle_due (by (repeat' split) <;> rfl))
  | cancelActivation => exact congrArg Due.stale (State.whenIdle_due (by split <;> rfl))
  | retain => exact congrArg Due.stale (State.whenIdle_due (by split <;> rfl))
  | abort =>
    simp only [State.takeRequest, State.takeAbort]
    split <;> rfl
  | monitorReport i p f l x => exact congrArg Due.stale (s.takeReport_due i p f l x)

theorem State.takeMessage_stale (s : State) (m : Message) : (s.takeMessage m).due.stale = s.due.stale := by
  unfold State.takeMessage
  split
  · exact s.takeRequest_stale _ _
  · unfold State.rejectMessage
    split <;> rfl

/-! ### The messages that wait -/

theorem changes_takeMessage {s : State} (hs : s.due.stale = []) (h : s.HasRoom) (m : Message) :
    Changes s (s.takeMessage m) := by
  unfold State.takeMessage
  split
  · exact changes_takeRequest hs h _ _
  · unfold State.rejectMessage
    split
    · exact .refl
    · exact changes_answer h _ _ _ _

theorem State.takeMessage_inbound (s : State) (m : Message) : (s.takeMessage m).mu.inbound = s.mu.inbound := by
  have h := outer_takeMessage s m
  simp only [State.outer, Prod.mk.injEq] at h
  obtain ⟨-, -, -, -, -, -, hinbound⟩ := h
  exact hinbound

theorem changes_setInbound {s : State} {queue : List Message} (h : queue.length ≤ s.mu.inbound.length) :
    Changes s (s.setInbound queue) :=
  .single (Change.taken { s.mu with inbound := queue } h le_rfl le_rfl le_rfl)

theorem changes_drainQueue {queue : List Message} {s : State} (hs : s.due.stale = [])
    (h : queue.length ≤ s.mu.inbound.length) : Changes s (drainQueue queue s) := by
  induction queue generalizing s with
  | nil => exact changes_setInbound h
  | cons m rest ih =>
    have hrest : rest.length ≤ s.mu.inbound.length := (Nat.le_succ _).trans h
    rw [drainQueue]
    split
    · rename_i htake
      have hroom : (s.setInbound rest).HasRoom := (State.canTake_iff s).1 htake
      refine .trans (changes_setInbound hrest) (.trans (changes_takeMessage (s := s.setInbound rest) hs hroom m)
        (ih ?_ ?_))
      · rw [State.takeMessage_stale]; exact hs
      · rw [State.takeMessage_inbound]; rfl
    · exact changes_setInbound h

theorem changes_drain {s : State} (hs : s.due.stale = []) : Changes s s.drain := changes_drainQueue hs le_rfl

theorem changes_pushInbound (s : State) (m : Message) : Changes s (s.pushInbound m) := by
  refine .head (Change.arrived m) (.single (Change.link { s.lrx with flags := { s.lrx.flags with
      laneOverrun := s.lrx.flags.laneOverrun || decide
        (Config.inboundCap ≤ s.mu.inbound.length) } } s.ltx.primed id id))

theorem changes_deliver {s : State} (hs : s.due.stale = []) (m : Message) : Changes s (s.deliver m) :=
  (changes_pushInbound s m).trans (changes_drain hs)

/-- A command from outside is a run of changes when it is one on the settled state. -/
theorem changes_outside {s t : State} {f : State → State} (hf : s.settle.Settled → Changes s.settle (f s.settle))
    (h : s.outside f = .next t) : Changes s t := by
  unfold State.outside at h
  split at h <;> obtain rfl : _ = t := Host.Outcome.next.inj h
  · exact .refl
  · exact (changes_settle s).trans (hf s.settle_settled)

theorem changes_within {s t : State} {due : Bool} {f : State → State} (hf : due = true → Changes s (f s))
    (h : s.within due f = .next t) : Changes s t := by
  unfold State.within at h
  split at h <;> obtain rfl : _ = t := Host.Outcome.next.inj h
  · exact hf (‹_ ∧ due = true›).2
  · exact .refl

theorem changes_receive {s t : State} {m : Message} (h : s.receive m = .next t) : Changes s t :=
  changes_outside (fun hs => changes_deliver hs.1 m) h

end Sys2Proof.Machine
end

section
/-! SUPPORT. What the link receiver does, as runs of changes. The loss of the carrier comes with the bit period that
brings
the carrier count to 432, so the two are one change: between them the count stands at 432 in a receiver that still
follows a carrier. -/

namespace Sys2Proof.Machine

/-! ### A bit period and the loss of the carrier -/

/-- The link is consistent but for a carrier count that may have reached 432 (R149). -/
def State.LinkNear (s : State) : Prop :=
  (s.lrx.receiver ≠ .locked →
      s.lrx.fifo = [] ∧ s.ltx.primed = false ∧ s.lrx.mismatches = 0 ∧ s.lrx.assembler = .skip)
    ∧ (s.lrx.receiver ≠ .confirm → s.lrx.kept = [])
    ∧ (s.lrx.receiver = .noCarrier → s.lrx.carrier = 432 ∧ s.lrx.changed = false)
    ∧ s.lrx.carrier ≤ 432 ∧ s.lrx.kept.length < 432 ∧ s.lrx.mismatches < 4

theorem LinkConsistent.near {s : State} (h : s.LinkConsistent) : s.LinkNear := by
  obtain ⟨hout, hkept, hnone, hcarrier, hlength, hmismatches⟩ := h
  refine ⟨hout, hkept, hnone, ?_, hlength, hmismatches⟩
  by_cases hr : s.lrx.receiver = .noCarrier
  · exact (hnone hr).1.le
  · exact (hcarrier hr).le

theorem LinkNear.consistent {s : State} (h : s.LinkNear) (hc : s.lrx.receiver = .noCarrier ∨ s.lrx.carrier ≠ 432) :
    s.LinkConsistent := by
  obtain ⟨hout, hkept, hnone, hcarrier, hlength, hmismatches⟩ := h
  exact ⟨hout, hkept, hnone, fun hr => lt_of_le_of_ne hcarrier (hc.resolve_left hr), hlength, hmismatches⟩

/-- What a bit period writes of LRX. -/
def Lrx.pass (l : Lrx) (bit : Bool) : Lrx :=
  (if bit = l.lineLevel then l else if l.receiver = .noCarrier then l.change.beginSearch else l.change).endPeriod

theorem State.passPeriod_writes (s : State) (bit : Bool) : s.passPeriod bit = { s with lrx := s.lrx.pass bit } := by
  unfold State.passPeriod Lrx.pass
  split <;> rfl

theorem State.pass_near {s : State} (h : s.LinkConsistent) (bit : Bool) :
    ({ s with lrx := s.lrx.pass bit } : State).LinkNear := by
  have hnear := LinkConsistent.near h
  obtain ⟨hout, hkept, hnone, hcarrier, hlength, hmismatches⟩ := hnear
  unfold Lrx.pass
  rw [Lrx.endPeriod_writes]
  by_cases hbit : bit = s.lrx.lineLevel
  · rw [if_pos hbit]
    refine ⟨hout, hkept, fun hr => ⟨?_, rfl⟩, ?_, hlength, hmismatches⟩
    · obtain ⟨hc, hch⟩ := hnone hr
      simp [hc, hch]
    · dsimp only
      split
      · exact Nat.zero_le _
      · exact Nat.min_le_left _ _
  · rw [if_neg hbit]
    by_cases hr : s.lrx.receiver = .noCarrier
    · rw [if_pos hr]
      obtain ⟨hfifo, hprimed, -, hassembler⟩ := hout (by rw [hr]; nofun)
      exact ⟨fun _ => ⟨hfifo, hprimed, rfl, hassembler⟩, fun _ => rfl, nofun, Nat.zero_le _, Nat.zero_lt_succ _,
        Nat.zero_lt_succ _⟩
    · rw [if_neg hr]
      exact ⟨hout, hkept, fun hn => (hr hn).elim, Nat.zero_le _, hlength, hmismatches⟩

theorem changes_lineChange (s : State) : Changes s s.lineChange := by
  refine .single (Change.link (if s.lrx.change.receiver = .noCarrier then s.lrx.change.beginSearch else s.lrx.change)
    s.ltx.primed ?_ fun h => ?_)
  · split <;> exact id
  · obtain ⟨hout, hkept, -, hcarrier, hlength, hmismatches⟩ := h
    split
    · rename_i hr
      obtain ⟨hfifo, hprimed, -, hassembler⟩ := hout (show s.lrx.receiver ≠ .locked by
        rw [show s.lrx.receiver = .noCarrier from hr]; nofun)
      exact ⟨fun _ => ⟨hfifo, hprimed, rfl, hassembler⟩, fun _ => rfl, nofun, fun _ => Nat.zero_lt_succ _,
        Nat.zero_lt_succ _, Nat.zero_lt_succ _⟩
    · rename_i hr
      exact ⟨hout, hkept, fun hn => (hr hn).elim, fun _ => Nat.zero_lt_succ _, hlength, hmismatches⟩

/-- The loss of the carrier after a change of LRX that leaves the FIFO (R149). -/
theorem changes_loseCarrier_of_near {s : State} {l : Lrx} (hfifo : l.fifo = s.lrx.fifo)
    (h : s.LinkConsistent → ({ s with lrx := l } : State).LinkNear) :
    Changes s ({ s with lrx := l } : State).loseCarrier := by
  unfold State.loseCarrier
  dsimp only
  by_cases hnone : l.receiver = .noCarrier
  · rw [if_pos hnone]
    exact .single (Change.link l s.ltx.primed (by rw [hfifo]; exact id) fun hs =>
      LinkNear.consistent (h hs) (.inl hnone))
  · rw [if_neg hnone]
    by_cases hlocked : l.receiver = .locked
    · rw [if_pos hlocked, State.unlock_writes]
      refine .head (Change.link _ false (fun _ => Nat.zero_le _) fun _ => ?_) (changes_raise _ _ _ _ _)
      exact ⟨fun _ => ⟨rfl, rfl, rfl, rfl⟩, fun _ => rfl, fun _ => ⟨rfl, rfl⟩, fun hn => (hn rfl).elim,
        Nat.zero_lt_succ _, Nat.zero_lt_succ _⟩
    · rw [if_neg hlocked]
      refine .head (Change.link _ s.ltx.primed (by dsimp only; rw [hfifo]; exact id) fun hs => ?_)
        (changes_raise _ _ _ _ _)
      obtain ⟨hout, -, -, -, -, -⟩ := h hs
      obtain ⟨hempty, hprimed, -, hassembler⟩ := hout hlocked
      exact ⟨fun _ => ⟨hempty, hprimed, rfl, hassembler⟩, fun _ => rfl, fun _ => ⟨rfl, rfl⟩, fun hn => (hn rfl).elim,
        Nat.zero_lt_succ _, Nat.zero_lt_succ _⟩

theorem changes_loseCarrier (s : State) : Changes s s.loseCarrier :=
  changes_loseCarrier_of_near (s := s) rfl LinkConsistent.near

/-! ### A bit examined -/

/-- What SEARCH and CONFIRM write as they examine bits (R150, R151). -/
structure Lrx.Examined (l l' : Lrx) : Prop where
  writes : l' = { l with receiver := l'.receiver, window := l'.window, seen := l'.seen, kept := l'.kept }
  receiver : l'.receiver = .search ∨ l'.receiver = .confirm
  kept : l'.receiver ≠ .confirm → l'.kept = []

/-- SEARCH goes on, or enters CONFIRM with no bit kept (R150). -/
theorem Lrx.examine_search {l : Lrx} (hr : l.receiver = .search) (bit : Bool) : ∃ window seen,
    l.examine bit = { l with receiver := .confirm, window := window, seen := seen, kept := [] }
      ∨ l.examine bit = { l with window := window, seen := seen } := by
  refine ⟨(l.window <<< 1) ||| (if bit then 1 else 0), min 24 (l.seen + 1), ?_⟩
  unfold Lrx.examine
  simp only [hr]
  generalize (l.window <<< 1 ||| (if bit = true then (1 : LinkWord) else 0)) = window
  split
  · exact .inl rfl
  · exact .inr rfl

/-- CONFIRM keeps the bit (R151). -/
theorem Lrx.examine_confirm {l : Lrx} (hr : l.receiver = .confirm) (bit : Bool) :
    l.examine bit = { l with kept := l.kept ++ [bit] } := by
  simp only [Lrx.examine, hr]

theorem Lrx.examined_examine {l : Lrx} (hr : l.receiver = .search ∨ l.receiver = .confirm)
    (hk : l.receiver ≠ .confirm → l.kept = []) (bit : Bool) : l.Examined (l.examine bit) := by
  rcases hr with hr | hr
  · obtain ⟨window, seen, hexamine | hexamine⟩ := Lrx.examine_search hr bit <;> rw [hexamine]
    · exact ⟨rfl, .inr rfl, fun _ => rfl⟩
    · exact ⟨rfl, .inl hr, hk⟩
  · rw [Lrx.examine_confirm hr]
    exact ⟨rfl, .inr hr, fun hn => (hn hr).elim⟩

theorem Lrx.Examined.trans {l l' l'' : Lrx} (h : l.Examined l') (h' : l'.Examined l'') : l.Examined l'' :=
  ⟨by rw [h'.writes, h.writes], h'.receiver, h'.kept⟩

theorem Lrx.examined_foldl {l : Lrx} (hr : l.receiver = .search ∨ l.receiver = .confirm)
    (hk : l.receiver ≠ .confirm → l.kept = []) (bits : List Bool) : l.Examined (bits.foldl Lrx.examine l) := by
  induction bits generalizing l with
  | nil => exact ⟨rfl, hr, hk⟩
  | cons bit rest ih =>
    have h := Lrx.examined_examine hr hk bit
    exact h.trans (ih h.receiver h.kept)

/-- Bits fewer than a candidate's leave fewer than 432 kept. -/
theorem Lrx.bitsFromLock_foldl {bits : List Bool} (hl : bits.length ≤ 432) {l : Lrx} (h : l.BitsFromLock bits.length) :
    (bits.foldl Lrx.examine l).BitsFromLock 0 := by
  induction bits generalizing l with
  | nil => exact h
  | cons bit rest ih =>
    have hrest : rest.length < 432 := by simpa using hl
    exact ih hrest.le (Lrx.bitsFromLock_examine hrest h bit)

/-- A receiver out of LOCKED that goes on examining stays consistent while fewer than 432 bits are kept. -/
theorem LinkConsistent.examined {s : State} (h : s.LinkConsistent)
    (hr : s.lrx.receiver = .search ∨ s.lrx.receiver = .confirm) {l : Lrx} (hl : s.lrx.Examined l)
    (hlength : l.kept.length < 432) : ({ s with lrx := l } : State).LinkConsistent := by
  obtain ⟨hout, -, -, hcarrier, -, hmismatches⟩ := h
  obtain ⟨hfifo, hprimed, hcount, hassembler⟩ := hout (by rcases hr with hr | hr <;> rw [hr] <;> nofun)
  have hlow := hcarrier (by rcases hr with hr | hr <;> rw [hr] <;> nofun)
  have hnone : l.receiver ≠ .noCarrier := by rcases hl.receiver with hr' | hr' <;> rw [hr'] <;> nofun
  refine ⟨fun _ => ?_, hl.kept, fun hn => (hnone hn).elim, fun _ => ?_, hlength, ?_⟩
  · rw [hl.writes]; exact ⟨hfifo, hprimed, hcount, hassembler⟩
  · rw [hl.writes]; exact hlow
  · rw [hl.writes]; exact hmismatches

/-- In LOCKED, LRX stays consistent with the receiver, the carrier count and the bits kept as they are. -/
theorem LinkConsistent.inLocked {s : State} (h : s.LinkConsistent) {l : Lrx} {primed : Bool}
    (hs : s.lrx.receiver = .locked) (hl : l.receiver = .locked) (hk : l.kept = s.lrx.kept)
    (hc : l.carrier = s.lrx.carrier) (hm : l.mismatches < 4) :
    ({ s with lrx := l, ltx := { s.ltx with primed := primed } } : State).LinkConsistent := by
  obtain ⟨-, hkept, -, hcarrier, -, -⟩ := h
  have hnil : l.kept = [] := hk.trans (hkept (by rw [hs]; nofun))
  refine ⟨fun hn => (hn hl).elim, fun _ => hnil, fun hn => ?_, fun _ => ?_, ?_, hm⟩
  · rw [show l.receiver = .noCarrier from hn] at hl; cases hl
  · show l.carrier < 432
    rw [hc]; exact hcarrier (by rw [hs]; nofun)
  · show l.kept.length < 432
    rw [hnil]; exact Nat.zero_lt_succ _

/-- The candidate confirmed or abandoned, after the last bit kept (R151, R152). -/
theorem changes_confirmCandidate {s : State} (hr : s.lrx.receiver = .confirm) (bit : Bool)
    (hl : (s.lrx.kept ++ [bit]).length = 432) :
    Changes s ({ s with lrx := { s.lrx with kept := s.lrx.kept ++ [bit] } } : State).confirmCandidate := by
  unfold State.confirmCandidate
  split
  · refine .head (Change.link { s.lrx with receiver := .locked, mismatches := 0, window := 0, seen := 0, kept := [] }
      s.ltx.primed id fun h => ?_) (changes_raise _ _ _ _ _)
    obtain ⟨-, -, -, hcarrier, -, -⟩ := h
    exact ⟨fun hn => (hn rfl).elim, fun _ => rfl, nofun, fun _ => hcarrier (by rw [hr]; nofun), Nat.zero_lt_succ _,
      Nat.zero_lt_succ _⟩
  · have hexamined : s.lrx.Examined ({ s.lrx with kept := s.lrx.kept ++ [bit] } : Lrx).abandonCandidate := by
      have hstart : s.lrx.Examined
          { s.lrx with receiver := .search, window := Config.syncWord, seen := 24, kept := [] } :=
        ⟨rfl, .inl rfl, fun _ => rfl⟩
      exact hstart.trans (Lrx.examined_foldl (.inl rfl) (fun _ => rfl) (s.lrx.kept ++ [bit]))
    refine .single (Change.link _ s.ltx.primed (by rw [hexamined.writes]; exact id) fun h =>
      LinkConsistent.examined h (.inr hr) hexamined ?_)
    by_cases hc : ({ s.lrx with kept := s.lrx.kept ++ [bit] } : Lrx).abandonCandidate.receiver = .confirm
    · exact (Lrx.bitsFromLock_foldl hl.le ⟨by simp, by simp⟩).2 hc
    · rw [hexamined.kept hc]; exact Nat.zero_lt_succ _

theorem changes_examineBit (s : State) (bit : Bool) : Changes s (s.examineBit bit) := by
  unfold State.examineBit
  dsimp only
  cases hr : s.lrx.receiver with
  | noCarrier | locked =>
    have hsame : s.lrx.examine bit = s.lrx := by simp only [Lrx.examine, hr]
    rw [hsame, hr, if_neg (by simp)]
  | search =>
    obtain ⟨window, seen, hexamine | hexamine⟩ := Lrx.examine_search hr bit <;> rw [hexamine] <;> dsimp only
    · rw [if_neg (by rintro ⟨-, hlength⟩; cases hlength)]
      refine .single (Change.link { s.lrx with receiver := .confirm, window := window, seen := seen, kept := [] }
        s.ltx.primed id fun h => ?_)
      exact LinkConsistent.examined h (.inl hr) ⟨rfl, .inr rfl, fun _ => rfl⟩ (Nat.zero_lt_succ _)
    · rw [if_neg (by rw [hr]; rintro ⟨hc, -⟩; cases hc)]
      refine .single (Change.link { s.lrx with window := window, seen := seen } s.ltx.primed id fun h => ?_)
      have hc := h
      obtain ⟨-, hkept, -, -, hlength, -⟩ := hc
      exact LinkConsistent.examined h (.inl hr) ⟨rfl, .inl hr, hkept⟩ hlength
  | confirm =>
    rw [Lrx.examine_confirm hr]
    by_cases hlength : (s.lrx.kept ++ [bit]).length = 432
    · rw [if_pos ⟨hr, hlength⟩]
      exact changes_confirmCandidate hr bit hlength
    · rw [if_neg fun h => hlength h.2]
      refine .single (Change.link { s.lrx with kept := s.lrx.kept ++ [bit] } s.ltx.primed id fun h => ?_)
      refine LinkConsistent.examined h (.inr hr) ⟨rfl, .inr hr, fun hn => (hn hr).elim⟩ ?_
      obtain ⟨-, -, -, -, hkept, -⟩ := h
      rw [List.length_append, List.length_singleton] at hlength ⊢
      omega

theorem changes_receiveBits (s : State) (bits : List Bool) : Changes s (s.receiveBits bits) := by
  induction bits generalizing s with
  | nil => exact .refl
  | cons bit rest ih =>
    rw [State.receiveBits, State.passPeriod_writes]
    have hfifo : (s.lrx.pass bit).fifo = s.lrx.fifo := by
      unfold Lrx.pass
      rw [Lrx.endPeriod_writes]
      split
      · rfl
      · split <;> rfl
    dsimp only
    split
    · exact .trans (changes_loseCarrier_of_near hfifo fun h => State.pass_near h bit) (ih _)
    · rename_i hcarrier
      refine .head (Change.link (s.lrx.pass bit) s.ltx.primed (by rw [hfifo]; exact id) fun h =>
        LinkNear.consistent (State.pass_near h bit) (.inr hcarrier)) ?_
      exact .trans (changes_examineBit _ _) (ih _)

/-! ### A frame in LOCKED -/

theorem changes_inLocked {s : State} {l : Lrx} (hs : s.lrx.receiver = .locked) (hl : l.receiver = .locked)
    (hk : l.kept = s.lrx.kept) (hc : l.carrier = s.lrx.carrier) (hm : s.lrx.mismatches < 4 → l.mismatches < 4)
    (hf : s.lrx.fifo.length ≤ 4 → l.fifo.length ≤ 4) : Changes s { s with lrx := l } :=
  .single (Change.link l s.ltx.primed hf fun h => LinkConsistent.inLocked h hs hl hk hc
    (hm (by obtain ⟨-, -, -, -, -, hmismatches⟩ := h; exact hmismatches)))

theorem changes_pushFifo {s : State} (hs : s.lrx.receiver = .locked) (samples : Samples) :
    Changes s (s.pushFifo samples) :=
  changes_inLocked (l := { s.lrx with
      fifo := pushOver Config.fifoCap s.lrx.fifo samples
      flags := { s.lrx.flags with
        fifoOverflow := s.lrx.flags.fifoOverflow || decide (Config.fifoCap ≤ s.lrx.fifo.length) } })
    hs hs rfl rfl id fun _ => (pushOver_length s.lrx.fifo samples (show 0 < 4 by decide)).le.trans (min_le_right _ _)

theorem changes_setAssembler {s : State} (hs : s.lrx.receiver = .locked) (a : Assembler) :
    Changes s (s.setAssembler a) := changes_inLocked (l := { s.lrx with assembler := a }) hs hs rfl rfl id id

theorem changes_endMessage {s : State} (hs : s.lrx.receiver = .locked) (part : PartialMessage) :
    Changes s (s.endMessage part) := by
  unfold State.endMessage
  dsimp only
  split
  · exact .trans (changes_setAssembler hs _) (changes_withFlags _ _)
  · exact .trans (changes_setAssembler hs _) (changes_pushInbound _ _)

theorem changes_takeHeader {s : State} (hs : s.lrx.receiver = .locked) (value : Word16) (good : Bool) :
    Changes s (s.takeHeader value good) := by
  unfold State.takeHeader
  dsimp only
  split
  · exact .trans (changes_withFlags s { s.lrx.flags with laneParity := true })
      (changes_setAssembler (s := s.setLaneParity) hs _)
  · split <;> exact changes_setAssembler hs _

theorem changes_assemble {s : State} (hs : s.lrx.receiver = .locked) (word : LinkWord) :
    Changes s (s.assemble word) := by
  unfold State.assemble
  dsimp only
  split
  · split
    · exact .refl
    · exact changes_takeHeader hs _ _
  · unfold State.collect
    dsimp only
    split
    · exact changes_endMessage hs _
    · exact changes_setAssembler hs _
  · split
    · exact changes_setAssembler hs _
    · exact .refl

theorem changes_takeFrame (s : State) (samples : Samples) (lane : LinkWord) :
    Changes s (s.takeFrame samples lane) := by
  have hbits := changes_receiveBits s (bodyBits samples lane)
  unfold State.takeFrame
  dsimp only
  split
  · rename_i hs
    exact .trans hbits (.trans (changes_pushFifo hs _)
      (changes_assemble (s := State.pushFifo _ samples) hs _))
  · exact hbits

theorem changes_takeSync (s : State) (sync : LinkWord) : Changes s (s.takeSync sync) := by
  have hbits := changes_receiveBits s (wordBits sync)
  unfold State.takeSync
  dsimp only
  split
  · rename_i hs
    refine .trans hbits ?_
    unfold State.judgeSync
    dsimp only
    split
    · exact changes_leaveLocked hs 1
    · rename_i hcount
      exact changes_inLocked hs hs rfl rfl (fun _ => not_le.1 hcount) id
  · exact hbits

theorem changes_programFrame (s : State) (sync : LinkWord) (samples : Samples) (lane : LinkWord) :
    Changes s (s.programFrame sync samples lane) := by
  unfold State.programFrame
  dsimp only
  split
  · exact (changes_takeSync s sync).trans (changes_takeFrame _ _ _)
  · exact (changes_takeSync s sync).trans (changes_receiveBits _ _)

/-! ### What is due beside the link -/

theorem State.loseCarrier_due (s : State) : s.loseCarrier.due = s.due := by
  unfold State.loseCarrier
  split
  · rfl
  · dsimp only
    split
    · rw [State.unlock_writes]; rfl
    · rfl

theorem State.examineBit_due (s : State) (bit : Bool) : (s.examineBit bit).due = s.due := by
  unfold State.examineBit State.confirmCandidate
  dsimp only
  repeat' split
  all_goals rfl

theorem State.receiveBits_due (s : State) (bits : List Bool) : (s.receiveBits bits).due = s.due := by
  induction bits generalizing s with
  | nil => rfl
  | cons bit rest ih =>
    rw [State.receiveBits, State.passPeriod_writes]
    dsimp only
    split
    · rw [ih, State.loseCarrier_due]
    · rw [ih, State.examineBit_due]

theorem State.assemble_due (s : State) (word : LinkWord) : (s.assemble word).due = s.due := by
  unfold State.assemble State.takeHeader State.collect State.endMessage
  dsimp only
  repeat' split
  all_goals rfl

theorem State.takeFrame_due (s : State) (samples : Samples) (lane : LinkWord) :
    (s.takeFrame samples lane).due = s.due := by
  unfold State.takeFrame
  dsimp only
  split
  · rw [State.assemble_due]
    exact s.receiveBits_due _
  · exact s.receiveBits_due _

theorem State.takeSync_due (s : State) (sync : LinkWord) : (s.takeSync sync).due = s.due := by
  have hbits := s.receiveBits_due (wordBits sync)
  unfold State.takeSync State.judgeSync State.leaveLocked
  dsimp only
  split
  · split
    · rw [State.unlock_writes]; exact hbits
    · exact hbits
  · exact hbits

theorem State.programFrame_due (s : State) (sync : LinkWord) (samples : Samples) (lane : LinkWord) :
    (s.programFrame sync samples lane).due = s.due := by
  unfold State.programFrame
  dsimp only
  split
  · rw [State.takeFrame_due, State.takeSync_due]
  · rw [State.receiveBits_due, State.takeSync_due]

end Sys2Proof.Machine
end

section
/-! SUPPORT. The frame, the supply and every command as runs of changes; and with that what no step breaks (O54 to
O60). -/

namespace Sys2Proof.Machine

/-! ### The meters beside the rest -/

/-- What the taking of a published set leaves: the clock, the meters, the accounts, the plan, the standings, the
replies. -/
def State.besideSet (s : State) : Mb × Tb × Ea × Ps × Vector Standing 8 × List Reply :=
  (s.mb, s.tb, s.ea, s.ps, s.zc.standing, s.mu.replies)

theorem State.finishSet_beside (s : State) : s.finishSet.besideSet = s.besideSet := by
  have hfree (s : State) (z : Fin 8) : (s.freeZone z).besideSet = s.besideSet := by
    unfold State.freeZone; dsimp only; split <;> rfl
  have htrip (s : State) (z : Fin 8) : (s.tripZone z).besideSet = s.besideSet := by
    unfold State.tripZone; dsimp only; split <;> rfl
  unfold State.finishSet
  dsimp only
  rw [foldl_keeps State.besideSet _ (fun s z => by split <;> simp only [hfree]),
    foldl_keeps State.besideSet _ (fun s z => by split <;> simp only [htrip]),
    foldl_keeps State.besideSet _ (fun s m => by split <;> rfl)]

theorem State.finishSet_mb (s : State) : s.finishSet.mb = s.mb := congrArg Prod.fst s.finishSet_beside

theorem State.finishSwap_mb (s : State) : s.finishSwap.mb = s.mb := by
  unfold State.finishSwap State.swapNow State.takeSwap
  dsimp only
  repeat' split
  all_goals rfl

theorem State.afterClose_mb (s : State) : s.afterClose.mb = s.mb := by rw [State.afterClose_keeps]

theorem State.closeMinute_mb (s : State) (isPartial : Bool) : (s.closeMinute isPartial).mb = s.mb := by
  rw [State.closeMinute_keeps]

theorem State.finishTime_mb (s : State) : s.finishTime.mb = s.mb := by
  have hsetting (s : State) : s.settingNow.mb = s.mb := by
    unfold State.settingNow
    split
    · rfl
    · split
      · rfl
      · exact (State.afterClose_mb _).trans (s.closeMinute_mb true)
  unfold State.finishTime
  split
  · rfl
  · exact hsetting _
  · exact (State.afterClose_mb _).trans (State.closeMinute_mb _ _)

theorem State.settleAll_mb (s : State) : s.settleAll.mb = s.mb := by
  rw [State.settleAll, State.finishSwap_mb, State.finishTime_mb, State.settle, State.finishSwap_mb, State.finishSet_mb]

theorem State.intervalNow_mb (s : State) : s.intervalNow.mb = s.publish.mb := by
  show s.publish.formEstimates.countSilence.accumulate.takeSet.mb = _
  rw [State.takeSet_keeps]
  rfl

theorem State.intervalComplete_of_mb {s t : State} (h : t.mb = s.mb) : t.intervalComplete = s.intervalComplete := by
  rw [State.intervalComplete, h]
  rfl

theorem State.publish_not_complete (s : State) : s.publish.intervalComplete = false := rfl

theorem State.completeOverdue_mb (s : State) : s.completeOverdue.mb = s.mb := by
  unfold State.completeOverdue State.completeOperation State.completeCommit State.completeCheck
  repeat' split
  all_goals rfl

theorem State.startUp_not_complete (s : State) (cause level : Nat) :
    (s.startUp cause level).intervalComplete = false := by
  rw [State.startUp_eq]
  rfl

theorem State.settleFrame_not_complete (s : State) : s.settleFrame.intervalComplete = false := by
  unfold State.settleFrame
  dsimp only
  split
  · rw [State.intervalComplete_of_mb (State.settleAll_mb _), State.intervalComplete_of_mb (State.intervalNow_mb _)]
    exact State.publish_not_complete _
  · simpa using ‹¬ s.settleAll.intervalComplete = true›

/-- A frame is sent into an interval that is not complete (R40, R48). -/
theorem State.beforeFrame_not_complete (s : State) : s.beforeFrame.intervalComplete = false := by
  unfold State.beforeFrame
  rw [State.intervalComplete_of_mb (State.completeOverdue_mb _)]
  split
  · exact s.startUp_not_complete _ _
  · exact s.settleFrame_not_complete

/-! ### Before the frame -/

theorem changes_settleFrame (s : State) : Changes s s.settleFrame := by
  unfold State.settleFrame
  dsimp only
  have hdue := s.settleAll_due
  split
  · exact .trans (changes_settleAll s) (.trans (changes_intervalNow (by rw [hdue]) (by rw [hdue]))
      (changes_settleAll _))
  · exact changes_settleAll s

theorem changes_beforeFrame (s : State) : Changes s s.beforeFrame := by
  unfold State.beforeFrame
  refine Relation.ReflTransGen.trans ?_ (changes_completeOverdue _)
  split
  · exact .single (Change.reset _ _)
  · exact changes_settleFrame s

theorem State.completeOverdue_due (s : State) : s.completeOverdue.due = s.due := by
  unfold State.completeOverdue State.completeOperation State.completeCommit State.completeCheck
  repeat' split
  all_goals rfl

theorem State.settleFrame_stale (s : State) : s.settleFrame.due.stale = [] := by
  unfold State.settleFrame
  dsimp only
  split <;> rw [State.settleAll_due]

theorem State.beforeFrame_stale (s : State) : s.beforeFrame.due.stale = [] := by
  unfold State.beforeFrame
  rw [State.completeOverdue_due]
  split
  · rw [State.startUp_eq]; rfl
  · exact s.settleFrame_stale

/-! ### The frame -/

theorem changes_advanceFifo (s : State) : Changes s s.advanceFifo := by
  unfold State.advanceFifo
  split
  · rename_i hdue
    have hlocked : s.lrx.receiver = .locked := by
      unfold State.programFrameDue at hdue
      split at hdue
      · assumption
      · assumption
      · cases hdue
    refine .single (Change.link { s.lrx with fifo := s.lrx.fifo.tail } true (fun hf => ?_) fun h => ?_)
    · exact (by rw [List.length_tail]; exact Nat.sub_le _ _ : _ ≤ s.lrx.fifo.length).trans hf
    · have hm := h
      obtain ⟨-, -, -, -, -, hmismatches⟩ := hm
      exact LinkConsistent.inLocked h hlocked hlocked rfl rfl hmismatches
  · split
    · exact changes_withFlags s _
    · exact .refl

/-- What the arbiter gives leaves the queues of MU no longer (R176 to R179). -/
theorem takeUrgent_length {alerts rest : List Alert} {a : Alert} (h : takeUrgent alerts = some (a, rest)) :
    rest.length ≤ alerts.length := by
  induction alerts generalizing rest with
  | nil => cases h
  | cons b others ih =>
    rw [takeUrgent] at h
    split at h
    · cases h
      exact Nat.le_succ _
    · obtain ⟨⟨found, left⟩, hfound, heq⟩ := Option.map_eq_some_iff.1 h
      cases heq
      exact Nat.succ_le_succ (ih hfound)

/-- Messages leave MU, and the class served is noted. -/
theorem changes_give (s : State) (m : Mu) (c : OutClass) (inbound : m.inbound.length ≤ s.mu.inbound.length)
    (replies : m.replies.length ≤ s.mu.replies.length) (alerts : m.alerts.length ≤ s.mu.alerts.length)
    (reports : m.reports.length ≤ s.mu.reports.length) :
    Changes s { s with mu := m, ltx := { s.ltx with lastClass := c } } :=
  .head (Change.taken m inbound replies alerts reports) (.single (Change.books s.supplyLevel s.planLock
    s.driveOut s.stops s.ltx.sending s.ltx.fillPending c))

theorem changes_giveAlert {s : State} (a : Alert) {rest : List Alert} (h : rest.length ≤ s.mu.alerts.length) :
    Changes s (s.giveAlert a rest).2 :=
  changes_give s { s.mu with alerts := rest, alertsLost := false } .alert le_rfl le_rfl h le_rfl

theorem changes_giveClass {s t : State} {c : OutClass} {words : List Word16} (h : s.giveClass c = some (words, t)) :
    Changes s t := by
  cases c with
  | reply =>
    unfold State.giveClass at h
    dsimp only at h
    split at h
    · cases h
    · rename_i hq
      cases h
      exact changes_give s { s.mu with replies := _ } .reply le_rfl (by rw [hq]; exact Nat.le_succ _) le_rfl le_rfl
  | alert =>
    unfold State.giveClass at h
    dsimp only at h
    split at h
    · cases h
    · rename_i a rest hq
      cases h
      exact changes_giveAlert a (by rw [hq]; exact Nat.le_succ _)
  | report =>
    unfold State.giveClass at h
    dsimp only at h
    split at h
    · cases h
    · rename_i hq
      cases h
      exact changes_give s { s.mu with reports := _, reportsLost := false } .report le_rfl le_rfl le_rfl
        (by rw [hq]; exact Nat.le_succ _)

theorem changes_choose {s t : State} {words : List Word16} (h : s.choose = some (words, t)) : Changes s t := by
  unfold State.choose at h
  split at h
  · rename_i a rest hurgent
    cases h
    exact changes_giveAlert a (takeUrgent_length hurgent)
  · obtain ⟨c, -, hc⟩ := List.exists_of_findSome?_eq_some h
    exact changes_giveClass hc

theorem changes_setLane (s : State) (sending : Option Transmission) (fill : Bool) :
    Changes s (s.setLane sending fill) :=
  .single (Change.books s.supplyLevel s.planLock s.driveOut s.stops sending fill s.ltx.lastClass)

theorem changes_sendWord (s : State) (words : List Word16) (position : Nat) :
    Changes s (s.sendWord words position).2 := by
  unfold State.sendWord
  dsimp only
  split <;> exact changes_setLane s _ _

theorem changes_nextLane (s : State) : Changes s s.nextLane.2 := by
  unfold State.nextLane
  split
  · exact changes_sendWord s _ _
  · split
    · exact changes_setLane s _ _
    · split
      · rename_i hchoose
        exact (changes_choose hchoose).trans (changes_sendWord _ _ _)
      · exact .refl

theorem changes_countOperationFrame (s : State) : Changes s s.countOperationFrame := by
  refine .single (Change.store { s.ps with
    operation := s.ps.operation.map fun op => { op with frames := op.frames + 1 } } rfl (fun h => .inl ?_) fun h => ?_)
  · simpa using h
  · have hkind {op : Operation} (ho : s.ps.operation.map (fun op => { op with frames := op.frames + 1 }) = some op) :
        ∃ op', s.ps.operation = some op' ∧ op'.kind = op.kind := by
      obtain ⟨op', ho', rfl⟩ := Option.map_eq_some_iff.1 ho
      exact ⟨op', ho', rfl⟩
    obtain ⟨hworking, hretained, hclean, hpending, hretaining⟩ := h
    refine ⟨hworking, hretained, hclean, fun ha => ⟨(hpending ha).1, fun op ho => ?_⟩, fun op ho hr => ?_⟩
    · obtain ⟨op', ho', hk⟩ := hkind ho
      exact hk.symm.trans ((hpending ha).2 op' ho')
    · obtain ⟨op', ho', hk⟩ := hkind ho
      exact hretaining op' ho' (hk.trans hr)

theorem State.advanceFifo_mb (s : State) : s.advanceFifo.mb = s.mb := by rw [State.advanceFifo_writes]

theorem State.nextLane_mb (s : State) : s.nextLane.2.mb = s.mb := by rw [State.nextLane_writes]

theorem changes_sendFrame {s : State} (h : s.intervalComplete = false) : Changes s s.sendFrame := by
  unfold State.sendFrame
  dsimp only
  refine .trans (changes_advanceFifo s) (.trans (changes_nextLane _) ?_)
  have hlane : s.advanceFifo.nextLane.2.intervalComplete = false := by
    rw [State.intervalComplete_of_mb (State.nextLane_mb _), State.intervalComplete_of_mb s.advanceFifo_mb]
    exact h
  generalize s.advanceFifo.nextLane.2 = t at hlane ⊢
  refine .head (Change.books t.supplyLevel t.planLock
    (some ⟨Config.syncWord, s.driveSamples, laneWord s.advanceFifo.nextLane.1⟩) t.stops t.ltx.sending t.ltx.fillPending
    t.ltx.lastClass) ?_
  refine .head (Change.measured s.driveSamples hlane) (.head Change.standing ?_)
  exact changes_countOperationFrame _

theorem State.sendFrame_due (s : State) : s.sendFrame.due = s.due := by
  rw [State.sendFrame_writes]

theorem changes_framePeriod (s : State) : Changes s s.framePeriod := by
  refine .trans (changes_beforeFrame s) (.trans (changes_sendFrame s.beforeFrame_not_complete) (changes_drain ?_))
  rw [State.sendFrame_due]
  exact s.beforeFrame_stale

/-! ### The supply and the lines -/

theorem changes_enterLow (s : State) : Changes s s.enterLow := by
  by_cases hretaining : ∃ op, s.ps.operation = some op ∧ op.kind = .retaining
  · obtain ⟨op, ho, hk⟩ := hretaining
    rw [State.enterLow_of_retaining ho hk]
    exact .trans (changes_stopOperation ho 2)
      (.head (Change.resolves (s.stopOperation op 2).venueStop .low) (changes_raise _ _ _ _ _))
  · rw [State.enterLow_of_idle fun op ho hk => hretaining ⟨op, ho, hk⟩]
    exact .head (Change.resolves s.venueStop .low) (changes_raise _ _ _ _ _)

theorem changes_supplyTo (s : State) (level : Nat) : Changes s (s.supplyTo level) := by
  have hlevel : Changes s { s with supplyLevel := level } :=
    .single (Change.books level s.planLock s.driveOut s.stops s.ltx.sending s.ltx.fillPending s.ltx.lastClass)
  unfold State.supplyTo
  dsimp only
  refine hlevel.trans ?_
  generalize ({ s with supplyLevel := level } : State) = t
  split
  · split
    · exact (changes_enterLow t).tail Change.lost
    · split
      · exact changes_enterLow t
      · exact .refl
  · split
    · exact .single Change.lost
    · split
      · exact .head (Change.resolves t.venueStop .normal) (changes_raise _ _ _ _ _)
      · exact .refl
  · exact .refl

theorem changes_stopChange {s t : State} {asserted : Bool} {detail : Word16}
    (h : s.stopChange asserted detail = .next t) :
    Changes s t := by
  unfold State.stopChange at h
  split at h
  · cases h; exact .refl
  · split at h
    · rename_i hoff
      cases h; exact .single (Change.offStop asserted hoff)
    · cases h
      exact .trans (changes_settle s) (.head (Change.resolves asserted s.settle.supply) (changes_raise _ _ _ _ _))

theorem changes_planLock {s t : State} (h : execPlanLockChange s = .next t) : Changes s t := by
  have hlock (s : State) : Changes s { s with planLock := !s.planLock } :=
    .single (Change.books s.supplyLevel (!s.planLock) s.driveOut s.stops s.ltx.sending s.ltx.fillPending
      s.ltx.lastClass)
  unfold execPlanLockChange at h
  cases h
  split
  · exact hlock s
  · exact (changes_settle s).trans (hlock _)

theorem changes_powerReset {s t : State} {level : Nat} (h : execPowerReset level s = .next t) : Changes s t := by
  unfold execPowerReset at h
  cases h
  split
  · exact .refl
  · refine Relation.ReflTransGen.tail ?_ (Change.reset 1 level)
    split
    · exact .refl
    · exact (changes_settle s).trans (changes_supplyTo _ 0)

/-! ### The commands -/

theorem changes_timeAct (s : State) : Changes s s.finishSet.finishTime :=
  (changes_finishSet s).trans (changes_finishTime (by rw [State.finishSet_due]))

theorem changes_completeWhen {s t : State} {kind : OpKind} {f : State → Operation → State}
    (hf : ∀ {u op}, u.ps.operation = some op → op.kind = kind → Changes u (f u op))
    (h : s.completeWhen kind f = .next t) : Changes s t := by
  refine changes_outside (fun _ => ?_) h
  split
  · split
    · exact hf ‹_› ‹_›
    · exact .refl
  · exact .refl

/-- What every command does to a state is a run of changes. -/
theorem exec_changes {i : Instr} {s t : State} (h : exec i s = .next t) : Changes s t := by
  cases i with
  | identify | status | linkStatus | alarmStatus | clearAlarms | timeSet | zoneStatus | boundaryStatus | muteZone
  | unmuteZone | clearTrip | relock | restart | readPage | stagePage | writeSlots | commitPage | copyWorking
  | recallRetained | activate | cancelActivation | retain | abort | monitorReport => exact changes_receive h
  | badRequest kind words =>
    simp only [exec, execBadRequest] at h
    split at h
    · exact changes_receive h
    · cases h; exact .refl
  | committingCompletion => exact changes_completeWhen changes_completeCommit h
  | copyingCompletion => exact changes_completeWhen (fun ho _ => changes_completeCopy ho) h
  | recallingCompletion => exact changes_completeWhen changes_completeRecall h
  | checkingCompletion => exact changes_completeWhen (fun ho _ => changes_completeCheck ho) h
  | retainingCompletion => exact changes_completeWhen (fun ho _ => changes_completeRetain ho) h
  | swap => exact changes_within changes_swapNow h
  | driveFrame => exact changes_within (fun _ => changes_framePeriod s) h
  | intervalEnd =>
    have hdue := s.settleAll_due
    refine changes_within (f := fun s => s.settleAll.intervalNow) (fun _ => ?_) h
    exact (changes_settleAll s).trans (changes_intervalNow (by rw [hdue]) (by rw [hdue]))
  | monitorStale id =>
    simp only [exec, execMonitorStale] at h
    split at h
    · exact changes_within (fun hd => changes_makeStale (by simpa using hd)) h
    · cases h; exact .refl
  | enterFree zone =>
    simp only [exec, execEnterFree] at h
    split at h
    · exact changes_within (fun _ => changes_freeZone s _) h
    · cases h; exact .refl
  | trip zone =>
    simp only [exec, execTrip] at h
    split at h
    · exact changes_within (fun _ => changes_tripZone s _) h
    · cases h; exact .refl
  | timeSetAct =>
    exact changes_within (f := fun s => s.finishSet.finishTime) (fun _ => changes_timeAct s) h
  | minuteBoundary =>
    exact changes_within (f := fun s => s.finishSet.finishTime) (fun _ => changes_timeAct s) h
  | lineTransition => exact changes_outside (fun _ => changes_lineChange _) h
  | carrierLost => exact changes_outside (fun _ => changes_loseCarrier _) h
  | syncCandidate bits =>
    refine changes_outside (fun _ => ?_) h
    split
    · exact changes_receiveBits _ _
    · exact .refl
  | syncConfirm bits =>
    refine changes_outside (fun _ => ?_) h
    split
    · exact changes_receiveBits _ _
    · exact .refl
  | frameTaken sync samples lane =>
    refine changes_outside (fun hs => ?_) h
    split
    · exact (changes_programFrame _ _ _ _).trans (changes_drain (by rw [State.programFrame_due]; exact hs.1))
    · exact .refl
  | lockLost sync =>
    refine changes_outside (fun _ => ?_) h
    split
    · exact changes_takeSync _ _
    · exact .refl
  | venueStopAsserted => exact changes_stopChange h
  | venueStopReleased => exact changes_stopChange h
  | planLockChange => exact changes_planLock h
  | supplyLow level =>
    refine changes_outside (fun _ => ?_) h
    split
    · exact changes_supplyTo _ _
    · exact .refl
  | supplyNormal level =>
    refine changes_outside (fun _ => ?_) h
    split
    · exact changes_supplyTo _ _
    · exact .refl
  | supplyOff level =>
    refine changes_outside (fun _ => ?_) h
    split
    · exact changes_supplyTo _ _
    · exact .refl
  | powerReset level => exact changes_powerReset h
  | restartPerformed level =>
    exact changes_within (f := fun s => s.startUp 2 level) (fun _ => .single (Change.reset 2 level)) h

/-- Every command answers a next state. -/
theorem exec_next (c : Instr) (s : State) : ∃ t, exec c s = .next t := by
  cases c with
  | badRequest kind words => simp only [exec, execBadRequest]; split <;> exact ⟨_, rfl⟩
  | monitorStale id => simp only [exec, execMonitorStale]; split <;> exact ⟨_, rfl⟩
  | enterFree zone => simp only [exec, execEnterFree]; split <;> exact ⟨_, rfl⟩
  | trip zone => simp only [exec, execTrip]; split <;> exact ⟨_, rfl⟩
  | venueStopAsserted | venueStopReleased =>
    simp only [exec, execVenueStopAsserted, execVenueStopReleased, State.stopChange]
    split
    · exact ⟨_, rfl⟩
    · split <;> exact ⟨_, rfl⟩
  | _ => exact ⟨_, rfl⟩

/-- A step is a run of changes of the state with the rest of its queue. -/
theorem step_changes {s t : State} (h : step s = .next t) : ∃ rest, Changes { s with pending := rest } t := by
  unfold step at h
  split at h
  · cases h
    exact ⟨s.pending, .refl⟩
  · exact ⟨_, exec_changes h⟩

/-- What every change keeps, and the queue of commands has no part in, every step keeps. -/
theorem step_keeps {P : State → Prop} (hp : ∀ {s} rest, P s → P { s with pending := rest })
    (hc : ∀ {s t}, Change s t → P s → P t) {s t : State} (hs : P s) (h : step s = .next t) : P t := by
  obtain ⟨rest, hrun⟩ := step_changes h
  exact hrun.keeps hc (hp rest hs)

/-! ### The statements -/

/-- Settles O2: a command answers the state its changes lead to, and no change of a block touches the queue. -/
theorem everyCommandAnswersNext : Obligations.EveryCommandAnswersNext := by
  unfold Obligations.EveryCommandAnswersNext
  intro c s
  obtain ⟨t, ht⟩ := exec_next c s
  exact ⟨t, ht, (exec_changes ht).keeps (P := fun u => u.pending = s.pending) (fun h hs => h.pending.trans hs) rfl⟩

/-- Settles O54: no change of a block brings a queue or a ring above its capacity. -/
theorem queuesStayBounded : Obligations.QueuesStayBounded := by
  unfold Obligations.QueuesStayBounded
  intro s t h hstep
  exact step_keeps (fun _ h => h) State.QueuesBounded.change h hstep

/-- Settles O55: the changes of the link keep it consistent, and no other touches it but the resets. -/
theorem linkStaysConsistent : Obligations.LinkStaysConsistent := by
  unfold Obligations.LinkStaysConsistent
  intro s t h hstep
  exact step_keeps (fun _ h => h) State.LinkConsistent.change h hstep

/-- Settles O56: each change resolves the zones whose causes it touches, and sets the TRIP line with them. -/
theorem zonesStayResolved : Obligations.ZonesStayResolved := by
  unfold Obligations.ZonesStayResolved
  intro s t ⟨hzones, hline⟩ hstep
  exact ⟨step_keeps (fun _ h => h) State.ZonesResolved.change hzones hstep,
    step_keeps (fun _ h => h) State.tripLineFollows_change hline hstep⟩

/-- Settles O57: a bank comes into force only after the checks. -/
theorem planStaysSound : Obligations.PlanStaysSound := by
  unfold Obligations.PlanStaysSound
  intro s t h hstep
  exact step_keeps (fun _ h => h) State.PlanSound.change h hstep

/-- Settles O58: the clock by each of its events, the meters because a frame goes into an interval not complete. -/
theorem timeAndMetersStayInStep : Obligations.TimeAndMetersStayInStep := by
  unfold Obligations.TimeAndMetersStayInStep
  intro s t ⟨htime, hmeters⟩ hstep
  exact ⟨step_keeps (fun _ h => h) State.TimeSound.change htime hstep,
    step_keeps (fun _ h => h) State.MetersInStep.change hmeters hstep⟩

/-- Settles O59: only the derivation, the swap and the resets make records, each of the plan then in force. -/
theorem recordsStayThePlans : Obligations.RecordsStayThePlans := by
  unfold Obligations.RecordsStayThePlans
  intro s t h hstep
  exact step_keeps (fun _ h => h) State.RecordsMatchPlan.change h hstep

/-- Settles O60: the blocks of the reset are those a lost supply leaves, with STARTED raised and the supply back. -/
theorem invariantsHoldAtReset : Obligations.InvariantsHoldAtReset := by
  unfold Obligations.InvariantsHoldAtReset
  refine ⟨?_, ?_, linkConsistent_of_reset rfl rfl, ?_, ?_, ?_, ?_, State.reset.powerOff_matches⟩
  · obtain ⟨hin, hrep, -, hrest⟩ := State.reset.powerOff_queuesBounded
    exact ⟨hin, hrep, by decide, hrest⟩
  · refine ⟨nofun, fun ⟨z, hz⟩ => ?_⟩
    simp [State.reset, Zc.empty, Controller.off] at hz
  · exact State.reset.powerOff_resolved.congr rfl rfl rfl rfl rfl
  · exact planSound_of_idle checkPlan_blankBank nofun rfl rfl
  · exact timeSound_of_reset (limits := Tb.reset.limits) rfl rfl
  · exact ⟨0, by decide, fun z => by simp [State.reset, Mb.reset, Meter.zero]⟩

end Sys2Proof.Machine
end

section
/-! SUPPORT. Messages and requests correspond, lane words carry their value (O52, O53), and with that what a listening
part makes of each request command. -/

namespace Sys2Proof.Machine

/-! ### A request read back from its message -/

theorem flatMap_splitSlot_length (values : List Slot) : (values.flatMap splitSlot).length = 2 * values.length := by
  induction values with
  | nil => rfl
  | cons v rest ih =>
    rw [List.flatMap_cons, List.length_append, ih]
    simp only [splitSlot, List.length_cons, List.length_nil]
    omega

/-- A request is read back from the words it is carried by (R185). -/
theorem requestOf_args (r : Request) : requestOf r.kind r.args = some r := by
  cases r with
  | writeSlots first values =>
    show some (Request.writeSlots first (joinSlots (values.flatMap splitSlot))) = _
    rw [joinSlots_split]
  | monitorReport id period flags full lf => cases lf <;> rfl
  | _ => rfl

/-- The catalogue gives each request kind the number of words its requests have (R185). -/
theorem failedHeaderCheck_encodeRequest (tag : Byte) (r : Request)
    (hvalues : ∀ first values, r = .writeSlots first values → 1 ≤ values.length ∧ values.length ≤ 8) :
    Config.failedHeaderCheck (encodeRequest tag r) = none := by
  cases r with
  | writeSlots first values =>
    have hlength := flatMap_splitSlot_length values
    obtain ⟨hlow, hhigh⟩ := hvalues first values rfl
    refine Laws.HeaderChecks.passes (kind := Config.kWriteSlots) (lengths := [4, 6, 8, 10, 12, 14, 16, 18])
      (by decide) ?_
    rw [Request.args, List.length_cons, hlength]
    simp only [List.contains_eq_mem, decide_eq_true_eq, List.mem_cons, List.not_mem_nil, or_false]
    omega
  | monitorReport id period flags full lf =>
    cases lf <;> exact Laws.HeaderChecks.passes (kind := Config.kMonitorReport) (lengths := [5, 6]) (by decide) rfl
  | clearAlarms => exact Laws.HeaderChecks.passes (kind := Config.kClearAlarms) (lengths := [4]) (by decide) rfl
  | timeSet => exact Laws.HeaderChecks.passes (kind := Config.kTimeSet) (lengths := [3]) (by decide) rfl
  | boundaryStatus => exact Laws.HeaderChecks.passes (kind := Config.kBoundaryStatus) (lengths := [3]) (by decide) rfl
  | readPage => exact Laws.HeaderChecks.passes (kind := Config.kReadPage) (lengths := [3]) (by decide) rfl
  | stagePage => exact Laws.HeaderChecks.passes (kind := Config.kStagePage) (lengths := [3]) (by decide) rfl
  | zoneStatus => exact Laws.HeaderChecks.passes (kind := Config.kZoneStatus) (lengths := [2]) (by decide) rfl
  | muteZone => exact Laws.HeaderChecks.passes (kind := Config.kMuteZone) (lengths := [2]) (by decide) rfl
  | unmuteZone => exact Laws.HeaderChecks.passes (kind := Config.kUnmuteZone) (lengths := [2]) (by decide) rfl
  | clearTrip => exact Laws.HeaderChecks.passes (kind := Config.kClearTrip) (lengths := [2]) (by decide) rfl
  | _ => exact Laws.HeaderChecks.passes (lengths := [1]) (args := []) (by decide) rfl

theorem decodeMessage_encodeRequest (tag : Byte) (r : Request)
    (hvalues : ∀ first values, r = .writeSlots first values → 1 ≤ values.length ∧ values.length ≤ 8) :
    decodeMessage (encodeRequest tag r) = .ok (tag, r) :=
  decodeMessage_encodeRequest_of (failedHeaderCheck_encodeRequest tag r hvalues) (requestOf_args r)

/-- A listening part takes a request command at once. -/
theorem exec_request {s : State} (h : s.Listening) {c : Instr} {tag : Byte} {r : Request}
    (hc : messageOf c = some (encodeRequest tag r))
    (hvalues : ∀ first values, r = .writeSlots first values → 1 ≤ values.length ∧ values.length ≤ 8) :
    exec c s = .next (s.takeRequest tag r) := by
  rw [exec_of_messageOf hc, State.receive_request h tag r (decodeMessage_encodeRequest tag r hvalues)]

/-! ### A message is that of the request it is read as -/

/-- Words paired into values and split again, when none is left over. -/
theorem splitSlots_join : ∀ {words : List Word16}, words.length % 2 = 0 → (joinSlots words).flatMap splitSlot = words
  | [], _ => rfl
  | [_], h => by cases h
  | high :: low :: rest, h => by
    have hrest : rest.length % 2 = 0 := by rw [List.length_cons, List.length_cons] at h; omega
    rw [joinSlots, List.flatMap_cons, splitSlots_join hrest, splitSlot, joinSlot_high, joinSlot_low]
    rfl

/-- One kind of the catalogue tried: it is the message's kind, or the rest is. -/
theorem kind_args_of_ite {kind k : Byte} {args : List Word16} {a r : Request} {rest : Option Request}
    (h : (if kind = k then some a else rest) = some r) (ha : a.kind = k ∧ a.args = args)
    (hrest : rest = some r → r.kind = kind ∧ r.args = args) : r.kind = kind ∧ r.args = args := by
  split at h
  · rename_i hkind
    cases h
    rw [hkind]
    exact ha
  · exact hrest h

/-- What is read as a request is that request's kind and words, when WRITE SLOTS has an odd number of them. -/
theorem requestOf_some {kind : Byte} {args : List Word16} {r : Request} (h : requestOf kind args = some r)
    (hodd : kind = Config.kWriteSlots → args.length % 2 = 1) : r.kind = kind ∧ r.args = args := by
  unfold requestOf at h
  by_cases hwrite : kind = Config.kWriteSlots
  · rw [if_pos hwrite] at h
    have hlength := hodd hwrite
    cases args with
    | nil => cases h
    | cons first rest =>
      cases h
      refine ⟨hwrite.symm, congrArg (first :: ·) (splitSlots_join ?_)⟩
      rw [List.length_cons] at hlength
      omega
  rw [if_neg hwrite] at h
  by_cases hreport : kind = Config.kMonitorReport
  · rw [if_pos hreport] at h
    match args, h with
    | [_, _, _, _], h => cases h; exact ⟨hreport.symm, rfl⟩
    | [_, _, _, _, _], h => cases h; exact ⟨hreport.symm, rfl⟩
  rw [if_neg hreport] at h
  match args with
  | [] | [_] | [_, _] | [_, _, _] =>
    simp only [] at h
    repeat refine kind_args_of_ite h ⟨rfl, rfl⟩ fun h => ?_
    cases h

/-- A message that passes the header checks has a length of its kind and a tag word (R175). -/
theorem failedHeaderCheck_none {m : Message} (h : Config.failedHeaderCheck m = none) :
    m.words.length ∈ requestLengths m.kind.toNat ∧ (m.words.headD 0).toNat < 256 := by
  have hnone (n : Nat) : ¬ FailsHeaderCheck m.kind m.words n := fun hn => by
    cases h.symm.trans ((failedHeaderCheck_some m.kind m.words n).2 hn)
  have hlength : m.words.length ∈ requestLengths m.kind.toNat := by
    by_contra hlength
    by_cases hlisted : requestLengths m.kind.toNat = []
    · exact hnone 1 (.inl ⟨rfl, hlisted⟩)
    · exact hnone 2 (.inr (.inl ⟨rfl, hlisted, hlength⟩))
  refine ⟨hlength, not_le.1 fun htag => hnone 3 (.inr (.inr ⟨rfl, hlength, htag⟩))⟩

/-- A first word with a zero high byte is the tag word of its low byte. -/
theorem tagWord_setWidth {w : Word16} (h : w.toNat < 256) : tagWord (w.setWidth 8) = w := by
  refine BitVec.eq_of_toNat_eq ?_
  simp only [tagWord, BitVec.toNat_setWidth]
  omega

/-- No kind has a message of no words. -/
theorem requestLengths_pos (kind : Nat) : 0 ∉ requestLengths kind := by
  unfold requestLengths
  split_ifs <;> decide

theorem encodeRequest_of_decodeMessage {m : Message} {tag : Byte} {r : Request}
    (h : decodeMessage m = .ok (tag, r)) : encodeRequest tag r = m := by
  unfold decodeMessage at h
  split at h
  · cases h
  · rename_i hcheck
    obtain ⟨hlength, htag⟩ := failedHeaderCheck_none hcheck
    split at h
    · rename_i r' hread
      cases h
      have hodd : m.kind = Config.kWriteSlots → m.words.tail.length % 2 = 1 := by
        intro hkind
        rw [hkind, show requestLengths Config.kWriteSlots.toNat = [4, 6, 8, 10, 12, 14, 16, 18] from rfl] at hlength
        simp only [List.mem_cons, List.not_mem_nil, or_false] at hlength
        rw [List.length_tail]
        omega
      have hnonempty : m.words ≠ [] := by
        intro hnil
        rw [hnil] at hlength
        exact requestLengths_pos _ hlength
      obtain ⟨hkind, hargs⟩ := requestOf_some hread hodd
      obtain ⟨kind, words⟩ := m
      cases words with
      | nil => exact (hnonempty rfl).elim
      | cons first rest =>
        rw [encodeRequest, hkind, hargs]
        exact congrArg (fun w => Message.mk kind (w :: rest)) (tagWord_setWidth htag)
    · cases h

/-- Settles O52: the words of a request are read back one kind at a time, and what is read has the kind and words of
the
message. -/
theorem messagesAndRequestsCorrespond : Obligations.MessagesAndRequestsCorrespond := by
  unfold Obligations.MessagesAndRequestsCorrespond
  exact ⟨decodeMessage_encodeRequest, fun _ _ _ => encodeRequest_of_decodeMessage⟩

/-! ### Lane words -/

/-- The parity of the ones among some bits, started from one more bit. -/
theorem foldl_parity (p : Nat → Bool) (xs : List Nat) (b : Bool) :
    xs.foldl (fun odd i => odd != p i) b = (b != decide ((xs.filter p).length % 2 = 1)) := by
  induction xs generalizing b with
  | nil => cases b <;> rfl
  | cons x rest ih =>
    rw [List.foldl_cons, ih]
    cases hx : p x with
    | false => rw [List.filter_cons_of_neg (by simp [hx])]; cases b <;> rfl
    | true =>
      rw [List.filter_cons_of_pos hx, List.length_cons]
      rcases Nat.mod_two_eq_zero_or_one (rest.filter p).length with h | h <;> cases b <;> simp [Nat.add_mod, h]

theorem goodParity_eq (value : Word16) (parity : Bool) :
    goodParity value parity = (parity != goodParity value false) := by
  rw [goodParity, goodParity, foldl_parity, foldl_parity]
  cases parity <;> simp

theorem laneValue_bit (w : LinkWord) {i : Nat} (hi : i < 16) : (laneValue w).getLsbD i = w.getLsbD (8 + i) := by
  rw [laneValue, BitVec.getLsbD_setWidth, BitVec.getLsbD_ushiftRight]
  simp [hi]

/-- A lane word holds its value from bit 8 up and its parity bit at bit 7 (R186). -/
theorem laneWord_bit (v : Word16) (i : Nat) :
    (laneWord v).getLsbD i
      = ((decide (8 ≤ i) && v.getLsbD (i - 8)) || (decide (i = 7) && !goodParity v false)) := by
  have hparity : (if goodParity v false then (0 : LinkWord) else 0x80).getLsbD i
      = (decide (i = 7) && !goodParity v false) := by
    cases goodParity v false
    · have hbit : (0x80 : LinkWord) = BitVec.twoPow 24 7 := rfl
      rw [if_neg (by simp), hbit, BitVec.getLsbD_twoPow]
      by_cases hi : i = 7
      · simp [hi]
      · simp [hi, Ne.symm hi]
    · simp
  rw [laneWord, BitVec.getLsbD_or, hparity, BitVec.getLsbD_shiftLeft, BitVec.getLsbD_setWidth]
  by_cases hi : i < 24
  · by_cases h8 : i < 8
    · simp [h8, hi, show ¬ 8 ≤ i by omega]
    · simp [h8, hi, show i - 8 < 24 by omega, show 8 ≤ i by omega]
  · have hhigh : v.getLsbD (i - 8) = false := BitVec.getLsbD_of_ge _ _ (by omega)
    simp [hi, hhigh]

theorem laneValue_laneWord (v : Word16) : laneValue (laneWord v) = v := by
  refine BitVec.eq_of_getLsbD_eq fun i hi => ?_
  rw [laneValue_bit _ hi, laneWord_bit, show 8 + i - 8 = i by omega]
  simp [show ¬ 8 + i = 7 by omega]

theorem laneGood_laneWord (v : Word16) : laneGood (laneWord v) = true := by
  rw [laneGood, laneValue_laneWord, goodParity_eq, laneWord_bit]
  cases goodParity v false <;> rfl

/-- The parity of a lane word is that of its bits from 7 up (R147). -/
theorem laneGood_iff (w : LinkWord) :
    laneGood w = true ↔ ((List.range 17).filter fun i => w.getLsbD (7 + i)).length % 2 = 1 := by
  have hbits : (List.range 16).filter ((fun i => w.getLsbD (7 + i)) ∘ Nat.succ)
      = (List.range 16).filter fun i => (laneValue w).getLsbD i := by
    refine List.filter_congr fun i hi => ?_
    rw [laneValue_bit w (List.mem_range.1 hi), Function.comp_apply]
    exact congrArg w.getLsbD (by omega)
  rw [laneGood, goodParity, foldl_parity, show List.range 17 = 0 :: (List.range 16).map Nat.succ from rfl]
  rw [List.filter_cons, List.filter_map, hbits]
  generalize (List.range 16).filter (fun i => (laneValue w).getLsbD i) = ones
  cases h7 : w.getLsbD 7
  · simp
  · simp
    omega

/-- Settles O53, from the bits of a lane word and the parity as the ones counted modulo 2. -/
theorem laneWordsCarryTheirValue : Obligations.LaneWordsCarryTheirValue := by
  unfold Obligations.LaneWordsCarryTheirValue
  refine ⟨fun v => ⟨laneValue_laneWord v, laneGood_laneWord v, (laneGood_iff _).1 (laneGood_laneWord v), fun i hi => ?_,
    fun i hi => ?_⟩, fun w => ⟨laneGood_iff w, fun i => laneValue_bit w⟩⟩
  · rw [← laneValue_bit _ hi, laneValue_laneWord]
  · rw [laneWord_bit]
    simp [show ¬ 8 ≤ i by omega, show i ≠ 7 by omega]

end Sys2Proof.Machine
end

section
/-! SUPPORT. The queue of commands, a part in OFF, a message that waits, and the general requests (R164 to R184, R29,
R197). -/

namespace Sys2Proof.Machine

/-! ### The queue, OFF, and a message that waits -/

/-- Settles O1: the two cases of `step`. -/
theorem stepTakesTheFrontCommandOrIdles : Obligations.StepTakesTheFrontCommandOrIdles := by
  unfold Obligations.StepTakesTheFrontCommandOrIdles
  refine ⟨fun c rest s h => ?_, fun s h => ?_⟩ <;> simp only [step, h]

theorem State.within_of_off {s : State} (h : s.supply = .off) (due : Bool) (f : State → State) :
    s.within due f = .next s := by
  rw [State.within, if_neg fun hw => hw.1 h]

/-- Settles O3: a command is one from outside or one of the part's own steps, and neither acts in OFF. -/
theorem offPartIgnoresCommands : Obligations.OffPartIgnoresCommands := by
  unfold Obligations.OffPartIgnoresCommands
  intro c s h hpower hasserted hreleased hlock
  cases c with
  | powerReset level => exact (hpower level rfl).elim
  | venueStopAsserted => exact (hasserted rfl).elim
  | venueStopReleased => exact (hreleased rfl).elim
  | planLockChange => exact (hlock rfl).elim
  | badRequest kind words =>
    simp only [exec, execBadRequest]
    split
    · exact State.outside_of_off h _
    · rfl
  | monitorStale id =>
    simp only [exec, execMonitorStale]
    split
    · exact State.within_of_off h _ _
    · rfl
  | enterFree zone =>
    simp only [exec, execEnterFree]
    split
    · exact State.within_of_off h _ _
    · rfl
  | trip zone =>
    simp only [exec, execTrip]
    split
    · exact State.within_of_off h _ _
    · rfl
  | swap | driveFrame | intervalEnd | timeSetAct | minuteBoundary | restartPerformed =>
    exact congrArg Host.Outcome.next (if_neg fun hw => hw.1 h)
  | _ => exact congrArg Host.Outcome.next (if_pos h)

/-- Settles O4: a message that may not be taken stays where `State.pushInbound` puts it. -/
theorem messageWaitsWhileFourRepliesStand : Obligations.MessageWaitsWhileFourRepliesStand := by
  unfold Obligations.MessageWaitsWhileFourRepliesStand
  intro c m s hc hawake hreplies
  have htake : (s.pushInbound m).canTake = false := decide_eq_false (not_lt.2 hreplies)
  have hexec : exec c s = .next (s.pushInbound m) := by
    rw [exec_of_messageOf hc, State.receive, State.outside_of_awake hawake, State.deliver, State.drain_of_waiting htake]
  refine ⟨fun hroom => ?_, fun hfull => ?_⟩ <;> rw [hexec, State.pushInbound]
  · rw [show pushOver Config.inboundCap s.mu.inbound m = _ from pushOver_of_room m hroom,
      decide_eq_false (show ¬ Config.inboundCap ≤ s.mu.inbound.length from not_le.2 hroom), Bool.or_false]
  · rw [decide_eq_true (show Config.inboundCap ≤ s.mu.inbound.length from hfull.ge), Bool.or_true]
    rfl

/-! ### STATUS -/

/-- Settles O7: the data of STATUS, with no message waiting in a listening part. -/
theorem statusReportsTheState : Obligations.StatusReportsTheState := by
  unfold Obligations.StatusReportsTheState
  intro tag s h
  rw [exec_request h (r := .status) rfl nofun]
  have hwaiting : s.mu.inbound.length = 0 := by rw [h.2.1]; rfl
  show Host.Outcome.next (s.queueReply ⟨0x02, tag, .done, 0, statusData s⟩) = _
  rw [statusData, hwaiting, operationCode]
  cases s.tb.isSet <;> cases s.ps.staging <;> cases s.ps.operation <;> cases s.ps.lastOutcome <;> rfl

/-! ### CLEAR ALARMS -/

/-- The sum over the records of a vector. -/
theorem vector_sum {α : Type} {n : Nat} (v : Vector α n) (f : α → Nat) :
    (v.toList.map f).sum = ∑ i : Fin n, f v[i] := by
  have hv : v = Vector.ofFn fun i => v[i] := by ext i hi; simp
  conv_lhs => rw [hv]
  rw [Vector.toList_ofFn, List.map_ofFn, List.sum_ofFn]
  rfl

theorem and_toNat_le (a b : Bool) : (a && b).toNat ≤ a.toNat := by cases a <;> cases b <;> decide

theorem BreachMarks.count_eq (m : BreachMarks) :
    m.count = m.minuteFull.toNat + m.minuteLf.toNat + m.runningFull.toNat + m.runningLf.toNat := by
  obtain ⟨a, b, c, d⟩ := m
  cases a <;> cases b <;> cases c <;> cases d <;> rfl

theorem BreachMarks.count_without_le (m mask : BreachMarks) : (m.without mask).count ≤ m.count := by
  rw [BreachMarks.count_eq, BreachMarks.count_eq]
  exact Nat.add_le_add (Nat.add_le_add (Nat.add_le_add (and_toNat_le _ _) (and_toNat_le _ _)) (and_toNat_le _ _))
    (and_toNat_le _ _)

/-- Clearing latches sets none (R184). -/
theorem State.clearLatches_count_le (s : State) (m1 m2 m3 : Word16) :
    (s.clearLatches m1 m2 m3).latchCount ≤ s.latchCount := by
  unfold State.latchCount zoneLatchCount breachLatchCount
  rw [vector_sum, vector_sum, vector_sum, vector_sum]
  refine Nat.add_le_add (Finset.sum_le_sum fun z _ => ?_) (Finset.sum_le_sum fun b _ => ?_)
  · simp only [State.clearLatches, clearZoneLatches, Fin.getElem_fin, Vector.getElem_ofFn]
    exact Nat.add_le_add (and_toNat_le _ _) (and_toNat_le _ _)
  · simp only [State.clearLatches, Fin.getElem_fin, Vector.getElem_ofFn]
    exact BreachMarks.count_without_le _ _

/-- Settles O10: a listening part takes CLEAR ALARMS at once; the latches counted are those that were set and are not.
-/
theorem clearAlarmsClearsTheNamedLatches : Obligations.ClearAlarmsClearsTheNamedLatches := by
  unfold Obligations.ClearAlarmsClearsTheNamedLatches
  intro tag m1 m2 m3 s h
  rw [exec_request h (c := .clearAlarms tag m1 m2 m3) (r := .clearAlarms m1 m2 m3) rfl nofun]
  simp only [State.takeRequest, State.takeClearAlarms, high_byte_ne_zero]
  refine ⟨fun hmask => ?_, fun hmask hlow => ?_, fun hmask hnormal => ?_⟩
  · rw [if_pos hmask]
    rfl
  · rw [if_neg (not_le.2 hmask), if_pos hlow]
    rfl
  · rw [if_neg (not_le.2 hmask), if_neg (by rw [hnormal]; nofun)]
    refine ⟨s.clearLatches m1 m2 m3, s.latchCount - (s.clearLatches m1 m2 m3).latchCount, rfl, rfl,
      Nat.sub_add_cancel (s.clearLatches_count_le m1 m2 m3), fun z => ?_, fun b => ?_⟩
    · simp [State.clearLatches, clearZoneLatches]
    · simp [State.clearLatches, BreachMarks.without, breachMask]

/-! ### TIME SET -/

theorem State.finishSwap_of_none {s : State} (h : s.due.swap = false) : s.finishSwap = s := by
  rw [State.finishSwap, h]
  rfl

theorem State.finishSwap_of_due {s : State} (h : s.due.swap = true) : s.finishSwap = s.swapNow := by
  rw [State.finishSwap, if_pos h]

theorem State.swapNow_setting (s : State) : s.swapNow.tb.setting = s.tb.setting := by
  unfold State.swapNow State.takeSwap
  dsimp only
  split
  · split <;> rfl
  · rfl

/-- The due setting acts, and is pending no more (R30 to R32). -/
theorem State.finishTime_setting {s : State} (h : s.due.tb = some .setting) (hs : s.tb.setting ≠ none) :
    s.finishTime.tb.setting = none := by
  have hafter (u : State) : u.afterClose.tb.setting = u.tb.setting := by rw [State.afterClose_keeps]
  unfold State.finishTime State.settingNow
  simp only [h]
  split
  · rename_i hnone
    exact (hs hnone).elim
  · split
    · rfl
    · rw [State.stepTime, hafter]
      rfl

/-- A setting placed where none is pending (R29). -/
theorem State.placeSetting_of_none {s : State} (hd : s.due.tb ≠ some .setting) (h : s.tb.setting = none)
    (set : Setting) :
    s.placeSetting set = { s with tb := { s.tb with setting := some set } } := by
  simp only [State.placeSetting, if_neg hd, h]

theorem State.placeSetting_of_some {s : State} (hd : s.due.tb ≠ some .setting) {old : Setting}
    (h : s.tb.setting = some old) (set : Setting) :
    s.placeSetting set
      = { s.answer Config.kTimeSet old.tag .aborted 0 with tb := { s.tb with setting := some set } } := by
  simp only [State.placeSetting, if_neg hd, h]
  rfl

theorem State.placeSetting_of_due {s : State} (hd : s.due.tb = some .setting)
    (h : s.finishTime.finishSwap.tb.setting = none) (set : Setting) :
    s.placeSetting set
      = { s.finishTime.finishSwap with tb := { s.finishTime.finishSwap.tb with setting := some set } } := by
  simp only [State.placeSetting, if_pos hd, h]

theorem State.finishTime_supply (s : State) : s.finishTime.supply = s.supply := by
  have h := outer_finishTime s
  simp only [State.outer, Prod.mk.injEq] at h
  exact h.2.1

theorem exec_timeSetAct_of_settled {s : State} (h : s.Awake) (hd : s.due.tb = some .setting) :
    exec .timeSetAct s = .next s.finishTime := by
  show s.within (s.due.tb == some .setting) (fun s => s.finishSet.finishTime) = _
  obtain ⟨hon, hstale, htrips, hfrees, -⟩ := h
  rw [State.within, if_pos ⟨hon, by rw [hd]; rfl⟩, State.finishSet_of_none hstale htrips hfrees]

theorem exec_swap_of_due {s : State} (h : s.supply ≠ .off) (hd : s.due.swap = true) :
    exec .swap s = .next s.swapNow := by
  show s.within s.due.swap State.swapNow = _
  rw [State.within, if_pos ⟨h, hd⟩]

/-- Settles O11: the checks of the arguments, and the three ways in which a setting is placed. -/
theorem timeSetBecomesPending : Obligations.TimeSetBecomesPending := by
  unfold Obligations.TimeSetBecomesPending
  intro tag minute second s h
  rw [exec_request h (c := .timeSet tag minute second) (r := .timeSet minute second) rfl nofun]
  simp only [State.takeRequest, State.takeTimeSet]
  refine ⟨fun hm => ?_, fun hm hsec => ?_, fun hm hsec hdue hpending => ?_, fun hm hsec hdue => ?_⟩
  · rw [if_pos hm]
    rfl
  · rw [if_neg (not_lt.2 hm), if_pos hsec]
    rfl
  · rw [if_neg (not_lt.2 hm), if_neg (not_lt.2 hsec)]
    have hnone := State.finishTime_setting hdue hpending
    refine ⟨s.finishTime, exec_timeSetAct_of_settled h.1 hdue, hnone, fun hswap => ?_, fun hswap => ?_⟩
    · have hsame := State.finishSwap_of_none hswap
      rw [State.placeSetting_of_due hdue (by rw [hsame]; exact hnone), hsame]
    · have hnow := State.finishSwap_of_due hswap
      refine ⟨s.finishTime.swapNow, exec_swap_of_due (by rw [State.finishTime_supply]; exact h.1.1) hswap, ?_⟩
      rw [State.placeSetting_of_due hdue (by rw [hnow, State.swapNow_setting]; exact hnone), hnow]
  · rw [if_neg (not_lt.2 hm), if_neg (not_lt.2 hsec)]
    exact ⟨fun hnone => by rw [State.placeSetting_of_none hdue hnone],
      fun old hold => by rw [State.placeSetting_of_some hdue hold]; rfl⟩

/-! ### RELOCK, RESTART and a bad request -/

/-- Settles O12: the cases of the receiver's state. -/
theorem relockRestartsTheSearch : Obligations.RelockRestartsTheSearch := by
  unfold Obligations.RelockRestartsTheSearch
  intro tag s h
  rw [exec_request h (c := .relock tag) (r := .relock) rfl nofun]
  simp only [State.takeRequest, State.takeRelock, State.relock]
  refine ⟨fun hr => ?_, fun hr => ?_, fun hr => ?_⟩
  · rw [hr]
    rfl
  · refine ⟨natWord (receiverCode s.lrx.receiver), ?_, ?_⟩ <;> rcases hr with hr | hr <;> rw [hr] <;> rfl
  · rw [hr]
    dsimp only
    rw [State.leaveLocked, State.unlock_writes]
    refine ⟨_, rfl, rfl, rfl, State.alertsRaised_of (u := s) rfl rfl rfl rfl, ?_⟩
    rfl

/-- Settles O13: the two cases of `State.takeRestart`. -/
theorem restartIsScheduledOrBusy : Obligations.RestartIsScheduledOrBusy := by
  unfold Obligations.RestartIsScheduledOrBusy
  intro tag s h
  rw [exec_request h (c := .restart tag) (r := .restart) rfl nofun]
  simp only [State.takeRequest, State.takeRestart]
  exact ⟨fun op ho => by rw [ho]; rfl, fun ho => by rw [ho]⟩

/-- Settles O14: a message that fails a header check is read as that check's number, and rejected with it. -/
theorem badRequestIsAnswered : Obligations.BadRequestIsAnswered := by
  unfold Obligations.BadRequestIsAnswered
  intro kind words n s h hlow hhigh hfails
  have hread : decodeMessage ⟨kind, words⟩ = .error n := by
    simp only [decodeMessage, (failedHeaderCheck_some kind words n).2 hfails]
  have hexec : exec (.badRequest kind words) s = .next (s.rejectMessage ⟨kind, words⟩ n) := by
    simp only [exec, execBadRequest, if_pos (And.intro hlow hhigh)]
    rw [State.receive_listening h, State.takeMessage, hread]
  rw [hexec, State.rejectMessage]
  exact ⟨fun hk => congrArg Host.Outcome.next (if_pos hk), fun hk => congrArg Host.Outcome.next (if_neg hk)⟩

end Sys2Proof.Machine
end

section
/-! SUPPORT. The requests on zones, boundaries and monitors, and the steps that a published set makes due (R64 to R71,
R89, R90, R102, R105, R106, R112 to R114). -/

namespace Sys2Proof.Machine

/-! ### ZONE STATUS and BOUNDARY STATUS -/

theorem State.onZone_of_ge {s : State} {zone : Word16} (h : 8 ≤ zone.toNat) (k t : Byte) (f : Fin 8 → State) :
    s.onZone k t zone f = s.answer k t .badArgument 1 := by
  rw [State.onZone, dif_neg (not_lt.2 h)]

theorem State.onZone_of_eq {s : State} {zone : Word16} {z : Fin 8} (h : zone.toNat = z.val) (k t : Byte)
    (f : Fin 8 → State) : s.onZone k t zone f = f z := by
  rw [State.onZone, dif_pos (show zone.toNat < 8 by rw [h]; exact z.isLt)]
  exact congrArg f (Fin.ext h)

/-- Settles O15: the words of ZONE STATUS one by one. -/
theorem zoneStatusReportsTheZone : Obligations.ZoneStatusReportsTheZone := by
  unfold Obligations.ZoneStatusReportsTheZone
  intro tag zone s h
  rw [exec_request h (c := .zoneStatus tag zone) (r := .zoneStatus zone) rfl nofun]
  simp only [State.takeRequest, State.takeZoneStatus]
  refine ⟨fun hz => by rw [State.onZone_of_ge hz]; rfl, fun z hz => ?_⟩
  rw [State.onZone_of_eq hz]
  show Host.Outcome.next (s.queueReply ⟨0x07, tag, .done, 0, zoneStatusData s z⟩) = _
  rw [zoneStatusData, listWords, List.length_map]
  cases (zoneItem s.ps.working z).tripLevel <;> cases s.zc.zones[z].lastDemand <;>
    simp [demandWords, noneWord, absentWord, unreachedWord]

theorem zoneSetWord_eq (zones : List (Fin 8)) :
    zoneSetWord zones = natWord (((List.finRange 8).map fun z => if z ∈ zones then 2 ^ z.val else 0).sum) := by
  have hbits : ∀ bits : Fin 8 → Bool,
      (BitVec.ofBoolListLE ((List.finRange 8).map bits)).setWidth 16
        = natWord (((List.finRange 8).map fun z => if bits z = true then 2 ^ z.val else 0).sum) := by
    decide +kernel
  have h := hbits fun z => zones.contains z
  simp only [List.contains_iff_mem] at h
  exact h

theorem marksNat_eq (m : BreachMarks) :
    marksNat m = (if m.minuteFull then 1 else 0) + (if m.minuteLf then 2 else 0) + (if m.runningFull then 4 else 0)
      + (if m.runningLf then 8 else 0) := by
  obtain ⟨a, b, c, d⟩ := m
  cases a <;> cases b <;> cases c <;> cases d <;> rfl

theorem State.takeBoundaryStatus_of_ge {s : State} {tag : Byte} {boundary : Word16} (h : 6 ≤ boundary.toNat)
    (selector : Word16) :
    s.takeRequest tag (.boundaryStatus boundary selector) = s.answer Config.kBoundaryStatus tag .badArgument 1 :=
  dif_neg (not_lt.2 h)

theorem State.takeBoundaryStatus_of_selector {s : State} {tag : Byte} {boundary selector : Word16}
    (h : boundary.toNat < 6) (hs : 14 < selector.toNat) :
    s.takeRequest tag (.boundaryStatus boundary selector) = s.answer Config.kBoundaryStatus tag .badArgument 2 :=
  (dif_pos h).trans (if_pos hs)

theorem State.takeBoundaryStatus_of_eq {s : State} {tag : Byte} {boundary selector : Word16} {b : Fin 6}
    (h : boundary.toNat = b.val) (hs : selector.toNat ≤ 14) :
    s.takeRequest tag (.boundaryStatus boundary selector)
      = s.answerData Config.kBoundaryStatus tag 0 (boundaryStatusData s b selector.toNat) := by
  have hb : ∀ hlt, (⟨boundary.toNat, hlt⟩ : Fin 6) = b := fun _ => Fin.ext h
  rw [State.takeRequest, State.takeBoundaryStatus, dif_pos (show boundary.toNat < 6 by rw [h]; exact b.isLt),
    if_neg (not_lt.2 hs), hb]

/-- Settles O16: the words of BOUNDARY STATUS one by one. -/
theorem boundaryStatusReportsTheBoundary : Obligations.BoundaryStatusReportsTheBoundary := by
  unfold Obligations.BoundaryStatusReportsTheBoundary
  intro tag boundary selector s h absent limit flag marks zoneSet monitorState
  have hmarks : ∀ m, natWord (marksNat m) = marks m := fun m => congrArg natWord (marksNat_eq m)
  rw [exec_request h (c := .boundaryStatus tag boundary selector) (r := .boundaryStatus boundary selector) rfl nofun]
  refine ⟨fun hb => ?_, fun hb hs => ?_, fun b hb hs => ⟨fun hdisabled => ?_, fun e l a henabled he hl ha => ?_⟩⟩
  · rw [State.takeBoundaryStatus_of_ge hb]
    rfl
  · rw [State.takeBoundaryStatus_of_selector hb hs]
    rfl
  · rw [State.takeBoundaryStatus_of_eq hb hs]
    simp only [boundaryStatusData, hdisabled, hmarks]
    rfl
  · intro figure mapped selected
    have habsent : optWord = absent := by funext n; cases n <;> rfl
    have hlimit : limitWord = limit := by funext l; cases l <;> rfl
    have hstate : monitorStateCode = monitorState := by funext state; cases state <;> rfl
    have hset : zoneSetWord = zoneSet := by funext zones; exact zoneSetWord_eq zones
    have hmapped : monitorsOf s.ps.working b = mapped := List.filter_congr fun m _ => by
      rw [Bool.eq_iff_iff, beq_iff_eq, decide_eq_true_iff]
    have hfigure : ∀ word, figureWord e.figures word = figure word := by
      intro word
      show _ = (match e.figures with | none => _ | some f => _)
      cases e.figures <;> rfl
    rw [State.takeBoundaryStatus_of_eq hb hs]
    simp only [boundaryStatusData, henabled, if_true, he, hl, ha, Option.getD_some, boundaryLevelWords, accountWords,
      hmarks, habsent, hlimit, hset, hmapped, hfigure]
    have hentry : entryWords (selectedEntry a.ring selector.toNat)
        = match selected with
          | none => [0x8000, 0x8000, 0x8000, 0x8000, 0x8000, 0x8000, 0x8000, 0x8000, 0x8000]
          | some x =>
            [absent x.minute, natWord x.count, natWord x.full, natWord x.lf, limit x.limitFull,
             limit x.limitLf, flag x.isPartial, flag x.unwatched, marks x.marks] := by
      show entryWords selected = _
      cases selected with
      | none => rfl
      | some x => simp only [entryWords, habsent, hlimit, hmarks]; rfl
    have hwords : monitorWords s.be.monitors = fun m =>
        [natWord (m.val + 1 + 16 * monitorState s.be.monitors[m].state), natWord s.be.monitors[m].silence] := by
      funext m
      rw [monitorWords, hstate]
      rfl
    rw [hentry, hwords]
    simp only [List.append_assoc, List.cons_append, List.nil_append]
    rfl

/-! ### Monitors -/

/-- A report that is out of range is dropped (R66). -/
theorem State.takeReport_of_range {s : State} {id period flags full : Word16} {lf : Option Word16}
    (h : reportInRange id.toNat period.toNat full.toNat (lf.map (·.toNat)) = false) :
    s.takeReport id period flags full lf = s := by
  unfold State.takeReport
  rw [h]
  split <;> rfl

theorem reportInRange_iff (id period full : Nat) (lf : Option Nat) :
    reportInRange id period full lf = true
      ↔ (1 ≤ id ∧ id ≤ 12) ∧ (1 ≤ period ∧ period ≤ 80) ∧ full ≤ 1400 ∧ ∀ l, lf = some l → l ≤ 1400 := by
  cases lf <;> simp [reportInRange, and_assoc]

/-- What a report of monitor `m` in range does (R66 to R71). -/
theorem State.takeReport_of_monitor {s : State} {id period flags full : Word16} {lf : Option Word16} {m : Fin 12}
    (hid : id.toNat = m.val + 1)
    (hrange : reportInRange id.toNat period.toNat full.toNat (lf.map (·.toNat)) = true) :
    s.takeReport id period flags full lf
      = if s.be.monitors[m].state = .unmapped then s
        else match s.be.monitors[m].boundary with
          | none => s.refreshMonitor m
          | some b =>
            if flags.getLsbD 0 = true then s.refreshMonitor m
            else (s.refreshMonitor m).correctBoundary b period.toNat (flags.getLsbD 1) full.toNat
              (lf.map (·.toNat)) := by
  obtain ⟨n, hn⟩ := m
  obtain rfl : n = id.toNat - 1 := by dsimp only at hid; omega
  unfold State.takeReport
  rw [dif_pos (show 1 ≤ id.toNat ∧ id.toNat ≤ 12 by omega), hrange]
  simp only [Bool.true_and]
  by_cases hstate : s.be.monitors[(⟨id.toNat - 1, hn⟩ : Fin 12)].state = .unmapped
  · rw [if_pos hstate, if_neg (by simpa using hstate)]
  · exact (if_pos (by simpa using hstate)).trans (if_neg hstate).symm

/-- A report that is accepted makes its monitor LIVE, with an alert when it was not (R67, R68). -/
theorem State.refreshMonitor_writes (s : State) (m : Fin 12) :
    s.refreshMonitor m = { s with
      be := { s.be with monitors := s.be.monitors.set m { s.be.monitors[m] with state := .live, silence := 0 } }
      mu := (s.refreshMonitor m).mu } := by
  unfold State.refreshMonitor
  dsimp only
  split <;> rfl

theorem State.refreshMonitor_mu (s : State) (m : Fin 12) :
    (s.refreshMonitor m).mu
      = match s.be.monitors[m].state with
        | .unheard => (s.raise .monitorLive false (some (m.val + 1)) 1).mu
        | .stale => (s.raise .monitorLive false (some (m.val + 1)) 2).mu
        | .live | .unmapped => s.mu := by
  unfold State.refreshMonitor
  dsimp only
  split <;> rename_i h <;> rw [h] <;> rfl

/-- One alert raised. -/
theorem State.alertsRaised_raise {s t : State} {k : AlertKind} {u : Bool} {n : Option Nat} {d : Word16}
    (h : t.mu = (s.raise k u n d).mu) : s.AlertsRaised t [⟨k, u, n, s.stamp, d⟩] :=
  State.alertsRaised_of (u := s) (congrArg Mu.alerts h) (congrArg Mu.alertsLost h) rfl rfl

/-- The corrections of a boundary with a record, moved by a report (R69 to R71). -/
theorem moveCorrections_writes (e : Estimator) (period : Nat) (overload : Bool) (full : Nat) (lf : Option Nat) :
    let e' := moveCorrections e period overload full lf
    e'.figures = e.figures ∧ e'.ring = e.ring ∧ (newestEntries e.ring period = [] → e' = e)
      ∧ (newestEntries e.ring period ≠ [] →
          e'.correctionFull = reportCorrection overload e.correctionFull
            ((full : Int) - referenceLevel ((newestEntries e.ring period).map (·.full)))
          ∧ (lf = none → e'.correctionLf = e.correctionLf)
          ∧ ∀ l, lf = some l →
              e'.correctionLf = reportCorrection overload e.correctionLf
                ((l : Int) - referenceLevel ((newestEntries e.ring period).map (·.lf)))) := by
  dsimp only
  unfold moveCorrections
  dsimp only
  split
  · rename_i h
    exact ⟨rfl, rfl, fun _ => rfl, fun hn => (hn (List.isEmpty_iff.1 h)).elim⟩
  · rename_i h
    refine ⟨rfl, rfl, fun hn => (h (List.isEmpty_iff.2 hn)).elim, fun _ => ⟨rfl, fun hl => ?_, fun l hl => ?_⟩⟩
      <;> rw [hl]

theorem newestEntries_eq_nil {ring : List HistoryEntry} {period : Nat} (h : 1 ≤ period) :
    newestEntries ring period = [] ↔ ring = [] := by
  rw [newestEntries, List.drop_eq_nil_iff, ← List.length_eq_zero_iff]
  omega

/-- Settles O19: a report dropped, and one accepted with what it does to its monitor and the corrections. -/
theorem monitorReportIsTakenOrDropped : Obligations.MonitorReportIsTakenOrDropped := by
  unfold Obligations.MonitorReportIsTakenOrDropped
  intro tag id period flags full lf s h
  rw [exec_request h (c := .monitorReport tag id period flags full lf) (r := .monitorReport id period flags full lf)
    rfl nofun, State.takeRequest]
  refine ⟨fun hout => ?_, fun m b hid hp1 hp80 hfull hlf => ?_⟩
  · rw [State.takeReport_of_range]
    rw [← Bool.not_eq_true, reportInRange_iff]
    rintro ⟨hid, hperiod, hlevel, hlf⟩
    rcases hout with hout | hout | hout | hout | hout | ⟨l, rfl, hl⟩
    · omega
    · omega
    · omega
    · omega
    · omega
    · exact absurd (hlf l.toNat rfl) (by omega)
  have hrange : reportInRange id.toNat period.toNat full.toNat (lf.map (·.toNat)) = true := by
    rw [reportInRange_iff]
    refine ⟨by omega, ⟨hp1, hp80⟩, hfull, fun l hl => ?_⟩
    obtain ⟨w, hw, rfl⟩ := Option.map_eq_some_iff.1 hl
    exact hlf w hw
  rw [State.takeReport_of_monitor hid hrange]
  refine ⟨fun hstate => by rw [if_pos hstate], fun hstate hboundary => ?_⟩
  rw [if_neg hstate, hboundary]
  have hwrites := s.refreshMonitor_writes m
  have hmu := s.refreshMonitor_mu m
  have hrecord : ({ s.be.monitors[m] with state := .live, silence := 0 } : Monitor) = ⟨.live, some b, 0⟩ := by
    rw [← hboundary]
  rw [hrecord] at hwrites
  have hlive : s.be.monitors[m].state = .live → (s.refreshMonitor m).mu = s.mu := fun hl => by rw [hmu, hl]
  have hunheard : s.be.monitors[m].state = .unheard →
      (s.refreshMonitor m).mu = (s.raise .monitorLive false (some (m.val + 1)) 1).mu := fun hl => by rw [hmu, hl]
  have hstale : s.be.monitors[m].state = .stale →
      (s.refreshMonitor m).mu = (s.raise .monitorLive false (some (m.val + 1)) 2).mu := fun hl => by rw [hmu, hl]
  have halerts : (s.refreshMonitor m).mu = { s.mu with
      alerts := (s.refreshMonitor m).mu.alerts, alertsLost := (s.refreshMonitor m).mu.alertsLost } := by
    rw [hmu]
    split <;> rfl
  generalize hu : s.refreshMonitor m = u at *
  cases hwind : flags.getLsbD 0 with
  | true =>
    refine ⟨u, rfl, ?_, by rw [hwrites], hlive, fun hl => State.alertsRaised_raise (hunheard hl),
      fun hl => State.alertsRaised_raise (hstale hl), fun b' _ => by rw [hwrites], fun _ => by rw [hwrites], nofun⟩
    rw [hwrites, ← halerts]
  | false =>
    simp only [Bool.false_eq_true, if_false]
    refine ⟨_, rfl, ?_, ?_, hlive, fun hl => State.alertsRaised_raise (hunheard hl),
      fun hl => State.alertsRaised_raise (hstale hl), fun b' hb' => ?_, nofun, fun e he _ => ?_⟩
    · rw [State.correctBoundary, ← halerts]
      rw [hwrites]
    · rw [State.correctBoundary, hwrites]
    · rw [State.correctBoundary, hwrites]
      exact vector_set_other _ _ _ _ hb'
    · obtain ⟨hfigures, hring, hempty, hmoved⟩ :=
        moveCorrections_writes e period.toNat (flags.getLsbD 1) full.toNat (lf.map (·.toNat))
      refine ⟨_, ?_, hfigures, hring, fun hr => hempty ((newestEntries_eq_nil hp1).2 hr), fun hr => ?_⟩
      · rw [State.correctBoundary, hwrites]
        dsimp only
        rw [vector_set_self, he]
        rfl
      · obtain ⟨h1, h2, h3⟩ := hmoved fun hn => hr ((newestEntries_eq_nil hp1).1 hn)
        exact ⟨h1, fun hl => h2 (by rw [hl]; rfl), fun l hl => h3 l.toNat (by rw [hl]; rfl)⟩

/-- A step of the part itself that is due. -/
theorem State.within_of_due {s : State} (h : s.supply ≠ .off) {due : Bool} (hd : due = true) (f : State → State) :
    s.within due f = .next (f s) := by
  rw [State.within, if_pos ⟨h, hd⟩]

theorem exec_monitorStale_of_due {s : State} (h : s.supply ≠ .off) {m : Fin 12} (hm : m ∈ s.due.stale) :
    exec (.monitorStale (m.val + 1)) s = .next (s.makeStale m) := by
  have hlt : 1 ≤ m.val + 1 ∧ m.val + 1 ≤ 12 := by omega
  simp only [exec, execMonitorStale]
  rw [dif_pos hlt]
  exact State.within_of_due h (by simpa using hm) _

theorem exec_trip_of_due {s : State} (h : s.supply ≠ .off) {z : Fin 8} (hz : z ∈ s.due.trips) :
    exec (.trip z.val) s = .next (s.tripZone z) := by
  simp only [exec, execTrip]
  rw [dif_pos z.isLt]
  exact State.within_of_due h (by simpa using hz) _

theorem exec_enterFree_of_due {s : State} (h : s.supply ≠ .off) {z : Fin 8} (hz : z ∈ s.due.frees) :
    exec (.enterFree z.val) s = .next (s.freeZone z) := by
  simp only [exec, execEnterFree]
  rw [dif_pos z.isLt]
  exact State.within_of_due h (by simpa using hz) _

/-- Settles O20: the fall of a monitor that is due. -/
theorem monitorFallsStale : Obligations.MonitorFallsStale := by
  unfold Obligations.MonitorFallsStale
  intro s m b h hm hb
  refine ⟨_, exec_monitorStale_of_due h hm, rfl, rfl, rfl, ?_⟩
  have hdetail : optWord (s.be.monitors[m].boundary.map (·.val)) = natWord b.val := by rw [hb]; rfl
  rw [← hdetail]
  exact State.alertsRaised_raise rfl

/-! ### Zones -/

/-- Settles O21: an entry into FREE neither makes a zone TRIPPED nor ends it, so the TRIP line stays. -/
theorem heldZoneEntersFree : Obligations.HeldZoneEntersFree := by
  unfold Obligations.HeldZoneEntersFree
  intro s z h hz hhold hline
  have hfree : s.freeZone z = { s with
      zc := { s.zc with
        zones := s.zc.zones.set z { s.zc.zones[z] with state := .free, releaseCount := 0, floorEpisode := false } }
      due := { s.due with frees := s.due.frees.filter (· != z) } } := by
    rw [State.freeZone]
    dsimp only
    rw [if_pos hhold]
    exact State.setZone_line (s := { s with due := { s.due with frees := s.due.frees.filter (· != z) } }) hline
      ⟨nofun, fun ht => by cases hhold.symm.trans ht⟩
  rw [exec_enterFree_of_due h hz, hfree]
  exact ⟨_, rfl, rfl, rfl, rfl⟩

/-- The state that a zone's highest cause gives it, and what leaves it without one (R94). -/
inductive Rung (enabled stop silent : Bool) (c : Controller) : Prop
  | off (he : enabled = false) (state : c.state = .off)
  | stopped (he : enabled = true) (hs : stop = true) (state : c.state = .stopped)
  | tripped (he : enabled = true) (hs : stop = false) (ht : c.tripHold = true) (state : c.state = .tripped)
  | muted (he : enabled = true) (hs : stop = false) (ht : c.tripHold = false) (hm : c.muted = true)
      (state : c.state = .muted)
  | silent (he : enabled = true) (hs : stop = false) (ht : c.tripHold = false) (hm : c.muted = false)
      (hq : silent = true) (state : c.state = .silent)
  | sounding (he : enabled = true) (hs : stop = false) (ht : c.tripHold = false) (hm : c.muted = false)
      (hq : silent = false) (state : c.state.silencing = false)

/-- A resolved zone stands where its causes put it. -/
theorem State.HoldsResolved.rung {s : State} {z : Fin 8} {c : Controller} (h : s.HoldsResolved z c) :
    Rung (zoneItem s.ps.working z).enabled s.stopCause (silentCause s.ps.working s.tb.limits z) c := by
  unfold State.HoldsResolved silencingCause at h
  cases he : (zoneItem s.ps.working z).enabled with
  | false => simp only [he] at h; exact .off rfl h.1
  | true =>
  cases hs : s.stopCause with
  | true => simp only [he, hs] at h; exact .stopped rfl rfl h.1
  | false =>
  cases ht : c.tripHold with
  | true => simp only [he, hs, ht] at h; exact .tripped rfl rfl ht h.1
  | false =>
  cases hm : c.muted with
  | true => simp only [he, hs, ht, hm] at h; exact .muted rfl rfl ht hm h.1
  | false =>
  cases hq : silentCause s.ps.working s.tb.limits z with
  | true => simp only [he, hs, ht, hm, hq] at h; exact .silent rfl rfl ht hm rfl h.1
  | false => simp only [he, hs, ht, hm, hq] at h; exact .sounding rfl rfl ht hm rfl h.1

theorem State.ZonesResolved.rung {s : State} (h : s.ZonesResolved) (z : Fin 8) :
    Rung (zoneItem s.ps.working z).enabled s.stopCause (silentCause s.ps.working s.tb.limits z) s.zc.zones[z] :=
  State.HoldsResolved.rung (h z).2

/-- MUTE ZONE leaves a zone in a state as high as MUTED there, and mutes any other (R112). -/
theorem State.recordMuted_true {s : State} {z : Fin 8} {c : Controller}
    (h : Rung (zoneItem s.ps.working z).enabled s.stopCause (silentCause s.ps.working s.tb.limits z) c) :
    (c.state = .off ∨ c.state = .stopped ∨ c.state = .tripped ∨ c.state = .muted →
        s.recordMuted true z c = { c with muted := true })
      ∧ (c.state = .silent ∨ c.state.silencing = false →
        s.recordMuted true z c = { c with
          muted := true, state := .muted, attenuation := (zoneItem s.ps.working z).maximum
          persistence := 0, releaseCount := 0, floorEpisode := false, disturbed := true }) := by
  have hmoves (he : (zoneItem s.ps.working z).enabled = true) (hs : s.stopCause = false) (ht : c.tripHold = false)
      (hstate : c.state ≠ .muted) : s.recordMuted true z c = { c with
          muted := true, state := .muted, attenuation := (zoneItem s.ps.working z).maximum
          persistence := 0, releaseCount := 0, floorEpisode := false, disturbed := true } := by
    simp [State.recordMuted, State.resolved, resolveZone, silencingCause, he, hs, ht, hstate, Controller.silence]
  cases h with
  | off he state => simp [State.recordMuted, State.resolved, resolveZone, silencingCause, he, state,
    ZoneState.silencing]
  | stopped he hs state =>
    simp [State.recordMuted, State.resolved, resolveZone, silencingCause, he, hs, state, ZoneState.silencing]
  | tripped he hs ht state =>
    simp [State.recordMuted, State.resolved, resolveZone, silencingCause, he, hs, ht, state, ZoneState.silencing]
  | muted he hs ht hm state =>
    simp [State.recordMuted, State.resolved, resolveZone, silencingCause, he, hs, ht, state, ZoneState.silencing]
  | silent he hs ht hm hq state =>
    refine ⟨fun hin => ?_, fun _ => hmoves he hs ht (by rw [state]; nofun)⟩
    simp [state] at hin
  | sounding he hs ht hm hq state =>
    refine ⟨fun hin => ?_, fun _ => hmoves he hs ht fun hn => by rw [hn] at state; cases state⟩
    rcases hin with hin | hin | hin | hin <;> rw [hin] at state <;> cases state

/-- UNMUTE ZONE moves a MUTED zone alone (R113). -/
theorem State.recordMuted_false {s : State} {z : Fin 8} {c : Controller}
    (h : Rung (zoneItem s.ps.working z).enabled s.stopCause (silentCause s.ps.working s.tb.limits z) c) :
    (c.state ≠ .muted → s.recordMuted false z c = { c with muted := false })
      ∧ (c.state = .muted →
        s.recordMuted false z c = { c with
          muted := false, state := if silentCause s.ps.working s.tb.limits z then .silent else .hold
          attenuation := (zoneItem s.ps.working z).maximum
          persistence := 0, releaseCount := 0, floorEpisode := false, disturbed := true }) := by
  cases h with
  | off he state => simp [State.recordMuted, State.resolved, resolveZone, silencingCause, he, state]
  | stopped he hs state => simp [State.recordMuted, State.resolved, resolveZone, silencingCause, he, hs, state]
  | tripped he hs ht state => simp [State.recordMuted, State.resolved, resolveZone, silencingCause, he, hs, ht, state]
  | muted he hs ht hm state =>
    refine ⟨fun hn => (hn state).elim, fun _ => ?_⟩
    cases hq : silentCause s.ps.working s.tb.limits z <;>
      simp [State.recordMuted, State.resolved, resolveZone, silencingCause, he, hs, ht, hq, state, ZoneState.silencing,
        Controller.silence, Controller.release]
  | silent he hs ht hm hq state =>
    simp [State.recordMuted, State.resolved, resolveZone, silencingCause, he, hs, ht, hq, state]
  | sounding he hs ht hm hq state =>
    refine ⟨fun _ => ?_, fun hn => by rw [hn] at state; cases state⟩
    simp [State.recordMuted, State.resolved, resolveZone, silencingCause, he, hs, ht, hq, state]

/-- A mute request makes no zone TRIPPED and ends no trip. -/
theorem State.recordMuted_tripped_iff {s : State} {z : Fin 8} {c : Controller}
    (h : Rung (zoneItem s.ps.working z).enabled s.stopCause (silentCause s.ps.working s.tb.limits z) c) (b : Bool) :
    (s.recordMuted b z c).state = .tripped ↔ c.state = .tripped := by
  cases b with
  | true =>
    obtain ⟨hkeep, hmove⟩ := State.recordMuted_true h
    by_cases hin : c.state = .off ∨ c.state = .stopped ∨ c.state = .tripped ∨ c.state = .muted
    · rw [hkeep hin]
    · rw [hmove (by revert hin; cases c.state <;> simp [ZoneState.silencing])]
      exact ⟨nofun, fun ht => (hin (.inr (.inr (.inl ht)))).elim⟩
  | false =>
    obtain ⟨hkeep, hmove⟩ := State.recordMuted_false h
    by_cases hm : c.state = .muted
    · rw [hmove hm, hm]
      cases silentCause s.ps.working s.tb.limits z <;> simp
    · rw [hkeep hm]

/-- A mute request in a resolved part writes one zone's record and leaves the TRIP line (R112, R113). -/
theorem State.setZone_recordMuted {s : State} (h : s.ZonesResolved) (hl : s.TripLineFollows) (z : Fin 8) (b : Bool) :
    s.setZone z (s.recordMuted b z s.zc.zones[z])
      = { s with zc := { s.zc with zones := s.zc.zones.set z (s.recordMuted b z s.zc.zones[z]) } } :=
  State.setZone_line hl (State.recordMuted_tripped_iff (h.rung z) b)

/-! ### A mute request and a published set -/

theorem State.intervalNow_due (s : State) :
    s.intervalNow.due.swap = s.due.swap ∧ s.intervalNow.due.restart = s.due.restart := by
  have hkeep := s.publish.formEstimates.countSilence.accumulate.takeSet_keeps
  have hnow : s.intervalNow = s.publish.formEstimates.countSilence.accumulate.takeSet.countInterval := rfl
  rw [hnow, hkeep]
  exact ⟨rfl, rfl⟩

theorem State.settle_of_swap {s : State} (h : s.due.swap = false) : s.settle = s.finishSet := by
  rw [State.settle]
  exact State.finishSwap_of_none (by rw [State.finishSet_due]; exact h)

theorem State.intervalComplete_of_frames {s : State} (h : ∀ y : Fin 8, s.mb.meters[y].frames = 6000) :
    s.intervalComplete = true := (s.intervalComplete_iff).2 h

/-- An interval end with nothing due before it (R40). -/
theorem exec_intervalEnd_of_complete {s : State} (h : s.Awake) (hd : s.due.tb = none) (hc : s.intervalComplete = true) :
    exec .intervalEnd s = .next s.intervalNow := by
  show s.within s.intervalComplete (fun s => s.settleAll.intervalNow) = _
  rw [State.within_of_due h.1 hc, State.settleAll_of_settled h.2 hd]

/-- What an interval end leaves for the requests that come after it (R40, R46). -/
theorem State.intervalNow_beside (s : State) :
    s.intervalNow.tb.setting = s.tb.setting ∧ s.intervalNow.tb.limits = s.tb.limits ∧ s.intervalNow.ps = s.ps
      ∧ s.intervalNow.zc.standing = s.zc.standing ∧ s.intervalNow.mu.replies = s.mu.replies := by
  have hkeep := s.publish.formEstimates.countSilence.accumulate.takeSet_keeps
  have hnow : s.intervalNow = s.publish.formEstimates.countSilence.accumulate.takeSet.countInterval := rfl
  rw [hnow, hkeep]
  exact ⟨rfl, rfl, rfl, rfl, rfl⟩

theorem State.stopCause_of_outer {s t : State} (h : t.outer = s.outer) : t.stopCause = s.stopCause := by
  simp only [State.outer, Prod.mk.injEq] at h
  obtain ⟨-, hsupply, -, hstop, -⟩ := h
  rw [State.stopCause, State.stopCause, hsupply, hstop]

/-- A published set taken to its end: what it leaves beside the zones, and a part that listened listens (R40, R64,
R102, R105). -/
theorem State.intervalNow_finishSet {s : State} (h : s.Listening) :
    let t := s.intervalNow.finishSet
    t.Listening ∧ t.ps = s.ps ∧ t.stopCause = s.stopCause ∧ t.tb.limits = s.tb.limits ∧ t.zc.standing
      = s.zc.standing := by
  intro t
  have houter : t.outer = s.outer := (outer_finishSet _).trans (outer_intervalNow s)
  have hstop := State.stopCause_of_outer houter
  have hbeside : t.besideSet = s.intervalNow.besideSet := s.intervalNow.finishSet_beside
  obtain ⟨hsetting, hlimits, hps, hstanding, hreplies⟩ := s.intervalNow_beside
  obtain ⟨hswap, -⟩ := s.intervalNow_due
  have hdue : t.due = _ := s.intervalNow.finishSet_due
  simp only [State.besideSet, Prod.mk.injEq] at hbeside
  simp only [State.outer, Prod.mk.injEq] at houter
  obtain ⟨-, hsupply, -, -, -, -, hinbound⟩ := houter
  obtain ⟨-, htb, -, hps', hstanding', hreplies'⟩ := hbeside
  obtain ⟨⟨hon, -, -, -, hsettled⟩, hempty, hroom⟩ := h
  refine ⟨⟨⟨by rw [hsupply]; exact hon, by rw [hdue], by rw [hdue], by rw [hdue],
    by rw [hdue]; exact hswap.trans hsettled⟩,
    hinbound.trans hempty, ?_⟩, hps'.trans hps, hstop, by rw [htb]; exact hlimits, hstanding'.trans hstanding⟩
  rw [State.repliesOwed, hreplies', hreplies, hps', hps, htb, hsetting]
  exact hroom

/-- ZC is its zones and standings, where the TRIP line follows the zones. -/
theorem State.zc_eq {s t : State} (hs : s.TripLineFollows) (ht : t.TripLineFollows)
    (hzones : ∀ y : Fin 8, s.zc.zones[y] = t.zc.zones[y]) (hstanding : s.zc.standing = t.zc.standing) :
    s.zc = t.zc := by
  have hvector : s.zc.zones = t.zc.zones := Vector.ext fun i hi => hzones ⟨i, hi⟩
  have hline : s.zc.tripLine = t.zc.tripLine := by
    rw [Bool.eq_iff_iff]
    exact hs.trans ((exists_congr fun y => by rw [hzones y]).trans ht.symm)
  exact (Zc.mk.injEq ..).mpr ⟨hvector, hline, hstanding⟩

/-- A command that writes one zone's mute flag and an interval end leave the same zones in either order, once what is
due
of the set has been taken (R100, R112, R113). -/
theorem State.intervalEnd_mute_comm {s : State} (h : s.Listening) (hz : s.ZonesResolved) (hl : s.TripLineFollows)
    (hd : s.due.tb = none) (hc : s.intervalComplete = true) {c : Instr} {z : Fin 8} {b : Bool} {r : State → Reply}
    (hexec : ∀ u : State, u.Listening →
      exec c u = .next ((u.setZone z (u.recordMuted b z u.zc.zones[z])).queueReply (r u)))
    (hsettle : ∀ u : State, u.supply ≠ .off → exec c u = exec c u.settle) :
    ∃ t u t' u', exec c s = .next t ∧ exec .intervalEnd t = .next u
      ∧ exec .intervalEnd s = .next t' ∧ exec c t' = .next u' ∧ u.settle.zc = u'.zc := by
  have hmute := State.setZone_recordMuted hz hl z b
  have hcs := hexec s h
  rw [hmute] at hcs
  generalize hr : r s = reply at hcs
  generalize ht : (State.queueReply _ reply : State) = t at hcs
  have htawake : t.Awake := by subst ht; exact h.1
  have htu : exec .intervalEnd t = .next t.intervalNow :=
    exec_intervalEnd_of_complete htawake (by subst ht; exact hd) (by subst ht; exact hc)
  have hst : exec .intervalEnd s = .next s.intervalNow := exec_intervalEnd_of_complete h.1 hd hc
  obtain ⟨hlisten, hps, hstop, hlimits, hstanding⟩ := State.intervalNow_finishSet h
  have hon : s.intervalNow.supply ≠ .off := by
    have houter := outer_intervalNow s
    simp only [State.outer, Prod.mk.injEq] at houter
    rw [houter.2.1]
    exact h.1.1
  have hct : exec c s.intervalNow = _ := (hsettle _ hon).trans
    ((congrArg (exec c) (State.settle_of_swap (s.intervalNow_due.1.trans h.1.2.2.2.2))).trans (hexec _ hlisten))
  refine ⟨t, t.intervalNow, s.intervalNow, _, hcs, htu, hst, hct, ?_⟩
  have htline : t.TripLineFollows := (exec_changes hcs).keeps State.tripLineFollows_change hl
  have huline : t.intervalNow.TripLineFollows := (exec_changes htu).keeps State.tripLineFollows_change htline
  have htswap : t.intervalNow.due.swap = false := t.intervalNow_due.1.trans htawake.2.2.2.2
  have htbeside := t.intervalNow.finishSet_beside
  simp only [State.besideSet, Prod.mk.injEq] at htbeside
  obtain ⟨-, -, -, -, htstanding, -⟩ := htbeside
  refine State.zc_eq ((changes_settle _).keeps State.tripLineFollows_change huline) (State.setZones_follows _ _)
    (fun y => ?_) ?_
  · rw [State.settle_of_swap htswap, State.intervalNow_zone htawake.2]
    have hsame : ∀ record, t.publish.formEstimates.countSilence.accumulate.recordSettled y record
        = s.publish.formEstimates.countSilence.accumulate.recordSettled y record := by
      subst ht
      exact fun _ => rfl
    rw [hsame]
    show _ = (Vector.set _ z _)[y]
    by_cases hy : y = z
    · subst hy
      rw [vector_set_self, State.intervalNow_zone h.1.2]
      have hrecord : t.zc.zones[y] = s.recordMuted b y s.zc.zones[y] := by
        subst ht
        exact vector_set_self _ _ _
      have hflag : ∀ record, s.intervalNow.finishSet.recordMuted b y record = s.recordMuted b y record := by
        intro record
        rw [State.recordMuted, State.resolved, hps, hstop, hlimits]
        rfl
      rw [hrecord, hflag]
      exact (State.recordMuted_settled (s := s.publish.formEstimates.countSilence.accumulate) b (hz y).1 (hz y).2).symm
    · rw [vector_set_other _ _ _ _ hy, State.intervalNow_zone h.1.2]
      have hrecord : t.zc.zones[y] = s.zc.zones[y] := by
        subst ht
        exact vector_set_other _ _ _ _ hy
      rw [hrecord]
  · rw [State.settle_of_swap htswap, htstanding, t.intervalNow_beside.2.2.2.1]
    show t.zc.standing = s.intervalNow.finishSet.zc.standing
    rw [hstanding]
    subst ht
    rfl

theorem natWord_toNat (b : Bool) : natWord b.toNat = if b then 1 else 0 := by cases b <;> rfl

theorem exec_muteZone_of_listening {s : State} (h : s.Listening) {zone : Word16} {z : Fin 8} (hz : zone.toNat = z.val)
    (tag : Byte) :
    exec (.muteZone tag zone) s
      = .next ((s.setZone z (s.recordMuted true z s.zc.zones[z])).queueReply
          { kind := 0x09, tag := tag, result := .done, detail := if s.zc.zones[z].muted then 1 else 0,
            data := [] }) := by
  rw [exec_request h (c := .muteZone tag zone) (r := .muteZone zone) rfl nofun, State.takeRequest, State.takeMute,
    State.onZone_of_eq hz, ← natWord_toNat]
  rfl

theorem exec_unmuteZone_of_listening {s : State} (h : s.Listening) {zone : Word16} {z : Fin 8} (hz : zone.toNat = z.val)
    (tag : Byte) :
    exec (.unmuteZone tag zone) s
      = .next ((s.setZone z (s.recordMuted false z s.zc.zones[z])).queueReply
          { kind := 0x0A, tag := tag, result := .done, detail := if s.zc.zones[z].muted then 1 else 0,
            data := [] }) := by
  rw [exec_request h (c := .unmuteZone tag zone) (r := .unmuteZone zone) rfl nofun, State.takeRequest, State.takeUnmute,
    State.onZone_of_eq hz, ← natWord_toNat]
  rfl

/-- Settles O17: the mute flag written and the zone resolved, by its rung; and the order with a published set. -/
theorem muteAndUnmuteZone : Obligations.MuteAndUnmuteZone := by
  unfold Obligations.MuteAndUnmuteZone
  intro tag zone s h
  refine ⟨fun hz => ⟨?_, ?_⟩, fun z hz hres hline => ⟨?_, ?_, fun hd hm c hc => ?_⟩⟩
  · rw [exec_request h (c := .muteZone tag zone) (r := .muteZone zone) rfl nofun, State.takeRequest, State.takeMute,
      State.onZone_of_ge hz]
    rfl
  · rw [exec_request h (c := .unmuteZone tag zone) (r := .unmuteZone zone) rfl nofun, State.takeRequest,
      State.takeUnmute, State.onZone_of_ge hz]
    rfl
  · obtain ⟨hkeep, hmove⟩ := State.recordMuted_true (hres.rung z)
    refine ⟨_, ?_, hkeep, hmove⟩
    rw [exec_muteZone_of_listening h hz, State.setZone_recordMuted hres hline]
    rfl
  · obtain ⟨hkeep, hmove⟩ := State.recordMuted_false (hres.rung z)
    refine ⟨_, ?_, hkeep, hmove⟩
    rw [exec_unmuteZone_of_listening h hz, State.setZone_recordMuted hres hline]
    rfl
  · have hcomplete := State.intervalComplete_of_frames hm
    simp only [List.mem_cons, List.not_mem_nil, or_false] at hc
    rcases hc with rfl | rfl
    · exact State.intervalEnd_mute_comm h hres hline hd hcomplete
        (fun u hu => exec_muteZone_of_listening hu hz tag) fun u hu => State.outside_settle hu fun u => u.deliver _
    · exact State.intervalEnd_mute_comm h hres hline hd hcomplete
        (fun u hu => exec_unmuteZone_of_listening hu hz tag) fun u hu => State.outside_settle hu fun u => u.deliver _

/-- A TRIPPED zone whose hold is cleared (R106). -/
theorem resolveZone_of_trip {bank : Bank} {stop : Bool} {limits : Vector (Option LimitEntry) 6} {z : Fin 8}
    {c : Controller} (h : Rung (zoneItem bank z).enabled stop (silentCause bank limits z) c)
      (hstate : c.state = .tripped) :
    resolveZone bank stop limits z { c with tripHold := false }
      = { c with
          tripHold := false
          state := if c.muted then .muted else if silentCause bank limits z then .silent else .hold
          attenuation := (zoneItem bank z).maximum
          persistence := 0, releaseCount := 0, floorEpisode := false, disturbed := true } := by
  cases h with
  | off he state => cases hstate.symm.trans state
  | stopped he hs state => cases hstate.symm.trans state
  | muted he hs ht hm state => cases hstate.symm.trans state
  | silent he hs ht hm hq state => cases hstate.symm.trans state
  | sounding he hs ht hm hq state => rw [hstate] at state; cases state
  | tripped he hs ht state =>
    cases c.muted <;> cases hq : silentCause bank limits z <;>
      simp [resolveZone, silencingCause, he, hs, hq, state, Controller.silence, Controller.release,
        ZoneState.silencing]

/-- Settles O18: the trip hold cleared and the zone resolved, by its rung. -/
theorem clearTripReleasesTheZone : Obligations.ClearTripReleasesTheZone := by
  unfold Obligations.ClearTripReleasesTheZone
  intro tag zone s h
  rw [exec_request h (c := .clearTrip tag zone) (r := .clearTrip zone) rfl nofun, State.takeRequest,
    State.takeClearTrip]
  refine ⟨fun hz => by rw [State.onZone_of_ge hz]; rfl, fun z hz hres => ⟨fun hstate => ?_, fun hstate => ?_⟩⟩
  · rw [State.onZone_of_eq hz]
    dsimp only
    rw [if_neg hstate]
    rfl
  · rw [State.onZone_of_eq hz]
    dsimp only
    rw [if_pos hstate]
    have hrung := hres.rung z
    refine ⟨_, _, rfl, rfl, rfl, ?_, State.setZones_follows _ _⟩
    exact resolveZone_of_trip hrung hstate

/-- Resolution touches no latch. -/
theorem resolveZone_tripLatch (bank : Bank) (stop : Bool) (limits : Vector (Option LimitEntry) 6) (z : Fin 8)
    (c : Controller) : (resolveZone bank stop limits z c).tripLatch = c.tripLatch := by
  unfold resolveZone
  repeat' split
  all_goals rfl

/-- A trip writes its zone, with the TRIP line, and what MU raises (R105). -/
theorem State.tripZone_writes (s : State) (z : Fin 8) :
    s.tripZone z
      = { ({ s with due := { s.due with trips := s.due.trips.filter (· != z) } } : State).setZone z
            (s.recordTripped z s.zc.zones[z]) with mu := (s.tripZone z).mu } := by
  unfold State.tripZone
  dsimp only
  split <;> rfl

theorem State.tripZone_mu (s : State) (z : Fin 8) :
    (s.tripZone z).mu
      = if s.stopCause then s.mu else (s.raise .trip true (some z.val) (intWord s.mb.published[z].peak)).mu := by
  unfold State.tripZone
  dsimp only
  split
  · rename_i held
    rw [if_pos (show s.stopCause = true from held)]
    rfl
  · rename_i held
    rw [if_neg (show ¬ s.stopCause = true from held)]
    rfl

/-- Settles O22: the trip hold set and the zone resolved, as `Resolved` puts it. -/
theorem zoneTrips : Obligations.ZoneTrips := by
  unfold Obligations.ZoneTrips
  intro s z h hz
  have hwrites := s.tripZone_writes z
  have hmu := s.tripZone_mu z
  have hzone : (s.tripZone z).zc.zones[z] = s.recordTripped z s.zc.zones[z] := by
    rw [State.tripZone_zones, vector_set_self]
  have hresolved : Resolved s.ps.working s.stopCause s.tb.limits z
      { s.zc.zones[z] with
        tripHold := true, persistence := 0, tripLatch := s.zc.zones[z].tripLatch || !s.stopCause }
      (s.tripZone z).zc.zones[z] := by
    rw [hzone, State.recordTripped, State.latchesHeld_eq]
    exact resolveZone_resolved _ _ _ _ _
  have hlatch : (s.tripZone z).zc.zones[z].tripLatch = (s.zc.zones[z].tripLatch || !s.stopCause) := by
    rw [hzone, State.recordTripped, State.resolved, resolveZone_tripLatch, State.latchesHeld_eq]
  have hresolved' := hresolved
  obtain ⟨-, hstopped, hnormal⟩ := hresolved'
  refine ⟨s.tripZone z, exec_trip_of_due h hz, ?_, s.tripZone_due z ▸ rfl, fun z' hz' => ?_, ?_, hresolved,
    fun hstop => State.alertsRaised_raise (by rw [hmu, hstop]; rfl), fun he hstop hstate => ?_, fun hstop => ?_⟩
  · have halerts : (s.tripZone z).mu = { s.mu with
        alerts := (s.tripZone z).mu.alerts, alertsLost := (s.tripZone z).mu.alertsLost } := by
      rw [hmu]
      split <;> rfl
    rw [← halerts, hwrites]
    rfl
  · rw [State.tripZone_zones, vector_set_other _ _ _ _ hz']
  · rw [hwrites]
    exact State.setZones_follows _ _
  · obtain ⟨htripped, -⟩ := hnormal he hstop
    have hentry := (htripped rfl).2 hstate
    rw [hentry]
    simp [hstop]
  · refine ⟨by rw [hlatch, hstop]; simp, by rw [hmu, hstop]; rfl, fun he => ?_⟩
    obtain ⟨hsame, hentry⟩ := hstopped he hstop
    by_cases hstate : s.zc.zones[z].state = .stopped
    · rw [hsame hstate]
      refine ⟨rfl, hstate, rfl, fun hres => ?_⟩
      have hholds := (hres z).2
      simp only [silencingCause, he, hstop] at hholds
      exact hholds.2
    · rw [hentry hstate]
      exact ⟨rfl, rfl, rfl, fun _ => rfl⟩

end Sys2Proof.Machine
end

section
/-! SUPPORT. The requests of the plan store and the completions of its operations (R123 to R146). -/

namespace Sys2Proof.Machine

/-! ### BUSY, and the judging of an idle store -/

theorem State.whenIdle_of_some {s : State} {op : Operation} (h : s.ps.operation = some op) (k t : Byte)
    (judged : State) :
    s.whenIdle k t judged = s.answer k t .busy (opCode op.kind) := by
  rw [State.whenIdle, h]

theorem State.whenIdle_of_none {s : State} (h : s.ps.operation = none) (k t : Byte) (judged : State) :
    s.whenIdle k t judged = judged := by
  rw [State.whenIdle, h]

/-- A request that is judged when the store is idle draws BUSY when it is not (R123). -/
theorem exec_busy {s : State} (h : s.Listening) {op : Operation} (ho : s.ps.operation = some op) {c : Instr}
    {tag k : Byte}
    {r : Request} {judged : State} (hc : messageOf c = some (encodeRequest tag r))
    (hr : s.takeRequest tag r = s.whenIdle k tag judged)
    (hvalues : ∀ first values, r = .writeSlots first values → 1 ≤ values.length ∧ values.length ≤ 8) :
    exec c s = .next (s.queueReply
      { kind := k, tag := tag, result := .busy, detail := natWord (opCode op.kind), data := [] }) := by
  rw [exec_request h hc hvalues, hr, State.whenIdle_of_some ho]
  rfl

/-- Settles O23: each of the nine requests is judged when the store is idle. -/
theorem planRequestsDrawBusy : Obligations.PlanRequestsDrawBusy := by
  unfold Obligations.PlanRequestsDrawBusy
  intro tag s op h ho busy
  refine ⟨fun b p => exec_busy h ho (r := .readPage b p) rfl rfl nofun,
    fun b p => exec_busy h ho (r := .stagePage b p) rfl rfl nofun,
    fun f v h1 h8 => exec_busy h ho (r := .writeSlots f v) rfl rfl fun first values hv => ?_,
    exec_busy h ho (r := .commitPage) rfl rfl nofun, exec_busy h ho (r := .copyWorking) rfl rfl nofun,
    exec_busy h ho (r := .recallRetained) rfl rfl nofun, exec_busy h ho (r := .activate) rfl rfl nofun,
    exec_busy h ho (r := .cancelActivation) rfl rfl nofun, exec_busy h ho (r := .retain) rfl rfl nofun⟩
  cases hv
  exact ⟨h1, h8⟩

/-! ### READ PAGE and STAGE PAGE -/

theorem bankOf_of_lt {ps : Ps} {code : Nat} (h : code < 3) :
    bankOf ps code = some
      (if code = 0 then ps.retained else if code = 1 then ps.working else ps.shadow,
       if code = 0 then retainedCode ps.retainedState else if code = 1 then planStateCode ps.planState
       else shadowCode ps.shadowState) := by
  have hcode : code = 0 ∨ code = 1 ∨ code = 2 := by omega
  rcases hcode with rfl | rfl | rfl <;> rfl

theorem bankOf_of_ge {ps : Ps} {code : Nat} (h : 3 ≤ code) : bankOf ps code = none := by
  rw [bankOf, if_neg (by omega), if_neg (by omega), if_neg (by omega)]

/-- Settles O24: the cases of `State.judgeReadPage`. -/
theorem readPageReturnsThePage : Obligations.ReadPageReturnsThePage := by
  unfold Obligations.ReadPageReturnsThePage
  intro tag bank page s h ho
  rw [exec_request h (c := .readPage tag bank page) (r := .readPage bank page) rfl nofun, State.takeRequest,
    State.takeReadPage, State.whenIdle_of_none ho, State.judgeReadPage]
  refine ⟨fun hb => ?_, fun hb hp => ?_, fun p hb hp => ?_, fun hb => ?_⟩
  · rw [if_neg (show bank.toNat ≠ stagingBank by rw [stagingBank]; omega), bankOf_of_ge (by omega)]
    rfl
  · rw [if_neg (show bank.toNat ≠ stagingBank by rw [stagingBank]; omega), bankOf_of_lt hb]
    dsimp only
    rw [dif_neg (not_lt.2 hp)]
    rfl
  · obtain ⟨p, hlt⟩ := p
    dsimp only at hp
    subst hp
    rw [if_neg (show bank.toNat ≠ stagingBank by rw [stagingBank]; omega), bankOf_of_lt hb]
    dsimp only
    rw [dif_pos hlt]
    have hcode : bank.toNat = 0 ∨ bank.toNat = 1 ∨ bank.toNat = 2 := by omega
    rcases hcode with hcode | hcode | hcode <;> rw [hcode] <;> rfl
  · rw [if_pos (show bank.toNat = stagingBank from hb)]
    exact ⟨fun hst => by rw [hst]; rfl, fun st hst => by rw [hst]; rfl⟩

/-- Settles O25: the cases of `State.judgeStagePage`. -/
theorem stagePageLoadsThePage : Obligations.StagePageLoadsThePage := by
  unfold Obligations.StagePageLoadsThePage
  intro tag bank page s h ho
  rw [exec_request h (c := .stagePage tag bank page) (r := .stagePage bank page) rfl nofun, State.takeRequest,
    State.takeStagePage, State.whenIdle_of_none ho, State.judgeStagePage]
  refine ⟨fun hb => ?_, fun hb hp => ?_, fun hb hp hinvalid => ?_, fun p hb hp hvalid => ?_⟩
  · rw [bankOf_of_ge hb]
    rfl
  · rw [bankOf_of_lt hb]
    dsimp only
    rw [dif_neg (not_lt.2 hp)]
    rfl
  · rw [bankOf_of_lt (by omega)]
    dsimp only
    rw [dif_pos hp, if_pos ⟨hb, hinvalid⟩]
    rfl
  · obtain ⟨p, hlt⟩ := p
    dsimp only at hp
    subst hp
    rw [bankOf_of_lt hb]
    dsimp only
    rw [dif_pos hlt, if_neg fun hn => hvalid hn.1 hn.2]
    have hcode : bank.toNat = 0 ∨ bank.toNat = 1 ∨ bank.toNat = 2 := by omega
    rcases hcode with hcode | hcode | hcode <;> rw [hcode] <;> rfl

/-! ### WRITE SLOTS and COMMIT PAGE -/

/-- Settles O26: the cases of `State.judgeWriteSlots`, and what writing consecutive slots does to each. -/
theorem writeSlotsWritesWithinThePage : Obligations.WriteSlotsWritesWithinThePage := by
  unfold Obligations.WriteSlotsWritesWithinThePage
  intro tag first values s h ho h1 h8
  rw [exec_request h (c := .writeSlots tag first values) (r := .writeSlots first values) rfl
      (fun _ _ hv => by cases hv; exact ⟨h1, h8⟩), State.takeRequest,
    State.takeWriteSlots, State.whenIdle_of_none ho, State.judgeWriteSlots]
  refine ⟨fun hf => by rw [if_pos hf]; rfl, fun hf hst => ?_, fun st hf hst => ?_⟩
  · rw [if_neg (not_lt.2 hf), hst]
    rfl
  · rw [if_neg (not_lt.2 hf), hst]
    exact ⟨writeConsecutive st.slots first.toNat values, rfl,
      fun i v hv => writeConsecutive_written values st.slots first.toNat i v (by omega) hv,
      fun j hj => writeConsecutive_other values st.slots first.toNat j hj⟩

/-- Settles O27: the cases of `State.judgeCommit`, with the report of the page checks. -/
theorem commitPageStartsCommitting : Obligations.CommitPageStartsCommitting := by
  unfold Obligations.CommitPageStartsCommitting
  intro tag s h ho
  rw [exec_request h (c := .commitPage tag) (r := .commitPage) rfl nofun, State.takeRequest, State.takeCommit,
    State.whenIdle_of_none ho, State.judgeCommit]
  refine ⟨fun ha => by rw [if_pos ha]; rfl, fun ha hst => ?_,
    fun st ha hst => ⟨fun slot code hreport => ?_, fun hpass => ?_⟩⟩
  · rw [ha, hst]
    rfl
  · have hcheck : checkPage st.page.val st.slots = some ⟨st.page.val, slot, code⟩ :=
      (checkPage_some st.page.isLt st.slots ⟨st.page.val, slot, code⟩).2 ⟨rfl, hreport⟩
    rw [ha, hst]
    simp only [Bool.false_eq_true, if_false, State.commitStaged, hcheck]
    rfl
  · rw [ha, hst]
    simp only [Bool.false_eq_true, if_false, State.commitStaged, (checkPage_none st.page.isLt st.slots).2 hpass]
    rfl

/-! ### The timed requests, CANCEL ACTIVATION and ABORT -/

/-- Settles O28: the cases of the four requests. -/
theorem timedRequestsStartTheirOperation : Obligations.TimedRequestsStartTheirOperation := by
  unfold Obligations.TimedRequestsStartTheirOperation
  intro tag s h ho answer
  rw [exec_request h (c := .copyWorking tag) (r := .copyWorking) rfl nofun,
    exec_request h (c := .recallRetained tag) (r := .recallRetained) rfl nofun,
    exec_request h (c := .activate tag) (r := .activate) rfl nofun,
    exec_request h (c := .retain tag) (r := .retain) rfl nofun]
  simp only [State.takeRequest, State.takeCopy, State.takeRecall, State.takeActivate, State.takeRetain,
    State.whenIdle_of_none ho]
  refine ⟨fun ha => ⟨?_, ?_, fun hd => ?_⟩, fun ha => ?_, fun ha hr => ?_, fun ha hr => ?_, fun ha hr => ?_,
    fun hd => ?_,
    fun hd ha => ?_, fun hl => ?_, fun hn => ?_⟩
  · rw [if_pos ha]; rfl
  · rw [if_pos ha]; rfl
  · rw [if_neg hd, if_pos ha]; rfl
  · rw [if_neg (by rw [ha]; nofun)]; rfl
  · rw [if_neg (by rw [ha]; nofun), if_pos (by rw [hr]; nofun), hr]; rfl
  · rw [if_neg (by rw [ha]; nofun), if_pos (by rw [hr]; nofun), hr]; rfl
  · rw [if_neg (by rw [ha]; nofun), if_neg fun hn => hn hr]; rfl
  · rw [if_pos hd]; rfl
  · rw [if_neg hd, if_neg (by rw [ha]; nofun)]; rfl
  · rw [if_pos hl]; rfl
  · rw [if_neg (by rw [hn]; nofun)]; rfl

/-- Settles O29: the two cases of `State.takeCancel`. -/
theorem cancelActivationClearsThePending : Obligations.CancelActivationClearsThePending := by
  unfold Obligations.CancelActivationClearsThePending
  intro tag s h ho
  rw [exec_request h (c := .cancelActivation tag) (r := .cancelActivation) rfl nofun, State.takeRequest,
    State.takeCancel,
    State.whenIdle_of_none ho]
  exact ⟨fun ha => by rw [ha]; rfl, fun ha => by rw [ha]; rfl⟩

theorem bankSlot_setPage (bank : Bank) (p : Fin 11) (page : Page) (q i : Nat) :
    bankSlot (setPage bank p page) q i = bankSlot bank q i
      ∨ q = p.val ∧ bankSlot (setPage bank p page) q i = slotAt page i := by
  by_cases hq : q = p.val
  · refine .inr ⟨hq, ?_⟩
    subst hq
    simp [bankSlot, setPage]
  · refine .inl ?_
    simp [bankSlot, setPage, Ne.symm hq]

theorem slotAt_mixPage (stop p : Nat) (old new : Page) (i : Nat) :
    slotAt (mixPage stop p old new) i = slotAt old i ∨ slotAt (mixPage stop p old new) i = slotAt new i := by
  by_cases hi : i < 24
  · by_cases hw : Config.slotWritten stop p i = true
    · exact .inr (by simp [slotAt, mixPage, hi, hw])
    · exact .inl (by simp [slotAt, mixPage, hi, hw])
  · exact .inl (by simp [slotAt, show 24 ≤ i by omega])

/-- A stopped operation touches the retained bank, the shadow and their states alone (R145). -/
theorem stoppedBanks_writes (stop : Nat) (ps : Ps) (kind : OpKind) :
    stoppedBanks stop ps kind = { ps with
      retained := (stoppedBanks stop ps kind).retained, retainedState := (stoppedBanks stop ps kind).retainedState
      shadow := (stoppedBanks stop ps kind).shadow, shadowState := (stoppedBanks stop ps kind).shadowState } := by
  cases kind with
  | committing =>
    unfold stoppedBanks
    cases ps.staging <;> rfl
  | copying | recalling | checking | retaining => rfl

theorem stoppedBanks_states (stop : Nat) (ps : Ps) (kind : OpKind) :
    (stoppedBanks stop ps kind).retainedState = (if kind = .retaining then .invalid else ps.retainedState)
      ∧ (stoppedBanks stop ps kind).shadowState
          = (if kind = .retaining ∨ kind = .checking then ps.shadowState else .damaged) := by
  cases kind with
  | committing =>
    unfold stoppedBanks
    cases ps.staging <;> exact ⟨rfl, rfl⟩
  | copying | recalling | checking | retaining => exact ⟨rfl, rfl⟩

/-- A slot of the shadow after an operation is stopped is the old one or the one the operation writes (R145). -/
theorem stoppedBanks_shadow (stop : Nat) (ps : Ps) (kind : OpKind) (p i : Nat) :
    bankSlot (stoppedBanks stop ps kind).shadow p i = bankSlot ps.shadow p i
      ∨ (kind = .copying ∧ bankSlot (stoppedBanks stop ps kind).shadow p i = bankSlot ps.working p i)
      ∨ (kind = .recalling ∧ bankSlot (stoppedBanks stop ps kind).shadow p i = bankSlot ps.retained p i)
      ∨ (kind = .committing ∧ ∃ st, ps.staging = some st ∧ p = st.page.val
          ∧ bankSlot (stoppedBanks stop ps kind).shadow p i = slotAt st.slots i) := by
  cases kind with
  | checking | retaining => exact .inl rfl
  | copying => exact (bankSlot_mixBank stop ps.shadow ps.working p i).imp id fun h => .inl ⟨rfl, h⟩
  | recalling => exact (bankSlot_mixBank stop ps.shadow ps.retained p i).imp id fun h => .inr (.inl ⟨rfl, h⟩)
  | committing =>
    cases hst : ps.staging with
    | none => exact .inl (by simp only [stoppedBanks, hst])
    | some st =>
      have hbanks : (stoppedBanks stop ps .committing).shadow
          = setPage ps.shadow st.page (mixPage stop st.page ps.shadow[st.page] st.slots) := by
        simp only [stoppedBanks, hst]
      rw [hbanks]
      obtain hother | ⟨hp, hslot⟩ := bankSlot_setPage ps.shadow st.page
        (mixPage stop st.page ps.shadow[st.page] st.slots) p i
      · exact .inl hother
      · rw [hslot]
        obtain hold | hnew := slotAt_mixPage stop st.page ps.shadow[st.page] st.slots i
        · refine .inl (hold.trans ?_)
          subst hp
          simp [bankSlot]
        · exact .inr (.inr (.inr ⟨rfl, st, rfl, hp, hnew⟩))

/-- Settles O30: an idle store and one whose operation is stopped. -/
theorem abortStopsTheOperation : Obligations.AbortStopsTheOperation := by
  unfold Obligations.AbortStopsTheOperation
  intro tag s h
  rw [exec_request h (c := .abort tag) (r := .abort) rfl nofun, State.takeRequest, State.takeAbort]
  refine ⟨fun ho => by rw [ho]; rfl, fun op ho => ?_⟩
  rw [ho]
  obtain ⟨hretained, hshadow⟩ := stoppedBanks_states s.stops s.ps op.kind
  refine ⟨_, rfl, rfl, ?_, ?_, hretained, hshadow, fun p i => stoppedBanks_retained s.stops s.ps op.kind p i,
    fun p i => stoppedBanks_shadow s.stops s.ps op.kind p i⟩
  · exact congrArg (fun replies => ({ s.mu with replies := replies } : Mu)) (List.append_assoc s.mu.replies _ _)
  · exact congrArg (fun ps => ({ ps with operation := none, staging := none
                                         lastOutcome := some ⟨opSource op.kind, .reply .aborted, 1⟩ } : Ps))
      (stoppedBanks_writes s.stops s.ps op.kind)

/-! ### The completions -/

/-- The completion of the operation in progress, in a part where nothing is left of an interval end (R124). -/
theorem State.completeWhen_of_kind {s : State} (h : s.Awake) {op : Operation} (ho : s.ps.operation = some op)
    (f : State → Operation → State) : s.completeWhen op.kind f = .next (f s op) := by
  rw [State.completeWhen, State.outside_of_awake h, ho]
  dsimp only
  rw [if_pos rfl]

/-- Settles O31: the four operations that write a bank. -/
theorem writingOperationsComplete : Obligations.WritingOperationsComplete := by
  unfold Obligations.WritingOperationsComplete
  intro s op h ho ended
  have hexec {kind : OpKind} (hk : op.kind = kind) (f : State → Operation → State) :
      s.completeWhen kind f = .next (f s op) := hk ▸ State.completeWhen_of_kind h ho f
  refine ⟨fun st hk hst => ?_, fun hk => ?_, fun hk hsame => ?_, fun hk hdiffer => ?_, fun hk => ?_⟩
  · refine (hexec hk State.completeCommit).trans ?_
    simp only [State.completeCommit, hst, State.endOperation, hk]
    rfl
  · refine (hexec hk State.completeCopy).trans ?_
    simp only [State.completeCopy, State.endOperation, hk]
    rfl
  · refine (hexec hk State.completeRecall).trans ?_
    simp only [State.completeRecall, if_pos hsame, State.endOperation, hk]
    rfl
  · refine (hexec hk State.completeRecall).trans ?_
    simp only [State.completeRecall, if_neg hdiffer, State.endOperation, hk]
    rfl
  · refine (hexec hk State.completeRetain).trans ?_
    simp only [State.completeRetain, State.endOperation, hk]
    rfl

/-- What CHECKING compares under PLAN LOCK (R24, R134). -/
theorem lockCheck_none {s : State} (h : s.planLock = false ∨ LicensedAgree s.ps.shadow s.ps.working) :
    (if s.planLock then lockComparison s.ps.shadow s.ps.working else none) = none := by
  rcases h with h | h
  · rw [h]; rfl
  · rw [(lockComparison_none _ _).2 h, ite_self]

theorem lockCheck_some {s : State} {p i : Nat} (hl : s.planLock = true)
    (h : FirstLicensed s.ps.shadow s.ps.working p i) :
    (if s.planLock then lockComparison s.ps.shadow s.ps.working else none) = some (p, i) := by
  rw [if_pos hl, (lockComparison_some _ _ _ _).2 h]

theorem checkDetail_eq (page slot check : Nat) :
    checkDetail page slot check = natWord (page * 4096 + slot * 128 + check) := rfl

/-- Settles O32: the checks of the plan and then the comparison, by what each reports. -/
theorem checkingDecidesTheActivation : Obligations.CheckingDecidesTheActivation := by
  unfold Obligations.CheckingDecidesTheActivation
  intro s op h ho hk ended
  have hexec : exec .checkingCompletion s = .next (s.completeCheck op) :=
    (hk ▸ State.completeWhen_of_kind h ho State.completeCheck : s.completeWhen .checking State.completeCheck = _)
  rw [hexec]
  refine ⟨fun page slot code hreport => ?_, fun p i hpass hlock hfirst => ?_, fun hpass hagree => ?_⟩
  · have hcheck := (checkPlan_some s.ps.shadow ⟨page, slot, code⟩).2 hreport
    simp only [State.completeCheck, hcheck, State.endOperation, hk, checkDetail_eq]
    rfl
  · have hcheck := (checkPlan_none s.ps.shadow).2 hpass
    simp only [State.completeCheck, hcheck, lockCheck_some hlock hfirst, State.endOperation, hk, checkDetail_eq,
      Nat.add_zero]
    rfl
  · have hcheck := (checkPlan_none s.ps.shadow).2 hpass
    simp only [State.completeCheck, hcheck, lockCheck_none hagree, State.endOperation, hk]
    rfl

end Sys2Proof.Machine
end

section
/-! SUPPORT. The swap that is due, performed or dropped (R24, R28, R73, R74, R80, R88, R96, R115, R116, R138 to R140).
-/

namespace Sys2Proof.Machine

theorem State.swapReady_of {s : State} (ha : s.ps.activationPending = true)
    (ho : ∀ op, s.ps.operation = some op → op.kind ≠ .retaining) : s.swapReady = true := by
  rw [State.swapReady, ha, Bool.true_and, Bool.not_eq_true', Option.any_eq_false]
  exact fun op hop => by simpa using ho op hop

/-- A swap that is ready (R28, R138). -/
theorem State.swapNow_of_ready {s : State} (h : s.swapReady = true) :
    s.swapNow = ({ s with due := { s.due with swap := false } } : State).takeSwap.derive := by
  unfold State.swapNow
  dsimp only
  rw [if_pos (show ({ s with due := { s.due with swap := false } } : State).swapReady = true from h)]

theorem State.takeSwap_of_none {s : State}
    (h : (if s.planLock then lockComparison s.ps.shadow s.ps.working else none) = none) :
    s.takeSwap = s.performSwap := by
  simp only [State.takeSwap, h]

theorem State.takeSwap_of_some {s : State} {p i : Nat}
    (h : (if s.planLock then lockComparison s.ps.shadow s.ps.working else none) = some (p, i)) :
    s.takeSwap = s.dropSwap p i := by
  simp only [State.takeSwap, h]

theorem State.performSwap_zone (s : State) (z : Fin 8) :
    s.performSwap.zc.zones[z] = alignZone s.ps.working s.ps.shadow z s.zc.zones[z] := by
  show (Vector.ofFn _)[z] = _
  simp

/-- Settles O33: the two ways of `State.takeSwap`, and the derivation after either. -/
theorem swapIsPerformedOrDropped : Obligations.SwapIsPerformedOrDropped := by
  unfold Obligations.SwapIsPerformedOrDropped
  intro s h hdue ha ho
  have hnow := State.swapNow_of_ready (State.swapReady_of ha ho)
  rw [exec_swap_of_due h hdue, hnow]
  generalize hu : ({ s with due := { s.due with swap := false } } : State) = u
  cases hlock : (if s.planLock then lockComparison s.ps.shadow s.ps.working else none) with
  | none =>
    have hperform : u.takeSwap = u.performSwap := State.takeSwap_of_none (by subst hu; exact hlock)
    refine ⟨u.performSwap.derive, by rw [hperform], ?_, ?_, State.derive_follows _,
      fun _ => ⟨?_, ?_, ?_, ?_, fun z => ?_⟩,
      fun p i hl hfirst => by rw [lockCheck_some hl hfirst] at hlock; cases hlock⟩
    · subst hu; rfl
    · subst hu; rfl
    · subst hu; rfl
    · subst hu; exact State.alertsRaised_raise rfl
    · subst hu; exact Be.align_aligned _ _ _
    · subst hu; exact Ea.align_aligned _ _ _ _ _
    · refine ⟨_, alignZone_aligned _ _ z _, ?_⟩
      rw [State.derive_zone, State.performSwap_zone]
      subst hu
      exact resolveZone_resolved _ _ _ _ _
  | some place =>
    obtain ⟨p, i⟩ := place
    have hdrop : u.takeSwap = u.dropSwap p i := State.takeSwap_of_some (by subst hu; exact hlock)
    refine ⟨(u.dropSwap p i).derive, by rw [hdrop], ?_, ?_, State.derive_follows _,
      fun hagree => (by rw [lockCheck_none hagree] at hlock; cases hlock), fun p' i' hl hfirst => ?_⟩
    · subst hu; rfl
    · subst hu; rfl
    · rw [lockCheck_some hl hfirst] at hlock
      cases hlock
      have hdetail : checkDetail p i 0 = natWord (p * 4096 + i * 128) := by rw [checkDetail_eq, Nat.add_zero]
      rw [← hdetail]
      refine ⟨?_, ?_, ?_, ?_, fun b => ⟨fun hnone => ?_, fun a l hsome hlimit => ?_⟩, fun z => ?_⟩
      · subst hu; rfl
      · subst hu; exact State.alertsRaised_raise rfl
      · subst hu; rfl
      · subst hu; rfl
      · subst hu; exact Ea.startMinute_none hnone
      · subst hu; exact ⟨a.start l, Ea.startMinute_some hsome hlimit, rfl⟩
      · rw [State.derive_zone]
        subst hu
        exact resolveZone_resolved _ _ _ _ _

end Sys2Proof.Machine
end

section
/-! SUPPORT. The shared computations: levels, the enforcement transition and the limits in force (R34 to R38, R43,
R44, R68, R78, R79, R101, R102). -/

namespace Sys2Proof.Machine

/-! ### Levels -/

/-- The level of a ratio (00_scope section 6.2). -/
theorem ratioLevel_spec (num den : Nat) :
    ∃ n : Nat, ratioLevel num den = (n : Int) - 1200
      ∧ (0 < n → 10 ^ n * den ^ 100 ≤ num ^ 100 * 10 ^ 1200)
      ∧ ∀ k, n < k → k < 2048 → num ^ 100 * 10 ^ 1200 < 10 ^ k * den ^ 100 := by
  have hspec := greatest_spec 11 (fun k => decide (10 ^ k * den ^ 100 ≤ num ^ 100 * 10 ^ 1200)) 0
    (fun i j hij hj => by
      rw [decide_eq_true_eq] at hj ⊢
      exact le_trans (Nat.mul_le_mul_right _ (Nat.pow_le_pow_right (by decide) hij)) hj)
  obtain ⟨hreached, hgreatest⟩ := hspec
  refine ⟨_, rfl, fun hpos => ?_, fun k hk hlt => ?_⟩
  · rcases hreached with hzero | hreached
    · rw [hzero] at hpos; exact absurd hpos (lt_irrefl 0)
    · exact of_decide_eq_true hreached
  · exact not_le.1 (of_decide_eq_false (hgreatest k hk (by rw [Nat.zero_add]; exact hlt)))

/-- The value of the sum of some levels' energies (R68, R78). -/
theorem Energy.value_levels (levels : List Nat) :
    (levels.foldl (fun e l => Energy.add e l 1) []).value
      = ((levels.map fun l => (l, 1)).map fun t : Nat × Nat => (t.2 : ℝ) * energyOf t.1).sum := by
  rw [Energy.value_foldl (fun l => l) (fun _ => 1) levels [], List.map_map]
  simp [Energy.value, Function.comp_def]

theorem Energy.canonical_levels (levels : List Nat) :
    (levels.foldl (fun e l => Energy.add e l 1) []).Canonical :=
  Energy.canonical_foldl (fun l => l) (fun _ => 1) levels Energy.canonical_nil

/-- Each level counts once. -/
theorem levels_weight (levels : List Nat) : ((levels.map fun l => (l, 1)).map (·.2)).sum = levels.length := by
  simp [Function.comp_def]

/-- The level of the mean of some levels' energies (section 6.2). -/
theorem meanLevel_levels {levels : List Nat} (hne : levels ≠ []) (hl : ∀ l ∈ levels, l ≤ 1400) :
    IsMeanLevel (levels.map fun l => (l, 1))
      ((levels.foldl (fun e l => Energy.add e l 1) []).meanLevel levels.length) := by
  refine Energy.meanLevel_isMeanLevel (Energy.canonical_levels levels) (Energy.value_levels levels)
    (levels_weight levels) (List.length_pos_iff.2 hne) fun t ht => ?_
  obtain ⟨l, hmem, rfl⟩ := List.mem_map.1 ht
  exact hl l hmem

/-- The terms of an account's ring in a band (R79). -/
def ringTerms (a : Account) (isLf : Bool) : List (Nat × Nat) :=
  a.ring.map fun x => (if isLf then x.lf else x.full, x.count)

theorem ringTerms_weight (a : Account) (isLf : Bool) :
    ((ringTerms a isLf).map (·.2)).sum = (a.ring.map (·.count)).sum := by
  rw [ringTerms, List.map_map]; rfl

/-- The running level of an account (R79). -/
theorem Account.runningLevel_isMeanLevel {a : Account} {isLf : Bool} {levels : List Nat}
    (he : a.energy isLf = levels.foldl (fun e l => Energy.add e l 1) []) (hc : a.count = levels.length)
    (hl : ∀ l ∈ levels, l ≤ 1400) (hring : ∀ x ∈ a.ring, x.full ≤ 1400 ∧ x.lf ≤ 1400) (hw : a.weight ≠ 0) :
    ∃ L, a.runningLevel isLf = some L ∧ IsMeanLevel ((levels.map fun l => (l, 1)) ++ ringTerms a isLf) L := by
  refine ⟨_, if_neg hw, Energy.meanLevel_isMeanLevel ?_ ?_ ?_ (Nat.pos_of_ne_zero hw) fun t ht => ?_⟩
  · rw [he]
    exact Energy.canonical_foldl (fun x : RingEntry => x.level isLf) (·.count) a.ring (Energy.canonical_levels levels)
  · rw [Energy.value_foldl (fun x : RingEntry => x.level isLf) (·.count) a.ring, he, Energy.value_levels,
      List.map_append, List.sum_append, ringTerms, List.map_map, List.map_map]
    rfl
  · rw [List.map_append, List.sum_append, levels_weight, ringTerms_weight, ← hc]
    rfl
  · rcases List.mem_append.1 ht with ht | ht
    · obtain ⟨l, hmem, rfl⟩ := List.mem_map.1 ht
      exact hl l hmem
    · obtain ⟨x, hmem, rfl⟩ := List.mem_map.1 ht
      obtain ⟨hfull, hlf⟩ := hring x hmem
      cases isLf
      · exact hfull
      · exact hlf

/-- Settles O48: `ratioLevel_spec`, and the exact comparison of `Energy.meanLevel_isMeanLevel`. -/
theorem zoneLevelIsTheFloorOfTheLogarithm : Obligations.ZoneLevelIsTheFloorOfTheLogarithm := by
  unfold Obligations.ZoneLevelIsTheFloorOfTheLogarithm
  refine ⟨fun e => ratioLevel_spec e _, fun m => ?_, fun levels hne hl => meanLevel_levels hne hl,
    fun a isLf levels he hc hl hring => ⟨fun hnil => ?_, fun hne => ?_, fun hw => ?_, fun hw => ?_⟩⟩
  · obtain ⟨n, hlevel, hreached, hgreatest⟩ := ratioLevel_spec (m ^ 2) (8388608 ^ 2)
    simp only [← pow_mul] at hreached hgreatest
    exact ⟨n, hlevel, hreached, hgreatest⟩
  · subst hnil
    exact if_pos hc
  · have hcount : a.count ≠ 0 := by rw [hc]; exact (List.length_pos_iff.2 hne).ne'
    refine ⟨_, if_neg hcount, ?_⟩
    rw [show a.energy isLf = _ from he, hc]
    exact meanLevel_levels hne hl
  · rw [List.map_append, List.sum_append, levels_weight, ← hc] at hw
    exact if_pos ((congrArg (a.count + ·) (ringTerms_weight a isLf)).symm.trans hw)
  · rw [List.map_append, List.sum_append, levels_weight, ← hc] at hw
    exact Account.runningLevel_isMeanLevel he hc hl hring
      (ne_of_eq_of_ne (congrArg (a.count + ·) (ringTerms_weight a isLf)).symm hw)

/-! ### The enforcement transition -/



/-- The enforcement transition of a demand that neither reduces nor releases (R102). -/
theorem enforce_of_rest {bank : Bank} {d : Demand} (hr : d.reduces = false) (hl : d.releases (hysteresis bank) = false)
    (maximum : Nat) (st : Standing) :
    (st.state = .reduce ∨ st.state = .floor →
        enforce bank maximum d st = { st with state := .hold, releaseCount := 0, floorEpisode := false })
      ∧ (st.state = .hold → enforce bank maximum d st = { st with releaseCount := 0 })
      ∧ (st.state = .free → enforce bank maximum d st = st) := by
  refine ⟨?_, fun hs => ?_, fun hs => ?_⟩
  · rintro (hs | hs) <;> simp [enforce, hr, hl, hs]
  · simp [enforce, hr, hl, hs]
  · simp [enforce, hr, hl, hs]

/-- The enforcement transition of a demand that releases (R102). -/
theorem enforce_of_releases {bank : Bank} {d : Demand} (hr : d.reduces = false)
    (hl : d.releases (hysteresis bank) = true) (maximum : Nat) (st : Standing) :
    (st.state = .reduce ∨ st.state = .floor →
        enforce bank maximum d st = { st with state := .hold, releaseCount := 0, floorEpisode := false })
      ∧ (st.state = .hold → enforce bank maximum d st = { st with releaseCount := min 80 (st.releaseCount + 1) })
      ∧ (st.state = .free → enforce bank maximum d st = { st with attenuation := st.attenuation - releaseRate bank }) := by
  refine ⟨?_, fun hs => ?_, fun hs => ?_⟩
  · rintro (hs | hs) <;> simp [enforce, hr, hl, hs]
  · simp [enforce, hr, hl, hs]
  · simp [enforce, hr, hl, hs]

/-- The reduction index of a demand above zero (R101). -/
theorem reductionIndex_eq {n : Int} (h : 0 < n) : reductionIndex n = min 15 (n / 10).toNat := by
  rw [reductionIndex]
  omega

/-- Settles O50: the branches of `enforce`. -/
theorem enforcementFollowsTheDemand : Obligations.EnforcementFollowsTheDemand := by
  unfold Obligations.EnforcementFollowsTheDemand
  intro bank maximum d st _
  refine ⟨fun n src hd hn hlt => ?_, fun n src hd hn hle => ?_, fun n src hd hn hh => ?_, fun hd => ?_⟩
  · subst hd
    have hreduces : (Demand.value n src).reduces = true := decide_eq_true hn
    rw [enforce, if_pos hreduces, if_pos hlt, ← reductionIndex_eq hn]
    rfl
  · subst hd
    have hreduces : (Demand.value n src).reduces = true := decide_eq_true hn
    rw [enforce, if_pos hreduces, if_neg (not_lt.2 hle)]
  · subst hd
    exact enforce_of_rest (d := .value n src) (decide_eq_false (not_lt.2 hn)) (decide_eq_false (not_le.2 hh)) maximum st
  · rcases hd with rfl | ⟨n, src, rfl, hn, hh⟩
    · exact enforce_of_releases rfl rfl maximum st
    · exact enforce_of_releases (d := .value n src) (decide_eq_false (not_lt.2 hn)) (decide_eq_true hh) maximum st

/-! ### The limits in force -/

/-- The figure that a limit ramps toward (R36, R37). -/
def rampTarget (floor : Nat) : Limit → Nat
  | .silent => floor
  | .number n => n

theorem rampLimit_of_ramping {floor old ramp j : Nat} {next : Limit}
    (h : 0 < ramp ∧ 1 ≤ j ∧ j ≤ ramp ∧ rampTarget floor next < old) :
    rampLimit floor (.number old) next ramp j
      = .number (rampTarget floor next + ((old - rampTarget floor next) * j + ramp) / (ramp + 1)) := by
  cases next <;> exact if_pos h

theorem rampLimit_of_steady {floor old ramp j : Nat} {next : Limit}
    (h : ¬ (0 < ramp ∧ 1 ≤ j ∧ j ≤ ramp ∧ rampTarget floor next < old)) :
    rampLimit floor (.number old) next ramp j = .number old := by
  cases next <;> exact if_neg h

/-- The share of a fall is its quotient taken up to a whole number (R36). -/
theorem ceilDiv_bounds (x ramp : Nat) :
    x ≤ (x + ramp) / (ramp + 1) * (ramp + 1) ∧ (x + ramp) / (ramp + 1) * (ramp + 1) < x + (ramp + 1) := by
  have hdiv := Nat.div_add_mod (x + ramp) (ramp + 1)
  have hmod : (x + ramp) % (ramp + 1) < ramp + 1 := Nat.mod_lt _ (Nat.succ_pos ramp)
  rw [Nat.mul_comm] at hdiv
  omega

/-- The current segment is the last that has started (R35). -/
theorem currentSegment_eq {segments : List SegmentItem} {minute i : Nat} {seg : SegmentItem}
    (hi : segments[i]? = some seg) (hstarted : seg.start ≤ minute)
    (hlater : ∀ k later, i < k → segments[k]? = some later → minute < later.start) :
    currentSegment segments minute = i := by
  obtain ⟨hlt, -⟩ := List.getElem?_eq_some_iff.1 hi
  obtain ⟨n, hn⟩ := Nat.exists_eq_add_of_lt hlt
  have hsplit : List.range segments.length = List.range (i + 1) ++ (List.range n).map (i + 1 + ·) := by
    rw [← List.range_add, hn]
    congr 1
    omega
  rw [currentSegment, hsplit, List.filter_append, List.filter_eq_nil_iff (l := (List.range n).map _).2 (fun k hk => ?_),
    List.append_nil, List.range_succ, List.filter_append]
  · simp [hi, hstarted]
  · obtain ⟨d, hd, rfl⟩ := List.mem_map.1 hk
    have hd' : i + 1 + d < segments.length := by rw [List.mem_range] at hd; omega
    have := hlater (i + 1 + d) _ (by omega) (List.getElem?_eq_getElem hd')
    simp only [List.getElem?_eq_getElem hd', decide_eq_true_eq]
    omega

/-- The limits of a schedule at a minute of day (R35, R36). -/
theorem setLimits_eq {floor minute i : Nat} {segments : List SegmentItem} {seg next : SegmentItem}
    (hcurrent : currentSegment segments minute = i) (hi : segments[i]? = some seg)
    (hnext : segments[(i + 1) % segments.length]? = some next) :
    setLimits floor segments minute
      = ⟨rampLimit floor (limitOf seg.full) (limitOf next.full) next.ramp ((next.start + 1440 - minute) % 1440),
         rampLimit floor (limitOf seg.lf) (limitOf next.lf) next.ramp ((next.start + 1440 - minute) % 1440),
           some i⟩ := by
  subst hcurrent
  simp only [setLimits, hi, hnext]

/-- The lowest limit is SILENT where one of them is, or where there is none (R38, log 20). -/
theorem lowestLimit_silent {limits : List Limit} (h : .silent ∈ limits ∨ limits = []) :
    lowestLimit limits = .silent := by
  induction limits with
  | nil => rfl
  | cons l rest ih =>
    cases rest with
    | nil => simpa [lowestLimit, eq_comm] using h
    | cons m others =>
      rw [lowestLimit]
      · cases l with
        | silent => cases hrest : lowestLimit (m :: others) <;> simp [Limit.lower]
        | number n => rw [ih (by simpa using h)]; simp [Limit.lower]
      · simp

/-- The lowest limit of some numbers (R38). -/
theorem lowestLimit_number {limits : List Limit} (hs : .silent ∉ limits) (hne : limits ≠ []) :
    ∃ n, lowestLimit limits = .number n ∧ .number n ∈ limits ∧ ∀ m, .number m ∈ limits → n ≤ m := by
  induction limits with
  | nil => exact absurd rfl hne
  | cons l rest ih =>
    cases l with
    | silent => simp at hs
    | number k =>
      cases rest with
      | nil => exact ⟨k, rfl, by simp, by simp⟩
      | cons m others =>
        obtain ⟨n, hn, hmem, hleast⟩ := ih (fun h => hs (List.mem_cons_of_mem _ h)) (List.cons_ne_nil _ _)
        rw [lowestLimit, hn]
        · by_cases hkn : k < n
          · refine ⟨k, by simp [Limit.lower, hkn], by simp, fun x hx => ?_⟩
            rcases List.mem_cons.1 hx with hx | hx
            · cases hx; exact le_rfl
            · exact le_trans hkn.le (hleast x hx)
          · refine ⟨n, by simp [Limit.lower, hkn], List.mem_cons_of_mem _ hmem, fun x hx => ?_⟩
            rcases List.mem_cons.1 hx with hx | hx
            · cases hx; exact not_lt.1 hkn
            · exact hleast x hx
        · simp

/-- Settles O51: the ramp, the current segment and the fallback. -/
theorem rampLowersTheLimit : Obligations.RampLowersTheLimit := by
  unfold Obligations.RampLowersTheLimit
  refine ⟨fun floor old ramp j next => ⟨rfl, fun target ht => ?_⟩, fun bank minute b => ⟨fun isSet hoff => ?_, ?_, ?_⟩⟩
  · have htarget : rampTarget floor next = target := by
      rcases ht with rfl | ⟨rfl, rfl⟩ <;> rfl
    subst htarget
    refine ⟨fun ⟨hlt, hj, hle⟩ => ⟨_, rampLimit_of_ramping ⟨by omega, hj, hle, hlt⟩, ceilDiv_bounds _ ramp⟩,
      fun hsteady => rampLimit_of_steady fun ⟨_, hj, hle, hlt⟩ => hsteady ⟨hlt, hj, hle⟩⟩
  · rw [deriveLimits_get, limitEntry, if_neg (by rw [hoff]; nofun)]
  · intro i seg next hon hminute hi hstarted hlater hnext hmidnight
    have hcurrent := currentSegment_eq hi hstarted fun k later hk hlk => (hlater k later hk hlk).1
    rw [deriveLimits_get, limitEntry, if_pos hon, if_pos rfl, setLimits_eq hcurrent hi hnext]
    have hj : (next.start + 1440 - minute) % 1440
        = if i + 1 < (segmentsInUse bank b).length then next.start - minute else (1440 - minute) % 1440 := by
      obtain ⟨hlt, -⟩ := List.getElem?_eq_some_iff.1 hi
      split
      · rename_i hmore
        rw [Nat.mod_eq_of_lt hmore] at hnext
        obtain ⟨hafter, hday⟩ := hlater (i + 1) next (Nat.lt_succ_self i) hnext
        omega
      · rw [hmidnight (by omega), Nat.zero_add]
    rw [hj]
  · intro hon
    refine ⟨_, _, by rw [deriveLimits_get, limitEntry, if_pos hon]; rfl, fun band lowest hband => ?_⟩
    rcases hband with ⟨rfl, rfl⟩ | ⟨rfl, rfl⟩
    · exact ⟨lowestLimit_silent, lowestLimit_number⟩
    · exact ⟨lowestLimit_silent, lowestLimit_number⟩

end Sys2Proof.Machine
end

section
/-! SUPPORT. The input lines, the supply and the resets (R92 to R97, R106 to R110, R119, R143, R145, R193 to R199). -/

namespace Sys2Proof.Machine

/-! ### Resolution under a change of the cause STOPPED -/

theorem resolveZone_muted (bank : Bank) (stop : Bool) (limits : Vector (Option LimitEntry) 6) (z : Fin 8)
    (c : Controller) : (resolveZone bank stop limits z c).muted = c.muted := by
  unfold resolveZone
  repeat' split
  all_goals rfl

/-- Only OFF clears a trip hold (R96). -/
theorem resolveZone_tripHold_of_enabled {bank : Bank} {z : Fin 8} (he : (zoneItem bank z).enabled = true) (stop : Bool)
    (limits : Vector (Option LimitEntry) 6) (c : Controller) :
    (resolveZone bank stop limits z c).tripHold = c.tripHold := by
  have hoff : silencingCause bank stop limits z c ≠ some .off := by
    rw [silencingCause, he, if_neg (by nofun)]
    repeat' split
    all_goals nofun
  unfold resolveZone
  repeat' split
  · rfl
  · rename_i state hcause _
    have hstate : state ≠ .off := fun h => hoff (h ▸ hcause)
    simp [Controller.silence, hstate]
  · rfl
  · rfl

/-- A zone of a resolved state is in its place already (R94). -/
theorem State.HoldsResolved.resolve {s : State} {z : Fin 8} {c : Controller} (h : s.HoldsResolved z c) :
    resolveZone s.ps.working s.stopCause s.tb.limits z c = c := by
  unfold State.HoldsResolved at h
  unfold resolveZone
  cases hcause : silencingCause s.ps.working s.stopCause s.tb.limits z c with
  | none => rw [hcause] at h; exact if_neg (by rw [h.1]; nofun)
  | some state => rw [hcause] at h; exact if_pos h.1

theorem Silenced.state {maximum : Nat} {c c' : Controller} {state : ZoneState} (h : Silenced maximum c state c') :
    c'.state = state := by
  by_cases hc : c.state = state
  · rw [h.1 hc, hc]
  · rw [h.2 hc]

/-- A zone of a resolved state that is not enabled stays OFF whatever the cause STOPPED does (R96). -/
theorem State.ZonesResolved.resolve_of_disabled {s : State} (h : s.ZonesResolved) {z : Fin 8}
    (he : (zoneItem s.ps.working z).enabled = false) (stop : Bool) :
    resolveZone s.ps.working stop s.tb.limits z s.zc.zones[z] = s.zc.zones[z] := by
  have hcause (b : Bool) : silencingCause s.ps.working b s.tb.limits z s.zc.zones[z] = some .off := by
    rw [silencingCause, he]; rfl
  have hstate := (h z).2
  rw [hcause] at hstate
  rw [resolveZone, hcause]
  exact if_pos hstate.1

/-- The state that a STOPPED zone takes once the cause of it is judged again (R94, R97). -/
def stateAfterStop (stop silent : Bool) (c : Controller) : ZoneState :=
  if stop then .stopped else if c.tripHold then .tripped else if c.muted then .muted
  else if silent then .silent else .hold

/-- A STOPPED zone is judged again (R94, R97). -/
theorem resolveZone_of_stopped {bank : Bank} {z : Fin 8} {c : Controller} (he : (zoneItem bank z).enabled = true)
    (hs : c.state = .stopped) (ha : c.attenuation = (zoneItem bank z).maximum) (stop : Bool)
    (limits : Vector (Option LimitEntry) 6) :
    (resolveZone bank stop limits z c).attenuation = (zoneItem bank z).maximum
      ∧ (resolveZone bank stop limits z c).state = stateAfterStop stop (silentCause bank limits z) c := by
  unfold resolveZone silencingCause stateAfterStop
  rw [he]
  cases stop with
  | true => simp [hs, ha]
  | false =>
  cases ht : c.tripHold with
  | true => simp [hs, Controller.silence]
  | false =>
  cases hm : c.muted with
  | true => simp [hs, Controller.silence]
  | false =>
  cases hq : silentCause bank limits z with
  | true => simp [hs, Controller.silence]
  | false => simp [hs, Controller.release, ZoneState.silencing]

/-- A zone that the cause STOPPED holds stands there, at its maximum (R95). -/
theorem State.ZonesResolved.stands {s : State} (h : s.ZonesResolved) (hstop : s.stopCause = true) {z : Fin 8}
    (he : (zoneItem s.ps.working z).enabled = true) :
    s.zc.zones[z].state = .stopped ∧ s.zc.zones[z].attenuation = (zoneItem s.ps.working z).maximum := by
  have hz := h.stopped z he
  rw [← hstop, State.HoldsResolved.resolve (h z).2] at hz
  exact hz

/-- Under the cause STOPPED no zone is TRIPPED, and the TRIP line is released (R107). -/
theorem State.tripLine_of_stopped {t : State} (ht : t.TripLineFollows)
    (h : ∀ z : Fin 8, t.zc.zones[z].state ≠ .tripped) : t.zc.tripLine = false := by
  rw [State.TripLineFollows] at ht
  rw [← Bool.not_eq_true, ht]
  rintro ⟨z, hz⟩
  exact h z hz

/-! ### The input lines -/

/-- A change of VENUE STOP in a part that is awake (R108, R109). -/
theorem State.stopChange_of_awake {s : State} (h : s.Awake) {asserted : Bool} (hne : s.venueStop ≠ asserted)
    (detail : Word16) :
    s.stopChange asserted detail
      = .next ((({ s with venueStop := asserted } : State).resolveAll).raise .stop true none detail) := by
  rw [State.stopChange, if_neg hne, if_neg h.1, State.settle_of_settled h.2]

theorem State.stopChange_of_off {s : State} (h : s.supply = .off) {asserted : Bool} (hne : s.venueStop ≠ asserted)
    (detail : Word16) : s.stopChange asserted detail = .next { s with venueStop := asserted } := by
  rw [State.stopChange, if_neg hne, if_pos h]

/-- Without VENUE STOP the cause STOPPED is a LOW supply (R94, R110). -/
theorem State.stopCause_of_released {s : State} (h : s.supply ≠ .off) :
    ({ s with venueStop := false } : State).stopCause = decide (s.supply = .low) := by
  show (s.supply != .normal) = _
  cases hs : s.supply with
  | normal => rfl
  | low => rfl
  | off => exact absurd hs h

/-- Each zone after all are resolved and an alert is raised. -/
theorem State.resolveAll_raise_zone {s : State} {stop : Bool} (hstop : s.stopCause = stop) (k : AlertKind) (u : Bool)
    (n : Option Nat) (d : Word16) (z : Fin 8) :
    (s.resolveAll.raise k u n d).zc.zones[z] = resolveZone s.ps.working stop s.tb.limits z s.zc.zones[z] := by
  subst hstop
  exact s.resolveAll_zone z

/-- Settles O44: `State.stopChange`, and the resolution under the cause that it leaves. -/
theorem inputLinesAct : Obligations.InputLinesAct := by
  unfold Obligations.InputLinesAct
  intro s
  have hnone {b : Bool} (hb : s.venueStop = b) (detail : Word16) : s.stopChange b detail = .next s := if_pos hb
  refine ⟨fun hv => hnone hv 1, fun hv => hnone hv 2,
    fun hoff => ⟨?_, fun hv => State.stopChange_of_off hoff (by rw [hv]; nofun) 1,
      fun hv => State.stopChange_of_off hoff (by rw [hv]; nofun) 2⟩, fun h => ?_, fun h hv => ?_, fun h hv => ?_⟩
  · simp only [exec, execPlanLockChange]
    rw [if_pos hoff]
  · simp only [exec, execPlanLockChange]
    rw [if_neg h.1, State.settle_of_settled h.2]
  · have hzone := State.resolveAll_raise_zone (s := { s with venueStop := true }) (stop := true) rfl .stop true none 1
    have hfollows := State.setZones_follows { s with venueStop := true }
    refine ⟨_, State.stopChange_of_awake h (by rw [hv]; nofun) 1, rfl, State.alertsRaised_raise rfl, hfollows _,
      fun z => ?_, fun hres => ⟨State.tripLine_of_stopped (hfollows _) fun z => ?_,
        fun z => ⟨?_, fun he => ?_, fun he => ?_⟩⟩⟩
    · rw [hzone]; exact resolveZone_resolved _ _ _ _ _
    · rw [hzone]
      cases he : (zoneItem s.ps.working z).enabled with
      | true => exact ne_of_eq_of_ne (hres.stopped z he).1 nofun
      | false =>
        obtain ⟨hoff, -⟩ := resolveZone_resolved s.ps.working true s.tb.limits z s.zc.zones[z]
        exact ne_of_eq_of_ne (Silenced.state (hoff he)) nofun
    · rw [hzone, resolveZone_muted]
    · rw [hzone]; exact hres.resolve_of_disabled he true
    · rw [hzone]
      obtain ⟨hstate, hatt⟩ := hres.stopped z he
      exact ⟨hstate, resolveZone_tripHold_of_enabled he _ _ _, hatt⟩
  · have hzone := State.resolveAll_raise_zone (s := { s with venueStop := false }) (stop := decide (s.supply = .low))
      (State.stopCause_of_released h.1) .stop true none 2
    have hstop : s.stopCause = true := by rw [State.stopCause, hv]; rfl
    refine ⟨_, State.stopChange_of_awake h (by rw [hv]; nofun) 2, rfl, State.alertsRaised_raise rfl,
      State.setZones_follows _ _, fun z => ?_, fun hres z => ⟨fun hlow => ?_, fun hnormal he => ?_⟩⟩
    · rw [hzone]; exact resolveZone_resolved _ _ _ _ _
    · have hstays := State.HoldsResolved.resolve (hres z).2
      rw [hstop] at hstays
      rw [hzone, decide_eq_true hlow]
      exact hstays
    · rw [hzone, decide_eq_false (by rw [hnormal]; nofun)]
      obtain ⟨hstate, hatt⟩ := hres.stands hstop he
      obtain ⟨hatt', hstate'⟩ := resolveZone_of_stopped he hstate hatt false s.tb.limits
      exact ⟨resolveZone_muted _ _ _ _ _, resolveZone_tripHold_of_enabled he _ _ _, hstate', hatt'⟩

/-! ### The supply -/

theorem exec_supplyLow_of_awake {s : State} (h : s.Awake) {level : Nat} (hl : level < 3000) :
    exec (.supplyLow level) s = .next (s.supplyTo level) := by
  simp only [exec, execSupplyLow]
  rw [State.outside_of_awake h]
  exact congrArg Host.Outcome.next (if_pos hl)

theorem exec_supplyNormal_of_awake {s : State} (h : s.Awake) {level : Nat} (hl : 3000 ≤ level) :
    exec (.supplyNormal level) s = .next (s.supplyTo level) := by
  simp only [exec, execSupplyNormal]
  rw [State.outside_of_awake h]
  exact congrArg Host.Outcome.next (if_pos hl)

theorem exec_supplyOff_of_awake {s : State} (h : s.Awake) {level : Nat} (hl : level < 2700) :
    exec (.supplyOff level) s = .next (s.supplyTo level) := by
  simp only [exec, execSupplyOff]
  rw [State.outside_of_awake h]
  exact congrArg Host.Outcome.next (if_pos hl)

/-- What the entry into LOW writes (R194). -/
theorem State.enterLow_writes (s : State) :
    s.enterLow = { s with
        supply := .low
        zc := { s.zc with zones := s.enterLow.zc.zones, tripLine := s.enterLow.zc.tripLine }
        ps := s.enterLow.ps, mu := s.enterLow.mu, stops := s.enterLow.stops }
      ∧ s.enterLow.mu = { s.mu with
        replies := s.enterLow.mu.replies, alerts := s.enterLow.mu.alerts, alertsLost := s.enterLow.mu.alertsLost }
      ∧ s.AlertsRaised s.enterLow [⟨.supply, true, none, s.stamp, 1⟩]
      ∧ s.enterLow.TripLineFollows := by
  by_cases h : ∃ op, s.ps.operation = some op ∧ op.kind = .retaining
  · obtain ⟨op, ho, hk⟩ := h
    rw [State.enterLow_of_retaining ho hk]
    exact ⟨rfl, rfl, State.alertsRaised_of (u := s) rfl rfl rfl rfl, State.setZones_follows _ _⟩
  · rw [State.enterLow_of_idle fun op ho hk => h ⟨op, ho, hk⟩]
    exact ⟨rfl, rfl, State.alertsRaised_raise rfl, State.setZones_follows _ _⟩

/-- The entry into LOW leaves the store as it is when no RETAIN is in progress (R194). -/
theorem State.enterLow_store_of_idle {s : State} (h : ∀ op, s.ps.operation = some op → op.kind ≠ .retaining) :
    s.enterLow.ps = s.ps ∧ s.enterLow.mu.replies = s.mu.replies ∧ s.enterLow.stops = s.stops := by
  rw [State.enterLow_of_idle h]
  exact ⟨rfl, rfl, rfl⟩

/-- A RETAIN that the entry into LOW abandons (R143, R145, R194). -/
theorem State.enterLow_store_of_retaining {s : State} {op : Operation} (ho : s.ps.operation = some op)
    (hk : op.kind = .retaining) :
    s.enterLow.ps = { s.ps with
        retained := mixBank s.stops s.ps.retained s.ps.working, retainedState := .invalid, operation := none
        lastOutcome := some ⟨.retain, .reply .aborted, 2⟩ }
      ∧ s.enterLow.mu.replies
        = s.mu.replies ++ [{ kind := 0x18, tag := op.tag, result := .aborted, detail := 2, data := [] }]
      ∧ s.enterLow.stops = s.stops + 1 := by
  rw [State.enterLow_of_retaining ho hk]
  obtain ⟨kind, tag, frames⟩ := op
  dsimp only at hk
  subst hk
  exact ⟨rfl, rfl, rfl⟩

/-- Settles O45: a level judged in NORMAL and in LOW, and the two entries. -/
theorem supplyFallsAndReturns : Obligations.SupplyFallsAndReturns := by
  unfold Obligations.SupplyFallsAndReturns
  intro level s h
  refine ⟨fun hl => ?_, fun hl => ?_, fun hlow h1 h2 => ?_, fun hn h1 h2 => ?_, fun hn hl => ?_, fun hlow h1 h2 => ?_,
    fun hlow hl => ?_⟩
  · simp only [exec, execSupplyLow]
    rw [State.outside_of_awake h]
    exact congrArg Host.Outcome.next (if_neg (not_lt.2 hl))
  · simp only [exec, execSupplyNormal]
    rw [State.outside_of_awake h]
    exact congrArg Host.Outcome.next (if_neg (not_le.2 hl))
  · rw [exec_supplyLow_of_awake h h2, State.supplyTo_of_low hlow, if_neg (not_lt.2 h1), if_neg (by omega)]
  · rw [exec_supplyLow_of_awake h h2, State.supplyTo_of_normal hn, if_neg (not_lt.2 h1), if_pos h2]
    have hzone := State.enterLow_zone { s with supplyLevel := level }
    obtain ⟨hwrites, hmu, halert, hfollows⟩ := State.enterLow_writes { s with supplyLevel := level }
    refine ⟨_, rfl, hwrites, hmu, halert, hfollows, fun z => ?_, fun hres z he => ?_, fun hidle => ?_,
      fun op ho hk => ?_⟩
    · rw [hzone]; exact resolveZone_resolved _ _ _ _ _
    · rw [hzone]; exact hres.stopped z he
    · exact State.enterLow_store_of_idle (s := { s with supplyLevel := level }) hidle
    · obtain ⟨hps, hreplies, hstops⟩ := State.enterLow_store_of_retaining (s := { s with supplyLevel := level }) ho hk
      refine ⟨by rw [hps], hreplies, hstops, fun p i => ?_⟩
      rw [hps]
      exact bankSlot_mixBank _ _ _ _ _
  · rw [exec_supplyNormal_of_awake h hl, State.supplyTo_of_normal hn, if_neg (by omega), if_neg (by omega)]
  · rw [exec_supplyNormal_of_awake h h1, State.supplyTo_of_low hlow, if_neg (by omega), if_neg (by omega)]
  · rw [exec_supplyNormal_of_awake h (by omega), State.supplyTo_of_low hlow, if_neg (by omega), if_pos hl]
    have hstop : s.stopCause = true := by rw [State.stopCause, hlow]; exact Bool.or_true _
    have hzone := State.resolveAll_raise_zone (s := { s with supply := .normal, supplyLevel := level })
      (stop := s.venueStop) (Bool.or_false _) .supply true none 2
    refine ⟨_, rfl, rfl, State.alertsRaised_raise rfl, State.setZones_follows _ _, fun z => ?_, fun hres z he => ?_⟩
    · exact (hzone z) ▸ resolveZone_resolved _ _ _ _ _
    · obtain ⟨hstate, hatt⟩ := hres.stands hstop he
      obtain ⟨hatt', hstate'⟩ := resolveZone_of_stopped he hstate hatt s.venueStop s.tb.limits
      exact (hzone z) ▸ ⟨hatt', hstate'⟩

/-- The part stops below the retention threshold, a RETAIN in progress abandoned first (R143, R193, R196). -/
theorem State.supplyTo_of_off {s : State} (hs : s.supply ≠ .off) {level : Nat} (hl : level < 2700) :
    s.supplyTo level
      = (if s.supply = .normal then ({ s with supplyLevel := level } : State).enterLow
         else { s with supplyLevel := level }).powerOff := by
  by_cases hn : s.supply = .normal
  · rw [State.supplyTo_of_normal hn, if_pos hl, if_pos hn]
  · have hlow : s.supply = .low := by
      cases hsupply : s.supply with
      | normal => exact absurd hsupply hn
      | low => rfl
      | off => exact absurd hsupply hs
    rw [State.supplyTo_of_low hlow, if_pos hl, if_neg hn]

/-- Settles O46: `State.powerOff`, after the entry into LOW that a fall from NORMAL takes. -/
theorem supplyOffKeepsOnlyTheRetainedBank : Obligations.SupplyOffKeepsOnlyTheRetainedBank := by
  unfold Obligations.SupplyOffKeepsOnlyTheRetainedBank
  intro level s h
  refine ⟨fun hl => ?_, fun hl => ?_⟩
  · simp only [exec, execSupplyOff]
    rw [State.outside_of_awake h]
    exact congrArg Host.Outcome.next (if_neg (not_lt.2 hl))
  · rw [exec_supplyOff_of_awake h hl, exec_supplyLow_of_awake h (by omega), State.supplyTo_of_off h.1 hl]
    by_cases hn : s.supply = .normal
    · rw [if_pos hn]
      obtain ⟨hwrites, -⟩ := State.enterLow_writes { s with supplyLevel := level }
      refine ⟨_, rfl, rfl, ?_, rfl, fun hidle => ?_, fun op _ ho hk => ?_⟩
      · rw [hwrites]; rfl
      · have hidle' := hidle.resolve_left (by rw [hn]; nofun)
        obtain ⟨hps, -, hstops⟩ := State.enterLow_store_of_idle (s := { s with supplyLevel := level }) hidle'
        have hretained := congrArg (fun ps : Ps => ps.retained) hps
        have hretainedState := congrArg (fun ps : Ps => ps.retainedState) hps
        exact ⟨hretained, hretainedState, hstops⟩
      · obtain ⟨hps, -, hstops⟩ := State.enterLow_store_of_retaining (s := { s with supplyLevel := level }) ho hk
        refine ⟨congrArg (fun ps : Ps => ps.retainedState) hps, hstops, fun p i => ?_⟩
        have hretained := congrArg (fun ps : Ps => bankSlot ps.retained p i) hps
        exact (bankSlot_mixBank s.stops s.ps.retained s.ps.working p i).imp hretained.trans hretained.trans
    · rw [if_neg hn]
      exact ⟨_, rfl, rfl, rfl, rfl, fun _ => ⟨rfl, rfl, rfl⟩, fun _ hnormal => absurd hnormal hn⟩

/-! ### The resets -/

/-- A zone's record after a reset (R93). -/
theorem resolveZone_startUp (bank : Bank) (stop : Bool) (limits : Vector (Option LimitEntry) 6) (z : Fin 8) :
    { resolveZone bank stop limits z (Controller.startUp (zoneItem bank z)) with disturbed := false }
      = { Controller.off (zoneItem bank z).maximum with
          state := (if (zoneItem bank z).enabled = false then .off else if stop then .stopped
            else if silentCause bank limits z then .silent else .hold) } := by
  unfold resolveZone silencingCause Controller.startUp
  cases he : (zoneItem bank z).enabled with
  | false => simp [Controller.off]
  | true =>
  cases stop with
  | true => simp [Controller.off, Controller.silence]
  | false =>
  cases hq : silentCause bank limits z with
  | true => simp [Controller.off, Controller.silence]
  | false => simp [Controller.off, ZoneState.silencing]

theorem Be.startUp_estimator (bank : Bank) (b : Fin 6) :
    (Be.startUp bank).estimators[b] = if (boundaryItem bank b).enabled then some ⟨0, 0, none, []⟩ else none := by
  simp [Be.startUp, Estimator.fresh]

theorem Be.startUp_monitor (bank : Bank) (m : Fin 12) :
    (Be.startUp bank).monitors[m]
      = ⟨if (monitorBoundary bank m).isSome then .unheard else .unmapped, monitorBoundary bank m, 0⟩ := by
  simp [Be.startUp, Monitor.fresh]

theorem Ea.startUp_latch (bank : Bank) (limits : Vector (Option LimitEntry) 6) (b : Fin 6) :
    (Ea.startUp bank limits).latches[b] = ⟨false, false, false, false⟩ := by
  simp [Ea.startUp, BreachMarks.clear]

/-- The store after a reset whose retained bank is VALID, and after any other (R119). -/
theorem Ps.startUp_of_valid {ps : Ps} (h : ps.retainedState = .valid) :
    ps.startUp.working = ps.retained ∧ ps.startUp.planState = .active := by
  rw [Ps.startUp, startPlan, if_pos h, if_pos h]
  exact ⟨rfl, rfl⟩

theorem Ps.startUp_of_not_valid {ps : Ps} (h : ps.retainedState ≠ .valid) :
    ps.startUp.working = blankBank ∧ ps.startUp.planState = .noPlan := by
  rw [Ps.startUp, startPlan, if_neg h, if_neg h]
  exact ⟨rfl, rfl⟩

/-- The detail of STARTED (R191). -/
theorem startedDetail_startUp (cause : Nat) (ps : Ps) :
    startedDetail cause ps.startUp
      = natWord (cause + 16 * retainedCode ps.retainedState + 256 * (if ps.retainedState = .valid then 2 else 1)) := by
  unfold startedDetail
  by_cases h : ps.retainedState = .valid
  · rw [(Ps.startUp_of_valid h).2, if_pos h]; rfl
  · rw [(Ps.startUp_of_not_valid h).2, if_neg h]; rfl

/-- The account that a reset gives an enabled boundary (R77). -/
theorem Ea.startUp_account {bank : Bank} {limits : Vector (Option LimitEntry) 6} {b : Fin 6} {l : LimitEntry}
    (he : (boundaryItem bank b).enabled = true) (hl : limits[b] = some l) :
    (Ea.startUp bank limits).accounts[b] = some (Account.fresh.start l) := by
  simp only [Ea.startUp, Fin.getElem_fin, Vector.getElem_ofFn] at hl ⊢
  rw [if_pos he, hl]

theorem Ea.startUp_none {bank : Bank} {b : Fin 6} (he : (boundaryItem bank b).enabled = false)
    (limits : Vector (Option LimitEntry) 6) : (Ea.startUp bank limits).accounts[b] = none := by
  simp [Ea.startUp, he]

/-- The limits that fall back to the schedule while the time is UNSET name no segment (R38). -/
theorem deriveLimits_unset {bank : Bank} {b : Fin 6} (he : (boundaryItem bank b).enabled = true) :
    ∃ l, (deriveLimits bank false 0)[b] = some l ∧ l.segment = none :=
  ⟨_, by rw [deriveLimits_get, limitEntry, if_pos he], rfl⟩

/-- The supply state that a reset sets (R193). -/
theorem supplyAt_ne_normal (level : Nat) : (supplyAt level != .normal) = decide (level < 3000) := by
  by_cases h : 3000 ≤ level
  · rw [show supplyAt level = .normal from if_pos h, decide_eq_false (not_lt.2 h)]; rfl
  · rw [show supplyAt level = .low from if_neg h, decide_eq_true (not_le.1 h)]; rfl

/-- A zone's record after a reset, and its standing (R93). -/
theorem State.resetBlocks_zone (s : State) (level : Nat) (z : Fin 8) :
    (s.resetBlocks level).zc.zones[z]
        = { Controller.off (zoneItem (s.resetBlocks level).ps.working z).maximum with
            state := (if (zoneItem (s.resetBlocks level).ps.working z).enabled = false then .off
              else if s.venueStop || decide (level < 3000) then .stopped
              else if silentCause (s.resetBlocks level).ps.working (s.resetBlocks level).tb.limits z then .silent
              else .hold) }
      ∧ (s.resetBlocks level).zc.standing[z] = (s.resetBlocks level).zc.zones[z].standing := by
  have hzone := startZones_zone s.ps.startUp.working (s.venueStop || supplyAt level != .normal)
    (deriveLimits s.ps.startUp.working false 0) z
  rw [resolveZone_startUp] at hzone
  rw [← supplyAt_ne_normal]
  exact ⟨hzone, Vector.getElem_map ..⟩

/-- What a reset leaves of the retained bank (R119, R145). -/
theorem State.cutRetain_store (s : State) :
    ((∀ op, s.ps.operation = some op → op.kind ≠ .retaining) →
        s.cutRetain.ps.retained = s.ps.retained ∧ s.cutRetain.ps.retainedState = s.ps.retainedState
          ∧ s.cutRetain.stops = s.stops)
      ∧ ∀ op, s.ps.operation = some op → op.kind = .retaining →
        s.cutRetain.ps.retainedState = .invalid ∧ s.cutRetain.stops = s.stops + 1
          ∧ ∀ p i, bankSlot s.cutRetain.ps.retained p i = bankSlot s.ps.retained p i
              ∨ bankSlot s.cutRetain.ps.retained p i = bankSlot s.ps.working p i := by
  refine ⟨fun h => ?_, fun op ho hk => ?_⟩
  · rw [State.cutRetain_of_none h]
    exact ⟨rfl, rfl, rfl⟩
  · rw [State.cutRetain_of_retaining ho hk]
    exact ⟨rfl, rfl, bankSlot_mixBank _ _ _⟩

/-- What a reset cuts short is in the store alone (R119). -/
theorem State.cutRetain_writes (s : State) :
    s.cutRetain = { s with ps := s.cutRetain.ps, stops := s.cutRetain.stops } := by
  unfold State.cutRetain
  split <;> rfl

theorem State.settle_supply (s : State) : s.settle.supply = s.supply := by
  have h := outer_settle s
  simp only [State.outer, Prod.mk.injEq] at h
  exact h.2.1

/-- The two commands that reset the part perform one reset (R198). -/
theorem exec_reset {s : State} {c : Instr} {level cause : Nat}
    (h : (c = .powerReset level ∧ cause = 1 ∧ 2740 ≤ level ∧ s.supply = .off)
      ∨ (c = .restartPerformed level ∧ cause = 2 ∧ 2700 ≤ level ∧ s.supply ≠ .off ∧ s.due.restart = true)) :
    exec c s = .next (s.startUp cause level) := by
  rcases h with ⟨rfl, rfl, hl, hoff⟩ | ⟨rfl, rfl, hl, hon, hd⟩
  · simp only [exec, execPowerReset]
    rw [if_pos hoff]
    exact congrArg Host.Outcome.next (if_neg (not_lt.2 hl))
  · simp only [exec, execRestartPerformed]
    exact State.within_of_due hon (by rw [hd]; exact decide_eq_true hl) _

/-- Settles O47: `State.resetBlocks`, after a RETAIN in progress is cut short. -/
theorem resetsBringEveryBlockToItsResetState : Obligations.ResetsBringEveryBlockToItsResetState := by
  unfold Obligations.ResetsBringEveryBlockToItsResetState
  refine ⟨fun level s hl => ?_, fun level s hl hon => ?_, fun level s c cause hc => ?_⟩
  · simp only [exec, execPowerReset]
    exact congrArg Host.Outcome.next (if_pos hl)
  · have hsupply : s.settle.supply ≠ .off := by rw [State.settle_supply]; exact hon
    have hoff : (s.settle.supplyTo 0).supply = .off := by rw [State.supplyTo_of_off hsupply (by decide)]; rfl
    refine ⟨s.settle.supplyTo 0, ?_, hoff, ?_⟩
    · simp only [exec, execSupplyOff]
      rw [State.outside, if_neg hon]
      exact congrArg Host.Outcome.next (if_pos (by decide))
    · simp only [exec, execPowerReset]
      rw [if_neg hon, if_pos hoff]
      have hrise : ¬ level < Config.retentionRise := not_lt.2 hl
      rw [if_neg hrise, if_neg hrise]
  · rw [exec_reset hc, State.startUp_eq]
    obtain ⟨hidle, hretain⟩ := s.cutRetain_store
    have hbefore := s.cutRetain_writes
    generalize s.cutRetain = u at *
    have hvenue : u.venueStop = s.venueStop := by rw [hbefore]
    refine ⟨_, rfl, by rw [hbefore]; rfl, hvenue, by rw [hbefore]; rfl, by rw [hbefore]; rfl, rfl, rfl,
      by rw [hbefore]; rfl,
      rfl, ?_, rfl, rfl, rfl, rfl, rfl, rfl, rfl, rfl, rfl, rfl, fun z => ?_, hidle, hretain,
      Ps.startUp_of_valid (ps := u.ps), Ps.startUp_of_not_valid (ps := u.ps), rfl, rfl, rfl, rfl, rfl, rfl, fun b => ?_,
      fun m => ?_, rfl, fun z => ?_⟩
    · rw [startedDetail_startUp]
      rfl
    · simp [State.resetBlocks, Mb.reset, Meter.zero]
    · refine ⟨Be.startUp_estimator _ b, Ea.startUp_latch _ _ b, fun he => Ea.startUp_none he _, fun he => ?_⟩
      obtain ⟨l, hl, hsegment⟩ := deriveLimits_unset he
      refine ⟨l, hl, hsegment, ?_⟩
      rw [← hsegment]
      exact Ea.startUp_account he hl
    · exact Be.startUp_monitor _ m
    · obtain ⟨hzone, hstanding⟩ := u.resetBlocks_zone level z
      rw [hvenue] at hzone
      dsimp only
      rw [hstanding, hzone]
      exact ⟨rfl, rfl, rfl, rfl, rfl, rfl, rfl, rfl, rfl, rfl, rfl, rfl⟩

end Sys2Proof.Machine
end

section
/-! SUPPORT. The interval end, the setting that acts and the minute boundary (R27 to R34, R40, R43 to R45, R55 to R61,
R64, R78, R80 to R86, R98 to R104, R111, R115). -/

namespace Sys2Proof.Machine

/-! ### The setting and the minute boundary -/

theorem exec_timeSetAct_of_due {s : State} (h : s.supply ≠ .off) (hd : s.due.tb = some .setting) (h1 : s.due.stale = [])
    (h2 : s.due.trips = []) (h3 : s.due.frees = []) :
    exec .timeSetAct s = .next ({ s with due := { s.due with tb := none } } : State).settingNow := by
  show s.within (s.due.tb == some .setting) (fun s => s.finishSet.finishTime) = _
  rw [State.within_of_due h (by rw [hd]; rfl), State.finishSet_of_none h1 h2 h3]
  simp only [State.finishTime, hd]

theorem exec_minuteBoundary_of_due {s : State} (h : s.supply ≠ .off) (hd : s.due.tb = some .minuteBoundary)
    (h1 : s.due.stale = []) (h2 : s.due.trips = []) (h3 : s.due.frees = []) :
    exec .minuteBoundary s = .next ({ s with due := { s.due with tb := none } } : State).boundaryNow := by
  show s.within (s.due.tb == some .minuteBoundary) (fun s => s.finishSet.finishTime) = _
  rw [State.within_of_due h (by rw [hd]; rfl), State.finishSet_of_none h1 h2 h3]
  simp only [State.finishTime, hd]

/-- What follows the close of a minute, from a state that has closed it and advanced TB (R28, R81 to R86). -/
theorem State.afterClose_of_closed {s u : State} {isPartial : Bool} {tb : Tb} {replies : List Reply}
    (hu : u = { s.closeMinute isPartial with
      tb := tb, due := { s.due with tb := none }, mu := { (s.closeMinute isPartial).mu with replies := replies } })
    (hl : tb.limits = s.tb.limits) :
    let t := u.afterClose
    t = { s with
        tb := t.tb, ea := t.ea, zc := { s.zc with zones := t.zc.zones, tripLine := t.zc.tripLine }
        mu := { s.mu with
          replies := replies, alerts := t.mu.alerts, alertsLost := t.mu.alertsLost
          reports := t.mu.reports, reportsLost := t.mu.reportsLost }
        due := { s.due with tb := none, swap := t.due.swap } }
      ∧ t.tb = { tb with limits := t.tb.limits } ∧ s.MinuteClosed t isPartial ∧ s.DerivedAfterClose t := by
  have hkeeps := s.closeMinute_keeps isPartial
  have hps : u.ps = s.ps := by rw [hu, hkeeps]
  have hzc : u.zc = s.zc := by rw [hu, hkeeps]
  have hstop : u.stopCause = s.stopCause := by rw [hu, hkeeps]; rfl
  have hafter := u.afterClose_keeps
  refine ⟨?_, ?_, State.minuteClosed_afterClose (by rw [hu]) (by rw [hu]) (by rw [hu]) (by rw [hu]) (by rw [hu]),
    State.derivedAfterClose_afterClose hps hzc hstop (by rw [hu]) (by rw [hu]; exact hl) fun b a a' ha ha' => ?_⟩
  · rw [hafter, hu, hkeeps]
  · rw [hafter, hu]
  · rw [hu] at ha'
    exact State.closeMinute_start ha ha'

/-- A setting is a trim when it names the minute it acts in and moves the position little enough (R30). -/
theorem isTrim_iff_bounds (tb : Tb) (set : Setting) :
    isTrim tb set = true ↔ tb.isSet = true ∧ set.minute = tb.minute
      ∧ -16 ≤ ((set.second * 8 : Nat) : Int) - tb.position ∧ ((set.second * 8 : Nat) : Int) - tb.position ≤ 16
      ∧ -16 ≤ tb.drift + (((set.second * 8 : Nat) : Int) - tb.position)
      ∧ tb.drift + (((set.second * 8 : Nat) : Int) - tb.position) ≤ 16 := by
  rw [isTrim_iff, Setting.target]
  generalize ((set.second * 8 : Nat) : Int) - tb.position = move
  refine and_congr_right fun _ => and_congr_right fun _ => ?_
  omega

/-- Settles O37: `State.trim`, and `State.stepTime` with the close of the partial minute. -/
theorem settingActsAsTrimOrStep : Obligations.SettingActsAsTrimOrStep := by
  unfold Obligations.SettingActsAsTrimOrStep
  intro s set h hd hs h1 h2 h3
  have htrim := isTrim_iff_bounds s.tb set
  refine ⟨fun ht => ?_, fun ht => ?_⟩
  · rw [exec_timeSetAct_of_due h hd h1 h2 h3]
    simp only [State.settingNow, hs]
    rw [if_pos (htrim.2 ht)]
    rfl
  · obtain ⟨hwrites, htb, hclosed, hderived⟩ := State.afterClose_of_closed (s := s) (isPartial := true)
      (tb := { s.tb with
        isSet := true, minute := set.minute, position := set.second * 8, tally := 0, drift := 0, stepStart := true
        setting := none })
      (replies := s.mu.replies ++ [⟨0x06, set.tag, .done, 2, [natWord set.minute, natWord (set.second * 8)]⟩]) rfl rfl
    refine ⟨_, ?_, ?_, htb, ?_, hclosed, hderived⟩
    · rw [exec_timeSetAct_of_due h hd h1 h2 h3]
      simp only [State.settingNow, hs]
      rw [if_neg (fun hb => ht (htrim.1 hb)), State.stepTime, State.closeMinute_withoutTb]
      congr 2
      rw [State.closeMinute_keeps]
      rfl
    · exact hwrites.trans (by rw [hwrites])
    · rw [hwrites]

/-- Settles O38: `State.boundaryNow`. -/
theorem minuteBoundaryClosesTheMinute : Obligations.MinuteBoundaryClosesTheMinute := by
  unfold Obligations.MinuteBoundaryClosesTheMinute
  intro s h hd h1 h2 h3
  obtain ⟨hwrites, htb, hclosed, hderived⟩ := State.afterClose_of_closed (s := s) (isPartial := s.tb.stepStart)
    (tb := { s.tb with minute := nextMinute s.tb.minute, position := 0, tally := 0, drift := 0, stepStart := false })
    (replies := s.mu.replies) rfl rfl
  refine ⟨_, ?_, hwrites, htb, hclosed, hderived⟩
  rw [exec_minuteBoundary_of_due h hd h1 h2 h3, State.boundaryNow]
  dsimp only
  rw [State.closeMinute_withoutTb]
  congr 2
  rw [State.closeMinute_keeps]

/-! ### The interval end -/

/-- The state that takes a published set: the figures published, the estimates formed, silence counted and the
accounts
added up (R43 to R45, R55 to R62, R64, R78). -/
def State.measured (s : State) : State := s.publish.formEstimates.countSilence.accumulate

theorem State.intervalNow_eq (s : State) : s.intervalNow = s.measured.takeSet.countInterval := rfl

/-- What an interval end leaves of the state that took its set (R27, R98 to R104). -/
theorem State.intervalNow_measured (s : State) :
    s.intervalNow = { s.measured with
      zc := { s.measured.zc with zones := s.measured.takeSet.zc.zones, tripLine := s.measured.takeSet.zc.tripLine }
      tb := s.intervalNow.tb
      due := { s.measured.due with
        trips := s.measured.takeSet.due.trips, frees := s.measured.takeSet.due.frees, tb := s.intervalNow.due.tb }
      mu := { s.measured.mu with
        alerts := s.measured.takeSet.mu.alerts, alertsLost := s.measured.takeSet.mu.alertsLost } } := by
  have hkeep := s.measured.takeSet_keeps
  rw [State.intervalNow_eq]
  generalize s.measured.takeSet = t at *
  rw [hkeep]
  rfl

/-- TB counts the interval (R27). -/
theorem State.intervalNow_time (s : State) :
    s.intervalNow.tb = { s.tb with position := s.tb.position + 1, tally := s.tb.tally + 1 }
      ∧ s.intervalNow.due.tb
        = (if s.tb.setting.isSome then some .setting
          else if s.tb.position + 1 = 480 then some .minuteBoundary else none) := by
  have hkeep := s.measured.takeSet_keeps
  rw [State.intervalNow_eq, hkeep]
  exact ⟨rfl, rfl⟩

/-- MB publishes a zone's figures and its record returns to 0 (R43 to R45). -/
theorem State.measured_mb (s : State) (z : Fin 8) :
    s.measured.mb.published[z] = ⟨zoneLevel s.mb.meters[z].energy, zonePeak s.mb.meters[z].peak⟩
      ∧ s.measured.mb.meters[z] = ⟨0, 0, 0⟩ := by
  have hmb : s.measured.mb = s.publish.mb := rfl
  rw [hmb, State.publish]
  simp [Meter.zero]

/-- A boundary's record and its account after the estimates (R55 to R62, R78). -/
theorem State.measured_estimator (s : State) (b : Fin 6) :
    s.measured.be.estimators[b] = (s.be.estimators[b]).map (estimate s.publish b) := by
  have hbe : s.measured.be.estimators = s.publish.formEstimates.be.estimators := rfl
  rw [hbe, State.formEstimates]
  simp [State.publish]

/-- An account adds the estimates of its boundary, where there are any (R78). -/
theorem State.accumulate_some {s : State} {b : Fin 6} {a : Account} {f : BoundaryFigures}
    (ha : s.ea.accounts[b] = some a)
    (hf : (s.be.estimators[b]).bind (·.figures) = some f) :
    s.accumulate.ea.accounts[b] = some (a.addInterval f.full.corrected f.lf.corrected) := by
  simp only [State.accumulate, Fin.getElem_fin, Vector.getElem_ofFn] at ha hf ⊢
  rw [ha, hf]

theorem State.accumulate_of_account {s : State} {b : Fin 6} (ha : s.ea.accounts[b] = none) :
    s.accumulate.ea.accounts[b] = none := by
  simp only [State.accumulate, Fin.getElem_fin, Vector.getElem_ofFn] at ha ⊢
  rw [ha]

theorem State.accumulate_of_figures {s : State} {b : Fin 6} (hf : (s.be.estimators[b]).bind (·.figures) = none) :
    s.accumulate.ea.accounts[b] = s.ea.accounts[b] := by
  simp only [State.accumulate, Fin.getElem_fin, Vector.getElem_ofFn] at hf ⊢
  rw [hf]
  cases s.ea.accounts[b.val] <;> rfl

/-- A monitor after an interval end, and the monitors whose fall into STALE is due (R64). -/
theorem State.measured_monitor (s : State) (m : Fin 12) :
    s.measured.be.monitors[m] = s.be.monitors[m].countSilence := by
  have hbe : s.measured.be.monitors = s.publish.formEstimates.countSilence.be.monitors := rfl
  rw [hbe, State.countSilence]
  simp [State.formEstimates, State.publish]

theorem State.measured_stale (s : State) (m : Fin 12) :
    m ∈ s.measured.due.stale ↔
      s.measured.be.monitors[m].state = .live ∧ staleTimeout s.ps.working ≤ s.measured.be.monitors[m].silence := by
  have hdue : s.measured.due.stale = staleMonitors s.ps.working s.measured.be.monitors := rfl
  rw [hdue, staleMonitors, List.mem_filter]
  simp

/-- A published set raises its FLOOR alerts (R103). -/
theorem State.takeSet_alertsRaised (s : State) : s.AlertsRaised s.takeSet s.floorAlerts :=
  State.alertsRaised_of
    (u := { s.setZones (Vector.ofFn s.recordAfter) with
      due := { s.due with
        trips := s.due.trips ++ (List.finRange 8).filter s.tripsAt
        frees := s.due.frees ++ (List.finRange 8).filter fun z => s.freesAt z && !s.zc.zones[z].disturbed } })
    rfl rfl rfl rfl

/-- What the set does to the zones is what the rules say (R98 to R104, R111). -/
theorem State.intervalNow_set {s : State} (h : s.Settled) :
    (∀ z, s.ZoneTakesSet s.intervalNow z)
      ∧ s.AlertsRaised s.intervalNow (if s.stopCause then [] else s.floorAlertsOf s.intervalNow)
      ∧ s.intervalNow.TripLineFollows := by
  obtain ⟨-, htrips, hfrees, -⟩ := h
  have heq := s.intervalNow_measured
  have hzones : s.intervalNow.zc.zones = s.measured.takeSet.zc.zones := by rw [heq]
  have hdue : s.intervalNow.due.trips = s.measured.takeSet.due.trips
      ∧ s.intervalNow.due.frees = s.measured.takeSet.due.frees := by rw [heq]; exact ⟨rfl, rfl⟩
  have hfloor : s.measured.floorAlerts = if s.stopCause then [] else s.floorAlertsOf s.intervalNow :=
    State.floorAlerts_eq (s := s.measured) htrips hzones hdue.1
  have hmu : s.intervalNow.mu = { s.mu with
      alerts := s.measured.takeSet.mu.alerts, alertsLost := s.measured.takeSet.mu.alertsLost } := by
    rw [heq]; rfl
  refine ⟨fun z => ?_, ?_, ?_⟩
  · refine State.takeSet_zone (s := s.measured) htrips hfrees hzones hdue (by rw [heq]) (fun z d => ?_) z
    have hlimits : s.intervalNow.tb.limits = s.measured.tb.limits := by rw [s.intervalNow_time.1]; rfl
    exact isDemand_congr (by rw [heq]) (by rw [heq]) hlimits (by rw [heq])
  · obtain ⟨ha, hl⟩ := s.measured.takeSet_alertsRaised
    rw [← hfloor]
    exact ⟨by rw [hmu]; exact ha, by rw [hmu]; exact hl⟩
  · rw [State.intervalNow_eq]
    exact s.measured.takeSet_follows

/-- Settles O36: the state that takes the set, and what taking it leaves. -/
theorem intervalEndPublishesAndCounts : Obligations.IntervalEndPublishesAndCounts := by
  unfold Obligations.IntervalEndPublishesAndCounts
  intro s hon hsettled hd hframes
  have heq := s.intervalNow_measured
  obtain ⟨htb, hduetb⟩ := s.intervalNow_time
  obtain ⟨hzones, halerts, hfollows⟩ := State.intervalNow_set hsettled
  have hmb : s.intervalNow.mb = s.measured.mb := by rw [heq]
  have hbe : s.intervalNow.be = s.measured.be := by rw [heq]
  have hea : s.intervalNow.ea = s.measured.ea := by rw [heq]
  have hstale : s.intervalNow.due.stale = s.measured.due.stale := by rw [heq]
  refine ⟨_, exec_intervalEnd_of_complete ⟨hon, hsettled⟩ hd (State.intervalComplete_of_frames hframes), ?_,
    fun z => ?_,
    htb, fun b hb => ?_, fun b e hb => ?_, fun m => ?_, fun m => ?_, hzones, halerts, hfollows, hduetb⟩
  · rw [heq]; rfl
  · rw [hmb]; exact s.measured_mb z
  · rw [hbe, hea]
    have he := s.measured_estimator b
    rw [hb] at he
    exact ⟨he, State.accumulate_of_figures (s := s.publish.formEstimates.countSilence)
      (congrArg (Option.bind · Estimator.figures) he)⟩
  · rw [hbe, hea, hmb]
    have he := s.measured_estimator b
    rw [hb] at he
    have hfigures := congrArg (Option.bind · Estimator.figures) he
    exact ⟨_, he, bandFigures_spec s.publish b false e.correctionFull, bandFigures_spec s.publish b true e.correctionLf,
      unwatched_iff _ _ b, fun ha => State.accumulate_of_account (s := s.publish.formEstimates.countSilence) ha,
      fun a ha => State.accumulate_some (s := s.publish.formEstimates.countSilence) ha hfigures⟩
  · rw [hbe, s.measured_monitor m, Monitor.countSilence]
    exact ⟨fun hu => if_pos hu, fun hu => if_neg hu⟩
  · rw [hstale, hbe]
    exact s.measured_stale m

end Sys2Proof.Machine
end

section
/-! SUPPORT. The word clock period: what comes before the frame, the frame, and the messages taken after it (R40, R41,
R100, R124, R156 to R159, R174). -/

namespace Sys2Proof.Machine

/-! ### What comes before the frame -/

/-- With nothing due, no interval complete and no restart scheduled, an operation at its bound alone comes before the
frame (R48, R124, R166). -/
theorem State.beforeFrame_of_quiet {s : State} (h : s.Awake) (ht : s.due.tb = none) (hc : s.intervalComplete = false)
    (hr : s.due.restart = false) : s.beforeFrame = s.completeOverdue := by
  have hframe : s.settleFrame = s := by
    simp [State.settleFrame, State.settleAll_of_settled h.2 ht, hc]
  simp only [State.beforeFrame, hr, hframe, Bool.false_eq_true, if_false]

theorem State.completeOverdue_of_within {s : State} (h : ∀ op ∈ s.ps.operation, op.frames < opBoundMs op.kind * 48) :
    s.completeOverdue = s := by
  rw [State.completeOverdue]
  cases ho : s.ps.operation with
  | none => rfl
  | some op => exact if_neg (not_le.2 (h op ho))

theorem State.completeOverdue_of_bound {s : State} {op : Operation} (ho : s.ps.operation = some op)
    (h : opBoundMs op.kind * 48 ≤ op.frames) : s.completeOverdue = s.completeOperation op := by
  simp only [State.completeOverdue, ho]
  exact if_pos h

/-- A completion leaves no operation in progress, and the supply as it is (R124, R146). -/
theorem State.completeOperation_ends (s : State) (op : Operation) :
    (s.completeOperation op).ps.operation = none ∧ (s.completeOperation op).supply = s.supply := by
  unfold State.completeOperation State.completeCommit State.completeCheck
  repeat' split
  all_goals exact ⟨rfl, rfl⟩

/-- The command of an operation's completion completes it (R130 to R134, R142). -/
theorem exec_completion {s : State} (h : s.Awake) {op : Operation} (ho : s.ps.operation = some op) {c : Instr}
    (hc : (op.kind = .committing ∧ c = .committingCompletion) ∨ (op.kind = .copying ∧ c = .copyingCompletion)
      ∨ (op.kind = .recalling ∧ c = .recallingCompletion) ∨ (op.kind = .checking ∧ c = .checkingCompletion)
      ∨ (op.kind = .retaining ∧ c = .retainingCompletion)) :
    exec c s = .next (s.completeOperation op) := by
  have hexec {kind : OpKind} (hk : op.kind = kind) (f : State → Operation → State) :
      s.completeWhen kind f = .next (f s op) := hk ▸ State.completeWhen_of_kind h ho f
  rcases hc with ⟨hk, rfl⟩ | ⟨hk, rfl⟩ | ⟨hk, rfl⟩ | ⟨hk, rfl⟩ | ⟨hk, rfl⟩
  · simp only [State.completeOperation, hk]; exact hexec hk _
  · simp only [State.completeOperation, hk]; exact hexec hk _
  · simp only [State.completeOperation, hk]; exact hexec hk _
  · simp only [State.completeOperation, hk]; exact hexec hk _
  · simp only [State.completeOperation, hk]; exact hexec hk _

theorem exec_driveFrame {s : State} (h : s.supply ≠ .off) : exec .driveFrame s = .next s.framePeriod :=
  State.within_of_due h rfl _

/-! ### The frame does not look at the inbound queue -/

theorem State.advanceFifo_setInbound (s : State) (queue : List Message) :
    (s.setInbound queue).advanceFifo = s.advanceFifo.setInbound queue := by
  show (if s.programFrameDue.isSome then _ else if s.underflows then _ else _) = _
  rw [State.advanceFifo]
  split
  · rfl
  · split <;> rfl

theorem State.giveClass_setInbound (s : State) (queue : List Message) (c : OutClass) :
    (s.setInbound queue).giveClass c = (s.giveClass c).map fun given => (given.1, given.2.setInbound queue) := by
  cases c with
  | reply => cases hr : s.mu.replies <;> simp [State.giveClass, State.setInbound, hr]
  | alert => cases hr : s.mu.alerts <;> simp [State.giveClass, State.giveAlert, State.setInbound, hr]
  | report => cases hr : s.mu.reports <;> simp [State.giveClass, State.setInbound, hr]

theorem State.choose_setInbound (s : State) (queue : List Message) :
    (s.setInbound queue).choose = s.choose.map fun given => (given.1, given.2.setInbound queue) := by
  unfold State.choose
  rw [show (s.setInbound queue).mu.alerts = s.mu.alerts from rfl]
  cases takeUrgent s.mu.alerts with
  | some given => rfl
  | none =>
    dsimp only
    rw [show (s.setInbound queue).ltx = s.ltx from rfl, funext (s.giveClass_setInbound queue)]
    generalize classOrder s.ltx.lastClass = classes
    induction classes with
    | nil => rfl
    | cons c rest ih =>
      rw [List.findSome?_cons, List.findSome?_cons]
      cases s.giveClass c with
      | none => exact ih
      | some given => rfl

theorem State.sendWord_setInbound (s : State) (queue : List Message) (words : List Word16) (position : Nat) :
    (s.setInbound queue).sendWord words position
      = ((s.sendWord words position).1, (s.sendWord words position).2.setInbound queue) := by
  unfold State.sendWord
  split <;> rfl

theorem State.nextLane_setInbound (s : State) (queue : List Message) :
    (s.setInbound queue).nextLane = (s.nextLane.1, s.nextLane.2.setInbound queue) := by
  unfold State.nextLane
  rw [show (s.setInbound queue).ltx = s.ltx from rfl, s.choose_setInbound queue]
  cases s.ltx.sending with
  | some t => exact s.sendWord_setInbound queue t.words t.position
  | none =>
    dsimp only
    split
    · rfl
    · cases s.choose with
      | none => rfl
      | some given => exact given.2.sendWord_setInbound queue given.1 0

theorem State.sendFrame_setInbound (s : State) (queue : List Message) :
    (s.setInbound queue).sendFrame = s.sendFrame.setInbound queue := by
  rw [State.sendFrame_writes, State.sendFrame_writes, State.advanceFifo_setInbound, State.nextLane_setInbound]
  rfl

/-! ### The messages that wait -/

/-- MU takes the oldest message that waits, and then the others (R174). -/
theorem State.drain_of_canTake {s : State} {m : Message} {rest : List Message} (h : s.mu.inbound = m :: rest)
    (ht : s.canTake = true) : s.drain = ((s.setInbound rest).takeMessage m).drain := by
  rw [State.drain, State.drain, h, drainQueue, if_pos ht, State.takeMessage_inbound]
  rfl

/-! ### The frame -/

theorem State.programFrameDue_of_fifo {s : State} {x : Samples} {rest : List Samples} (hr : s.lrx.receiver = .locked)
    (hf : s.lrx.fifo = x :: rest) (h : s.ltx.primed = true ∨ rest ≠ []) : s.programFrameDue = some x := by
  unfold State.programFrameDue
  rw [hr, hf]
  cases hp : s.ltx.primed with
  | true => rfl
  | false =>
    cases rest with
    | nil => rcases h with h | h <;> simp [hp] at h
    | cons => rfl

theorem State.programFrameDue_none {s : State}
    (h : s.lrx.receiver ≠ .locked ∨ s.lrx.fifo = [] ∨ (s.ltx.primed = false ∧ s.lrx.fifo.length < 2)) :
    s.programFrameDue = none := by
  unfold State.programFrameDue
  split
  · rename_i hr hp hf
    rcases h with h | h | h
    · exact absurd hr h
    · rw [hf] at h; cases h
    · rw [hp] at h; cases h.1
  · rename_i hr hp hf
    rcases h with h | h | h
    · exact absurd hr h
    · rw [hf] at h; cases h
    · rw [hf] at h; simp at h
  · rfl

/-- A program frame is taken from the FIFO (R157, R159). -/
theorem State.programFrame_sent {s : State} {x : Samples} (h : s.programFrameDue = some x) :
    s.advanceFifo.lrx.fifo = s.lrx.fifo.tail ∧ s.advanceFifo.ltx.primed = true ∧ s.advanceFifo.lrx.flags = s.lrx.flags
      ∧ ∀ n : Fin 16, s.driveSamples[n] = driveSample s.ps.working s.zc.zones n.val x[n] := by
  rw [State.advanceFifo, State.driveSamples, h]
  refine ⟨rfl, rfl, rfl, fun n => ?_⟩
  simp

/-- A silent frame (R157). -/
theorem State.silentFrame_sent {s : State} (h : s.programFrameDue = none) :
    s.driveSamples = Vector.replicate 16 0 ∧ s.advanceFifo.lrx.fifo = s.lrx.fifo
      ∧ s.advanceFifo.ltx.primed = s.ltx.primed
      ∧ s.advanceFifo.lrx.flags = { s.lrx.flags with fifoUnderflow := s.lrx.flags.fifoUnderflow || s.underflows } := by
  rw [State.advanceFifo, State.driveSamples, h]
  refine ⟨rfl, ?_⟩
  cases hu : s.underflows with
  | true => exact ⟨rfl, rfl, by simp [State.withFlags]⟩
  | false => exact ⟨rfl, rfl, by simp⟩

/-- Settles O34: what comes before the frame, `State.sendFrame_writes`, and the messages taken after it. -/
theorem driveFrameIsSentAndCounted : Obligations.DriveFrameIsSentAndCounted := by
  unfold Obligations.DriveFrameIsSentAndCounted
  refine ⟨fun s h => ?_, fun s => ⟨fun hw => ?_, fun m rest hm ht => ?_⟩, fun s c m h hc => ?_,
    fun s op c h ht hcomplete hr ho hbound hc => ?_, fun s h => ?_⟩
  · obtain ⟨⟨hon, hsettled⟩, ht, hc, hr, -, hbound⟩ := id h
    refine ⟨_, exec_driveFrame_of_midInterval h, ?_⟩
    have hawake : s.Awake := ⟨hon, hsettled⟩
    have hnotComplete : s.intervalComplete = false := hc
    have hbefore : s.beforeFrame = s :=
      (State.beforeFrame_of_quiet hawake ht hnotComplete hr).trans (State.completeOverdue_of_within hbound)
    rw [exec_driveFrame hawake.1, State.framePeriod, hbefore]
    exact congrArg (fun t : State => Host.Outcome.next t.drain) ((s.setInbound []).sendFrame_setInbound s.mu.inbound)
  · rcases hw with hnil | hfull
    · exact State.drain_of_empty hnil
    · exact State.drain_of_waiting (decide_eq_false (not_lt.2 hfull))
  · exact State.drain_of_canTake hm (decide_eq_true ht)
  · rw [exec_of_messageOf hc, State.receive_listening h]
  · refine ⟨_, exec_completion h ho hc, (s.completeOperation_ends op).1, ?_⟩
    have hover := State.completeOverdue_of_bound ho hbound
    obtain ⟨hnone, hsupply⟩ := s.completeOperation_ends op
    have hdue : (s.completeOperation op).due = s.due := hover ▸ s.completeOverdue_due
    have hmb : (s.completeOperation op).mb = s.mb := hover ▸ s.completeOverdue_mb
    have hon : (s.completeOperation op).supply ≠ .off := hsupply ▸ h.1
    have hquiet : (s.completeOperation op).beforeFrame = s.completeOperation op := by
      rw [State.beforeFrame_of_quiet ⟨hon, by rw [State.Settled, hdue]; exact h.2⟩ (by rw [hdue]; exact ht)
        ((State.intervalComplete_of_mb hmb).trans hcomplete) (by rw [hdue]; exact hr)]
      exact State.completeOverdue_of_within (by rw [hnone]; nofun)
    rw [exec_driveFrame h.1, exec_driveFrame hon, State.framePeriod, State.framePeriod, hquiet,
      State.beforeFrame_of_quiet h ht hcomplete hr, hover]
  · rw [exec_driveFrame_of_midInterval h, State.sendFrame_writes]
    refine ⟨_, _, rfl, rfl, rfl, rfl, fun z => ⟨?_, ?_, ?_⟩, fun x rest hlocked hfifo hprimed => ?_, fun hsilent => ?_⟩
    · simp only [Fin.getElem_fin, Vector.getElem_ofFn]
      exact measureZone_eq _ _ _ _
    · exact Vector.getElem_map ..
    · exact Vector.getElem_map ..
    · obtain ⟨hrest, hprime, hflags, hsamples⟩ :=
        State.programFrame_sent (State.programFrameDue_of_fifo hlocked hfifo hprimed)
      refine ⟨hrest.trans (by rw [hfifo]; rfl), hprime, hflags, fun n => ⟨fun hz => ?_, fun z hz => ?_⟩⟩
      · rw [hsamples, driveSample, hz]
      · rw [hsamples, driveSample, hz]
    · exact State.silentFrame_sent (State.programFrameDue_none hsilent)

end Sys2Proof.Machine
end

section
/-! SUPPORT. The words of the outbound messages, and the arbiter that gives them to the lane (R161, R176 to R180,
R191, R192). -/

namespace Sys2Proof.Machine

/-! ### The words of messages -/

theorem tagWord_eq (tag : Byte) : tagWord tag = ((0 : Byte) ++ tag : BitVec 16) := by
  refine BitVec.eq_of_toNat_eq ?_
  show (tag.setWidth 16).toNat = (0#8 ++ tag).toNat
  rw [BitVec.toNat_append, BitVec.toNat_setWidth]
  have := tag.isLt
  simp
  omega

/-- The flag word of an alert (R191). -/
theorem alertFlags_eq (kind : AlertKind) (urgent lost : Bool) :
    natWord (alertKindCode kind + 2 ^ 15 * urgent.toNat + 2 ^ 14 * lost.toNat)
      = BitVec.ofBool urgent ++ BitVec.ofBool lost ++ (0 : BitVec 6) ++ BitVec.ofNat 8 (alertKindCode kind) := by
  cases kind <;> cases urgent <;> cases lost <;> rfl

/-- The flag word of a minute report (R192). -/
theorem reportFlags_eq (lost isPartial : Bool) {n : Nat} (h : n ≤ 6) :
    natWord (2 ^ 15 * lost.toNat + 2 ^ 14 * isPartial.toNat + n)
      = BitVec.ofBool lost ++ BitVec.ofBool isPartial ++ (0 : BitVec 11) ++ BitVec.ofNat 3 n := by
  interval_cases n <;> cases lost <;> cases isPartial <;> rfl

/-- The flag word of an entry of a minute report (R192). -/
theorem entryFlags_eq (m : BreachMarks) (unwatched : Bool) {b : Nat} (h : b ≤ 5) :
    natWord (b + 2 ^ 8 * unwatched.toNat + 2 ^ 9 * marksNat m)
      = (0 : BitVec 3) ++ BitVec.ofBool m.runningLf ++ BitVec.ofBool m.runningFull ++ BitVec.ofBool m.minuteLf
          ++ BitVec.ofBool m.minuteFull ++ BitVec.ofBool unwatched ++ (0 : BitVec 5) ++ BitVec.ofNat 3 b := by
  have hall : ∀ c1 c2 c3 c4 u : Bool, ∀ b : Fin 6,
      natWord (b.val + 2 ^ 8 * u.toNat + 2 ^ 9 * marksNat ⟨c1, c2, c3, c4⟩)
        = (0 : BitVec 3) ++ BitVec.ofBool c4 ++ BitVec.ofBool c3 ++ BitVec.ofBool c2
            ++ BitVec.ofBool c1 ++ BitVec.ofBool u ++ (0 : BitVec 5) ++ BitVec.ofNat 3 b.val := by decide
  exact hall m.minuteFull m.minuteLf m.runningFull m.runningLf unwatched ⟨b, by omega⟩

theorem reportEntryWords_flatMap_length (entries : List ReportEntry) :
    (entries.flatMap reportEntryWords).length = 7 * entries.length := by
  induction entries with
  | nil => rfl
  | cons e rest ih => rw [List.flatMap_cons, List.length_append, ih, List.length_cons, reportEntryWords]; simp; omega

/-- The words of a reply (R176). -/
theorem replyWords_eq (r : Reply) :
    replyWords r
      = [natWord ((r.kind ||| 0x80).toNat * 256 + (3 + (if r.result = .done then r.data else []).length)),
         (0 : Byte) ++ r.tag, natWord (resultCodeNat r.result), r.detail]
        ++ (if r.result = .done then r.data else []) := by
  rw [← tagWord_eq, Nat.add_comm 3, replyWords]
  rfl

/-- The words of an alert (R191). -/
theorem alertWords_eq (a : Alert) (lost : Bool) :
    alertWords a lost
      = [0xE004, BitVec.ofBool a.urgent ++ BitVec.ofBool lost ++ (0 : BitVec 6) ++
        BitVec.ofNat 8 (alertKindCode a.kind),
         optWord a.subject, optWord a.minute, a.detail] := by
  rw [← alertFlags_eq]
  rfl

/-- The words of a minute report (R192). -/
theorem reportWords_eq (r : MinuteReport) (lost : Bool) (h : r.entries.length ≤ 6) :
    reportWords r lost
      = [natWord (0xE1 * 256 + (3 + 7 * r.entries.length)),
         BitVec.ofBool lost ++ BitVec.ofBool r.isPartial ++ (0 : BitVec 11) ++ BitVec.ofNat 3 r.entries.length,
         optWord r.minute, natWord r.count]
        ++ r.entries.flatMap reportEntryWords := by
  rw [← reportFlags_eq lost r.isPartial h, ← reportEntryWords_flatMap_length, Nat.add_comm 3]
  rfl

/-! ### The lane's next word -/

/-- A message in transmission gives its next word (R161). -/
theorem State.nextLane_of_sending {s : State} {w : List Word16} {i : Nat} {v : Word16} (h : s.ltx.sending = some ⟨w, i⟩)
    (hv : w[i]? = some v) :
    s.nextLane
      = (v, if w.length ≤ i + 1 then s.setLane none true else s.setLane (some ⟨w, i + 1⟩) false) := by
  simp only [State.nextLane, h, State.sendWord, List.getD_eq_getElem?_getD, hv, Option.getD_some]

/-- The fill word comes after a message (R161). -/
theorem State.nextLane_of_fill {s : State} (h : s.ltx.sending = none) (hf : s.ltx.fillPending = true) :
    s.nextLane = (0xFFFF, s.setLane none false) := by
  simp only [State.nextLane, h, hf, if_true]
  rfl

/-- The header of a message given goes out at once (R161). -/
theorem State.nextLane_of_chosen {s t : State} {v : Word16} {words : List Word16} (h : s.ltx.sending = none)
    (hf : s.ltx.fillPending = false) (hc : s.choose = some (v :: words, t)) (hne : words ≠ []) :
    s.nextLane = (v, t.setLane (some ⟨v :: words, 1⟩) false) := by
  have hlen : ¬ (v :: words).length ≤ 0 + 1 := by simpa using hne
  simp only [State.nextLane, h, hf, hc, State.sendWord, if_neg hlen]
  rfl

theorem State.nextLane_of_nothing {s : State} (h : s.ltx.sending = none) (hf : s.ltx.fillPending = false)
    (hc : s.choose = none) : s.nextLane = (0xFFFF, s) := by
  simp only [State.nextLane, h, hf, hc]
  rfl

/-! ### The arbiter's choice -/

/-- The oldest urgent alert goes before any other message (R179). -/
theorem State.choose_urgent {s : State} {before after : List Alert} {a : Alert}
    (hs : s.mu.alerts = before ++ a :: after) (ha : a.urgent = true) (hb : ∀ x ∈ before, x.urgent = false) :
    s.choose = some (s.giveAlert a (before ++ after)) := by
  rw [State.choose, hs, takeUrgent_of_urgent ha hb]

/-- Without an urgent alert the classes rotate (R179). -/
theorem State.choose_rotates {s : State} (h : ∀ x ∈ s.mu.alerts, x.urgent = false) :
    s.choose = (classOrder s.ltx.lastClass).findSome? s.giveClass := by
  rw [State.choose, takeUrgent_of_none h]

theorem State.choose_reply {s : State} (h : ∀ x ∈ s.mu.alerts, x.urgent = false) {r : Reply} {rest : List Reply}
    (hr : s.mu.replies = r :: rest)
    (hturn : s.ltx.lastClass = .report ∨ (s.ltx.lastClass = .alert ∧ s.mu.reports = [])
      ∨ (s.mu.alerts = [] ∧ s.mu.reports = [])) :
    s.choose = some (replyWords r,
      { s with mu := { s.mu with replies := rest }, ltx := { s.ltx with lastClass := .reply } }) := by
  rw [State.choose_rotates h]
  rcases hturn with hlast | ⟨hlast, hreports⟩ | ⟨halerts, hreports⟩
  · simp [hlast, classOrder, State.giveClass, hr]
  · simp [hlast, classOrder, State.giveClass, hr, hreports]
  · cases s.ltx.lastClass <;> simp [classOrder, State.giveClass, hr, halerts, hreports]

theorem State.choose_alert {s : State} (h : ∀ x ∈ s.mu.alerts, x.urgent = false) {a : Alert} {rest : List Alert}
    (ha : s.mu.alerts = a :: rest)
    (hturn : s.ltx.lastClass = .reply ∨ (s.ltx.lastClass = .report ∧ s.mu.replies = [])
      ∨ (s.mu.replies = [] ∧ s.mu.reports = [])) :
    s.choose = some (s.giveAlert a rest) := by
  rw [State.choose_rotates h]
  rcases hturn with hlast | ⟨hlast, hreplies⟩ | ⟨hreplies, hreports⟩
  · simp [hlast, classOrder, State.giveClass, ha]
  · simp [hlast, classOrder, State.giveClass, ha, hreplies]
  · cases s.ltx.lastClass <;> simp [classOrder, State.giveClass, ha, hreplies, hreports]

theorem State.choose_report {s : State} (h : ∀ x ∈ s.mu.alerts, x.urgent = false) {r : MinuteReport}
    {rest : List MinuteReport} (hr : s.mu.reports = r :: rest)
    (hturn : s.ltx.lastClass = .alert ∨ (s.ltx.lastClass = .reply ∧ s.mu.alerts = [])
      ∨ (s.mu.replies = [] ∧ s.mu.alerts = [])) :
    s.choose = some (reportWords r s.mu.reportsLost,
      { s with
        mu := { s.mu with reports := rest, reportsLost := false }, ltx := { s.ltx with lastClass := .report } }) := by
  rw [State.choose_rotates h]
  rcases hturn with hlast | ⟨hlast, halerts⟩ | ⟨hreplies, halerts⟩
  · simp [hlast, classOrder, State.giveClass, hr]
  · simp [hlast, classOrder, State.giveClass, hr, halerts]
  · cases s.ltx.lastClass <;> simp [classOrder, State.giveClass, hr, hreplies, halerts]

theorem State.choose_nothing {s : State} (hreplies : s.mu.replies = []) (halerts : s.mu.alerts = [])
    (hreports : s.mu.reports = []) : s.choose = none := by
  rw [State.choose_rotates (by rw [halerts]; nofun)]
  cases s.ltx.lastClass <;> simp [classOrder, State.giveClass, hreplies, halerts, hreports]

/-! ### The lane word of a frame -/

/-- The lane word, MU and LTX after a frame are what the arbiter leaves (R161). -/
theorem State.sendFrame_lane (s : State) :
    ∃ f, s.sendFrame.driveOut = some f ∧ f.lane = laneWord s.advanceFifo.nextLane.1
      ∧ s.sendFrame.mu = s.advanceFifo.nextLane.2.mu
      ∧ s.sendFrame.ltx = { s.advanceFifo.nextLane.2.ltx with primed := s.advanceFifo.ltx.primed } := by
  have hlane := s.advanceFifo.nextLane_writes
  have hmu : s.advanceFifo.mu = s.mu := by rw [State.advanceFifo_writes]
  rw [State.sendFrame_writes]
  refine ⟨_, rfl, rfl, ?_, rfl⟩
  generalize s.advanceFifo.nextLane.2 = t at *
  rw [hlane, hmu]

/-- The decision between program and silence leaves the lane and the outbound queues alone (R157). -/
theorem State.advanceFifo_lane (s : State) :
    s.advanceFifo.mu = s.mu ∧ s.advanceFifo.ltx.sending = s.ltx.sending
      ∧ s.advanceFifo.ltx.fillPending = s.ltx.fillPending ∧ s.advanceFifo.ltx.lastClass = s.ltx.lastClass := by
  rw [State.advanceFifo_writes]
  exact ⟨rfl, rfl, rfl, rfl⟩

/-- Settles O35: the words of the three messages, and the cases of `State.nextLane`. -/
theorem laneWordFollowsTheArbiter : Obligations.LaneWordFollowsTheArbiter := by
  unfold Obligations.LaneWordFollowsTheArbiter
  intro absent limit
  have habsent : ∀ n, optWord n = absent n := by
    intro n; cases n <;> rfl
  have hlimit : ∀ l, limitWord l = limit l := by
    intro l; cases l <;> rfl
  refine ⟨fun r => ?_, fun a lost => ?_, fun r lost hlen hb => ?_, fun s h => ?_⟩
  · rw [replyWords_eq]
    cases r.result <;> rfl
  · rw [alertWords_eq, habsent, habsent]
    cases a.kind <;> rfl
  · rw [reportWords_eq r lost hlen, habsent]
    refine congrArg _ (List.flatMap_congr fun e he => ?_)
    rw [← hlimit, ← hlimit, ← entryFlags_eq e.entry.marks e.entry.unwatched (hb e he)]
    rfl
  · obtain ⟨f, hout, hlane, hmu, hltx⟩ := s.sendFrame_lane
    obtain ⟨hamu, hasending, hafill, halast⟩ := s.advanceFifo_lane
    generalize s.advanceFifo = u at *
    rw [← hamu, ← hasending, ← hafill, ← halast]
    have hvalue : laneValue f.lane = u.nextLane.1 := by rw [hlane, laneValue_laneWord]
    refine ⟨_, f, exec_driveFrame_of_midInterval h, hout, by rw [hlane]; exact laneGood_laneWord _, ?_⟩
    rw [hvalue, hmu, hltx]
    refine ⟨fun w i v hs hv => ?_, fun hs hf => ?_, fun hs hf => ⟨fun before a after ha hurgent hbefore => ?_,
      fun hnone => ⟨fun r rest hr hturn => ?_, fun a rest ha hturn => ?_, fun r rest hr hturn => ?_,
        fun hreplies halerts hreports => ?_⟩⟩⟩
    · rw [State.nextLane_of_sending hs hv]
      dsimp only
      refine ⟨rfl, ?_, fun hend => ?_, fun hmore => ?_⟩
      · split <;> rfl
      · rw [if_pos hend.ge]; exact ⟨rfl, rfl⟩
      · rw [if_neg (not_le.2 hmore)]; rfl
    · rw [State.nextLane_of_fill hs hf]
      exact ⟨rfl, rfl, rfl, rfl⟩
    · rw [State.nextLane_of_chosen hs hf (State.choose_urgent ha hurgent hbefore) (by simp)]
      exact ⟨rfl, rfl, rfl, rfl⟩
    · rw [State.nextLane_of_chosen hs hf (State.choose_reply hnone hr hturn) (by simp)]
      exact ⟨rfl, rfl, rfl, rfl⟩
    · rw [State.nextLane_of_chosen hs hf (State.choose_alert hnone ha hturn) (by simp)]
      exact ⟨rfl, rfl, rfl, rfl⟩
    · rw [State.nextLane_of_chosen hs hf (State.choose_report hnone hr hturn) (by simp)]
      exact ⟨rfl, rfl, rfl, rfl⟩
    · rw [State.nextLane_of_nothing hs hf (State.choose_nothing hreplies halerts hreports)]
      exact ⟨rfl, rfl, hs, rfl⟩

end Sys2Proof.Machine
end

section
/-! SUPPORT. The program link: the carrier, the search and the confirmation (R148 to R152, R154, R169). -/

namespace Sys2Proof.Machine

/-! ### Leaving LOCKED and losing the carrier -/

/-- In NO_CARRIER the carrier is lost already (R149). -/
theorem State.loseCarrier_of_lost {s : State} (h : s.lrx.receiver = .noCarrier) : s.loseCarrier = s := if_pos h

/-- The carrier is lost in SEARCH or CONFIRM (R149). -/
theorem State.loseCarrier_of_unlocked {s : State} (h : s.lrx.receiver ≠ .noCarrier) (hl : s.lrx.receiver ≠ .locked) :
    s.loseCarrier = ({ s with lrx := { s.lrx with
      receiver := .noCarrier, mismatches := 0, kept := [], carrier := 432, changed := false
      flags := { s.lrx.flags with carrierLost := true } } } : State).raise .link false none 4 := by
  rw [State.loseCarrier, if_neg h, if_neg hl]
  rfl

/-- The carrier is lost in LOCKED (R149, R154, R169). -/
theorem State.loseCarrier_of_locked {s : State} (h : s.lrx.receiver = .locked) :
    s.loseCarrier = ({ s with
      lrx := { s.lrx with
        receiver := .noCarrier, mismatches := 0, kept := [], carrier := 432, changed := false, fifo := []
        assembler := .skip
        flags := { s.lrx.flags with
          carrierLost := true, lockLost := true
          laneTruncated := s.lrx.flags.laneTruncated ||
            (match s.lrx.assembler with
             | .collecting _ => true
             | _ => false) } }
      ltx := { s.ltx with primed := false } } : State).raise .link false none 4 := by
  have hne : s.lrx.receiver ≠ .noCarrier := by rw [h]; nofun
  rw [State.loseCarrier, if_neg hne, if_pos h]
  exact congrArg (fun u : State => ({ u with lrx := { u.lrx with
    receiver := .noCarrier, mismatches := 0, kept := [], carrier := 432, changed := false
    flags := { u.lrx.flags with carrierLost := true } } } : State).raise .link false none 4) s.unlock_writes

/-- The line changes to the level of the bit before its period (R149). -/
theorem State.passPeriod_lineChange {s : State} {bit : Bool} (h : bit ≠ s.lrx.lineLevel) :
    s.passPeriod bit = s.lineChange.passPeriod bit := by
  have hlevel : s.lineChange.lrx.lineLevel = bit := by
    have hchange : s.lineChange.lrx.lineLevel = !s.lrx.lineLevel := by
      unfold State.lineChange
      dsimp only
      split <;> rfl
    rw [hchange]
    cases bit <;> cases hl : s.lrx.lineLevel <;> simp_all
  rw [State.passPeriod, if_neg h, State.passPeriod, if_pos hlevel.symm]

/-- A period without a change in NO_CARRIER leaves the receiver as it is (R149). -/
theorem State.passPeriod_of_lost {s : State} (hc : s.lrx.carrier = 432) (hchanged : s.lrx.changed = false) :
    s.passPeriod s.lrx.lineLevel = s := by
  have hend : s.lrx.endPeriod = s.lrx := by
    have hheld : min 432 (s.lrx.carrier + 1) = s.lrx.carrier := by omega
    rw [Lrx.endPeriod, if_neg (by rw [hchanged]; nofun)]
    exact congrArg (fun n => ({ s.lrx with carrier := n } : Lrx)) hheld
  rw [State.passPeriod, if_pos rfl, hend]

/-- Settles O39: a change of the line, and the loss of the carrier by the receiver's state. -/
theorem carrierIsFollowed : Obligations.CarrierIsFollowed := by
  unfold Obligations.CarrierIsFollowed
  intro s h
  have hline : exec .lineTransition s = .next s.lineChange := State.outside_of_awake h _
  have hlost : exec .carrierLost s = .next s.loseCarrier := State.outside_of_awake h _
  refine ⟨fun hr => ?_, fun hr => ?_, fun bit bits u hbit hu => ?_, fun bit bits hr hc hchanged hbit => ?_,
    fun hr => ?_,
    fun hr => ?_⟩
  · rw [hline]
    exact congrArg (fun l => Host.Outcome.next ({ s with lrx := l } : State)) (if_neg hr)
  · rw [hline]
    exact congrArg (fun l => Host.Outcome.next ({ s with lrx := l } : State)) (if_pos hr)
  · rw [hline] at hu
    cases hu
    rw [State.receiveBits, State.receiveBits, State.passPeriod_lineChange hbit]
  · subst hbit
    rw [State.receiveBits, State.passPeriod_of_lost hc hchanged]
    exact (if_pos hc).trans (by rw [State.loseCarrier_of_lost hr])
  · rw [hlost, State.loseCarrier_of_lost hr]
  · by_cases hl : s.lrx.receiver = .locked
    · rw [hlost, State.loseCarrier_of_locked hl]
      exact ⟨_, rfl, rfl, State.alertsRaised_raise rfl, fun _ => ⟨rfl, rfl⟩, fun hne => absurd hl hne⟩
    · rw [hlost, State.loseCarrier_of_unlocked hr hl]
      exact ⟨_, rfl, rfl, State.alertsRaised_raise rfl, fun hlocked => absurd hlocked hl, fun _ => ⟨rfl, rfl⟩⟩

/-! ### Bits in SEARCH and in CONFIRM -/

/-- The bit period of a bit below the bound of the carrier count (R149). -/
theorem Lrx.track_of_carrier {l : Lrx} (h : l.carrier < 432) (bit : Bool) :
    l.track bit = { l with
      lineLevel := bit, changed := false
      carrier := if bit = l.lineLevel ∧ l.changed = false then l.carrier + 1 else 0 } := by
  have hheld : min 432 (l.carrier + 1) = l.carrier + 1 := by omega
  rw [Lrx.track_eq, hheld]
  by_cases hstill : bit = l.lineLevel ∧ l.changed = false
  · rw [if_pos hstill, if_neg (by simp [hstill])]
  · rw [if_neg hstill, if_pos (by rw [← Bool.not_eq_false]; tauto)]

/-- A bit that does not complete the 432 periods keeps the carrier (R149). -/
theorem Lrx.track_keeps_carrier {l : Lrx} (h : l.carrier < 432) {bit : Bool}
    (hk : ¬ ((bit = l.lineLevel ∧ l.changed = false) ∧ l.carrier = 431)) : (l.track bit).carrier < 432 := by
  rw [Lrx.track_of_carrier h]
  by_cases hstill : bit = l.lineLevel ∧ l.changed = false
  · have hne : l.carrier ≠ 431 := fun hc => hk ⟨hstill, hc⟩
    rw [if_pos hstill]
    show l.carrier + 1 < 432
    omega
  · rw [if_neg hstill]
    exact Nat.zero_lt_succ _

/-- A bit that completes the 432 periods brings the carrier count to its bound (R149). -/
theorem Lrx.track_loses_carrier {l : Lrx} {bit : Bool} (hs : bit = l.lineLevel ∧ l.changed = false)
    (hc : l.carrier = 431) : l.track bit = { l with carrier := 432 } := by
  obtain ⟨rfl, hchanged⟩ := hs
  rw [Lrx.track_of_carrier (by omega), if_pos ⟨rfl, hchanged⟩, hc, ← hchanged]

/-- A bit examined in SEARCH: the last 24 bits are the sync word, or the search goes on (R150). -/
theorem Lrx.examine_of_search {l : Lrx} (h : l.receiver = .search) (bit : Bool) :
    let window := (l.window <<< 1) ||| (if bit then 1 else 0)
    let found := 23 ≤ l.seen ∧ window = 0x3A6C95
    l.examine bit = { l with
      window := window, seen := min 24 (l.seen + 1), receiver := if found then .confirm else .search
      kept := if found then [] else l.kept } := by
  intro window found
  have hfound : (min 24 (l.seen + 1) = 24 ∧ window = Config.syncWord) ↔ found :=
    and_congr_left fun _ => by omega
  unfold Lrx.examine
  rw [h]
  dsimp only
  by_cases hf : found
  · rw [if_pos (hfound.2 hf), if_pos hf, if_pos hf]
  · rw [if_neg (fun hc => hf (hfound.1 hc)), if_neg hf, if_neg hf, ← h]

/-- A bit received in SEARCH (R150). -/
theorem State.examineBit_of_search {s : State} (h : s.lrx.receiver = .search) (bit : Bool) :
    s.examineBit bit = { s with lrx := s.lrx.examine bit } := by
  refine if_neg ?_
  obtain ⟨window, seen, hexamine | hexamine⟩ := Lrx.examine_search h bit
  · rw [hexamine]
    exact fun ⟨_, hlength⟩ => by cases hlength
  · rw [hexamine]
    exact fun ⟨hconfirm, _⟩ => by cases h.symm.trans hconfirm

theorem exec_syncCandidate {s : State} (h : s.Awake) (hr : s.lrx.receiver = .search) (bits : List Bool) :
    exec (.syncCandidate bits) s = .next (s.receiveBits bits) := by
  simp only [exec, execSyncCandidate]
  rw [State.outside_of_awake h, if_pos hr]

theorem exec_syncConfirm {s : State} (h : s.Awake) (hr : s.lrx.receiver = .confirm) (bits : List Bool) :
    exec (.syncConfirm bits) s = .next (s.receiveBits bits) := by
  simp only [exec, execSyncConfirm]
  rw [State.outside_of_awake h, if_pos hr]

/-- The bit that completes the 432 periods, outside LOCKED (R149). -/
theorem State.receiveBits_completes {s : State} (h : s.lrx.receiver ≠ .noCarrier) (hl : s.lrx.receiver ≠ .locked)
    {bit : Bool} (hs : bit = s.lrx.lineLevel ∧ s.lrx.changed = false) (hc : s.lrx.carrier = 431) (bits : List Bool) :
    s.receiveBits (bit :: bits)
      = (({ s with lrx := { s.lrx with
          receiver := .noCarrier, mismatches := 0, kept := [], carrier := 432
          flags := { s.lrx.flags with carrierLost := true } } } : State).raise .link false none 4).receiveBits bits := by
  have htrack := Lrx.track_loses_carrier hs hc
  have hreceiver : (s.lrx.track bit).receiver = s.lrx.receiver := by rw [htrack]
  rw [State.receiveBits_lose h (by rw [htrack]), State.loseCarrier_of_unlocked (by rw [hreceiver]; exact h)
    (by rw [hreceiver]; exact hl), htrack]
  exact congrArg (fun changed => (({ s with lrx := { s.lrx with
    receiver := .noCarrier, mismatches := 0, kept := [], carrier := 432, changed := changed
    flags := { s.lrx.flags with carrierLost := true } } } : State).raise .link false none 4).receiveBits bits) hs.2.symm

/-- Settles O40: a bit that keeps the carrier is examined, and one that completes the periods loses it. -/
theorem searchFindsTheCandidate : Obligations.SearchFindsTheCandidate := by
  unfold Obligations.SearchFindsTheCandidate
  intro bit bits s h hr hc
  have hcarrier : s.lrx.receiver ≠ .noCarrier := by rw [hr]; nofun
  rw [exec_syncCandidate h hr, exec_syncCandidate h hr]
  refine ⟨fun hk => ?_, fun ⟨hs, hc431⟩ => ?_⟩
  · have hkeeps := Lrx.track_keeps_carrier hc hk
    have hsearch : ({ s with lrx := s.lrx.track bit } : State).lrx.receiver = .search := by
      rw [Lrx.track_of_carrier hc]; exact hr
    rw [State.receiveBits_examine hcarrier hkeeps, State.receiveBits_examine hcarrier hkeeps,
      State.examineBit_of_search hsearch, Lrx.examine_of_search hsearch, Lrx.track_of_carrier hc]
    exact ⟨rfl, rfl⟩
  · rw [State.receiveBits_completes hcarrier (by rw [hr]; nofun) hs hc431,
      State.receiveBits_completes hcarrier (by rw [hr]; nofun) hs hc431]
    exact ⟨_, rfl, rfl, rfl, State.alertsRaised_raise rfl⟩

/-! ### The comparison one frame after the candidate -/

/-- The bits of the word that a list of bits spells, the last bit the least significant (R186). -/
theorem wordOfBits_bit (bits : List Bool) {i : Nat} (hi : i < 24) :
    (wordOfBits bits).getLsbD i = bits.reverse.getD i false := by
  induction bits using List.reverseRecOn generalizing i with
  | nil => simp [wordOfBits]
  | append_singleton bits b ih =>
    have hword : wordOfBits (bits ++ [b]) = (wordOfBits bits <<< 1) ||| (if b then 1 else 0) := by
      simp [wordOfBits, List.foldl_append]
    rw [hword, List.reverse_append]
    cases i with
    | zero => cases b <;> simp
    | succ i =>
      have hbit := ih (i := i) (by omega)
      cases b <;> simpa [hi, show i < 24 by omega] using hbit

/-- Twenty-four bits are those of the word they spell (R186). -/
theorem wordBits_wordOfBits {bits : List Bool} (h : bits.length = 24) : wordBits (wordOfBits bits) = bits := by
  refine List.ext_getElem (by simp [wordBits, h]) fun i hi hi' => ?_
  simp only [wordBits, List.getElem_map, List.getElem_range, BitVec.getMsbD]
  have hlt : i < 24 := by omega
  rw [wordOfBits_bit bits (by omega), decide_eq_true hlt, Bool.true_and, List.getD_eq_getElem?_getD,
    List.getElem?_reverse (by omega), h, show 24 - 1 - (24 - 1 - i) = i by omega, List.getElem?_eq_getElem hi',
    Option.getD_some]

/-- Twenty-four bits spell the sync word exactly when they are its bits (R151). -/
theorem wordOfBits_eq_sync {bits : List Bool} (h : bits.length = 24) :
    wordOfBits bits = Config.syncWord ↔ bits = wordBits 0x3A6C95 := by
  refine ⟨fun hw => ?_, fun hb => ?_⟩
  · rw [← wordBits_wordOfBits h, hw]; rfl
  · rw [hb]; decide

/-- A bit kept in CONFIRM before the 432nd (R151). -/
theorem State.examineBit_keeps {s : State} (h : s.lrx.receiver = .confirm) (hl : s.lrx.kept.length < 431) (bit : Bool) :
    s.examineBit bit = { s with lrx := { s.lrx with kept := s.lrx.kept ++ [bit] } } := by
  unfold State.examineBit
  rw [Lrx.examine_confirm h]
  refine if_neg fun hfull => ?_
  have hlength : (s.lrx.kept ++ [bit]).length = 432 := hfull.2
  rw [List.length_append, List.length_singleton] at hlength
  omega

/-- The 432nd bit kept in CONFIRM (R151). -/
theorem State.examineBit_decides {s : State} (h : s.lrx.receiver = .confirm) (hl : s.lrx.kept.length = 431)
    (bit : Bool) :
    s.examineBit bit = ({ s with lrx := { s.lrx with kept := s.lrx.kept ++ [bit] } } : State).confirmCandidate := by
  unfold State.examineBit
  rw [Lrx.examine_confirm h]
  exact if_pos ⟨h, by rw [List.length_append, hl]; rfl⟩

/-- The candidate is confirmed or abandoned by the last 24 of the bits kept (R151, R152). -/
theorem State.confirmCandidate_eq {s : State} (h : s.lrx.kept.length = 432) :
    (s.lrx.kept.drop 408 = wordBits 0x3A6C95 → s.confirmCandidate = s.gainLock)
      ∧ (s.lrx.kept.drop 408 ≠ wordBits 0x3A6C95 → s.confirmCandidate = { s with lrx := s.lrx.abandonCandidate }) := by
  have hiff := wordOfBits_eq_sync (bits := s.lrx.kept.drop 408) (by rw [List.length_drop, h])
  exact ⟨fun hw => if_pos (hiff.2 hw), fun hw => if_neg fun hc => hw (hiff.1 hc)⟩

/-- Settles O41: the bit is kept, or decides the candidate, or completes the periods without a change. -/
theorem confirmDecidesTheLock : Obligations.ConfirmDecidesTheLock := by
  unfold Obligations.ConfirmDecidesTheLock
  intro bit bits s h hr hkept hc
  have hcarrier : s.lrx.receiver ≠ .noCarrier := by rw [hr]; nofun
  rw [exec_syncConfirm h hr, exec_syncConfirm h hr]
  intro still l
  by_cases hk : still ∧ s.lrx.carrier = 431
  · obtain ⟨hs, hc431⟩ := id hk
    rw [State.receiveBits_completes hcarrier (by rw [hr]; nofun) hs hc431,
      State.receiveBits_completes hcarrier (by rw [hr]; nofun) hs hc431]
    exact ⟨_, rfl, rfl, rfl, fun hn => absurd hk hn, fun _ => ⟨State.alertsRaised_raise rfl, rfl⟩⟩
  · have hkeeps := Lrx.track_keeps_carrier hc hk
    have hconfirm : ({ s with lrx := s.lrx.track bit } : State).lrx.receiver = .confirm := by
      rw [Lrx.track_of_carrier hc]; exact hr
    have hl : { s.lrx.track bit with kept := (s.lrx.track bit).kept ++ [bit] } = l := by
      rw [Lrx.track_of_carrier hc]
    have hlen : (s.lrx.track bit).kept.length = s.lrx.kept.length := by rw [Lrx.track_of_carrier hc]
    rw [State.receiveBits_examine hcarrier hkeeps, State.receiveBits_examine hcarrier hkeeps]
    by_cases hshort : s.lrx.kept.length < 431
    · rw [State.examineBit_keeps hconfirm (hlen ▸ hshort)]
      dsimp only
      rw [hl]
      exact ⟨_, rfl, rfl, rfl, fun _ => ⟨fun _ => ⟨rfl, rfl⟩, fun he => absurd he hshort.ne,
        fun he => absurd he hshort.ne⟩,
        fun hlost => absurd hlost hk⟩
    · have hfull : s.lrx.kept.length = 431 := by omega
      have hl432 : l.kept.length = 432 := by
        show (s.lrx.kept ++ [bit]).length = 432
        rw [List.length_append, hfull]; rfl
      obtain ⟨hgain, habandon⟩ := State.confirmCandidate_eq (s := { s with lrx := l }) hl432
      rw [State.examineBit_decides hconfirm (hlen ▸ hfull)]
      dsimp only
      rw [hl]
      by_cases hsync : l.kept.drop 408 = wordBits 0x3A6C95
      · rw [hgain hsync]
        exact ⟨_, rfl, rfl, rfl, fun _ => ⟨fun hlt => absurd hlt hshort,
          fun _ _ => ⟨rfl, State.alertsRaised_raise rfl⟩, fun _ hne => absurd hsync hne⟩, fun hlost => absurd hlost hk⟩
      · rw [habandon hsync]
        exact ⟨_, rfl, rfl, rfl, fun _ => ⟨fun hlt => absurd hlt hshort, fun _ he => absurd he hsync,
          fun _ _ => ⟨rfl, rfl⟩⟩, fun hlost => absurd hlost hk⟩

end Sys2Proof.Machine
end

section
/-! SUPPORT. Frames of the program link: the sync position, the frame taken and the frame discarded (R149, R153 to
R155, R169 to R174). -/

namespace Sys2Proof.Machine

/-! ### The carrier over the bits of a frame -/

theorem wordBits_length (w : LinkWord) : (wordBits w).length = 24 := by simp [wordBits]

theorem bodyBits_length (samples : Samples) (lane : LinkWord) : (bodyBits samples lane).length = 408 := by
  have hwords (ws : List LinkWord) : (ws.flatMap wordBits).length = 24 * ws.length := by
    induction ws with
    | nil => rfl
    | cons w rest ih => rw [List.flatMap_cons, List.length_append, ih, wordBits_length, List.length_cons]; omega
  rw [bodyBits, List.length_append, hwords, wordBits_length, Vector.length_toList]

/-- The line holds the level of the last bit (R149). -/
theorem Lrx.track_append_eq (l : Lrx) (before : List Bool) (bit : Bool) :
    (before ++ [bit]).foldl Lrx.track l = { l with
      carrier := ((before ++ [bit]).foldl Lrx.track l).carrier, lineLevel := bit, changed := false } := by
  have hkeeps := l.track_keeps before
  rw [List.foldl_append, List.foldl_cons, List.foldl_nil, Lrx.track_eq]
  generalize before.foldl Lrx.track l = u at *
  rw [hkeeps]

/-- Following the carrier over a bit or more leaves the period of the last one ended (R149). -/
theorem Lrx.track_of_ne_nil (l : Lrx) {bits : List Bool} (h : bits ≠ []) :
    bits.foldl Lrx.track l = { l with
      carrier := (bits.foldl Lrx.track l).carrier, lineLevel := (bits.foldl Lrx.track l).lineLevel
      changed := false } := by
  rcases List.eq_nil_or_concat bits with hnil | ⟨before, bit, rfl⟩
  · exact absurd hnil h
  · rw [List.concat_eq_append, Lrx.track_append_eq]

/-- The carrier is lost in LOCKED within some bits (R149, R154, R169). -/
theorem State.loseCarrier_of_tracked {s : State} (h : s.lrx.receiver = .locked) (before : List Bool) (bit : Bool)
    (mismatches : Nat) :
    ({ s with lrx := { (before ++ [bit]).foldl Lrx.track s.lrx with mismatches := mismatches } } : State).loseCarrier
      = { s.loseCarrier with lrx := { s.loseCarrier.lrx with lineLevel := bit } } := by
  rw [Lrx.track_append_eq]
  generalize ((before ++ [bit]).foldl Lrx.track s.lrx).carrier = carrier
  rw [State.loseCarrier_of_locked h]
  exact State.loseCarrier_of_locked h

theorem State.loseCarrier_receiver (s : State) : s.loseCarrier.lrx.receiver = .noCarrier := by
  unfold State.loseCarrier
  split
  · assumption
  · rfl

/-- Once the carrier is lost the rest of a frame does not bring the lock back (R149 to R152). -/
theorem State.receiveBits_after_loss (s : State) {bits : List Bool} (h : bits.length < 432) :
    (s.loseCarrier.receiveBits bits).lrx.receiver ≠ .locked :=
  State.receiveBits_not_locked h (Lrx.bitsFromLock_of_lost s.loseCarrier_receiver _)

/-! ### The sync position -/

/-- What leaving LOCKED for SEARCH does (R154). -/
theorem State.leaveLocked_eq (s : State) (detail : Nat) :
    s.leaveLocked detail = ({ s with
      lrx := { s.lrx with
        receiver := .search, mismatches := 0, window := 0, seen := 0, kept := [], fifo := [], assembler := .skip
        flags := { s.lrx.flags with
          lockLost := true
          laneTruncated := s.lrx.flags.laneTruncated ||
            (match s.lrx.assembler with
             | .collecting _ => true
             | _ => false) } }
      ltx := { s.ltx with primed := false } } : State).raise .link false none (natWord detail) :=
  congrArg (fun u : State => ({ u with lrx := u.lrx.beginSearch } : State).raise .link false none (natWord detail))
    s.unlock_writes

/-- The fourth sync mismatch in a row loses the lock (R153, R154). -/
theorem State.takeSync_of_fourth {s : State} {sync : LinkWord} (hr : s.lrx.receiver = .locked)
    (hm : s.lrx.mismatches = 3) (hs : sync ≠ 0x3A6C95) (hc : s.lrx.keepsCarrier (wordBits sync) = true) :
    s.takeSync sync = ({ s with lrx := (wordBits sync).foldl Lrx.track s.lrx } : State).leaveLocked 1 := by
  have hmismatches : ((wordBits sync).foldl Lrx.track s.lrx).mismatches = 3 := by rw [Lrx.track_keeps]; exact hm
  have hlocked : ((wordBits sync).foldl Lrx.track s.lrx).receiver = .locked := by rw [Lrx.track_keeps]; exact hr
  have hcount : mismatchesAfter 3 sync = 4 := if_neg hs
  rw [State.takeSync, State.receiveBits_of_locked hr hc]
  dsimp only
  rw [if_pos hlocked, State.judgeSync]
  dsimp only
  rw [hmismatches, hcount]
  rfl

/-- The carrier is lost within the sync position (R149). -/
theorem State.takeSync_of_lost {s : State} {sync : LinkWord} {before after : List Bool} {bit : Bool}
    (hr : s.lrx.receiver = .locked) (hbits : wordBits sync = before ++ bit :: after)
    (hc : s.lrx.keepsCarrier before = true) (hl : ((before ++ [bit]).foldl Lrx.track s.lrx).carrier = 432) :
    s.takeSync sync
      = (({ s with lrx := (before ++ [bit]).foldl Lrx.track s.lrx } : State).loseCarrier).receiveBits after := by
  have hlength : after.length < 432 := by
    have := wordBits_length sync
    rw [hbits, List.length_append, List.length_cons] at this
    omega
  rw [State.takeSync, hbits, State.receiveBits_of_lost hr hc hl]
  exact if_neg (State.receiveBits_after_loss _ hlength)

theorem exec_lockLost {s : State} {sync : LinkWord} (h : s.Awake) (hr : s.lrx.receiver = .locked)
    (hm : s.lrx.mismatches = 3) (hs : sync ≠ 0x3A6C95) : exec (.lockLost sync) s = .next (s.takeSync sync) := by
  simp only [exec, execLockLost]
  rw [State.outside_of_awake h]
  exact congrArg Host.Outcome.next (if_pos ⟨hr, hm, hs⟩)

/-- Settles O43: the sync position that loses the lock, and the one that loses the carrier first. -/
theorem fourthMismatchLosesLock : Obligations.FourthMismatchLosesLock := by
  unfold Obligations.FourthMismatchLosesLock
  intro sync s h hr hm hs
  rw [exec_lockLost h hr hm hs]
  refine ⟨fun hc => ?_, fun before bit after hbits hc hl => ?_⟩
  · have hkeeps := s.lrx.track_keeps (wordBits sync)
    have hflags : ((wordBits sync).foldl Lrx.track s.lrx).flags = s.lrx.flags := by rw [hkeeps]
    have hassembler : ((wordBits sync).foldl Lrx.track s.lrx).assembler = s.lrx.assembler := by rw [hkeeps]
    rw [State.takeSync_of_fourth hr hm hs hc, State.leaveLocked_eq]
    dsimp only
    rw [hflags, hassembler]
    exact ⟨_, rfl, rfl, State.alertsRaised_of (u := s) rfl rfl rfl rfl, rfl⟩
  · have hlost : exec .carrierLost s = .next s.loseCarrier := State.outside_of_awake h _
    exact ⟨_, _, congrArg Host.Outcome.next (State.takeSync_of_lost hr hbits hc hl), hlost,
      State.loseCarrier_of_tracked hr before bit _⟩

/-! ### The lane assembler -/

/-- The fill word takes the assembler to IDLE between messages (R170, R172). -/
theorem State.assemble_fill {s : State} {lane : LinkWord} (hv : laneValue lane = 0xFFFF)
    (ha : s.lrx.assembler = .idle ∨ s.lrx.assembler = .skip) : s.assemble lane = s.setAssembler .idle := by
  unfold State.assemble
  rcases ha with ha | ha
  · simp only [ha]
    refine (if_pos hv).trans ?_
    rw [State.setAssembler, ← ha]
  · simp only [ha]
    exact if_pos hv

/-- A word in SKIP is skipped (R172). -/
theorem State.assemble_skip {s : State} {lane : LinkWord} (hv : laneValue lane ≠ 0xFFFF)
    (ha : s.lrx.assembler = .skip) : s.assemble lane = s := by
  unfold State.assemble
  simp only [ha]
  exact if_neg hv

/-- A word in IDLE is a header (R170). -/
theorem State.assemble_header {s : State} {lane : LinkWord} (hv : laneValue lane ≠ 0xFFFF)
    (ha : s.lrx.assembler = .idle) : s.assemble lane = s.takeHeader (laneValue lane) (laneGood lane) := by
  unfold State.assemble
  simp only [ha]
  exact if_neg hv

/-- A header with good parity (R170). -/
theorem State.takeHeader_of_good (s : State) (value : Word16) :
    s.takeHeader value true = s.setAssembler
      (if 1 ≤ value.toNat % 256 ∧ value.toNat % 256 ≤ 40 then .collecting ⟨value, [], value.toNat % 256, false⟩
       else .skip) := by
  unfold State.takeHeader
  dsimp only
  rw [if_neg (by nofun)]
  by_cases hl : 1 ≤ value.toNat % 256 ∧ value.toNat % 256 ≤ 40
  · rw [if_pos hl, if_neg (by omega)]
  · rw [if_neg hl, if_pos (by omega)]

/-- A word of a message that more words follow (R171). -/
theorem State.assemble_collects {s : State} {p : PartialMessage} (ha : s.lrx.assembler = .collecting p)
    (he : 2 ≤ p.expected) (lane : LinkWord) :
    s.assemble lane = s.setAssembler (.collecting
      ⟨p.header, p.words ++ [laneValue lane], p.expected - 1, p.damaged || !laneGood lane⟩) := by
  unfold State.assemble
  simp only [ha]
  exact if_neg (show ¬ p.expected - 1 = 0 by omega)

/-- The last word of a message (R171). -/
theorem State.assemble_ends {s : State} {p : PartialMessage} (ha : s.lrx.assembler = .collecting p)
    (he : p.expected ≤ 1) (lane : LinkWord) :
    s.assemble lane
      = if p.damaged || !laneGood lane then (s.setAssembler .idle).setLaneParity
        else (s.setAssembler .idle).pushInbound ⟨(p.header >>> 8).setWidth 8, p.words ++ [laneValue lane]⟩ := by
  unfold State.assemble
  simp only [ha]
  exact if_pos (show p.expected - 1 = 0 by omega)

/-! ### The frame taken -/

/-- The receiver after a lane word, but for what a completed message does to the inbound queue (R170 to R172). -/
def State.assembled (s : State) (lane : LinkWord) : Lrx :=
  { s.lrx with
    assembler := (s.assemble lane).lrx.assembler
    flags := { s.lrx.flags with laneParity := (s.assemble lane).lrx.flags.laneParity } }

/-- A lane word that completes no message (R170 to R172). -/
theorem State.assemble_incomplete {s : State} {lane : LinkWord}
    (h : ¬ ∃ p, s.lrx.assembler = .collecting p ∧ p.expected ≤ 1 ∧ p.damaged = false ∧ laneGood lane = true) :
    s.assemble lane = { s with lrx := s.assembled lane } :=
  State.assemble_keeps fun p ha he hd hg => h ⟨p, ha, he, hd, hg⟩

/-- A lane word that completes a message (R171, R173). -/
theorem State.assemble_complete {s : State} {lane : LinkWord} {p : PartialMessage}
    (ha : s.lrx.assembler = .collecting p)
    (he : p.expected ≤ 1) (hd : p.damaged = false) (hg : laneGood lane = true) :
    s.assemble lane = ({ s with lrx := s.assembled lane } : State).pushInbound
      ⟨(p.header >>> 8).setWidth 8, p.words ++ [laneValue lane]⟩ := by
  have hends := State.assemble_ends ha he lane
  rw [if_neg (by rw [hd, hg]; nofun)] at hends
  rw [State.assembled, hends]
  rfl

/-- A frame whose sync position keeps the lock and whose bits keep the carrier: the state that its lane word meets
(R153, R155). -/
def State.framed (s : State) (sync : LinkWord) (samples : Samples) (lane : LinkWord) : State :=
  ({ s with lrx := { (wordBits sync ++ bodyBits samples lane).foldl Lrx.track s.lrx with
      mismatches := mismatchesAfter s.lrx.mismatches sync } } : State).pushFifo samples

theorem exec_frameTaken {s : State} (h : s.Awake) (hr : s.lrx.receiver = .locked) (sync : LinkWord) (samples : Samples)
    (lane : LinkWord) : exec (.frameTaken sync samples lane) s = .next (s.programFrame sync samples lane).drain := by
  simp only [exec, execFrameTaken]
  rw [State.outside_of_awake h, if_pos hr]

/-- The receiver of the state that the lane word meets (R149, R153, R155). -/
theorem State.framed_lrx (s : State) (sync : LinkWord) (samples : Samples) (lane : LinkWord) :
    let carried := (wordBits sync ++ bodyBits samples lane).foldl Lrx.track s.lrx
    (s.framed sync samples lane).lrx = { s.lrx with
      carrier := carried.carrier, lineLevel := carried.lineLevel, changed := false
      mismatches := if sync = 0x3A6C95 then 0 else s.lrx.mismatches + 1
      fifo := pushOver 4 s.lrx.fifo samples
      flags := { s.lrx.flags with
        fifoOverflow := s.lrx.flags.fifoOverflow || decide (4 ≤ s.lrx.fifo.length) } } := by
  have hne : wordBits sync ++ bodyBits samples lane ≠ [] := by
    intro hnil
    have hlength := congrArg List.length hnil
    rw [List.length_append, wordBits_length, bodyBits_length] at hlength
    cases hlength
  have hkeeps := s.lrx.track_of_ne_nil hne
  unfold State.framed
  intro carried
  rw [hkeeps]
  rfl

/-- What the frame leaves of the state beside LRX. -/
theorem State.framed_eq (s : State) (sync : LinkWord) (samples : Samples) (lane : LinkWord) :
    s.framed sync samples lane = { s with lrx := (s.framed sync samples lane).lrx } := rfl

/-- The assembler and LANE_PARITY after a lane word, by the assembler's state (R170 to R172). -/
theorem State.assembled_cases (s : State) (lane : LinkWord) :
    (laneValue lane = 0xFFFF → s.lrx.assembler = .idle ∨ s.lrx.assembler = .skip →
        (s.assembled lane).assembler = .idle ∧ (s.assembled lane).flags.laneParity = s.lrx.flags.laneParity)
      ∧ (laneValue lane ≠ 0xFFFF → s.lrx.assembler = .skip →
        (s.assembled lane).assembler = .skip ∧ (s.assembled lane).flags.laneParity = s.lrx.flags.laneParity)
      ∧ (laneValue lane ≠ 0xFFFF → s.lrx.assembler = .idle →
        (laneGood lane = false → (s.assembled lane).assembler = .skip ∧ (s.assembled lane).flags.laneParity = true)
        ∧ (laneGood lane = true → (s.assembled lane).flags.laneParity = s.lrx.flags.laneParity
            ∧ (s.assembled lane).assembler =
                (if 1 ≤ (laneValue lane).toNat % 256 ∧ (laneValue lane).toNat % 256 ≤ 40 then
                  .collecting ⟨laneValue lane, [], (laneValue lane).toNat % 256, false⟩
                 else .skip)))
      ∧ ∀ p, s.lrx.assembler = .collecting p →
        (2 ≤ p.expected →
          (s.assembled lane).assembler = .collecting
              ⟨p.header, p.words ++ [laneValue lane], p.expected - 1, p.damaged || !laneGood lane⟩
          ∧ (s.assembled lane).flags.laneParity = s.lrx.flags.laneParity)
        ∧ (p.expected = 1 → (s.assembled lane).assembler = .idle
          ∧ ((p.damaged = true ∨ laneGood lane = false) → (s.assembled lane).flags.laneParity = true)
          ∧ ((p.damaged = false ∧ laneGood lane = true) →
              (s.assembled lane).flags.laneParity = s.lrx.flags.laneParity)) := by
  have hassembler : (s.assembled lane).assembler = (s.assemble lane).lrx.assembler := rfl
  have hparity : (s.assembled lane).flags.laneParity = (s.assemble lane).lrx.flags.laneParity := rfl
  rw [hassembler, hparity]
  refine ⟨fun hv ha => ?_, fun hv ha => ?_, fun hv ha => ⟨fun hg => ?_, fun hg => ?_⟩,
    fun p ha => ⟨fun he => ?_, fun he => ?_⟩⟩
  · rw [State.assemble_fill hv ha]; exact ⟨rfl, rfl⟩
  · rw [State.assemble_skip hv ha]; exact ⟨ha, rfl⟩
  · rw [State.assemble_header hv ha, hg]; exact ⟨rfl, rfl⟩
  · rw [State.assemble_header hv ha, hg, State.takeHeader_of_good]; exact ⟨rfl, rfl⟩
  · rw [State.assemble_collects ha he]; exact ⟨rfl, rfl⟩
  · rw [State.assemble_ends ha he.le]
    cases hdamaged : p.damaged || !laneGood lane with
    | true => exact ⟨rfl, fun _ => rfl, fun ⟨hd, hg⟩ => by rw [hd, hg] at hdamaged; cases hdamaged⟩
    | false =>
      rw [Bool.or_eq_false_iff, Bool.not_eq_false'] at hdamaged
      obtain ⟨hd, hg⟩ := hdamaged
      refine ⟨rfl, fun hbad => ?_, fun _ => rfl⟩
      rcases hbad with hbad | hbad
      · cases hd.symm.trans hbad
      · cases hg.symm.trans hbad

/-- The carrier is lost after the sync position of a frame (R149, R153). -/
theorem State.takeFrame_of_lost {s : State} {lane : LinkWord} {samples : Samples} {before after : List Bool}
    {bit : Bool}
    (hr : s.lrx.receiver = .locked) (hbits : bodyBits samples lane = before ++ bit :: after)
    (hc : s.lrx.keepsCarrier before = true) (hl : ((before ++ [bit]).foldl Lrx.track s.lrx).carrier = 432) :
    s.takeFrame samples lane
      = (({ s with lrx := (before ++ [bit]).foldl Lrx.track s.lrx } : State).loseCarrier).receiveBits after := by
  have hlength : after.length < 432 := by
    have hbody := bodyBits_length samples lane
    rw [hbits, List.length_append, List.length_cons] at hbody
    omega
  rw [State.takeFrame, hbits, State.receiveBits_of_lost hr hc hl]
  exact if_neg (State.receiveBits_after_loss _ hlength)

/-- The carrier is lost within a frame: LRX leaves LOCKED for NO_CARRIER there, and the bits that follow are received
in NO_CARRIER (R149, R153). -/
theorem State.programFrame_of_lost {s : State} {sync lane : LinkWord} {samples : Samples} {before after : List Bool}
    {bit : Bool} (hr : s.lrx.receiver = .locked)
      (hbits : wordBits sync ++ bodyBits samples lane = before ++ bit :: after)
    (hc : s.lrx.keepsCarrier before = true) (hl : ((before ++ [bit]).foldl Lrx.track s.lrx).carrier = 432)
    (hs : before.length < 24 ∨ sync = 0x3A6C95 ∨ s.lrx.mismatches < 3) :
    s.programFrame sync samples lane
      = ({ s.loseCarrier with lrx := { s.loseCarrier.lrx with lineLevel := bit } } : State).receiveBits after := by
  have hsync := wordBits_length sync
  by_cases hin : before.length < 24
  · obtain ⟨middle, hfirst, hlast⟩ : ∃ middle, wordBits sync = before ++ bit :: middle
        ∧ after = middle ++ bodyBits samples lane := by
      rcases List.append_eq_append_iff.1 hbits with ⟨tail, hbefore, -⟩ | ⟨tail, hword, htail⟩
      · rw [hbefore, List.length_append] at hin
        omega
      · cases tail with
        | nil => rw [hword, List.length_append] at hsync; simp at hsync; omega
        | cons x xs =>
          rw [List.cons_append, List.cons.injEq] at htail
          obtain ⟨rfl, rfl⟩ := htail
          exact ⟨xs, hword, rfl⟩
    have hlength : middle.length < 432 := by
      rw [hfirst, List.length_append, List.length_cons] at hsync
      omega
    rw [State.programFrame, State.takeSync_of_lost hr hfirst hc hl]
    dsimp only
    rw [if_neg (State.receiveBits_after_loss _ hlength), hlast, State.receiveBits_append]
    exact congrArg (fun u : State => (u.receiveBits middle).receiveBits (bodyBits samples lane))
      (State.loseCarrier_of_tracked hr before bit _)
  · obtain ⟨middle, hfirst, hlast⟩ : ∃ middle, before = wordBits sync ++ middle
        ∧ bodyBits samples lane = middle ++ bit :: after := by
      rcases List.append_eq_append_iff.1 hbits with ⟨tail, hbefore, htail⟩ | ⟨tail, hword, htail⟩
      · exact ⟨tail, hbefore, htail⟩
      · have hnil : tail = [] := by
          rw [hword, List.length_append] at hsync
          exact List.length_eq_zero_iff.1 (by omega)
        subst hnil
        exact ⟨[], by rw [hword, List.append_nil, List.append_nil], htail.symm⟩
    rw [hfirst, Lrx.keepsCarrier_append, Bool.and_eq_true] at hc
    have hlocked : ((wordBits sync).foldl Lrx.track s.lrx).receiver = .locked := by rw [Lrx.track_keeps]; exact hr
    have htracked : (middle ++ [bit]).foldl Lrx.track ((wordBits sync).foldl Lrx.track s.lrx)
        = (before ++ [bit]).foldl Lrx.track s.lrx := by
      rw [hfirst, List.append_assoc, List.foldl_append (l := wordBits sync)]
    have hmismatches := ((wordBits sync).foldl Lrx.track s.lrx).track_mismatches
      (mismatchesAfter s.lrx.mismatches sync) (middle ++ [bit])
    rw [htracked] at hmismatches
    rw [State.programFrame, State.takeSync_of_kept hr (hs.resolve_left hin) hc.1]
    dsimp only
    rw [if_pos hlocked]
    have hkept := hc.2
    generalize (wordBits sync).foldl Lrx.track s.lrx = l at *
    generalize mismatchesAfter s.lrx.mismatches sync = count at *
    rw [State.takeFrame_of_lost (s := { s with lrx := { l with mismatches := count } }) hlocked hlast
      (by rw [Lrx.keepsCarrier_mismatches]; exact hkept) (by rw [hmismatches]; exact hl)]
    dsimp only
    rw [hmismatches]
    exact congrArg (fun u : State => u.receiveBits after) (State.loseCarrier_of_tracked hr before bit count)

/-- Settles O42: the frame that loses the lock, the frame discarded and the frame taken. -/
theorem frameIsTaken : Obligations.FrameIsTaken := by
  unfold Obligations.FrameIsTaken
  intro sync lane samples s h hr
  refine ⟨fun hs hm hc => ?_, fun before bit after hbits hc hl hs => ?_, fun hs hc => ?_⟩
  · have hsearch : (s.takeSync sync).lrx.receiver = .search := by
      rw [State.takeSync_of_fourth hr hm hs hc]; rfl
    refine ⟨_, exec_lockLost h hr hm hs, hsearch, ?_⟩
    rw [exec_frameTaken h hr, State.programFrame, if_neg (by rw [hsearch]; nofun)]
  · refine ⟨_, by rw [exec_frameTaken h hr, State.programFrame_of_lost hr hbits hc hl hs], ?_⟩
    rw [State.loseCarrier_of_locked hr]
    exact ⟨rfl, State.alertsRaised_of (u := s) rfl rfl rfl rfl⟩
  · have hframe : s.programFrame sync samples lane = (s.framed sync samples lane).assemble lane :=
      State.programFrame_of_kept hr hs hc
    have hlrx := s.framed_lrx sync samples lane
    have hassembler : (s.framed sync samples lane).lrx.assembler = s.lrx.assembler := by rw [hlrx]
    have hparity : (s.framed sync samples lane).lrx.flags.laneParity = s.lrx.flags.laneParity := by rw [hlrx]
    have heq := s.framed_eq sync samples lane
    rw [exec_frameTaken h hr, hframe]
    generalize s.framed sync samples lane = u at *
    have hfifo : (u.assembled lane).fifo = pushOver 4 s.lrx.fifo samples := congrArg Lrx.fifo hlrx
    have hoverflow : (u.assembled lane).flags.fifoOverflow
        = (s.lrx.flags.fifoOverflow || decide (4 ≤ s.lrx.fifo.length)) := congrArg
          (fun l : Lrx => l.flags.fifoOverflow) hlrx
    have hstate : ({ u with lrx := u.assembled lane } : State) = { s with lrx := u.assembled lane } := by rw [heq]
    obtain ⟨hfill, hskip, hheader, hcollect⟩ := u.assembled_cases lane
    rw [hassembler, hparity] at hfill hskip hheader hcollect
    refine ⟨u.assembled lane, ?_, fun hroom => ⟨?_, ?_⟩, fun hfull => ⟨?_, ?_⟩, hfill, hskip, hheader, hcollect,
      fun hincomplete => ?_, fun p hp he hd hg => ?_⟩
    · rw [State.assembled, hlrx]
    · rw [hfifo, pushOver_of_room samples hroom]
    · rw [hoverflow, decide_eq_false (not_le.2 hroom), Bool.or_false]
    · rw [hfifo]; rfl
    · rw [hoverflow, decide_eq_true hfull, Bool.or_true]
    · rw [State.assemble_incomplete (by rw [hassembler]; exact hincomplete), hstate]
      refine ⟨rfl, fun hw => ?_⟩
      rcases hw with hnil | htake
      · exact congrArg Host.Outcome.next (State.drain_of_empty (s := { s with lrx := u.assembled lane }) hnil)
      · exact congrArg Host.Outcome.next (State.drain_of_waiting (s := { s with lrx := u.assembled lane }) htake)
    · rw [State.assemble_complete (hassembler.trans hp) he.le hd hg, hstate]
      refine ⟨fun c hc => ?_, fun hnil htake => ?_⟩
      · rw [exec_of_messageOf hc]
        have hawake : ({ s with lrx := u.assembled lane } : State).Awake := h
        exact (State.outside_of_awake hawake fun t => t.deliver _).symm
      · have hinbound : s.mu.inbound = [] := hnil
        have htakes (m : Message) : (({ s with lrx := u.assembled lane } : State).pushInbound m).canTake = false :=
          htake
        rw [State.drain_of_waiting (htakes _), State.pushInbound]
        dsimp only
        rw [hinbound, List.length_nil, decide_eq_false (by decide), Bool.or_false]
        rfl

end Sys2Proof.Machine
end

section
/-! SUPPORT. What a command settles before it acts (R48, R166, R193). -/

namespace Sys2Proof.Machine

/-! ### Settling touches nothing outside -/

theorem State.settleAll_supply (s : State) : s.settleAll.supply = s.supply := by
  have h := outer_settleAll s
  simp only [State.outer, Prod.mk.injEq] at h
  exact h.2.1

theorem State.settleFrame_supply (s : State) : s.settleFrame.supply = s.supply := by
  have h := outer_settleFrame s
  simp only [State.outer, Prod.mk.injEq] at h
  exact h.2.1

theorem State.finishSet_supply (s : State) : s.finishSet.supply = s.supply := by
  have h := outer_finishSet s
  simp only [State.outer, Prod.mk.injEq] at h
  exact h.2.1

theorem State.settle_venueStop (s : State) : s.settle.venueStop = s.venueStop := by
  have h := outer_settle s
  simp only [State.outer, Prod.mk.injEq] at h
  obtain ⟨-, -, -, hstop, -⟩ := h
  exact hstop

/-! ### Commands from outside -/

/-- A command from outside acts on the settled part (log 4). -/
theorem exec_settles {s : State} (h : s.supply ≠ .off) {c : Instr} {f : State → State}
    (hc : ∀ u : State, exec c u = u.outside f) : exec c s = exec c s.settle := by
  rw [hc, hc, State.outside_settle h f]

theorem exec_planLockChange_settle {s : State} (h : s.supply ≠ .off) :
    exec .planLockChange s = exec .planLockChange s.settle := by
  simp only [exec, execPlanLockChange]
  rw [if_neg h, if_neg (by rw [State.settle_supply]; exact h), State.settle_twice]

theorem State.stopChange_settle {s : State} (h : s.supply ≠ .off) {asserted : Bool} (hne : s.venueStop ≠ asserted)
    (detail : Word16) : s.stopChange asserted detail = s.settle.stopChange asserted detail := by
  rw [State.stopChange, State.stopChange, State.settle_venueStop, State.settle_supply, if_neg hne, if_neg hne, if_neg h,
    if_neg h, State.settle_twice]

/-! ### The part's own steps -/

theorem exec_timeAct_eq {s : State} (h : s.supply ≠ .off) :
    (s.due.tb = some .setting → exec .timeSetAct s = .next s.finishSet.finishTime)
      ∧ (s.due.tb = some .minuteBoundary → exec .minuteBoundary s = .next s.finishSet.finishTime) :=
  ⟨fun hd => State.within_of_due h (due := s.due.tb == some .setting) (by rw [hd]; rfl) fun u => u.finishSet.finishTime,
   fun hd => State.within_of_due h (due := s.due.tb == some .minuteBoundary) (by rw [hd]; rfl) fun u =>
     u.finishSet.finishTime⟩

theorem exec_intervalEnd_eq {s : State} (h : s.supply ≠ .off) (hc : s.intervalComplete = true) :
    exec .intervalEnd s = .next s.settleAll.intervalNow := State.within_of_due h hc fun u => u.settleAll.intervalNow

/-- Of a settled part only the setting or the minute boundary is left (R48). -/
theorem State.settleAll_eq (s : State) : s.settleAll = s.settle.finishTime.settle := by
  obtain ⟨swap, hdue⟩ := s.settle.finishTime_due
  rw [State.settle_due] at hdue
  have hset : s.settle.finishTime.finishSet = s.settle.finishTime :=
    State.finishSet_of_none (by rw [hdue]) (by rw [hdue]) (by rw [hdue])
  rw [State.settleAll, State.settle.eq_1 s.settle.finishTime, hset]

theorem State.settleAll_of_none {s : State} (h : s.due.tb = none) : s.settleAll = s.settle := by
  have htb : s.settle.due.tb = none := by rw [State.settle_due]; exact h
  have hnone : s.settle.finishTime = s.settle := by simp only [State.finishTime, htb]
  rw [State.settleAll_eq, hnone, State.settle_twice]

theorem State.settleAll_complete (s : State) : s.settleAll.intervalComplete = s.intervalComplete :=
  State.intervalComplete_of_mb s.settleAll_mb

/-! ### Before the frame -/

theorem State.settleFrame_of_incomplete {s : State} (h : s.intervalComplete = false) : s.settleFrame = s.settleAll := by
  rw [State.settleFrame]
  exact if_neg (by rw [State.settleAll_complete, h]; nofun)

theorem State.settleFrame_of_complete {s : State} (h : s.intervalComplete = true) :
    s.settleFrame = s.settleAll.intervalNow.settleAll := by
  rw [State.settleFrame]
  exact if_pos (by rw [State.settleAll_complete, h])

/-- What is due before a frame ends with everything due taken. -/
theorem State.settleFrame_settled (s : State) :
    s.settleFrame.settleAll = s.settleFrame ∧ s.settleFrame.due.tb = none ∧ s.settleFrame.due.restart
      = s.due.restart := by
  cases hc : s.intervalComplete with
  | false =>
    rw [State.settleFrame_of_incomplete hc]
    exact ⟨s.settleAll_twice, by rw [State.settleAll_due], by rw [State.settleAll_due]⟩
  | true =>
    rw [State.settleFrame_of_complete hc]
    refine ⟨State.settleAll_twice _, by rw [State.settleAll_due], ?_⟩
    rw [State.settleAll_due]
    exact s.settleAll.intervalNow_due.2.trans (by rw [State.settleAll_due])

theorem State.settleFrame_twice (s : State) : s.settleFrame.settleFrame = s.settleFrame := by
  rw [State.settleFrame_of_incomplete s.settleFrame_not_complete, s.settleFrame_settled.1]

/-- A restart leaves nothing due before the frame that follows it (R166, R198). -/
theorem State.startUp_settled (s : State) (cause level : Nat) :
    (s.startUp cause level).due = Due.none ∧ (s.startUp cause level).supply ≠ .off := by
  rw [State.startUp_eq]
  refine ⟨rfl, fun hoff => ?_⟩
  have hsupply : supplyAt level = .off := hoff
  unfold supplyAt at hsupply
  split at hsupply <;> cases hsupply

theorem State.framePeriod_congr {s t : State} (h : s.beforeFrame = t.beforeFrame) : s.framePeriod = t.framePeriod := by
  rw [State.framePeriod, State.framePeriod, h]

/-- Settles O5: each command settles first what `State.settle`, `State.finishSet`, `State.settleAll` and
`State.settleFrame` take, and settling twice is settling once. -/
theorem commandsFirstSettleWhatIsDue : Obligations.CommandsFirstSettleWhatIsDue := by
  unfold Obligations.CommandsFirstSettleWhatIsDue
  intro s h
  have hsettle : s.settle.supply ≠ .off := by rw [State.settle_supply]; exact h
  refine ⟨⟨s.settle_settled, State.settle_of_settled, fun m rest hm => ?_, fun z rest h1 hz => ?_,
      fun z rest h1 h2 hz => ?_, fun h1 h2 h3 hswap => ?_⟩,
    fun c m hc => ?_, fun level bits sync samples lane => ?_, fun hv => ?_, fun hv => ?_, fun level hl => ?_,
    ⟨s.finishSet_due, fun hswap => (State.settle_of_swap hswap).symm, fun hd => ?_, fun hd => ?_⟩,
    ⟨?_, by rw [State.settleAll_due], s.settleAll_complete, State.settleAll_of_none, fun c hc => ?_, fun hc => ?_⟩,
    State.settleFrame_of_incomplete, fun hc => ⟨_, exec_intervalEnd_eq h hc, State.settleFrame_of_complete hc⟩,
    fun hr => ⟨?_, s.settleFrame_not_complete, s.settleFrame_settled.2.1⟩, fun hr => ?_⟩
  · exact ⟨_, exec_monitorStale_of_due h (by rw [hm]; exact List.mem_cons_self),
      congrArg State.finishSwap (State.finishSet_stale hm)⟩
  · exact ⟨_, exec_trip_of_due h (by rw [hz]; exact List.mem_cons_self),
      congrArg State.finishSwap (State.finishSet_trips h1 hz)⟩
  · exact ⟨_, exec_enterFree_of_due h (by rw [hz]; exact List.mem_cons_self),
      congrArg State.finishSwap (State.finishSet_frees h1 h2 hz)⟩
  · rw [exec_swap_of_due h hswap, State.settle, State.finishSet_of_none h1 h2 h3, State.finishSwap_of_due hswap]
  · exact exec_settles h (f := fun u => u.deliver m) fun u => exec_of_messageOf hc u
  · have outside {c : Instr} (f : State → State) (hc : ∀ u : State, exec c u = u.outside f) :
        exec c s = exec c s.settle := exec_settles h hc
    have completes (kind : OpKind) (f : State → Operation → State) :
        s.completeWhen kind f = s.settle.completeWhen kind f := State.outside_settle h _
    simp only [List.forall_mem_cons, List.not_mem_nil, false_imp_iff, implies_true, and_true]
    refine ⟨completes .committing _, completes .copying _, completes .recalling _, completes .checking _,
      completes .retaining _, outside State.lineChange fun _ => rfl, outside State.loseCarrier fun _ => rfl,
      outside (fun u => if u.lrx.receiver = .search then u.receiveBits bits else u) fun _ => rfl,
      outside (fun u => if u.lrx.receiver = .confirm then u.receiveBits bits else u) fun _ => rfl,
      outside (fun u => if u.lrx.receiver = .locked then (u.programFrame sync samples lane).drain else u) fun _ => rfl,
      outside (fun u => if u.lrx.receiver = .locked ∧ u.lrx.mismatches = 3 ∧ sync ≠ Config.syncWord then u.takeSync sync
        else u) fun _ => rfl,
      exec_planLockChange_settle h,
      outside (fun u => if level < Config.operatingThreshold then u.supplyTo level else u) fun _ => rfl,
      outside (fun u => if Config.operatingThreshold ≤ level then u.supplyTo level else u) fun _ => rfl,
      outside (fun u => if level < Config.retentionThreshold then u.supplyTo level else u) fun _ => rfl⟩
  · exact State.stopChange_settle h (by rw [hv]; nofun) 1
  · exact State.stopChange_settle h (by rw [hv]; nofun) 2
  · have hrise : ¬ level < Config.retentionRise := not_lt.2 hl
    simp only [exec, execPowerReset]
    rw [if_neg hrise, if_neg hrise, if_neg h, if_neg hsettle, State.settle_twice]
  · have hset := exec_timeAct_eq (s := s.finishSet) (by rw [State.finishSet_supply]; exact h)
    rw [State.finishSet_twice, State.finishSet_due] at hset
    rw [(exec_timeAct_eq h).1 hd, hset.1 hd]
  · have hset := exec_timeAct_eq (s := s.finishSet) (by rw [State.finishSet_supply]; exact h)
    rw [State.finishSet_twice, State.finishSet_due] at hset
    rw [(exec_timeAct_eq h).2 hd, hset.2 hd]
  · rw [State.Settled, State.settleAll_due]; exact ⟨rfl, rfl, rfl, rfl⟩
  · have htb : s.settle.due.tb = s.due.tb := by rw [State.settle_due]
    have hset : s.settle.finishSet = s.settle := by
      obtain ⟨hstale, htrips, hfrees, -⟩ := s.settle_settled
      exact State.finishSet_of_none hstale htrips hfrees
    obtain ⟨hsetting, hboundary⟩ := exec_timeAct_eq hsettle
    rw [hset, htb] at hsetting hboundary
    rcases hc with ⟨rfl, hd⟩ | ⟨rfl, hd⟩
    · exact ⟨_, hsetting hd, s.settleAll_eq⟩
    · exact ⟨_, hboundary hd, s.settleAll_eq⟩
  · rw [exec_intervalEnd_eq h hc, exec_intervalEnd_eq (by rw [State.settleAll_supply]; exact h)
      (by rw [State.settleAll_complete]; exact hc), State.settleAll_twice]
  · obtain ⟨-, -, hrestart⟩ := s.settleFrame_settled
    rw [exec_driveFrame h, exec_driveFrame (by rw [State.settleFrame_supply]; exact h)]
    refine congrArg Host.Outcome.next (State.framePeriod_congr ?_)
    rw [State.beforeFrame, State.beforeFrame, hrestart, hr, State.settleFrame_twice]
    rfl
  · obtain ⟨hdue, hsupply⟩ := s.startUp_settled 2 s.supplyLevel
    rw [exec_driveFrame h, exec_driveFrame hsupply]
    refine congrArg Host.Outcome.next (State.framePeriod_congr ?_)
    have hsettled : (s.startUp 2 s.supplyLevel).Settled := by rw [State.Settled, hdue]; exact ⟨rfl, rfl, rfl, rfl⟩
    rw [State.beforeFrame_of_quiet ⟨hsupply, hsettled⟩ (by rw [hdue]; rfl) (s.startUp_not_complete 2 s.supplyLevel)
      (by rw [hdue]; rfl), State.beforeFrame, if_pos hr]

end Sys2Proof.Machine
end
